-- ==== Sys2Proof/Word.lean ====
section
/-! DEFINITION. The word types of the Zarhus ZH4 and the sparse tables that hold indexed storage.
Rules: R6 to R8 (units), R38 (little-endian integers), R111 and R112 (bundle words), R256 (rows). -/

namespace Sys2Proof

/-- One byte of storage. -/
abbrev Byte := BitVec 8

/-- A 64-bit register of the generator core, a management register, or one slot word. -/
abbrev Word := BitVec 64

/-- One 32-bit cell of the register matrix (R256). -/
abbrev Cell32 := BitVec 32

/-- A register row as its 256-byte image: lane L is bits [32L+31:32L] (R256). -/
abbrev Row := BitVec 2048

/-- A compose image: word w is bits [64w+63:64w] (R112). -/
abbrev Image := BitVec 320

/-- A sparse table: pairs of key and value, keys strictly rising. -/
abbrev Tbl (β : Type) := List (Nat × β)

/-- Ceiling of a quotient of naturals; 0 when the divisor is 0. -/
abbrev ceilDiv (a b : Nat) : Nat := (a + b - 1) / b

end Sys2Proof
end

