-- ==== Sys2Proof/Config.lean ====
section
/-! DEFINITION. The free values: what the manual leaves open (R48, R72, R77, R178, R223), and the
constants an implementation fixes. Nothing can be proved of a free value. -/

namespace Sys2Proof.Config

/-- The n-th free value. A state holds the counter; each use takes the next number. -/
opaque freeValue : Nat → Nat

/-- Whether a reader finds zeros in a line discarded with this free-value counter: by counter, reader and line number
(R72). -/
opaque discardZero : Nat → Nat → Nat → Bool

/-- Theoth's release key, a 57-byte Ed448 public key (R384). -/
opaque releaseKey : List Byte

/-- Seed of the device identity key, and of the alias key derived from it and the hub image's digest (R386). -/
opaque identitySeed : List Byte
opaque aliasSeed : List Byte → List Byte → List Byte

/-- The configuration record the package was made with, an Ovwen image; the key that signs it, of which the manual says nothing;
and what its body holds: the manufacture part, the fingerprint of the release key in that part, and the least SVN of a KIND of
image (R384). -/
opaque configRecord : List Byte
opaque recordKey : List Byte
opaque manufacturePart : List Byte → List Byte
opaque keyPrint : List Byte → List Byte
opaque minSvn : List Byte → Nat → Nat

/-- Seed of the hub's device key, which signs the pin extension (R382). -/
opaque deviceSeed : List Byte

/-- VERSION of the handover structure that the running Svaken image writes, and its body by die and free-value counter
(R385). -/
opaque handoverVersion : Nat
opaque handoverBody : Nat → Nat → List Byte

/-- Where in its die's DRAM a Svaken core writes the handover structure: the manual does not place it (R385). -/
opaque handoverAt : Nat → Nat

/-- What a Svaken core writes into its die's DRAM in step 1 of a warm reset, by die and free-value counter, and where (R376). -/
opaque svakenState : Nat → Nat → List Byte
opaque svakenAt : Nat → Nat

/-- Certificate chains of slots 0 and 1: the device identity and the alias key (R386). -/
opaque certChain : Nat → List Byte

/-- Body of the hub firmware the package was made with (R386). -/
opaque hubFirmware : List Byte

/-- What the responder draws for a nonce, and its share of a key exchange, by free-value counter (R386). -/
opaque spdmNonce : Nat → List Word

/-- The messages of an SPDM session up to an answer, the request with the requester's nonce among them, by free-value counter:
the operations of the opcode table do not hold them (R386). -/
opaque spdmTranscript : Nat → List Byte

/-- The keys of an SPDM session, whose algorithms the manual does not name: those of a key exchange, by free-value counter; those
that follow when a session is established or updated; the MAC of an answer under them; and whether the MAC of a FINISH, which the
opcode table does not hold, is wrong (R5, R386). -/
opaque spdmKeys : Nat → List Word
opaque spdmNextKeys : List Word → List Word
opaque spdmMac : List Word → Nat → List Word
opaque spdmFinishBad : List Word → Nat → Bool

/-- What a responder answers in the parts of a message that the manual leaves to SPDM 1.3, by request code
and free-value counter (R5, R386). -/
opaque spdmRest : Nat → Nat → List Word

/-- Frames of a die (R1). -/
def framesPerDie : Nat := 48

/-- Entries of the emit queue (R186). -/
def queueEntries : Nat := 512

/-- Entries of the frame and die record caches (R63). -/
def rcFrame : Nat := 64
def rcDie : Nat := 4096

end Sys2Proof.Config
end

