-- ==== Sys2Proof/Syntax.lean ====
section
/-! DEFINITION. The syntax of every step of spec/opcode_table.json: operand forms, field records and
the one inductive `Instr`, one constructor per row. Rules cited at each type. -/

namespace Sys2Proof

/-! ### Names shared by the encodings -/

/-- The four slots of a bundle, in slot order (R111). -/
inductive SlotName | bead | vector | copy | control
  deriving DecidableEq, Repr

/-- Element formats: codes 0 to 11 of the object record and of TYPE (R53, R124). -/
inductive ElemType | s8 | n8 | s16 | n16 | s32 | n32 | f32 | bf16 | f16 | mx8 | mx6 | mx4
  deriving DecidableEq, Repr

/-- Rounding modes, codes 0 to 3 (R34). -/
inductive RoundMode | rne | rtz | rup | rdn
  deriving DecidableEq, Repr

/-- Orderings, codes 0 to 3 (R89, R124). -/
inductive Ordering4 | rlx | acq | rel | ar
  deriving DecidableEq, Repr

/-- Scopes, codes 0 to 3 (R87, R124). -/
inductive Scope | fr | die | pkg | sys
  deriving DecidableEq, Repr

/-- Kinds of a GFENCE, codes 1 to 4 (R136). -/
inductive FenceKind | acq | rel | ar | sc
  deriving DecidableEq, Repr

/-- Full-empty qualifiers, codes 0 to 2 (R124). -/
inductive FeMode | none | keep | clear
  deriving DecidableEq, Repr

/-- Conditions of VCMP (R281). -/
inductive CmpCond | eq | ne | lt | le
  deriving DecidableEq, Repr

/-- Operations of PLOG (R283). -/
inductive LogOp | and | or | xor | andn
  deriving DecidableEq, Repr

/-- Operations of VAMO, codes 0 to 6 (R292). -/
inductive AmoCode | swap | add | and | or | xor | min | max
  deriving DecidableEq, Repr

/-- Weight and activation formats: the codes 0, 9, 10 and 11 (R146, R158). -/
inductive BeadFmt | i8 | mx8 | mx6 | mx4
  deriving DecidableEq, Repr

/-- Clock domains of GDIV (R136). -/
inductive Domain | gen | exec | copy
  deriving DecidableEq, Repr

/-- Access sizes of GLD, GST and condition entries (R136, R192). -/
inductive AccSize | b | h | w | d
  deriving DecidableEq, Repr

/-! ### Generator core (R133 to R136, R176) -/

/-- Two-register operations of RV64I, M, Zba and Zbb on 64 bits. -/
inductive AluOp
  | add | sub | sll | slt | sltu | xor | srl | sra | or | and
  | mul | mulh | mulhsu | mulhu | div | divu | rem | remu
  | sh1add | sh2add | sh3add | andn | orn | xnor | min | minu | max | maxu | rol | ror
  deriving DecidableEq, Repr

/-- Two-register operations on 32-bit words or with a zero-extended word operand. -/
inductive AluWOp
  | addw | subw | sllw | srlw | sraw | mulw | divw | divuw | remw | remuw
  | adduw | sh1adduw | sh2adduw | sh3adduw | rolw | rorw
  deriving DecidableEq, Repr

/-- Register and 12-bit immediate operations. -/
inductive ImmOp | addi | slti | sltiu | xori | ori | andi | addiw
  deriving DecidableEq, Repr

/-- Register and shift-amount operations; the word forms use five bits of it. -/
inductive ShOp | slli | srli | srai | rori | slliw | srliw | sraiw | roriw | slliuw
  deriving DecidableEq, Repr

/-- One-register operations of Zbb. -/
inductive UnOp | clz | ctz | cpop | sextb | sexth | zexth | rev8 | orcb | clzw | ctzw | cpopw
  deriving DecidableEq, Repr

/-- Branch conditions. -/
inductive BrOp | beq | bne | blt | bge | bltu | bgeu
  deriving DecidableEq, Repr

/-- The ratified non-memory base instructions (R176). A compressed form decodes to its expansion. -/
inductive IntOp
  | lui (rd : BitVec 5) (imm : BitVec 20)
  | auipc (rd : BitVec 5) (imm : BitVec 20)
  | jal (rd : BitVec 5) (off : BitVec 20)            -- byte offset [20:1]
  | jalr (rd rs1 : BitVec 5) (imm : BitVec 12)
  | branch (c : BrOp) (rs1 rs2 : BitVec 5) (off : BitVec 12)   -- byte offset [12:1]
  | imm (op : ImmOp) (rd rs1 : BitVec 5) (imm : BitVec 12)
  | shift (op : ShOp) (rd rs1 : BitVec 5) (sh : BitVec 6)
  | alu (op : AluOp) (rd rs1 rs2 : BitVec 5)
  | aluW (op : AluWOp) (rd rs1 rs2 : BitVec 5)
  | un (op : UnOp) (rd rs1 : BitVec 5)
  deriving DecidableEq, Repr

/-- Widths of standard loads. -/
inductive LoadOp | lb | lh | lw | ld | lbu | lhu | lwu
  deriving DecidableEq, Repr

/-- Widths of standard stores. -/
inductive StoreOp | sb | sh | sw | sd
  deriving DecidableEq, Repr

/-- Standard atomic operations. -/
inductive AmoOp | swap | add | xor | and | or | min | max | minu | maxu
  deriving DecidableEq, Repr

/-- CSR instructions: write, set, clear. -/
inductive CsrOp | rw | rs | rc
  deriving DecidableEq, Repr

/-- The source of a CSR instruction: a register or a five-bit immediate. -/
inductive CsrSrc
  | reg (rs1 : BitVec 5)
  | imm (u : BitVec 5)
  deriving DecidableEq, Repr

/-! ### Slot words (R120 to R125, R236, R317) -/

/-- An operand field: LAST, DIR and IDX (R120). -/
structure Opd where
  last : Bool
  dir  : BitVec 2
  idx  : BitVec 10
  deriving DecidableEq, Repr

/-- A guard field: EN, SENSE and PRED (R123). -/
structure Guard where
  en    : Bool
  sense : Bool
  pred  : BitVec 4
  deriving DecidableEq, Repr

/-- Format VR (R124). -/
structure VR where
  g    : Guard
  d    : Opd
  a    : Opd
  b    : Opd
  rm   : RoundMode
  step : BitVec 3
  ty   : ElemType
  mod  : BitVec 2
  deriving DecidableEq, Repr

/-- Format VU (R124). -/
structure VU where
  g    : Guard
  d    : Opd
  a    : Opd
  rm   : RoundMode
  step : BitVec 3
  ty   : ElemType
  deriving DecidableEq, Repr

/-- Format VP of VCMP (R124, R281). -/
structure VP where
  g    : Guard
  p    : BitVec 4
  a    : Opd
  b    : Opd
  step : BitVec 3
  ty   : ElemType
  cond : CmpCond
  deriving DecidableEq, Repr

/-- Format VP of PLOG (R128, R283). -/
structure VPL where
  g  : Guard
  p  : BitVec 4
  pa : BitVec 4
  pb : BitVec 4
  op : LogOp
  deriving DecidableEq, Repr

/-- Format VK, reductions over groups of 2^k lanes (R124, R286). -/
structure VK where
  g    : Guard
  d    : Opd
  a    : Opd
  k    : BitVec 3
  rm   : RoundMode
  step : BitVec 3
  ty   : ElemType
  deriving DecidableEq, Repr

/-- VCVT and VDQT: format VR with the source type in B (R302, R306). -/
structure VCv where
  g    : Guard
  d    : Opd
  a    : Opd
  src  : ElemType
  rm   : RoundMode
  step : BitVec 3
  ty   : ElemType
  deriving DecidableEq, Repr

/-- VFLAGS: format VU with the selector in A (R309). -/
structure VFl where
  g   : Guard
  d   : Opd
  sel : BitVec 4
  deriving DecidableEq, Repr

/-- Format VM of the loads and stores (R124, R287). -/
structure VM where
  g     : Guard
  data  : Opd
  addr  : Opd
  pset  : BitVec 5
  ord   : Ordering4
  scope : Scope
  fe    : FeMode
  step  : BitVec 3
  ty    : ElemType
  deriving DecidableEq, Repr

/-- Format VM of VAMO (R292). -/
structure VAm where
  g     : Guard
  data  : Opd
  addr  : Opd
  pset  : BitVec 5
  ord   : Ordering4
  scope : Scope
  op    : AmoCode
  step  : BitVec 3
  ty    : ElemType
  deriving DecidableEq, Repr

/-- Format VM of VFEC (R291). -/
structure VFe where
  g    : Guard
  addr : Opd
  pset : BitVec 5
  step : BitVec 3
  deriving DecidableEq, Repr

/-- Format VM of VBREL (R274): the guard names banks. -/
structure VBr where
  g    : Guard
  step : BitVec 3
  deriving DecidableEq, Repr

/-- An array range of the bead slot: FIRST and NM1 (R238). -/
structure ARange where
  first : BitVec 6
  nm1   : BitVec 6
  deriving DecidableEq, Repr

/-- BSTEP (R236, R241). -/
structure BStep where
  d    : Opd
  bnd  : Opd
  a    : Opd
  beam : BitVec 3
  sexp : BitVec 5
  step : BitVec 3
  ovw  : Bool
  deriving DecidableEq, Repr

/-- BLDP (R236, R247). -/
structure BLdp where
  r    : ARange
  a    : Opd
  swm  : Bool
  lfmt : BeadFmt
  deriving DecidableEq, Repr

/-- The set and ordering fields of a copy word (R317). -/
structure CpW where
  sa    : BitVec 5
  se    : BitVec 5
  sb    : BitVec 5
  ord   : Ordering4
  scope : Scope
  deriving DecidableEq, Repr

/-- CRLD (R324). -/
structure CRld where
  sa   : BitVec 5
  r    : ARange
  kgm1 : BitVec 6
  swm  : Bool
  deriving DecidableEq, Repr

/-! ### Inputs of the system steps -/

/-- Who writes a management register: the host on behalf of a partition, or the Svaken core of a die (R8, R351). -/
inductive Writer
  | host (part : Nat)
  | svaken (die : Nat)
  deriving DecidableEq, Repr

/-- A write of one management register: writer, offset within the layout of R8, size in bytes, value. -/
structure MWrite where
  who    : Writer
  off    : Nat
  size   : Nat
  val    : Word
  deriving DecidableEq, Repr

/-- A fabric flit as received: header fields, port it came through and payload (R370). -/
structure Flit where
  port   : Nat
  tag    : BitVec 16
  part   : BitVec 2
  poison : Bool
  rel    : Bool
  addr   : Nat
  len    : Nat
  data   : List Byte
  /-- operation of an atomic flit; the manual lays the payload out as address and data only -/
  amo    : AmoOp
  /-- an atomic flit's operation is on FP32 values (R93) -/
  fp     : Bool := false
  deriving DecidableEq, Repr

/-- What an error reply stands for at the requester (R370, R372). -/
inductive ErrReply | permission | homeOffline
  deriving DecidableEq, Repr

/-- How the hub's verification of a firmware image ends, or that the new image rejects the handover
(R384, R385). -/
inductive VerifyResult | good | badSignature | svnTooLow | handoverRejected
  deriving DecidableEq, Repr

/-- One constructor per row of spec/opcode_table.json, in the table's order. Generator instructions
and slot operations act on the frame that the state names as moving; other steps carry what they
concern. -/
inductive Instr
  -- package and translation registers
  | coldReset
  | mgmtRegisterWrite (w : MWrite)
  | htabBaseWrite (die : Nat) (val : Word)
  | htabLenWrite (die : Nat) (val : Word)
  | rcInval (die : Nat) (val : Word)
  | rcInvalComplete (die : Nat)
  | translationRetry (slot : Option SlotName)
  | boardCfgWrite (die : Nat) (val : Word)
  | boardLockComplete (die : Nat)
  -- sequencer
  | bundleDecode
  | issueRepetition
  | subIssueStart
  | splitLevelRaise
  | splitLevelLower
  | scoreboardRelease (slot : SlotName)
  | idle (slot : SlotName)
  | loop (len : BitVec 7) (cnt : BitVec 16)
  | phase
  | phaseCommit
  | waitc (ld st cp bs : BitVec 8)
  | vjoin
  | setfmt (a w : BeadFmt)
  | fmtApply
  | rollback
  | l2FaultDelivery
  | divisorApply
  | sprintExpiry
  | cooldownEnd
  | temperatureSample (temp : Int)
  | calibrationAgeExpiry (array : Nat)
  | slateRetain (slate : Nat)
  | slateOff (slate : Nat)
  | bankRetain (bank : Nat)
  -- bead slot
  | bgrid (kgm1 ngm1 : BitVec 6)
  | bstep (f : BStep)
  | bstepWriteback
  | bldp (f : BLdp)
  | bldpStreamVector
  | reloadLastByte (array : Nat)
  | shadowBankValid (array : Nat)
  | bswap (r : ARange)
  | bcal (r : ARange)
  | bcalr (d : Opd) (array : BitVec 6) (step : BitVec 3)
  | bcalw (a : Opd) (array : BitVec 6) (step : BitVec 3)
  | bflagStale (p : BitVec 4) (clr : Bool)
  | bflagClip (p : BitVec 4) (array : BitVec 6) (clr : Bool)
  | bmodeDigital
  | bmodeAnalog
  -- vector slot
  | vadd (f : VR) | vsub (f : VR) | vmul (f : VR) | vmulh (f : VR) | vmin (f : VR) | vmax (f : VR)
  | vfma (f : VR) | vand (f : VR) | vor (f : VR) | vxor (f : VR) | vandn (f : VR)
  | vshl (f : VR) | vshr (f : VR) | vfshl (f : VR) | vfshr (f : VR)
  | vclz (f : VU) | vpopc (f : VU)
  | vcmp (f : VP) | vsel (f : VR) | plog (f : VPL) | vperm (f : VR) | vgath (f : VR)
  | vrsum (f : VK) | vrmax (f : VK) | vrmin (f : VK)
  | vrcp (f : VU) | vrsq (f : VU)
  | vcvt (f : VCv) | vqnt (f : VU) | vdqt (f : VCv) | vflags (f : VFl)
  | vld (f : VM) | vst (f : VM) | vldu (f : VM) | vstu (f : VM) | vldg (f : VM)
  | vldgDataReturn
  | vstg (f : VM)
  | storePerformed
  | vamo (f : VAm) | vfec (f : VFe) | vbrelRet (f : VBr) | vbrelOff (f : VBr)
  -- copy slot
  | cboxOs (f : CpW) | cboxSo (f : CpW) | cboxOo (f : CpW)
  | cfillO (f : CpW) | cfillS (sb se : BitVec 5)
  | cpref (sa se : BitVec 5)
  | cdisc (f : CpW)
  | caddSo (f : CpW) | caddOo (f : CpW)
  | addReduceApply
  | crld (f : CRld)
  | cctrAdd (sa : BitVec 5) (ord : Ordering4) (scope : Scope) (imm : BitVec 16)
  | copyOperationComplete (k : Nat)
  -- dispatch
  | preemptionPoint
  | imageWrite
  -- generator extension
  | kload (kd : BitVec 3) (rs1 : BitVec 5)
  | kclr (kd : BitVec 3)
  | kmov (kd ks : BitVec 3)
  | kmerge (kd ks : BitVec 3) (m : BitVec 4)
  | krd (rd : BitVec 5) (ks : BitVec 3) (w : BitVec 3)
  | gemit (ks : BitVec 3) (rs1 : BitVec 5)
  | gemitNb (rd : BitVec 5) (ks : BitVec 3) (rs1 : BitVec 5)
  | emitQueueSpace
  | geq (rd : BitVec 5)
  | kins (kd : BitVec 3) (rs1 : BitVec 5) (pos : BitVec 9) (wm1 : BitVec 6)
  | kinsi (kd : BitVec 3) (imm : BitVec 5) (pos : BitVec 9) (wm1 : BitVec 6)
  | gwaitAny (rd rs1 rs2 : BitVec 5)
  | gwaitAll (rd rs1 rs2 : BitVec 5)
  | gwaitEvaluate
  | gwaitDeadline
  | gjoin (rd rs1 : BitVec 5)
  | gleave (rd rs1 : BitVec 5)
  | gbar (rd rs1 : BitVec 5)
  | glaunch (rd rs1 : BitVec 5)
  | gexit
  | gself (rd sel : BitVec 5)
  | grec (rd rs1 : BitVec 5) (w : BitVec 5)
  | psetw (rs2 ps : BitVec 5) (w : BitVec 3)
  | psetr (rd ps : BitVec 5) (w : BitVec 3)
  | gfenceX (p s : BitVec 4)
  | gfence (k : FenceKind) (c : Scope)
  | gld (z : AccSize) (o : Ordering4) (c : Scope) (rd rs1 : BitVec 5)
  | gst (z : AccSize) (o : Ordering4) (c : Scope) (rs2 rs1 : BitVec 5)
  | gdiv (rd rs1 : BitVec 5) (dom : Domain)
  | sprint (rd rs1 : BitVec 5)
  -- generator, standard
  | standardLoad (op : LoadOp) (rd rs1 : BitVec 5) (imm : BitVec 12)
  | standardStore (op : StoreOp) (rs2 rs1 : BitVec 5) (imm : BitVec 12)
  | amo (op : AmoOp) (dbl aq rl : Bool) (rd rs1 rs2 : BitVec 5)
  | lr (dbl aq rl : Bool) (rd rs1 : BitVec 5)
  | sc (dbl aq rl : Bool) (rd rs1 rs2 : BitVec 5)
  | fence (fm pred succ : BitVec 4)
  | fenceI
  | ecall
  | ebreak
  | csrAccess (op : CsrOp) (rd : BitVec 5) (src : CsrSrc) (csr : BitVec 12)
  | integerInstruction (op : IntOp)
  | handlerResume
  | handlerAbandon
  -- scheduling
  | laCtlSubmit (who : Writer) (part slot : Nat)
  | bind (die : Nat) (ctl : Word)
  | preempt (die : Nat) (ctl : Word)
  | kill (die : Nat) (ctl : Word)
  | withdraw (die : Nat) (ctl : Word)
  | promote (frame : Nat)
  | bankFetchRetry (frame : Nat)
  | eventRingSpace (die : Nat)
  | grpRead (die : Nat) (group : BitVec 12)
  | grpCreate (die : Nat) (group : BitVec 12)
  | grpDestroy (die : Nat) (group : BitVec 12)
  -- package
  | partCfg (layout : BitVec 4)
  | scrubComplete (die : Nat)
  | warmResetSave (die : Nat)
  | warmResetDrop (die : Nat)
  | dieAdmitted (die : Nat) (good : Bool)
  | frameOosWrite (die : Nat) (val : Word)
  | liveUpdate (v : VerifyResult)
  | fwHeartbeat
  | heartbeatTimeout
  | hostLinkRetrain (width rate : Nat)
  | hostMemRead (part off len : Nat)
  | hostMemWrite (part off : Nat) (data : List Byte)
  | hostHoldTimeout
  | fabricReadRequest (f : Flit)
  | fabricReadData (f : Flit)
  | fabricWrite (f : Flit)
  | fabricWriteAck (f : Flit)
  | fabricAtomic (f : Flit)
  | fabricAtomicReply (f : Flit)
  | fabricAddReduce (f : Flit)
  | fabricErrorReply (f : Flit) (e : ErrReply)
  | fabricCredit (port : Nat)
  | fabricReplayLimit (port : Nat)
  | dramCorrectedError (die : Nat) (byte : Nat)
  | dramUncorrectableError (die : Nat) (byte : Nat)
  -- attestation
  | getVersion | getCapabilities | negotiateAlgorithms | getDigests
  | getCertificate (slot : Nat) | challenge (slot : Nat) | getMeasurements (index : Nat)
  | keyExchange | finish | spdmHeartbeat | keyUpdate | endSession
  -- later rows
  | illegalInstruction (w : BitVec 32)
  | framePowerGate (frame : Nat) (gate : Bool)
  | ideKeyProgramming (tx rx : Bool)
  | flitCrcFailure (port : Nat)
  | flitReservedType (port : Nat) (ty : BitVec 4)
  deriving DecidableEq, Repr

end Sys2Proof
end

