-- ==== Sys2Proof/Machine/State.lean ====
section
/-! DEFINITION. The state of the package as plain data, the reasons a step can stop, and the state
after reset. Every field cites the rule of spec/ that names it; fields marked MODEL are the model's own. -/

namespace Sys2Proof.Machine

/-- Byte storage: addresses strictly rising, no byte equal to the 0 that an unlisted address reads as. -/
abbrev Mem := List Host.Cell

/-- A step stops the run here. Unsafe or safe is said at each constructor. -/
inductive Fault
  /-- Raised by `step` when the agenda holds a step whose operands no encoding or register admits.
  Safe: no rule gives such a step. -/
  | illFormedTurn
  deriving DecidableEq, Repr

/-- An instruction has no meaning in the model. -/
inductive Refusal
  /-- Raised by `exec` for an instruction not modelled yet. Safe: nothing is claimed of it. -/
  | notModelled (mnemonic : String)
  deriving DecidableEq, Repr

/-! ### Bundles and the sequencer -/

/-- Emit tag (R189). -/
structure Tag where
  pc  : Word
  ser : BitVec 32
  tid : BitVec 32
  deriving DecidableEq, Repr

/-- The path masks of a GFENCE.X (R97, R136): bit 0 G, 1 V, 2 B, 3 C. -/
structure XFence where
  p : BitVec 4
  s : BitVec 4
  deriving DecidableEq, Repr

/-- A packed bundle (R111). -/
structure Bundle where
  hdr  : Word
  bead : Option Word
  vec  : Option Word
  copy : Option Word
  ctl  : Option Word
  deriving DecidableEq, Repr

/-- An emit-queue entry with the fences emitted between it and the entry before (R97, R186). -/
structure Entry where
  tag    : Tag
  bun    : Bundle
  fences : List XFence
  deriving DecidableEq, Repr

/-- A loop stack entry (R148); `cnt` and `len` as the LOOP word holds them, minus one. -/
structure LoopEnt where
  iter  : Nat
  cnt   : Nat
  len   : Nat
  start : Nat
  deriving DecidableEq, Repr

/-- A pending SETFMT and the bundles left before it applies (R158, R159). -/
structure FmtPend where
  left : Nat
  afmt : BeadFmt
  wfmt : BeadFmt
  deriving DecidableEq, Repr

/-- FMT with its pending SETFMTs, earliest first (R158). -/
structure Fmt where
  afmt : BeadFmt
  wfmt : BeadFmt
  pend : List FmtPend
  deriving DecidableEq, Repr

/-- Why the issue at the head of a slot queue waits (R151). -/
inductive Hold
  /-- a row or predicate an earlier issue has yet to read or write (R151) -/
  | row
  /-- a pop of an empty FIFO (R270) -/
  | portEmpty (k : Nat)
  /-- a push to a full FIFO (R270) -/
  | portFull (k : Nat)
  /-- a block-until-full access waits for these granules (R268, R289) -/
  | granules (g : List Nat)
  /-- the counter LD, CP or BS stands at 255 (R154) -/
  | counter (c : Nat)
  /-- the copy engine holds 32 operations (R329) -/
  | copyFull
  /-- a shadow bank that BSWAP names is FILLING (R250) -/
  | filling (arrays : List Nat)
  /-- an earlier reload of a shadow that a reload names is in progress (R214) -/
  | reloading (arrays : List Nat)
  /-- another BLDP streams (R248) -/
  | bldpBusy
  /-- a cross-path fence (R97) or ordered mode (R380) -/
  | fence
  /-- the record is MIGRATING (R71) -/
  | migrating (handle : Nat)
  /-- lines of a record or its map, in another package, have not come: handle, HOME_DIE, lines (R371) -/
  | record (handle die : Nat) (lines : List Nat)
  /-- the sub-issue has not begun (R171) -/
  | subIssue
  /-- a released store to the location has not been performed (R92) -/
  | store
  /-- a load or atomic of another package's bytes awaits its replies (R92, R99) -/
  | load
  /-- the bead issues before this one have yet to set the flags a VFLAGS reads (R309) -/
  | flags
  deriving DecidableEq, Repr

/-- A vector of a FIFO port with its scale bytes (R269). -/
structure FifoVec where
  row    : Row
  scales : BitVec 32
  /-- the row came from poisoned data (R381) -/
  bad    : Bool
  deriving DecidableEq, Repr

/-- A vector that an issue has popped while it waits for another (R245, R271): its port, and the granules a
stream with FE 2 emptied for it. -/
structure Popped where
  port   : Nat
  vec    : FifoVec
  stream : Bool
  gs     : List Nat
  deriving DecidableEq, Repr

/-- One issue in a slot queue (R150). -/
structure SlotIssue where
  /-- issue number in hand-out order (R167), the MODEL's own -/
  n     : Nat
  w     : Word
  /-- the copy word was advanced: its sets advance when it starts (R117, R314) -/
  adv   : Bool
  pos   : Nat
  rep   : Nat
  iters : List Nat
  tag   : Tag
  /-- sub-issue in which the slot begins (R171) -/
  sub   : Nat
  afmt  : BeadFmt
  wfmt  : BeadFmt
  /-- rows as they stood before another slot of this issue wrote or killed them (R151) -/
  rows  : Tbl (Option Row)
  preds : Tbl Word
  /-- captured rows that held an uncorrectable error (R260) -/
  badRows : List Nat := []
  /-- vectors popped so far (R171, R245) -/
  got   : List Popped := []
  deriving DecidableEq, Repr

/-- A slot queue and the wait of its engine (R150, R151). -/
structure SlotQ where
  q    : List SlotIssue
  hold : Option Hold
  deriving DecidableEq, Repr

/-- Level-2 classes in the order of L2_INFO.CLASS (R166, R209). -/
inductive L2Class
  | spadRange | badHandle | badRecord | permission | retired | outOfShape | residency | homeOffline
  | checksum | spadEcc | illegalBundle | undoOverflow | weightLost | deadRead | regEcc
  deriving DecidableEq, Repr

/-- Handle, offset and generation of a memory fault (R61). -/
structure MemInfo where
  handle : Nat
  off    : Nat
  gen    : Nat
  deriving DecidableEq, Repr

/-- A level-2 fault raised and not yet delivered (R167). -/
structure L2Fault where
  n     : Nat
  /-- 0 bead, 1 vector, 2 copy, 3 control or header -/
  slot  : Nat
  cls   : L2Class
  pos   : Nat
  rep   : Nat
  iters : List Nat
  tag   : Tag
  mem   : Option MemInfo
  /-- delivered unrecoverable although its class is recoverable (R166, R234) -/
  final : Bool
  deriving DecidableEq, Repr

/-- The bundle being issued (R116, R144). -/
structure CurBundle where
  ent  : Entry
  pos  : Nat
  /-- repetitions handed out so far -/
  rep  : Nat
  /-- splitting level of the bundle (R172) -/
  lvl  : Nat
  /-- the entry came from the replay buffer in a later iteration -/
  replayed : Bool
  deriving DecidableEq, Repr

/-- What the sequencer does next. -/
inductive Stage
  /-- between bundles -/
  | boundary
  /-- repetitions of the bundle in progress remain -/
  | issuing
  /-- the control word is due (R118) -/
  | control
  /-- a commit is in progress (R160) -/
  | commit
  /-- no entry is taken until a level-2 fault is resolved (R165) -/
  | faulted
  deriving DecidableEq, Repr

/-- A withheld or released vector store (R98, R342): an image of 256 bytes of which `mask` are stored. -/
structure VStore where
  n      : Nat
  handle : Nat
  gen    : Nat
  ord    : Ordering4
  scope  : Scope
  off    : Nat
  /-- device address of image byte 0 -/
  da     : Nat
  /-- device address of the first byte past a 2 MiB stripe boundary within the image, or 0 -/
  da2    : Nat
  mask   : BitVec 256
  data   : Row
  /-- HOME_DIE of the record it was translated by (R70, R371) -/
  die    : Nat := 0
  /-- issues handed out before the end of the commit that released it: its place in the path's order (R98) -/
  place  : Nat := 0
  /-- serial of its entry (R96, R97) -/
  ser    : BitVec 32 := 0
  deriving DecidableEq, Repr

/-- A withheld or released add-reduce operation (R323, R342). -/
structure CAdd where
  n      : Nat
  handle : Nat
  gen    : Nat
  ord    : Ordering4
  scope  : Scope
  /-- object offset of each element (R61) -/
  offs   : List Nat := []
  /-- device address and FP32 addend of each element -/
  elems  : List (Nat × BitVec 32)
  /-- device addresses whose addend was poisoned (R381) -/
  bad    : List Nat
  /-- HOME_DIE of the record it was translated by (R70, R371) -/
  die    : Nat := 0
  /-- issues handed out before the end of the commit that released it: its place in the path's order (R98) -/
  place  : Nat := 0
  /-- serial of its entry (R96, R97) -/
  ser    : BitVec 32 := 0
  deriving DecidableEq, Repr

/-- Work a commit released and nothing has performed yet (R98, R105). -/
inductive Released
  | store (v : VStore)
  | add (c : CAdd)
  deriving DecidableEq, Repr

/-- Where a weight bank was last loaded from (R214, R343). -/
inductive BankSrc
  | zero
  | object (handle gen : Nat) (org : List Nat)
  | ports
  deriving DecidableEq, Repr

/-- The phase-start snapshot (R163). Liveness and rows at the phase start follow from the undo log. -/
structure Snap where
  pos     : Nat
  taken   : Nat
  loops   : List LoopEnt
  rbuf    : List Entry
  cursor  : Nat
  wb      : Word
  wv      : Word
  wc      : Word
  fmt     : Fmt
  preds   : Tbl Word
  cf      : Tbl (BitVec 6)
  clip    : Tbl Word
  staleF  : Word
  digital : Bool
  ports   : Tbl Nat
  fifos   : Tbl (List FifoVec)
  origins : Tbl (List Nat)
  actives : Word
  /-- the sources of bank 0 and bank 1 of each array, ZERO when not listed -/
  srcs    : Tbl (BankSrc × BankSrc)
  /-- the formats they were loaded in -/
  fmts    : Tbl (BeadFmt × BeadFmt) := []
  /-- rows of the undo log whose content held an uncorrectable error when it was recorded (R381) -/
  badRows : List Nat := []
  kg      : Nat
  ng      : Nat
  des     : BitVec 32
  /-- issue number at the phase start, the MODEL's own -/
  issueNo : Nat
  deriving DecidableEq, Repr

/-- A fence waiting in the stream: it orders issues below `lim` before issues from `lim` on (R97). -/
structure StreamFence where
  f  : XFence
  lim : Nat
  deriving DecidableEq, Repr

/-- The stream sequencer of a frame (06). -/
structure Seq where
  pos      : Nat
  /-- retained and untaken entries; `taken` is the index of the next entry to take -/
  queue    : List Entry
  taken    : Nat
  /-- retained entries: those taken in the phase, before a rollback too (R161) -/
  kept     : Nat
  loops    : List LoopEnt
  rbuf     : List Entry
  cursor   : Nat
  cur      : Option CurBundle
  stage    : Stage
  wb       : Word
  wv       : Word
  wc       : Word
  fmt      : Fmt
  issueNo  : Nat
  /-- sub-issue that has begun, of the latest issue (R171) -/
  sub      : Nat
  qb       : SlotQ
  qv       : SlotQ
  qc       : SlotQ
  fences   : List StreamFence
  deriving DecidableEq, Repr

/-- What a phase keeps (R160 to R168). -/
structure Phase where
  undo      : List (Nat × Option Row)
  /-- the issues that recorded rows there, as the fault each would raise, and how many (R28, R162); the MODEL's own -/
  logs      : List (L2Fault × Nat) := []
  snap      : Snap
  replays   : Nat
  forced    : Bool
  stores    : List VStore
  adds      : List CAdd
  released  : List Released
  /-- a commit has begun to release its phase's work and has not ended (R154, R160, R335) -/
  closing   : Bool := false
  faults    : List L2Fault
  /-- one of them was kept in the image, or tells the loss of a bank: its rollback and delivery come before the generator
  starts (R345) -/
  bindFault : Bool := false
  /-- the reported fault whose handler has not returned: true when its phase will replay (R207) -/
  pending   : Option Bool
  /-- ordered mode (R380) -/
  ordered   : Bool
  /-- positions and addresses of SPAD_ECC faults since the last commit (R166) -/
  eccSeen   : List (Nat × Nat)
  deriving DecidableEq, Repr

/-! ### Generator core -/

/-- Handler CSRs (R208). -/
structure Handler where
  tvec    : Word
  epc     : Word
  cause   : Word
  tval    : Word
  scratch : Word
  inH     : Bool
  l2pend  : Bool
  deriving DecidableEq, Repr

/-- Level-2 report CSRs (R209). -/
structure L2Report where
  info  : Word
  iterA : Word
  iterB : Word
  tagPc : Word
  tagId : Word
  mem0  : Word
  mem1  : Word
  deriving DecidableEq, Repr

/-- An instruction that has begun and not retired. -/
inductive Stall
  /-- a blocking GEMIT on a full queue (R186) -/
  | emit (k : BitVec 3) (img : Image)
  /-- a GWAIT: block as read, deadline (none: never), entries true at the last evaluation (R191) -/
  | gwait (all : Bool) (rd : BitVec 5) (blk : List Word) (deadline : Option Nat)
  /-- a translation of a MIGRATING record (R71) -/
  | translation (handle : Nat)
  /-- a reply from another package (R370) -/
  | remote
  deriving DecidableEq, Repr

/-- The generator core of a frame (R176, R183). -/
structure Gen where
  pc       : Word
  /-- address of the next instruction in sequence, the MODEL's own -/
  npc      : Word
  x        : Tbl Word
  k        : Tbl Image
  emitSer  : BitVec 32
  qfull    : BitVec 32
  h        : Handler
  l2       : L2Report
  lastGen  : BitVec 16
  cycle    : Word
  instret  : Word
  /-- reserved line by device address (R181) -/
  resv     : Option Nat
  stall    : Option Stall
  /-- abandoned GWAITs: address and deadline, none when it never expires (R193) -/
  kept     : List (Word × Option Nat)
  /-- memory as instruction fetch sees it (R110) -/
  imem     : Mem
  /-- 32-byte words of it that are uncorrectable (R381) -/
  ibad     : List Nat := []
  /-- fences emitted since the last entry (R97) -/
  fences   : List XFence
  /-- GEXIT has asked for its commit (R196) -/
  exiting  : Bool
  /-- the generator takes no instruction: escalated or stopped (R205, R210) -/
  halted   : Bool
  deriving DecidableEq, Repr

/-- Clock divisors, sprint and splitting (R15 to R18, R171 to R175). -/
structure Clocks where
  gen     : BitVec 6
  exec    : BitVec 6
  copy    : BitVec 6
  reqGen  : Option (BitVec 6)
  reqExec : Option (BitVec 6)
  reqCopy : Option (BitVec 6)
  /-- divisors last requested (R338) -/
  askGen  : BitVec 6
  askExec : BitVec 6
  askCopy : BitVec 6
  /-- end of the sprint grant held (R175) -/
  grant   : Option Nat
  /-- qualifying cool-down ticks left (R17) -/
  cool    : Option Nat
  level   : Nat
  l1cnt   : BitVec 30
  l2cnt   : BitVec 30
  deriving DecidableEq, Repr

/-! ### Vector engine and frame SRAM -/

/-- What replies from another package have brought and its requester has not used: bytes by device address, and the
32-byte words that came with poison (R370, R381). -/
structure Wired where
  bytes : List (Nat × Byte) := []
  bad   : List Nat := []
  deriving DecidableEq, Repr

/-- What a global vector load or atomic of another package's bytes does when every reply has come (R370): the device
addresses and object offsets, image bytes or lanes in order, the thread's own stores it sees, and an atomic's operation
and operands. -/
structure Far where
  das   : List Nat
  offs  : List Nat := []
  idx   : List Nat
  own   : List (Nat × Byte)
  ord   : Ordering4
  scope : Scope
  amo   : Option (AmoCode × ElemType × List Nat)
  had   : Wired := {}
  deriving DecidableEq, Repr

/-- A global vector load or atomic whose row has not been written (R105, R290, R292). -/
structure GLoad where
  n      : Nat
  iss    : SlotIssue
  dst    : Opd
  val    : Row
  /-- bytes of the row that are written -/
  mask   : BitVec 256
  poison : Bool
  handle : Nat
  /-- generation of the record it was translated by (R66, R70) -/
  gen    : Nat := 0
  /-- replies from another package are awaited -/
  far    : Option Far := none
  deriving DecidableEq, Repr

/-- The vector engine of a frame (10, 11). `rows` lists the live rows only. -/
structure Vec where
  rows   : Tbl Row
  /-- live rows that hold an uncorrectable error (R260, R381) -/
  bad    : List Nat
  preds  : Tbl Word
  cf     : Tbl (BitVec 6)
  /-- supply state of each slate, OFF (2) when not listed (R261) -/
  slates : Tbl (BitVec 2)
  psets  : Tbl Word
  ports  : Tbl Nat
  fifos  : Tbl (List FifoVec)
  loads  : List GLoad
  deriving DecidableEq, Repr

/-- Values a granule held before writes not yet joined (R77), the MODEL's own. -/
structure ViewRec where
  gran : Nat
  /-- the view the writes were made through -/
  swz  : Bool
  olds : List (BitVec 128)
  deriving DecidableEq, Repr

/-- A line of the L1 (R80): device address of the line and its bytes. -/
structure L1Line where
  line : Nat
  data : List Byte
  /-- 32-byte words of the line whose data is uncorrectable (R381) -/
  bad  : List Nat := []
  deriving DecidableEq, Repr

/-- Frame SRAM (R74 to R80, R274 to R276); bytes keyed by 65536·bank + byte. -/
structure Sram where
  split  : Nat
  cells  : Mem
  /-- full granules, keyed by 4096·bank + granule, rising -/
  full   : List Nat
  live   : BitVec 64
  retain : BitVec 64
  bad    : List Nat
  views  : List ViewRec
  l1     : List L1Line
  deriving DecidableEq, Repr

/-! ### Bead arrays -/

/-- One weight bank (R211 to R215, R232). -/
structure Bank where
  /-- cell bytes, row r and rod n at 64·r + n -/
  w       : Tbl Byte
  /-- scales at 256·set + 64·segment + rod; 0x7F when not listed -/
  scales  : Tbl Byte
  chk     : Tbl Int
  sigma   : Tbl Nat
  /-- segments whose checksum no step can match (R381) -/
  unmatch : List Nat
  filling : Bool
  /-- while FILLING: every byte has arrived; the checksum has been computed -/
  got     : Bool
  summed  : Bool
  /-- swap mode COMMIT -/
  swm     : Bool
  src     : BankSrc
  fmt     : BeadFmt
  /-- a reload of the open phase has written it (R216) -/
  touched : Bool
  deriving DecidableEq, Repr

/-- One bead array (R214, R223, R235). -/
structure BArr where
  b0      : Bank
  b1      : Bank
  /-- bank 1 is active -/
  act     : Bool
  /-- offset of the converter of rod n, segment j at 64·j + n -/
  cal     : Tbl Int
  /-- the offsets the last calibration measured: those of this frame's converters (R223, R252) -/
  meas    : Tbl Int
  calTemp : Int
  calTime : Nat
  /-- stale until the next calibration (R224) -/
  calStale : Bool
  /-- a measured mean was out of range: stale until the next BCAL (R223) -/
  calOut   : Bool
  clip    : Word
  staleF  : Bool
  /-- the open phase exchanged the banks (R216) -/
  swapped : Bool
  deriving DecidableEq, Repr

/-- A BLDP that streams (R247, R248). -/
structure BldpStream where
  n     : Nat
  iss   : SlotIssue
  /-- arrays still to load, the current one first -/
  todo  : List Nat
  vec   : Nat
  port  : Nat
  swm   : Bool
  lfmt  : BeadFmt
  deriving DecidableEq, Repr

/-- Rows a BSTEP will write (R246): row, lane and cell, in the order they land. -/
structure BWrite where
  n     : Nat
  cells : List (Nat × Nat × Cell32)
  deriving DecidableEq, Repr

/-- The bead arrays of a frame (08, 09). -/
structure Bead where
  arrays   : Tbl BArr
  kg       : Nat
  ng       : Nat
  digital  : Bool
  chkArray : Nat
  chkSeg   : Nat
  chkValid : Bool
  chkCnt   : Nat
  temp     : Int
  bldp     : Option BldpStream
  bwb      : List BWrite
  deriving DecidableEq, Repr

/-! ### Copy engine -/

/-- A byte a copy operation reads or writes. -/
inductive CLoc
  /-- device address, and offset in its object -/
  | glob (da off : Nat)
  /-- scratchpad address, view in bit 22 -/
  | sram (fa : Nat)
  deriving DecidableEq, Repr

/-- What a held copy operation does. -/
inductive CKind
  | box | fill | pref
  | disc (lines : List Nat)
  | add
  /-- arrays to load, K-span, first array, origin, and the record held (R70) -/
  | crld (todo : List Nat) (kg first : Nat) (org : List Nat) (words ext : List Word)
  | ctr (addr : Nat) (imm : BitVec 16)
  deriving DecidableEq, Repr

/-- A copy operation held by the engine (R329). -/
structure COp where
  n      : Nat
  kind   : CKind
  src    : List CLoc
  dst    : List CLoc
  /-- bytes read or to write, once the reads have returned -/
  vals   : List Byte
  /-- source bytes that were poisoned -/
  badv   : List Nat
  got    : Bool
  ord    : Ordering4
  scope  : Scope
  /-- handles translated for the operation and their generations (R65, R167) -/
  handleA : Nat
  handleB : Nat
  genA   : Nat
  genB   : Nat
  /-- HOME_DIE of the two records (R70, R371) -/
  dieA   : Nat := 0
  dieB   : Nat := 0
  issue  : SlotIssue
  /-- bytes of one unit of the destination: an element, or a block (R315) -/
  unit   : Nat := 0
  /-- units already written, while the operation goes on (R104, R164) -/
  put    : List Nat := []
  /-- what replies have brought of the bytes it reads -/
  had    : Wired := {}
  deriving DecidableEq, Repr

/-- The copy engine of a frame (12). -/
structure Cpe where
  ops     : List COp
  /-- current origins: 14 coordinates of a kind-8 set, BASE of a kind-10 set (R314) -/
  origins : Tbl (List Nat)
  des     : BitVec 32
  pend    : BitVec 32
  deriving DecidableEq, Repr

/-! ### Dispatch -/

/-- A bind record (R355). -/
structure BindRec where
  image   : Bool
  prio    : BitVec 3
  split   : Nat
  tid     : BitVec 32
  tcb     : Nat
  area    : Nat
  areaLen : Nat
  deriving DecidableEq, Repr

/-- Why a running thread is to be stopped (R205, R358, R361, R376). -/
inductive StopWhy
  | preempt
  | escalate
  | kill
  | resetSave
  deriving DecidableEq, Repr

/-- A request to stop the running thread and whether its point has landed (R169). -/
structure StopReq where
  why    : StopWhy
  landed : Bool
  deriving DecidableEq, Repr

/-- What the FAULT section of an image will hold (R342). -/
inductive ImgFault
  /-- an escalated level-1 fault -/
  | l1 (cause tval epc : Word)
  /-- an escalated level-2 fault; its report stands in the L2 registers -/
  | l2
  deriving DecidableEq, Repr

/-- Dispatch state of a frame (14). -/
structure Disp where
  running : Option BindRec
  standby : Option BindRec
  req     : Option StopReq
  fault   : Option ImgFault
  /-- banks of a bound image still to fetch: array, bank (R345) -/
  fetch   : List (Nat × Bool)
  /-- banks whose hold has been posted -/
  posted  : List (Nat × Bool)
  gated   : Bool
  /-- events of the frame that wait for ring space and hold it (R362) -/
  evHeld  : Nat
  deriving DecidableEq, Repr

/-- A record as a cache holds it (R63): 16 record words, 12 extension words, map words read. -/
structure RcEnt where
  handle : Nat
  words  : List Word
  ext    : List Word
  map    : Tbl Word
  deriving DecidableEq, Repr

/-- A translation that an access to another package goes on with until its replies have come (R70): the address and
length, whether it fetches code, the bytes' device addresses, and the record's generation and HOME_DIE. -/
structure HeldXl where
  addr : Word
  len  : Nat
  code : Bool
  das  : List Nat
  gen  : Nat
  die  : Nat
  deriving DecidableEq, Repr

/-- An answered line of a record, a residency map or a bank in another package: 0 come, else the class of the refusal,
and its bytes (R81, R371, R372, R381). -/
structure LineRes where
  code : Nat
  data : List Byte := []
  bad  : Bool := false
  deriving DecidableEq, Repr

/-- How far accesses of an engine path come after a generator store that no fence has put before them (R96, R97): none of
them, those of entries from this serial on, all of them. -/
inductive Lag
  | behind
  | since (ser : BitVec 32)
  | caught
  deriving DecidableEq, Repr

/-- A byte that a generator store wrote over, as long as an access of the V or C path may still come before the store (R96):
the value before it, and how the two paths stand. -/
structure Late where
  addr : Nat
  old  : Byte
  v    : Lag
  c    : Lag
  deriving DecidableEq, Repr

/-- A generator instruction's requests to another package (R370): the instruction, lines whose data has come or
addresses whose write or atomic is done, a refusal, and the translations held. -/
structure Remote where
  pc   : Word
  ret  : Word
  got  : List Nat
  err  : Option L2Class
  held : List HeldXl := []
  had  : Wired := {}
  /-- it awaits lines of a record or its map (R210, R371) -/
  asks : Bool := false
  /-- the MIGRATING handle that an entry of a GWAIT waits for (R71, R191) -/
  migr : Option Nat := none
  /-- the launch record that a GLAUNCH has read and checked, while the addition at DONE is on its way (R350) -/
  launch : List Word := []
  deriving DecidableEq, Repr

/-- One frame. -/
structure Frame where
  gen  : Gen
  clk  : Clocks
  seq  : Seq
  ph   : Phase
  vec  : Vec
  sram : Sram
  bead : Bead
  cpe  : Cpe
  disp : Disp
  rc   : List RcEnt
  /-- storage as the thread's last acquire at die scope or wider found it, and its own stores since: what its
  next FENCE.I lets it fetch (R110) -/
  seen : Mem
  /-- 32-byte words of it that are uncorrectable (R381) -/
  seenBad : List Nat := []
  /-- records that stalled translations read again at the completion of an invalidation (R65, R71), for their next use -/
  reread : List RcEnt
  /-- requests to another package of the instruction at pc -/
  rem  : Option Remote
  /-- lines of records, residency maps and banks in another package that have been answered (R81, R371, R372) -/
  recGot : Tbl LineRes := []
  /-- lines of another package's code that the fetch view holds, since the last FENCE.I (R110) -/
  codeHad : List Nat := []
  /-- bytes of other packages written in this package that a fetch may not return yet: address, and whether the next
  FENCE.I lets it (R110) -/
  codeNew : List (Nat × Bool) := []
  /-- generator stores that accesses of the V and C paths may still precede, in coherence order (R96) -/
  late : List Late := []
  deriving DecidableEq, Repr

/-- What a context image's layout has no field for, of the last image written for a thread (R144, R338 to R343): the
bytes of its small sections, by which the image is known, and the frame as it was written. MODEL (assumption 19). -/
structure Carried where
  /-- partition: a TID is unique within one (R197) -/
  part  : Nat
  tid   : BitVec 32
  key   : List Byte
  frame : Frame
  deriving DecidableEq, Repr

/-! ### Dies, hub and package -/

/-- STATE of DIE_STAT (R365). -/
inductive DieState
  | absent | admitted | quiescing | offline | retraining | scrubbing | failed
  deriving DecidableEq, Repr

/-- An event record not yet written (R362). -/
structure Event where
  kind   : Nat
  die    : Nat
  frame  : Nat
  tid    : BitVec 32
  detail : Word
  deriving DecidableEq, Repr

/-- A launch record in a queue, with the threads already taken from it (R348, R352). -/
structure LaunchRec where
  w     : List Word
  taken : Nat
  deriving DecidableEq, Repr

/-- The handover structure a Svaken core writes in its die's DRAM in a live update (R385): its header's MAGIC, VERSION,
LENGTH and digest, and its body, from which the cores start. -/
structure Handover where
  magic   : Nat := 0x4856
  version : Nat
  length  : Nat
  digest  : List Byte
  body    : List Byte
  deriving DecidableEq, Repr

/-- One die (03, 14, 15). -/
structure Die where
  st        : DieState
  part      : Nat
  htabBase  : Word
  htabLen   : Word
  /-- the table in use for translations (R52) -/
  useBase   : Word
  useLen    : Word
  rcInval   : Word
  rc        : List RcEnt
  bindRec   : List Word
  bindCtl   : Word
  evqBase   : Word
  /-- events waiting for ring space with the frame held (R362) -/
  evWait    : List Event
  grpCmd    : Word
  grpData   : List Word
  queues    : Tbl (List LaunchRec)
  lockWays  : Nat
  /-- ways asked for by a lock change in progress (R84) -/
  lockNew   : Option Nat
  pinWay    : Bool
  retired   : List Nat
  pinned    : List Nat
  ceCnt     : Nat
  ueCnt     : Nat
  /-- corrected errors by sector with their times (R382) -/
  ceHist    : List (Nat × Nat)
  oos       : BitVec 48
  temp      : Int
  /-- exits and kills held until this die returns: TCB, killed, frame (R379) -/
  heldExit  : List (Nat × Bool × Nat)
  handover  : Option Handover
  deriving DecidableEq, Repr

/-- An entry of a group table (R363). -/
structure Group where
  epoch   : BitVec 32
  members : BitVec 24
  arrived : BitVec 24
  lateM   : BitVec 24
  lateA   : BitVec 24
  deriving DecidableEq, Repr

/-- A change the hub carries out (R373, R376, R385). -/
inductive HubOp
  | part (layout : Nat) (todo : List Nat)
  /-- step of R376, and the fabric ports the die had trained -/
  | reset (die : Nat) (drop : Bool) (step ports : Nat)
  | update (step : Nat)
  deriving DecidableEq, Repr

/-- A host access held at the hub (R377): partition, offset, length, bytes of a write. -/
structure HostHeld where
  part : Nat
  off  : Nat
  len  : Nat
  data : Option (List Byte)
  deriving DecidableEq, Repr

/-- A flit sent or awaited on the fabric (R370). -/
structure FlitOut where
  port  : Nat
  ty    : BitVec 4
  tag   : BitVec 16
  part  : BitVec 2
  rel   : Bool
  poison : Bool
  addr  : Nat
  data  : List Byte
  /-- bytes asked for by a read request -/
  len   : Nat := 0
  /-- operation of an atomic, and whether on FP32 values (R93) -/
  amo   : AmoOp := .add
  fp    : Bool := false
  deriving DecidableEq, Repr

/-- A request on the fabric whose reply has not come: the frame, issue and kind of work it belongs to
(0 store, 1 add-reduce, 2 copy reads, 3 copy writes, 4 generator read, 5 generator write, 6 generator atomic,
7 vector load, 8 vector atomic, 9 code, 10 completion word, 11 record or residency map, 12 bank fetch). -/
structure Outstanding where
  frame : Nat
  n     : Nat
  work  : Nat
  flit  : FlitOut
  /-- peer entry it goes through (R371) -/
  entry : Nat := 0
  /-- handle whose record it was translated by, 0 for none (R63, R65) -/
  handle : Nat := 0
  deriving DecidableEq, Repr

/-- An answer the host received (R107, R367, R369, R377): data, poison, or an unsupported-request error. -/
structure HostReply where
  data   : List Byte
  poison : Bool
  unsup  : Bool
  deriving DecidableEq, Repr

/-- Steps of an SPDM session (R386). -/
inductive SpdmState
  | none | version | capabilities | negotiated | keyExchanged | established
  deriving DecidableEq, Repr

/-- The hub (00, 01, 14, 15). -/
structure Hub where
  variant   : Nat
  stepping  : BitVec 8
  layout    : Nat
  /-- LAYOUT of the configuration record (R373) -/
  recLayout : Nat
  partCtl   : Word
  dreset    : Word
  op        : Option HubOp
  retrains  : Nat
  width     : Nat
  rate      : Nat
  linkUp    : Bool
  ideTx     : Bool
  ideRx     : Bool
  ideNeed   : Bool
  trained   : Word
  fwStatus  : Nat
  fwActive  : Bool
  fwSvn     : BitVec 32
  /-- the two Svaken image slots (R385) -/
  flashA    : Mem
  flashB    : Mem
  /-- a hub firmware image that the next cold reset is to verify, and the body of the firmware that runs, none as made
  (R384, R385) -/
  hubNext   : Mem := []
  hubBody   : Option (List Byte) := none
  /-- the configuration record, and its pin extension, empty while no sector is pinned: Ovwen images (R382, R384) -/
  record    : List Byte := Config.configRecord
  pinExt    : List Byte := []
  /-- cores whose heartbeat has not come (R385) -/
  fwWait    : List Nat
  /-- launch words and LA_CTL, keyed by aperture offset from 0x10000 divided by 8 (R351) -/
  apert     : Tbl Word
  /-- peer tables, keyed by 512·partition + word (R371) -/
  peers     : Tbl Word
  /-- export windows, keyed by 512·partition + word (R372) -/
  exports   : Tbl Word
  spdm      : SpdmState
  /-- answers to SPDM requests: code and body words, newest last -/
  spdmOut   : List (Nat × List Word)
  /-- keys of the session, none before a key exchange (R5, R386) -/
  spdmKeys  : List Word := []
  deriving DecidableEq, Repr

/-- Traffic and held work at the edges of the package. -/
structure Edge where
  hostHeld  : List HostHeld
  hostOut   : List HostReply
  /-- host memory the IOMMU refuses: base and length (R368) -/
  iommuDeny : List (Nat × Nat)
  flitsOut  : List FlitOut
  /-- requests awaiting an answer -/
  flitsWait : List Outstanding
  /-- requests of committed work that wait for a port of their peer to train (R160, R370) -/
  parked    : List Outstanding := []
  /-- answers to atomics on completion words in other packages that nothing has taken yet: 0 made, else the class of the
  refusal; keyed by 2·TCB for the end of a thread, by 2·(4·partition + slot) + 1 for the launch aperture (R350, R372, R388) -/
  doneRes   : Tbl Nat := []
  nextTag   : Nat
  replays   : Tbl Nat
  /-- the last 64 flits sent on each port, newest last (R370) -/
  sent      : Tbl (List FlitOut)
  credits   : Tbl Nat
  discarded : Nat
  /-- package draw and sprint draw in watts (R17, R175) -/
  draw      : Nat
  sprintW   : Nat
  /-- draw of each partition in watts (R27) -/
  partW     : Tbl Nat
  /-- draw and headroom of a frame's current controller, percent of its share (R172) -/
  loadPct   : Tbl Nat
  deriving DecidableEq, Repr

/-- What the agenda can hold: which agent moves, or an input. -/
inductive Turn
  /-- the frame moves by the fixed arbitration -/
  | auto (fr : Nat)
  /-- the frame's generator core moves -/
  | gen (fr : Nat)
  /-- this step happens on this frame -/
  | event (fr : Nat) (i : Instr)
  /-- the head of the engine's slot queue executes -/
  | slot (fr : Nat) (sl : SlotName)
  /-- the L1 of a frame loses a line (R80) -/
  | l1Evict (fr line : Nat)
  /-- a frame's or a die's record cache loses an entry (R63) -/
  | rcEvict (fr handle : Nat)
  | rcEvictDie (die handle : Nat)
  /-- a row or granule takes an uncorrectable error (R260, R381) -/
  | rowError (fr row : Nat)
  | granError (fr gran : Nat)
  /-- a bit of a weight cell changes, unseen but by the checksum rod (R215) -/
  | cellError (fr array : Nat) (one : Bool) (cell bit : Nat)
  /-- one unit of the writes of held copy operation k is performed before the rest (R104, R164) -/
  | copyPart (fr k i : Nat)
  /-- draws as the package controller measures them -/
  | draws (draw sprintW : Nat) (partW : Tbl Nat)
  | load (fr pct : Nat)
  /-- a die's temperature changes -/
  | temperature (die : Nat) (t : Int)
  /-- a fabric port trains or drops -/
  | port (p : Nat) (up : Bool)
  /-- the host port trains -/
  | hostUp
  /-- a hub firmware image is laid out for the next cold reset; how it comes to the hub is not stated (R385) -/
  | hubImage (m : Mem)
  | iommu (deny : List (Nat × Nat))
  deriving DecidableEq, Repr

/-- The whole package. -/
structure State where
  /-- MODEL: the agenda; when it is empty the frame `cur` moves by the fixed arbitration -/
  turns   : List Turn
  /-- MODEL: the frame that moves, 48·die + frame -/
  cur     : Nat
  /-- MODEL: the next free value -/
  freeCtr : Nat
  /-- ticks since cold reset (R178) -/
  time    : Nat
  mem     : Mem
  /-- poisoned 32-byte words, address divided by 32 (R381) -/
  poison  : List Nat
  /-- discarded 128-byte lines not written since, address divided by 128, each with the free-value counters at its
  discards, by which each reader finds zeros or what was there (R72) -/
  discarded : Tbl (List Nat)
  /-- MODEL: granules saved in context images with an uncorrectable error, device address divided by 16 (R342) -/
  savedBad : List Nat
  /-- MODEL: of each thread, what its last context image has no field for (assumption 19) -/
  carried : List Carried
  /-- MODEL: control block and TID of the threads whose launch record a first bind has counted (R352) -/
  counted : List (Nat × BitVec 32)
  frames  : Tbl Frame
  dies    : Tbl Die
  groups  : Tbl Group
  hub     : Hub
  edge    : Edge
  deriving DecidableEq, Repr

/-! ### Reset -/

def Fmt.fresh : Fmt := { afmt := .i8, wfmt := .i8, pend := [] }

def SlotQ.fresh : SlotQ := { q := [], hold := none }

def Snap.fresh : Snap :=
  { pos := 0, taken := 0, loops := [], rbuf := [], cursor := 0, wb := 0, wv := 0, wc := 0,
    fmt := .fresh, preds := [], cf := [], clip := [], staleF := 0, digital := false, ports := [],
    fifos := [], origins := [], actives := 0, srcs := [], kg := 1, ng := 1, des := 0,
    issueNo := 0 }

def Seq.fresh : Seq :=
  { pos := 0, queue := [], taken := 0, kept := 0, loops := [], rbuf := [], cursor := 0, cur := none,
    stage := .boundary, wb := 0, wv := 0, wc := 0, fmt := .fresh, issueNo := 0, sub := 0,
    qb := .fresh, qv := .fresh, qc := .fresh, fences := [] }

def Phase.fresh : Phase :=
  { undo := [], snap := .fresh, replays := 0, forced := false,
    stores := [], adds := [], released := [], faults := [], pending := none, ordered := false,
    eccSeen := [] }

def Handler.fresh : Handler :=
  { tvec := 0, epc := 0, cause := 0, tval := 0, scratch := 0, inH := false, l2pend := false }

def L2Report.fresh : L2Report :=
  { info := 0, iterA := 0, iterB := 0, tagPc := 0, tagId := 0, mem0 := 0, mem1 := 0 }

/-- Registers of a fresh entry are zero (R183, R356). -/
def Gen.fresh : Gen :=
  { pc := 0, npc := 0, x := [], k := [], emitSer := 0, qfull := 0, h := .fresh, l2 := .fresh,
    lastGen := 0, cycle := 0, instret := 0, resv := none, stall := none, kept := [], imem := [],
    fences := [], exiting := false, halted := false }

/-- Reset divisors (R15). -/
def Clocks.fresh : Clocks :=
  { gen := 3, exec := 4, copy := 4, reqGen := none, reqExec := none, reqCopy := none,
    askGen := 3, askExec := 4, askCopy := 4, grant := none, cool := none, level := 0,
    l1cnt := 0, l2cnt := 0 }

/-- All rows dead, slates OFF, predicates zero (R263, R264, R312). -/
def Vec.fresh : Vec :=
  { rows := [], bad := [], preds := [], cf := [], slates := [], psets := [], ports := [],
    fifos := [], loads := [] }

/-- SPLIT 12, every bank dead and every granule empty (R74, R78, R275). -/
def Sram.fresh : Sram :=
  { split := 12, cells := [], full := [], live := 0, retain := 0, bad := [], views := [], l1 := [] }

/-- A fresh bank (R215). -/
def Bank.fresh : Bank :=
  { w := [], scales := [], chk := [], sigma := [], unmatch := [], filling := false, got := false,
    summed := false, swm := false,
    src := .zero, fmt := .i8, touched := false }

def BArr.fresh : BArr :=
  { b0 := .fresh, b1 := .fresh, act := false, cal := [], meas := [], calTemp := 0,
    calTime := 0, calStale := false, calOut := false, clip := 0, staleF := false, swapped := false }

def Bead.fresh : Bead :=
  { arrays := [], kg := 1, ng := 1, digital := false, chkArray := 0, chkSeg := 0, chkValid := false,
    chkCnt := 0, temp := 0, bldp := none, bwb := [] }

def Cpe.fresh : Cpe := { ops := [], origins := [], des := 0, pend := 0 }

def Disp.fresh : Disp :=
  { running := none, standby := none, req := none, fault := none, fetch := [],
    posted := [], gated := false, evHeld := 0 }

def Frame.fresh : Frame :=
  { gen := .fresh, clk := .fresh, seq := .fresh, ph := .fresh, vec := .fresh, sram := .fresh,
    bead := .fresh, cpe := .fresh, disp := .fresh, rc := [], seen := [], reread := [], rem := none }

def Die.fresh : Die :=
  { st := .admitted, part := 0, htabBase := 0, htabLen := 0, useBase := 0, useLen := 0, rcInval := 0,
    rc := [], bindRec := [0, 0, 0, 0], bindCtl := 0, evqBase := 0, evWait := [], grpCmd := 0,
    grpData := [0, 0, 0], queues := [], lockWays := 0, lockNew := none, pinWay := false,
    retired := [], pinned := [], ceCnt := 0, ueCnt := 0, ceHist := [], oos := 0, temp := 0,
    heldExit := [], handover := none }

def Hub.fresh : Hub :=
  { variant := 1, stepping := 0, layout := 0, recLayout := 0, partCtl := 0, dreset := 0, op := none, retrains := 0,
    width := 0, rate := 0, linkUp := false, ideTx := false, ideRx := false, ideNeed := false,
    trained := 0, fwStatus := 0, fwActive := false, fwSvn := 0, flashA := [], flashB := [], fwWait := [], apert := [],
    peers := [], exports := [], spdm := .none, spdmOut := [] }

def Edge.fresh : Edge :=
  { hostHeld := [], hostOut := [], iommuDeny := [], flitsOut := [], flitsWait := [], nextTag := 0, replays := [], sent := [],
    credits := [], discarded := 0, draw := 0, sprintW := 0, partW := [], loadPct := [] }

/-- The package after cold reset: a whole ZH4-X in one partition, nothing bound. The values that come
from the configuration record are the model's (assumption 3); registers without a reset value are 0
(assumption 2). A frame or die not listed stands as at reset. -/
def State.reset : State :=
  { turns := [], cur := 0, freeCtr := 0, time := 0, mem := [], poison := [], discarded := [], savedBad := [], carried := [], counted := [], frames := [], dies := [],
    groups := [], hub := .fresh, edge := .fresh }

end Sys2Proof.Machine
end

