-- ==== Sys2Proof/Machine/Tbl.lean ====
section
/-! DEFINITION. Sparse tables and byte storage in canonical form, bit fields and byte order. -/

namespace Sys2Proof.Machine

/-! ### Tables -/

/-- The value of key `k`. -/
def tget {β : Type} : Tbl β → Nat → Option β
  | [], _ => none
  | (i, v) :: r, k => if i = k then some v else tget r k

/-- The value of key `k`, or `d` when the key is not listed. -/
def tgetD {β : Type} (t : Tbl β) (k : Nat) (d : β) : β := (tget t k).getD d

/-- Set key `k`; keys stay strictly rising. -/
def tset {β : Type} : Tbl β → Nat → β → Tbl β
  | [], k, v => [(k, v)]
  | (i, w) :: r, k, v =>
    if k < i then (k, v) :: (i, w) :: r
    else if i = k then (k, v) :: r
    else (i, w) :: tset r k v

/-- Remove key `k`. -/
def terase {β : Type} : Tbl β → Nat → Tbl β
  | [], _ => []
  | (i, v) :: r, k => if i = k then r else (i, v) :: terase r k

/-- Set key `k`, listing it only when its value is not the default. -/
def tput {β : Type} [DecidableEq β] (d : β) (t : Tbl β) (k : Nat) (v : β) : Tbl β :=
  if v = d then terase t k else tset t k v

/-- Keys strictly rising from `lo`. -/
def tblFrom {β : Type} : Nat → Tbl β → Bool
  | _, [] => true
  | lo, (i, _) :: r => decide (lo ≤ i) && tblFrom (i + 1) r

/-! ### Byte storage -/

/-- The byte at an address; a byte nothing has written reads 0 (assumption 1). -/
def memGet (m : Mem) (a : Nat) : Byte := tgetD m a 0

/-- Write one byte. -/
def memSet (m : Mem) (a : Nat) (b : Byte) : Mem := tput 0 m a b

/-- `n` bytes from `a` up. -/
def memRead (m : Mem) (a : Nat) : Nat → List Byte
  | 0 => []
  | n + 1 => memGet m a :: memRead m (a + 1) n

/-- Write bytes from `a` up. -/
def memWrite (m : Mem) (a : Nat) : List Byte → Mem
  | [] => m
  | b :: bs => memWrite (memSet m a b) (a + 1) bs

/-- Write addressed bytes in list order. -/
def memPut (m : Mem) : List (Nat × Byte) → Mem
  | [] => m
  | (a, b) :: r => memPut (memSet m a b) r

/-- Remove the bytes of an address range. -/
def memDrop (m : Mem) (lo n : Nat) : Mem := m.filter fun c => !(decide (lo ≤ c.1) && decide (c.1 < lo + n))

/-- The canonical form: addresses strictly rising, no byte equal to 0. -/
def Memory.wf (m : Mem) : Bool := tblFrom 0 m && m.all fun c => decide (c.2 ≠ 0)

/-! ### Bit fields and byte order -/

/-- Bits [lo+len-1:lo] as a number. -/
def fld {n : Nat} (w : BitVec n) (lo len : Nat) : Nat := w.toNat / 2 ^ lo % 2 ^ len

/-- Bit `i`. -/
def fbit {n : Nat} (w : BitVec n) (i : Nat) : Bool := w.getLsbD i

/-- A word with `v` in bits [lo+len-1:lo] of `w`. -/
def fput {n : Nat} (w : BitVec n) (lo len v : Nat) : BitVec n :=
  BitVec.ofNat n (w.toNat % 2 ^ lo + v % 2 ^ len * 2 ^ lo + w.toNat / 2 ^ (lo + len) * 2 ^ (lo + len))

/-- A word from (low bit, width, value) fields. -/
def mk64 : List (Nat × Nat × Nat) → Word
  | [] => 0
  | (lo, len, v) :: r => fput (mk64 r) lo len v

/-- Little-endian value of bytes. -/
def leNat : List Byte → Nat
  | [] => 0
  | b :: bs => b.toNat + 256 * leNat bs

/-- `n` little-endian bytes of a number. -/
def leOf (v : Nat) : Nat → List Byte
  | 0 => []
  | n + 1 => BitVec.ofNat 8 v :: leOf (v / 256) n

/-- The eight bytes of a word. -/
def wordBytes (w : Word) : List Byte := leOf w.toNat 8

/-- The word of eight bytes. -/
def bytesWord (bs : List Byte) : Word := BitVec.ofNat 64 (leNat bs)

/-- Words of a byte list, eight bytes each. -/
def wordsOf : Nat → List Byte → List Word
  | 0, _ => []
  | n + 1, bs => bytesWord (bs.take 8) :: wordsOf n (bs.drop 8)

/-- A number read as signed in `n` bits. -/
def sgn (n v : Nat) : Int :=
  if v % 2 ^ n < 2 ^ (n - 1) then (v % 2 ^ n : Nat) else (v % 2 ^ n : Nat) - (2 ^ n : Nat)

/-- An integer reduced into `n` bits. -/
def wrapNat (n : Nat) (i : Int) : Nat := (i % (2 ^ n : Nat)).toNat

/-- 0, 1, …, n - 1. -/
def upto (n : Nat) : List Nat := List.range n

/-- Word `i` of a list; 0 past its end. -/
def wd (ws : List Word) (i : Nat) : Word := ws.getD i 0

/-- List with element `i` replaced. -/
def lset {β : Type} : List β → Nat → β → List β
  | [], _, _ => []
  | _ :: r, 0, v => v :: r
  | a :: r, i + 1, v => a :: lset r i v

/-- Add a number to a rising list without repeats. -/
def insertUniq (k : Nat) : List Nat → List Nat
  | [] => [k]
  | i :: r => if k < i then k :: i :: r else if i = k then i :: r else i :: insertUniq k r

/-- The members of a list, rising, without repeats. -/
def sortUniq (l : List Nat) : List Nat := l.foldl (fun acc k => insertUniq k acc) []

/-! ### Rows and images -/

/-- Lane L of a row (R256). -/
def lane (r : Row) (L : Nat) : Cell32 := r.extractLsb' (32 * L) 32

/-- Bytes of a row, byte 0 first. -/
def rowBytes (r : Row) : List Byte := leOf r.toNat 256

/-- The row of a byte list. -/
def bytesRow (bs : List Byte) : Row := BitVec.ofNat 2048 (leNat bs)

/-- The row whose lane L is `f L`. -/
def rowOf (f : Nat → Cell32) : Row :=
  BitVec.ofNat 2048 ((upto 64).foldr (fun L acc => (f L).toNat * 2 ^ (32 * L) + acc) 0)

/-- Replace one lane. -/
def setLane (r : Row) (L : Nat) (c : Cell32) : Row := fput r (32 * L) 32 c.toNat

/-- Word `w` of a compose image (R112). -/
def imgWord (k : Image) (w : Nat) : Word := k.extractLsb' (64 * w) 64

end Sys2Proof.Machine
end

