-- ==== Sys2Proof/Machine/Crypto.lean ====
section
/-! DEFINITION. SHAKE256 (FIPS 202) and Ed448 (RFC 8032), with which images are verified and measurements signed,
and the Ovwen image (R5, R382, R384 to R386). -/

namespace Sys2Proof.Machine

/-! ### SHAKE256 (FIPS 202) -/

/-- Round constants of Keccak-f[1600]. -/
def keccakRc : List Word :=
  [0x0000000000000001, 0x0000000000008082, 0x800000000000808A, 0x8000000080008000, 0x000000000000808B, 0x0000000080000001,
   0x8000000080008081, 0x8000000000008009, 0x000000000000008A, 0x0000000000000088, 0x0000000080008009, 0x000000008000000A] ++
  [0x000000008000808B, 0x800000000000008B, 0x8000000000008089, 0x8000000000008003, 0x8000000000008002, 0x8000000000000080,
   0x000000000000800A, 0x800000008000000A, 0x8000000080008081, 0x8000000000008080, 0x0000000080000001, 0x8000000080008008]

/-- Rotations of the lanes, lane (x, y) at x + 5y. -/
def keccakRot : List Nat := [0, 1, 62, 28, 27, 36, 44, 6, 55, 20, 3, 10, 43, 25, 39, 41, 45, 15, 21, 8, 18, 2, 61, 56, 14]

/-- Lane (x, y) of a state of 25. -/
def kLane (a : List Word) (x y : Nat) : Word := a.getD (x % 5 + 5 * (y % 5)) 0

/-- A state from its lanes. -/
def kLanes (g : Nat → Nat → Word) : List Word := (upto 25).map fun i => g (i % 5) (i / 5)

/-- One round: theta, rho with pi, chi, iota. -/
def keccakRound (a : List Word) (rc : Word) : List Word :=
  let c := (upto 5).map fun x => kLane a x 0 ^^^ kLane a x 1 ^^^ kLane a x 2 ^^^ kLane a x 3 ^^^ kLane a x 4
  let d := (upto 5).map fun x => c.getD ((x + 4) % 5) 0 ^^^ (c.getD ((x + 1) % 5) 0).rotateLeft 1
  let t := kLanes fun x y => kLane a x y ^^^ d.getD x 0
  let b := kLanes fun i j => (kLane t (3 * j + i) i).rotateLeft (keccakRot.getD ((3 * j + i) % 5 + 5 * i) 0)
  let e := kLanes fun x y => kLane b x y ^^^ (~~~ kLane b (x + 1) y &&& kLane b (x + 2) y)
  lset e 0 (kLane e 0 0 ^^^ rc)

/-- Keccak-f[1600]. -/
def keccakF (a : List Word) : List Word := keccakRc.foldl keccakRound a

/-- The message with its suffix and padding for blocks of 136 bytes. -/
def shakePad (m : List Byte) : List Byte :=
  let k := 136 - m.length % 136
  m ++ (if k = 1 then [0x9F] else [0x1F] ++ List.replicate (k - 2) 0 ++ [0x80])

/-- Absorb whole blocks. -/
def shakeAbsorb : Nat → List Word → List Byte → List Word
  | 0, a, _ => a
  | n + 1, a, m =>
    if m.isEmpty then a
    else
      let w := wordsOf 17 (m.take 136)
      shakeAbsorb n (keccakF ((a.zip (w ++ List.replicate 8 0)).map fun x => x.1 ^^^ x.2)) (m.drop 136)

/-- SHAKE256 of a message, as many bytes as asked for, 136 at most. -/
def shakeBytes (m : List Byte) (n : Nat) : List Byte :=
  ((shakeAbsorb (m.length / 136 + 1) (List.replicate 25 0) (shakePad m)).flatMap wordBytes).take (min 136 n)

/-- SHAKE256 with 64-byte output, as eight words (R384). -/
def shake256 (m : List Byte) : List Word := wordsOf 8 (shakeBytes m 64)

/-! ### Ed448 (RFC 8032) -/

/-- The field's prime and the order of the base point. -/
def edP : Nat := 2 ^ 448 - 2 ^ 224 - 1
def edL : Nat := 2 ^ 446 - 13818066809895115352007386748515426880336692474882178609894547503885

/-- The curve's d, −39081. -/
def edD : Nat := edP - 39081

/-- A point in projective coordinates. -/
structure EdPt where
  x : Nat
  y : Nat
  z : Nat
  deriving DecidableEq, Repr

/-- a·b and a − b in the field. -/
def edMul (a b : Nat) : Nat := a * b % edP
def edSub (a b : Nat) : Nat := (a + edP - b % edP) % edP

/-- a to the power e; `n` is a bound on the bits of e. -/
def edPow : Nat → Nat → Nat → Nat
  | 0, _, _ => 1
  | n + 1, a, e =>
    let r := edPow n (edMul a a) (e / 2)
    if e % 2 = 1 then edMul r a else r

/-- The sum of two points. -/
def edAdd (p q : EdPt) : EdPt :=
  let a := edMul p.z q.z
  let b := edMul a a
  let c := edMul p.x q.x
  let d := edMul p.y q.y
  let e := edMul edD (edMul c d)
  let f := edSub b e
  let g := (b + e) % edP
  { x := edMul (edMul a f) (edSub (edSub (edMul (p.x + p.y) (q.x + q.y)) c) d),
    y := edMul (edMul a g) (edSub d c), z := edMul f g }

/-- k times a point; `n` is a bound on the bits of k. -/
def edTimes : Nat → Nat → EdPt → EdPt
  | 0, _, _ => { x := 0, y := 1, z := 1 }
  | n + 1, k, p =>
    let r := edTimes n (k / 2) (edAdd p p)
    if k % 2 = 1 then edAdd r p else r

/-- The base point. -/
def edBase : EdPt :=
  { x := 224580040295924300187604334099896036246789641632564134246125461686950415467406032909029192869357953282578032075146446173674602635247710,
    y := 298819210078481492676017930443930673437544040154080242095928241372331506189835876003536878655418784733982303233503462500531545062832660,
    z := 1 }

/-- Two points are one. -/
def edSame (p q : EdPt) : Bool := decide (edMul p.x q.z = edMul q.x p.z) && decide (edMul p.y q.z = edMul q.y p.z)

/-- A point as 57 bytes: y, and the parity of x in the top bit. -/
def edEncode (p : EdPt) : List Byte :=
  let i := edPow 448 p.z (edP - 2)
  leOf (edMul p.y i + (edMul p.x i % 2) * 2 ^ 455) 57

/-- The point of 57 bytes, if there is one. -/
def edDecode (b : List Byte) : Option EdPt :=
  let v := leNat b
  let y := v % 2 ^ 455
  let u := edSub (edMul y y) 1
  let w := edSub (edMul edD (edMul y y)) 1
  let u3 := edMul u (edMul u u)
  let w3 := edMul w (edMul w w)
  let x := edMul (edMul u3 w) (edPow 448 (edMul (edMul u3 (edMul u u)) w3) ((edP - 3) / 4))
  if b.length ≠ 57 ∨ edP ≤ y ∨ edMul w (edMul x x) ≠ u ∨ (x = 0 ∧ v / 2 ^ 455 = 1) then none
  else some { x := if x % 2 = v / 2 ^ 455 then x else edSub 0 x, y := y, z := 1 }

/-- The hash of Ed448: SHAKE256 with 114-byte output over dom4 with a context, and the message. -/
def edHash (m : List Byte) (ctx : List Byte := []) : List Byte :=
  shakeBytes ([0x53, 0x69, 0x67, 0x45, 0x64, 0x34, 0x34, 0x38, 0, BitVec.ofNat 8 ctx.length] ++ ctx ++ m) 114

/-- The secret scalar of a seed. -/
def edScalar (seed : List Byte) : Nat :=
  let v := leNat ((shakeBytes seed 114).take 57)
  v % 2 ^ 447 / 4 * 4 + 2 ^ 447

/-- The public key of a seed. -/
def edPublic (seed : List Byte) : List Byte := edEncode (edTimes 448 (edScalar seed) edBase)

/-- The signature of a message with a seed, 114 bytes. -/
def edSign (seed m : List Byte) (ctx : List Byte := []) : List Byte :=
  let r := leNat (edHash ((shakeBytes seed 114).drop 57 ++ m) ctx) % edL
  let rb := edEncode (edTimes 448 r edBase)
  let k := leNat (edHash (rb ++ edPublic seed ++ m) ctx) % edL
  rb ++ leOf ((r + k * edScalar seed) % edL) 57

/-- The signature verifies under a public key. -/
def edVerify (key m sig : List Byte) : Bool :=
  let rb := sig.take 57
  let t := leNat (sig.drop 57)
  match edDecode key, edDecode rb with
  | some a, some r =>
    let k := leNat (edHash (rb ++ key ++ m)) % edL
    decide (sig.length = 114) && decide (t < edL) &&
      edSame (edTimes 450 (4 * t) edBase) (edAdd (edTimes 448 4 r) (edTimes 450 (4 * k) a))
  | _, _ => false

/-! ### Ovwen images (R384) -/

/-- An image of this KIND and SVN with this body, signed with a seed. -/
def ovwenImage (seed : List Byte) (kind svn : Nat) (body : List Byte) : List Byte :=
  let head := leOf 0x4E57564F 4 ++ leOf 1 2 ++ leOf kind 2 ++ leOf body.length 8 ++ leOf svn 4 ++ leOf 0 4 ++
    (shake256 body).flatMap wordBytes
  head ++ edSign seed head ++ List.replicate 54 0 ++ body

/-- This header and body are an image of the KIND: MAGIC, FORMAT, LENGTH and digest are right, and the signature verifies under
the key. -/
def ovwenSigned (key : List Byte) (kind : Nat) (head body : List Byte) : Bool :=
  let field (a n : Nat) : Nat := leNat ((head.drop a).take n)
  decide (field 0 4 = 0x4E57564F) && decide (field 4 2 = 1) && decide (field 6 2 = kind) && decide (field 8 8 = body.length) &&
    decide ((shake256 body).flatMap wordBytes = (head.drop 24).take 64) && edVerify key (head.take 88) ((head.drop 88).take 114)

/-- SVN of an image. -/
def ovwenSvn (image : List Byte) : Nat := leNat ((image.drop 16).take 4)

end Sys2Proof.Machine
end

