-- ==== Sys2Proof/Machine/Ops.lean ====
section
/-! DEFINITION. Named operations over the state: frames, dies, registers, storage, events, taking a
level-1 fault and returning from its handler. -/

namespace Sys2Proof.Machine

/-- The outcome of a step of this machine. -/
abbrev Out := Host.Outcome State Fault Refusal

/-! ### Frames and dies -/

/-- A frame; one that is not listed stands as at reset. -/
def frameOf (s : State) (k : Nat) : Frame := tgetD s.frames k .fresh

def setFrame (s : State) (k : Nat) (f : Frame) : State := { s with frames := tset s.frames k f }

/-- The frame that moves. -/
def curFrame (s : State) : Frame := frameOf s s.cur

def setCur (s : State) (f : Frame) : State := setFrame s s.cur f

def dieOf (s : State) (d : Nat) : Die := tgetD s.dies d .fresh

def setDie (s : State) (d : Nat) (v : Die) : State := { s with dies := tset s.dies d v }

/-- The die of the frame that moves. -/
def curDie (s : State) : Nat := s.cur / Config.framesPerDie

/-- Frame key of a die's logical frame. -/
def frameKey (d f : Nat) : Nat := Config.framesPerDie * d + f

/-- The dies of a partition, ascending; absent dies belong to none (R365). -/
def partDies (s : State) (p : Nat) : List Nat :=
  (upto 4).filter fun d => decide ((dieOf s d).part = p) && decide ((dieOf s d).st ≠ .absent)

/-- The lowest admitted die of a partition, where its group table and event ring stand (R362, R363, R379). -/
def homeDie (s : State) (p : Nat) : Nat :=
  (((partDies s p).find? fun d => decide ((dieOf s d).st = .admitted)).orElse
    fun _ => (partDies s p).head?).getD 0

/-- The partition of the frame that moves. -/
def curPart (s : State) : Nat := (dieOf s (curDie s)).part

/-- A die serves the locations it homes while it is admitted, and in step 1 of a warm reset (R365). -/
def serves (s : State) (d : Nat) : Bool :=
  match (dieOf s d).st with
  | .admitted => true
  | .quiescing =>
    match s.hub.op with
    | some (.reset d' _ step _) => !(decide (d' = d) && decide (2 ≤ step))
    | _ => true
  | _ => false

/-- Take a free value. -/
def draw (s : State) : Nat × State := (Config.freeValue s.freeCtr, { s with freeCtr := s.freeCtr + 1 })

/-! ### Generator registers -/

/-- Read an x register; x0 reads zero (R176). -/
def rx (g : Gen) (r : BitVec 5) : Word := if r = 0 then 0 else tgetD g.x r.toNat 0

/-- Write an x register; a write of x0 is discarded. -/
def wx (g : Gen) (r : BitVec 5) (v : Word) : Gen :=
  if r = 0 then g else { g with x := tput 0 g.x r.toNat v }

/-- A compose buffer (R183). -/
def kget (g : Gen) (k : BitVec 3) : Image := tgetD g.k k.toNat 0

def kput (g : Gen) (k : BitVec 3) (v : Image) : Gen := { g with k := tput 0 g.k k.toNat v }

/-- Change the generator core of the frame that moves. -/
def onGen (s : State) (f : Gen → Gen) : State :=
  setCur s { curFrame s with gen := f (curFrame s).gen }

/-- The instruction retires and the next in sequence follows. -/
def retire (g : Gen) : Gen := { g with pc := g.npc, instret := g.instret + 1, stall := none }

/-- Retire with a result in rd. -/
def retireWith (s : State) (rd : BitVec 5) (v : Word) : State := onGen s fun g => retire (wx g rd v)

/-- Retire with no result. -/
def retireNop (s : State) : State := onGen s retire

/-- Retire and go on at `target` (R176). -/
def retireTo (g : Gen) (target : Word) : Gen := { retire g with pc := target }

/-! ### Device addresses (R81, R82) -/

def dramBase (d : Nat) : Nat := 0x1000000000 * d
def boardBase (d : Nat) : Nat := 0x8000000000 + 0x100000000 * d
def hostBase : Nat := 0x800000000000
def fabricBase : Nat := 0xC00000000000

/-- DRAM of a die, retired 2 MiB ranges excepted (R382). -/
def inDram (s : State) (d a : Nat) : Bool :=
  decide (dramBase d ≤ a) && decide (a < dramBase d + 0x1000000000) &&
    !((dieOf s d).retired.contains ((a - dramBase d) / 0x200000))

/-- Locked board region of a die (R84). -/
def inBoard (s : State) (d a : Nat) : Bool :=
  decide (boardBase d ≤ a) && decide (a < boardBase d + 0x1000000 * (dieOf s d).lockWays)

/-- The address lies in DRAM or board region of the partition. -/
def inPartition (s : State) (p a : Nat) : Bool := (partDies s p).any fun d => inDram s d a || inBoard s d a

/-- The die that homes a device address; 4 for none. -/
def homeOf (a : Nat) : Nat :=
  if a < 0x4000000000 then a / 0x1000000000
  else if boardBase 0 ≤ a ∧ a < boardBase 4 then (a - boardBase 0) / 0x100000000
  else 4

/-- The device address lies in the fabric window (R371). -/
def isRemote (a : Nat) : Bool := decide (fabricBase ≤ a) && decide (a < 0x1000000000000)

/-! ### Storage -/

/-- A discarded line reads as zeros to the frame that moves, until it is next written (R72). -/
def lineZero (s : State) (line : Nat) : Bool :=
  (tgetD s.discarded line []).any fun id => Config.discardZero id s.cur line

/-- The byte a read of the moving frame finds: a discarded line reads as it was or as zeros, the whole line alike (R72). -/
def memSeen (s : State) (a : Nat) : Byte := if lineZero s (a / 128) then 0 else memGet s.mem a

/-- Readers of storage that are no frame, for what they find in a discarded line (R72): the host, peers, the hub. -/
def hostReader : Nat := 192
def peerReader : Nat := 193
def hubReader : Nat := 194

/-- Bytes at device addresses. -/
def gread (s : State) (das : List Nat) : List Byte := das.map (memSeen s)

/-- `n` bytes from a device address up. -/
def grun (s : State) (a n : Nat) : List Byte := gread s ((upto n).map (a + ·))

/-- A 64-bit word of storage. -/
def gword (s : State) (a : Nat) : Word := bytesWord (grun s a 8)

/-- Storage with these discarded lines settled as a read of the moving frame would find them. -/
def settle (s : State) (lines : List Nat) : Mem :=
  lines.foldl (fun m l => if lineZero s l then memDrop m (128 * l) 128 else m) s.mem

/-- Storage as the moving frame reads it. -/
def storageSeen (s : State) : Mem := settle s (s.discarded.map (·.1))

/-- The 32-byte words of which every byte is written lose their poison (R381). -/
def clearPoison (poison : List Nat) (bytes : List (Nat × Byte)) : List Nat :=
  poison.filter fun p => !((upto 32).all fun i => bytes.any fun b => decide (b.1 = 32 * p + i))

/-- A write by another agent to the reserved line ends a reservation (R181). -/
def breakResv (who : Option Nat) (bytes : List (Nat × Byte)) (e : Nat × Frame) : Nat × Frame :=
  match e.2.gen.resv with
  | none => e
  | some l =>
    if who ≠ some e.1 ∧ bytes.any (fun b => decide (b.1 / 128 = l)) then
      (e.1, { e.2 with gen := { e.2.gen with resv := none } })
    else e

/-- Bytes of another package that are written here: a frame's fetch of them returns the write only after an acquire and a
FENCE.I (R110). -/
def noteCode (bytes : List (Nat × Byte)) (e : Nat × Frame) : Nat × Frame :=
  let far := bytes.filter fun b => isRemote b.1
  if far.isEmpty then e else (e.1, { e.2 with codeNew := far.map (fun b => (b.1, false)) ++ e.2.codeNew })

/-- Perform writes at their homes; `who` is the frame whose thread makes them (R91). A discarded line that
is written is settled (R72). -/
def gwrite (s : State) (who : Option Nat) (bytes : List (Nat × Byte)) : State :=
  let hit := (s.discarded.map (·.1)).filter fun l => bytes.any fun b => decide (b.1 / 128 = l)
  { s with mem := memPut (settle s hit) bytes, discarded := s.discarded.filter (fun e => !hit.contains e.1),
           poison := clearPoison s.poison bytes, frames := s.frames.map fun e => noteCode bytes (breakResv who bytes e),
           carried := if bytes.any fun b => isRemote b.1 then
             s.carried.map fun c => { c with frame := (noteCode bytes (0, c.frame)).2 } else s.carried }

/-! ### Bytes of another package (R91 to R93, R370) -/

/-- One more reply has come. -/
def Wired.add (w : Wired) (base : Nat) (data : List Byte) (poison : Bool) : Wired :=
  let b := ((upto data.length).map (base + ·)).zip data
  { bytes := w.bytes ++ b, bad := if poison then b.foldl (fun l x => insertUniq (x.1 / 32) l) w.bad else w.bad }

/-- What replies have brought stands where its requester reads it now. Every read of another package's bytes is of replies of
its own, put here just before, so that it returns what their home gave it, whatever has been put here since (R91 to R93). -/
def wiredPut (s : State) (w : Wired) : State :=
  if w.bytes.isEmpty then s
  else { s with mem := memPut s.mem w.bytes,
                poison := w.bad.foldl (fun l p => insertUniq p l) (s.poison.filter fun p => !(w.bytes.any fun b => decide (b.1 / 32 = p))) }

/-- Pair addresses with the bytes of a list. -/
def zipBytes (das : List Nat) (bs : List Byte) : List (Nat × Byte) := das.zip bs

/-- Some byte carries poison (R381). -/
def poisoned (s : State) (das : List Nat) : Bool := das.any fun a => s.poison.contains (a / 32)

/-! ### L1 (R80, R94) -/

/-- An L1 line after writes; its 32-byte words that they write whole are sound again (R381). -/
def l1Patch (l : L1Line) (bytes : List (Nat × Byte)) : L1Line :=
  let l' := bytes.foldl (fun l b =>
    if b.1 / 128 = l.line then { l with data := lset l.data (b.1 % 128) b.2 } else l) l
  { l' with bad := clearPoison l.bad bytes }

/-- A store of the frame updates its L1 copies (R94). -/
def l1Write (m : Sram) (bytes : List (Nat × Byte)) : Sram :=
  { m with l1 := m.l1.map fun l => l1Patch l bytes }

/-- Drop the lines of these addresses (R94). -/
def l1Drop (m : Sram) (das : List Nat) : Sram :=
  { m with l1 := m.l1.filter fun l => !(das.any fun a => decide (a / 128 = l.line)) }

/-- Sets of the L1: 8 ways of 128-byte lines over the banks the scratchpad leaves (R74, R80). -/
def l1Sets (m : Sram) : Nat := (64 - 4 * m.split) * 64

/-- Fill or refill a line; a ninth line of its set displaces the oldest. DESIGN CHOICE (assumption 34): the manual
names neither the set a line maps to nor the way displaced. -/
def l1Fill (s : State) (m : Sram) (line : Nat) : Sram :=
  let rest := m.l1.filter fun l => decide (l.line ≠ line)
  let same := rest.filter fun l => decide (l.line % l1Sets m = line % l1Sets m)
  let gone := if 8 ≤ same.length then (same.getLast?.map L1Line.line) else none
  { m with l1 := { line, data := grun s (128 * line) 128, bad := s.poison.filter fun p => decide (p / 4 = line) } ::
                  rest.filter fun l => decide (some l.line ≠ gone) }

/-- The byte a frame-scope load finds: the L1 copy where there is one, else storage (R94). -/
def l1Byte (s : State) (m : Sram) (a : Nat) : Byte :=
  match m.l1.find? fun l => decide (l.line = a / 128) with
  | some l => l.data.getD (a % 128) 0
  | none => memSeen s a

/-- Some byte that a load finds is uncorrectable: at frame scope as the L1 line has it, where there is one (R381). -/
def loadBad (s : State) (m : Sram) (das : List Nat) (scope : Scope) : Bool :=
  das.any fun a => match if scope = .fr then m.l1.find? fun l => decide (l.line = a / 128) else none with
    | some l => l.bad.contains (a / 32)
    | none => s.poison.contains (a / 32)

/-- What other threads have written before may be fetched after a FENCE.I (R110). -/
def seeAll (s : State) (f : Frame) : Frame :=
  { f with seen := storageSeen s, seenBad := s.poison, codeNew := f.codeNew.map fun e => (e.1, true) }

/-- A load of the moving frame. At frame scope it may be served from the L1; at a wider scope it reads
the board and refills the L1; an acquire at a wider scope first invalidates the L1 (R94), and what other threads
have written before it may be fetched after a FENCE.I (R110). -/
def gload (s : State) (das : List Nat) (ord : Ordering4) (scope : Scope) : List Byte × State :=
  let f := curFrame s
  let lines := sortUniq (das.map (· / 128))
  if scope = .fr then
    let miss := lines.filter fun l => !(f.sram.l1.any fun e => decide (e.line = l))
    (das.map (l1Byte s f.sram), setCur s { f with sram := miss.foldl (l1Fill s) f.sram })
  else
    let acq := decide (ord = .acq) || decide (ord = .ar)
    let m := if acq then { f.sram with l1 := [] } else f.sram
    (gread s das, setCur s { (if acq then seeAll s f else f) with sram := lines.foldl (l1Fill s) m })

/-- A store of the moving frame's generator core or vector engine: through to the board, updating its L1 copies (R94); a
FENCE.I after it lets the thread fetch it (R110). That a FENCE.I is enough for a store or atomic of the V path, as for one of
the G path, and that a write of the copy engine needs an acquire as another thread's does: DESIGN CHOICE (assumption 30). -/
def gstore (s : State) (bytes : List (Nat × Byte)) : State :=
  let s := gwrite s (some s.cur) bytes
  let f := curFrame s
  setCur s { f with sram := l1Write f.sram bytes, seen := memPut f.seen bytes, seenBad := clearPoison f.seenBad bytes,
                    codeNew := f.codeNew.map fun e => (e.1, e.2 || bytes.any fun b => decide (b.1 = e.1)) }

/-- An acquire at die scope or wider: the L1 of the moving frame loses every line (R94), and what other threads have
written before may be fetched after a FENCE.I (R110). -/
def l1Invalidate (s : State) : State :=
  let f := curFrame s
  setCur s { seeAll s f with sram := { f.sram with l1 := [] } }

/-! ### Generator stores that engine accesses may precede (R96, R97) -/

/-- The path's lag behind the store: C, else V. -/
def Late.lag (x : Late) (c : Bool) : Lag := if c then x.c else x.v

def Late.put (x : Late) (c : Bool) (l : Lag) : Late := if c then { x with c := l } else { x with v := l }

/-- An access of the entry with this serial may come before the store. -/
def Lag.lets (l : Lag) (ser : BitVec 32) : Bool :=
  match l with | .behind => true | .since t => decide (2 ^ 31 ≤ (ser - t).toNat) | .caught => false

/-- The stores to a byte that an access of the path may precede, in coherence order. -/
def lateAt (f : Frame) (c : Bool) (ser : BitVec 32) (a : Nat) : List Late :=
  f.late.filter fun x => decide (x.addr = a) && (x.lag c).lets ser

/-- Some byte has such a store. -/
def lateHit (f : Frame) (c : Bool) (ser : BitVec 32) (das : List Nat) : Bool := das.any fun a => !(lateAt f c ser a).isEmpty

/-- The path has come past the first `n` of these stores to a byte. -/
def lateCatch (c : Bool) (ser : BitVec 32) (a : Nat) : Nat → List Late → List Late
  | _, [] => []
  | 0, l => l
  | n + 1, x :: r =>
    if x.addr = a ∧ (x.lag c).lets ser = true then x.put c .caught :: lateCatch c ser a n r else x :: lateCatch c ser a (n + 1) r

/-- A write of the path stands just before the `n`-th of these stores to its byte. -/
def latePlace (c : Bool) (ser : BitVec 32) (b : Nat × Byte) : Nat → List Late → List Late
  | _, [] => []
  | n, x :: r =>
    if x.addr = b.1 ∧ (x.lag c).lets ser = true then
      (match n with
       | 0 => x.put c .caught :: { x with old := b.2 } :: r
       | n + 1 => x.put c .caught :: latePlace c ser b n r)
    else x :: latePlace c ser b n r

/-- Before which of `n` stores an access of a byte comes, by a free value; `n` for after all of them. The bytes of an aligned
doubleword take the same digit of it. -/
def latePick (free a n : Nat) : Nat := free / 256 ^ (a / 8 % 8192) % 256 % (n + 1)

/-- Leave out the stores that both paths have come past. -/
def lateTrim (l : List Late) : List Late := l.filter fun x => decide (x.v ≠ .caught) || decide (x.c ≠ .caught)

def setLate (s : State) (l : List Late) : State := setCur s { curFrame s with late := lateTrim l }

/-- The generator core is to write bytes of this package, and no fence puts the write before later accesses of the engines. -/
def lateNote (s : State) (bytes : List (Nat × Byte)) : State :=
  let near := bytes.filter fun b => !isRemote b.1
  setLate s ((curFrame s).late ++ near.map fun b => { addr := b.1, old := memSeen s b.1, v := .behind, c := .behind })

/-- A store of the generator core. -/
def gput (s : State) (bytes : List (Nat × Byte)) : State := gstore (lateNote s bytes) bytes

/-- What an access of an engine path reads: bytes found in storage, or what a generator store that it may precede has
written over. -/
def lateRead (s : State) (c : Bool) (ser : BitVec 32) (found : List (Nat × Byte)) : List Byte × State :=
  let f := curFrame s
  if !lateHit f c ser (found.map (·.1)) then (found.map (·.2), s)
  else
    let d := draw s
    let pick (a : Nat) : Nat := latePick d.1 a (lateAt f c ser a).length
    (found.map fun b => ((lateAt f c ser b.1).map Late.old ++ [b.2]).getD (pick b.1) b.2,
     setLate d.2 (found.foldl (fun l b => lateCatch c ser b.1 (pick b.1) l) f.late))

/-- The bytes of an engine path's write that stand in storage: a generator store that the write may precede may have been
performed over it. -/
def lateWrite (s : State) (c : Bool) (ser : BitVec 32) (bytes : List (Nat × Byte)) : List (Nat × Byte) × State :=
  let f := curFrame s
  if !lateHit f c ser (bytes.map (·.1)) then (bytes, s)
  else
    let d := draw s
    let n (a : Nat) : Nat := (lateAt f c ser a).length
    let pick (a : Nat) : Nat := latePick d.1 a (n a)
    (bytes.filter fun b => decide (pick b.1 = n b.1),
     setLate d.2 (bytes.foldl (fun l b =>
       if pick b.1 = n b.1 then lateCatch c ser b.1 (n b.1) l else latePlace c ser b (pick b.1) l) f.late))

/-- An atomic of an engine path: the bytes it reads, and those of its write that stand in storage. It comes before every
generator store to its bytes that it may precede, or after all of them (R93). -/
def lateAtomic (s : State) (c : Bool) (ser : BitVec 32) (das : List Nat) (new : List Byte → List Byte) :
    List Byte × List (Nat × Byte) × State :=
  let f := curFrame s
  let now := gread s das
  if !lateHit f c ser das then (now, das.zip (new now), s)
  else
    let d := draw s
    let olds := (das.zip now).map fun b => match lateAt f c ser b.1 with | x :: _ => x.old | [] => b.2
    if d.1 % 2 = 0 then
      (now, das.zip (new now), setLate d.2 (das.foldl (fun l a => lateCatch c ser a f.late.length l) f.late))
    else
      (olds, (das.zip (new olds)).filter fun b => (lateAt f c ser b.1).isEmpty,
       setLate d.2 ((das.zip (new olds)).foldl (fun l b => latePlace c ser b 0 l) f.late))

/-- Accesses of these paths by entries from serial `ser` on come after the generator's stores so far. -/
def lateFence (v c : Bool) (ser : BitVec 32) (l : List Late) : List Late :=
  let up (on : Bool) (x : Lag) : Lag := match x with | .behind => if on then .since ser else .behind | y => y
  l.map fun x => { x with v := up v x.v, c := up c x.c }

/-- A path has come past every store so far. -/
def lateEnd (c : Bool) (f : Frame) : Frame := { f with late := lateTrim (f.late.map fun x => x.put c .caught) }

/-- An access of this order and scope is an acquire at die scope or wider (R94). -/
def acquires (o : Ordering4) (c : Scope) : Bool := decide (c ≠ .fr) && (decide (o = .acq) || decide (o = .ar))

/-- An acquire of the V path at die scope or wider: later accesses of the path find what storage holds (R94, R99). -/
def vAcquire (s : State) : State :=
  let s := l1Invalidate s
  setCur s (lateEnd false (curFrame s))

/-! ### Events (R362) -/

/-- Word 0 of an event record. -/
def Event.word0 (e : Event) : Word :=
  mk64 [(56, 8, e.kind), (54, 2, e.die), (48, 6, e.frame), (0, 32, e.tid.toNat)]

/-- The event ring of a partition is full. -/
def ringFull (ev : Word) : Bool := decide (fld ev 48 16 = (fld ev 0 12 + 4095) % 4096)

/-- Address of the ring, and the die whose DRAM holds it; 4 or more for none. -/
def ringBase (ev : Word) : Nat := fld ev 12 36 * 4096
def ringDie (ev : Word) : Nat := ringBase ev / 0x1000000000

/-- The partition's ring takes a record now: it is not full, and its memory, where a die of the partition homes it, is served
(R26). -/
def ringReady (s : State) (part : Nat) (ev : Word) : Bool :=
  !ringFull ev && (!(partDies s part).contains (ringDie ev) || serves s (ringDie ev))

/-- Write one event at HEAD. Bytes of a ring outside the partition's memory are not written (R26, assumption 48). -/
def ringPut (s : State) (d : Nat) (e : Event) : State :=
  let v := dieOf s d
  let head := fld v.evqBase 48 16
  let a := ringBase v.evqBase + 16 * (head % 4096)
  let bytes := zipBytes ((upto 16).map (a + ·)) (wordBytes e.word0 ++ wordBytes e.detail)
  let s := gwrite s none (bytes.filter fun b => inPartition s v.part b.1)
  setDie s d { v with evqBase := fput v.evqBase 48 16 ((head + 1) % 4096) }

/-- Change the number of waiting events that hold an event's frame; a LAUNCH event concerns no frame. -/
def holdFrame (s : State) (e : Event) (g : Nat → Nat) : State :=
  if e.kind = 8 then s
  else
    let k := frameKey e.die e.frame
    let f := frameOf s k
    setFrame s k { f with disp := { f.disp with evHeld := g f.disp.evHeld } }

/-- Post an event of partition `p`; while the ring takes none it waits and holds its frame. -/
def postEvent (s : State) (p : Nat) (e : Event) : State :=
  let d := homeDie s p
  let v := dieOf s d
  if !ringReady s v.part v.evqBase || !v.evWait.isEmpty then holdFrame (setDie s d { v with evWait := v.evWait ++ [e] }) e (· + 1)
  else ringPut s d e

/-- Post an event of a frame's thread. -/
def postFrameEvent (s : State) (fr kind : Nat) (tid : BitVec 32) (detail : Word) : State :=
  let d := fr / Config.framesPerDie
  postEvent s (dieOf s d).part { kind, die := d, frame := fr % Config.framesPerDie, tid, detail }

/-! ### Thread control blocks (R354) -/

/-- An address outside every window, for a control block out of its thread's reach. -/
def nowhere : Nat := 0x7FFFFFFFFF00

/-- The control block of a partition's thread, if it still lies there (R26, R374, assumption 48). -/
def reachTcb (s : State) (part tcb : Nat) : Nat :=
  if inPartition s part tcb && inPartition s part (tcb + 255) then tcb else nowhere

/-- Some byte of word `i` of a control block is uncorrectable (R381). -/
def tcbBad (s : State) (tcb i : Nat) : Bool := poisoned s ((upto 8).map (tcb + 8 * i + ·))

/-- Word `i` of a control block, as dispatch reads it: 0 where it is out of reach or uncorrectable (assumptions 47 and 48). -/
def tcbGet (s : State) (tcb i : Nat) : Word := if homeOf tcb = 4 ∨ tcbBad s tcb i = true then 0 else gword s (tcb + 8 * i)

/-- Write word `i` of a control block. -/
def tcbPut (s : State) (tcb i : Nat) (w : Word) : State :=
  if homeOf tcb = 4 then s else gwrite s none (zipBytes ((upto 8).map (tcb + 8 * i + ·)) (wordBytes w))

/-! ### Taking a level-1 fault (R204, R205) -/

/-- Cause codes of R204. -/
def causeIllegal : Nat := 2
def causeBreak : Nat := 3
def causeLoadAlign : Nat := 4
def causeStoreAlign : Nat := 6
def causeEcall : Nat := 8
def causeGenEcc : Nat := 31
def causeEmitSpan : Nat := 48
def causeEmitArg : Nat := 49

/-- L1CAUSE: the L2 bit, GEN and the code (R208). -/
def causeWord (l2 : Bool) (gen code : Nat) : Word :=
  mk64 [(63, 1, if l2 then 1 else 0), (32, 16, gen), (0, 16, code)]

/-- The thread's handler takes this cause. -/
def handlerTakes (h : Handler) (code : Nat) : Bool :=
  decide (fld h.tvec 0 2 = 1) && !h.inH && !(decide (code = 8) || decide (code = 29) || decide (code = 30))

/-- Enter the handler: saved pc, cause and value, IN_H, and the handler's address. -/
def enterHandler (g : Gen) (cause tval : Word) : Gen :=
  { g with h := { g.h with epc := fput g.pc 0 1 0, cause := cause, tval := tval, inH := true },
           pc := BitVec.ofNat 64 (fld g.h.tvec 2 62 * 4), stall := none, resv := none }

/-- Escalate: the generator stops and dispatch is asked to unbind the thread (R205). -/
def escalate (s : State) (why : ImgFault) : State :=
  let f := curFrame s
  let req := match f.disp.req with
    | some ⟨.kill, l⟩ => some ⟨.kill, l⟩
    | _ => some { why := .escalate, landed := false }
  setCur s { f with gen := { f.gen with halted := true, stall := none, resv := none },
                    disp := { f.disp with req := req, fault := some why } }

/-- Take a level-1 fault at the instruction at pc, whose requests to other packages are over. The delivery of HOME_OFFLINE is an acquire (R378). -/
def takeL1 (s : State) (code : Nat) (tval : Word) (gen : Nat := 0) : State :=
  let g := (curFrame s).gen
  let s := setCur s { curFrame s with rem := none }
  if handlerTakes g.h code then onGen s fun g => enterHandler g (causeWord false gen code) tval
  else
    let s := escalate (if code = 30 then l1Invalidate s else s) (.l1 (causeWord false gen code) tval g.pc)
    if code = causeEcall then onGen s fun g => { g with pc := g.npc } else s

/-- Illegal instruction: L1TVAL holds the instruction bits (R204). -/
def takeIllegal (s : State) (w : BitVec 32) : State := takeL1 s causeIllegal (w.zeroExtend 64)

/-- The return's register part: IN_H cleared, and the next instruction is at L1EPC (R207). Only a GWAIT that
the return goes to keeps its deadline (R193). -/
def leaveHandler (g : Gen) : Gen :=
  let pc := fput g.h.epc 0 1 0
  { g with h := { g.h with inH := false }, pc := pc, instret := g.instret + 1, stall := none,
           kept := g.kept.filter fun k => decide (k.1 = pc) }

/-- Level-1 code of a memory class: 24 to 30 (R204). -/
def L2Class.l1code : L2Class → Nat
  | .badHandle => 24 | .badRecord => 25 | .permission => 26 | .retired => 27 | .outOfShape => 28
  | .residency => 29 | .homeOffline => 30 | _ => 24

/-- CLASS codes of L2_INFO (R209). -/
def L2Class.code : L2Class → Nat
  | .spadRange => 1 | .badHandle => 2 | .badRecord => 3 | .permission => 4 | .retired => 5
  | .outOfShape => 6 | .residency => 7 | .homeOffline => 8 | .checksum => 9 | .spadEcc => 10
  | .illegalBundle => 11 | .undoOverflow => 12 | .weightLost => 13 | .deadRead => 14 | .regEcc => 15

/-- Recoverable classes (R166). -/
def L2Class.recoverable : L2Class → Bool
  | .residency | .homeOffline | .checksum | .spadEcc => true
  | _ => false

end Sys2Proof.Machine
end

