-- ==== Sys2Proof/Machine/Wire.lean ====
section
/-! DEFINITION. The wire to the fabric ports: requests, flits and their bytes (R107, R370, R371). -/

namespace Sys2Proof.Machine

/-- Bytes at consecutive addresses of one 128-byte line, joined. -/
def piecesOf : List (Nat × Byte) → List (Nat × List Byte)
  | [] => []
  | (a, b) :: r =>
    match piecesOf r with
    | (c, bs) :: t => if c = a + 1 ∧ c % 128 ≠ 0 then (a, b :: bs) :: t else (a, [b]) :: (c, bs) :: t
    | [] => [(a, [b])]

/-- Trained ports that carry traffic of a die to a fabric address. -/
def portsFor (s : State) (part die a : Nat) : List Nat :=
  let w := tgetD s.hub.peers (512 * part + 2 * ((a - fabricBase) / 0x10000000000) + 1) 0
  ((upto 16).map (16 * die + ·)).filter fun p => fbit w p && fbit s.hub.trained p

/-- The trained port that carries the line of a fabric address (R371); none with none trained. -/
def portNow (s : State) (part die a : Nat) : Option Nat :=
  let ports := portsFor s part die a
  ports[a / 128 % max 1 ports.length]?

/-- RPART of the entry of a fabric address. -/
def peerPart (s : State) (part a : Nat) : BitVec 2 :=
  BitVec.ofNat 2 (fld (tgetD s.hub.peers (512 * part + 2 * ((a - fabricBase) / 0x10000000000)) 0) 32 2)

/-- A request of frame `fr` awaits its reply, or a port to leave through. -/
def awaits (s : State) (fr work n : Nat) : Bool :=
  (s.edge.flitsWait ++ s.edge.parked).any fun o => decide (o.frame = fr) && decide (o.work = work) && decide (o.n = n)

/-- What a request does: flit type and whether it is a release. -/
structure ReqKind where
  work : Nat
  ty   : BitVec 4
  rel  : Bool
  die  : Nat
  amo  : AmoOp := .add
  fp   : Bool := false
  /-- handle it was translated by (R63) -/
  handle : Nat := 0
  deriving DecidableEq, Repr

/-! ### The wire (R370) -/

/-- CRC-64 of bytes, most significant bit first, from zero. -/
def crc64 (bs : List Byte) : Word :=
  bs.foldl (fun c b => (upto 8).foldl (fun (c : Word) i =>
    let top := fbit c 63 != fbit b (7 - i)
    if top then (c <<< 1) ^^^ 0x42F0E1EBA9EA3693 else c <<< 1) c) 0

/-- Payload of a flit: a request's 8-byte device address, then its data. -/
def flitPayload (f : FlitOut) : List Byte :=
  let addressed := decide (f.ty = 1) || decide (f.ty = 3) || decide (f.ty = 5) || decide (f.ty = 7)
  (if addressed then leOf f.addr 8 else []) ++ f.data

/-- The 256 bytes of a flit: header, payload, CRC. LEN of a read request is the bytes it asks for. -/
def wireBytes (f : FlitOut) : List Byte :=
  let hdr : Word := mk64 [(60, 4, f.ty.toNat), (44, 16, f.tag.toNat), (42, 2, f.part.toNat), (41, 1, f.poison.toNat),
    (40, 1, f.rel.toNat), (32, 8, if f.ty = 1 then f.len else f.data.length)]
  let body := wordBytes hdr ++ (flitPayload f ++ List.replicate 240 0).take 240
  body ++ wordBytes (crc64 body)

/-- A flit leaves through its port, and stays in the port's replay buffer of 64 flits. -/
def emitFlit (s : State) (f : FlitOut) : State :=
  let q := tgetD s.edge.sent f.port []
  { s with edge := { s.edge with flitsOut := s.edge.flitsOut ++ [f],
                                 sent := tset s.edge.sent f.port ((q ++ [f]).drop (q.length + 1 - 64)) } }

/-- Send one request for a piece of a line through the port its line selects. -/
def sendPiece (fr n : Nat) (k : ReqKind) (poison : Nat → Bool) (s : State) (p : Nat × List Byte) : State :=
  let part := (dieOf s (fr / Config.framesPerDie)).part
  let fl : FlitOut :=
    { port := (portNow s part k.die p.1).getD 0, ty := k.ty, tag := BitVec.ofNat 16 s.edge.nextTag, part := peerPart s part p.1, rel := k.rel,
      poison := poison p.1, addr := p.1 % 0x10000000000, data := if k.ty = 1 then [] else p.2,
      len := if k.ty = 1 then p.2.length else 0, amo := k.amo, fp := k.fp }
  let s := emitFlit s fl
  { s with edge := { s.edge with
    nextTag := s.edge.nextTag + 1,
    flitsWait := s.edge.flitsWait ++ [{ frame := fr, n := n, work := k.work, flit := fl,
                                        entry := (p.1 - fabricBase) / 0x10000000000, handle := k.handle }] } }

/-- Some piece of these bytes has no trained port to leave through. -/
def noPort (s : State) (fr die : Nat) (bytes : List (Nat × Byte)) : Bool :=
  (piecesOf (bytes.filter fun b => isRemote b.1)).any fun p => (portNow s (dieOf s (fr / Config.framesPerDie)).part die p.1).isNone

/-- Send the requests of a piece of work once, if a port is trained for each. -/
def sendRemote (s : State) (fr n : Nat) (k : ReqKind) (poison : Nat → Bool) (bytes : List (Nat × Byte)) : State :=
  if awaits s fr k.work n || noPort s fr k.die bytes then s
  else (piecesOf (bytes.filter fun b => isRemote b.1)).foldl (sendPiece fr n k poison) s

/-- The first address of a request's bytes, as the fabric window names it (R371). -/
def Outstanding.base (o : Outstanding) : Nat := fabricBase + o.entry * 0x10000000000 + o.flit.addr

/-- The port through which a request would leave now: one of the die whose ports it took. -/
def Outstanding.portNow (o : Outstanding) (s : State) : Option Nat :=
  Machine.portNow s (dieOf s (o.frame / Config.framesPerDie)).part (o.flit.port / 16) o.base

/-- Send a request again, through the port that its line selects now; with none trained it waits for one (R160, R370). -/
def resend (s : State) (o : Outstanding) : State :=
  match o.portNow s with
  | some p =>
    let o := { o with flit := { o.flit with port := p } }
    let s := emitFlit s o.flit
    { s with edge := { s.edge with flitsWait := s.edge.flitsWait ++ [o] } }
  | none => { s with edge := { s.edge with parked := s.edge.parked ++ [o] } }

/-- A port has trained: requests that waited for one leave. -/
def unpark (s : State) : State := s.edge.parked.foldl resend { s with edge := { s.edge with parked := [] } }

end Sys2Proof.Machine
end

