-- ==== Sys2Proof/Machine/Translate.lean ====
section
/-! DEFINITION. Objects and translation: handle table, object records and their checks, record caches,
element offsets, device addresses, windows and homes (R51 to R72, R81, R82, R368, R371). -/

namespace Sys2Proof.Machine

/-! ### Fields of a record (R53, R54) -/

def recState (ws : List Word) : Nat := fld (wd ws 0) 62 2
def recGen (ws : List Word) : Nat := fld (wd ws 0) 46 16
def recFmt (ws : List Word) : Nat := fld (wd ws 0) 36 4
def recLayout (ws : List Word) : Nat := fld (wd ws 0) 34 2
def recRank (ws : List Word) : Nat := fld (wd ws 0) 30 4
def recHomeMode (ws : List Word) : Nat := fld (wd ws 0) 28 2
def recHomeDie (ws : List Word) : Nat := fld (wd ws 0) 26 2
def recStripe (ws : List Word) : Nat := fld (wd ws 0) 22 4
def recBase (ws : List Word) : Nat := fld (wd ws 1) 8 40 * 256
def recExtent (ws : List Word) : Nat := fld (wd ws 14) 0 48
/-- Bytes of a residency sub-tile (R67). -/
def recTile (ws : List Word) : Nat := 65536 * 2 ^ fld (wd ws 0) 18 4
def recMapped (ws : List Word) : Bool := fbit (wd ws 0) 17
def recMap (ws : List Word) : Nat := fld (wd ws 3) 3 45 * 8
def recExt (ws : List Word) : Nat := fld (wd ws 4) 7 41 * 128

/-- SHAPE of dimension i. -/
def recShape (ws ext : List Word) (i : Nat) : Nat :=
  if i < 6 then fld (wd ws (5 + i / 2)) (32 * (i % 2)) 32
  else fld (wd ext ((i - 6) / 2)) (32 * (i % 2)) 32

/-- STRIDE of dimension i. -/
def recStride (ws ext : List Word) (i : Nat) : Nat :=
  if i < 6 then fld (wd ws (8 + i)) 0 48 else fld (wd ext (4 + (i - 6))) 0 48

/-- Block formats: codes 9, 10, 11. -/
def fmtMx (f : Nat) : Bool := decide (9 ≤ f) && decide (f ≤ 11)

/-- Element bytes of a scalar format code. -/
def fmtEsz (f : Nat) : Nat :=
  match f with | 0 | 1 => 1 | 2 | 3 | 7 | 8 => 2 | _ => 4

/-- Plane sizes of a block format (R42, R56). -/
def fmtSz1 (f : Nat) : Nat := if f = 9 then 64 else 32
def fmtSz2 (f : Nat) : Nat := if f = 10 then 16 else 0

/-- The bits of a word outside the given fields are zero. -/
def onlyBits (w : Word) (fs : List (Nat × Nat)) : Bool :=
  decide (fs.foldl (fun acc f => fput acc f.1 f.2 0) w = 0)

/-- The die is present and belongs to the partition (R26, R365). -/
def dieIn (s : State) (part d : Nat) : Bool := decide ((dieOf s d).part = part) && decide ((dieOf s d).st ≠ .absent)

/-- The record checks of R55. -/
def recordOk (s : State) (part : Nat) (ws ext : List Word) : Bool :=
  let rank := recRank ws
  let fmt := recFmt ws
  let lay := recLayout ws
  let hm := recHomeMode ws
  let inPart := dieIn s part
  onlyBits (wd ws 0) [(17, 47)] &&
  decide (fmt < 12) && decide (lay < 3) && decide (1 ≤ rank) && decide (rank ≤ 14) && decide (hm < 3) &&
  decide (fld (wd ws 0) 18 4 ≤ 8) &&
  onlyBits (wd ws 1) [(8, 40)] && onlyBits (wd ws 2) [(8, 40)] && onlyBits (wd ws 3) [(3, 45)] &&
  onlyBits (wd ws 4) [(7, 41)] &&
  ((upto 6).all fun i => onlyBits (wd ws (8 + i)) [(0, 48)]) && onlyBits (wd ws 14) [(0, 48)] &&
  (if rank ≤ 6 then decide (recExt ws = 0) else decide (recExt ws ≠ 0)) &&
  ((upto 6).all fun i => decide (i < rank) ||
    (decide (recShape ws ext i = 0) && decide (recStride ws ext i = 0))) &&
  (decide (rank ≤ 6) ||
    (((upto 8).all fun i => onlyBits (wd ext (4 + i)) [(0, 48)]) &&
     ((upto 8).all fun i => decide (i + 6 < rank) ||
       (decide (recShape ws ext (i + 6) = 0) && decide (recStride ws ext (i + 6) = 0))))) &&
  (decide (lay = 2) || decide (fld (wd ws 15) 32 32 = 0)) &&
  ((decide (lay = 2) && decide (fmt = 10)) || decide (fld (wd ws 15) 0 32 = 0)) &&
  (if hm = 1 then decide (recStripe ws ≠ 0) && decide (recHomeDie ws = 0) &&
      ((upto 4).all fun d => !(Nat.testBit (recStripe ws) d) || inPart d)
   else decide (recStripe ws = 0) && inPart (recHomeDie ws)) &&
  decide (fld (wd ws 0) 40 2 = part) &&
  !(decide (lay = 1) && decide (rank = 1)) &&
  !(decide (lay = 2) && !fmtMx fmt) &&
  (!fmtMx fmt || (decide (recShape ws ext 0 % 64 = 0) && (decide (lay = 1) || decide (recStride ws ext 0 = 0)))) &&
  (decide (lay = 2) || ((upto rank).all fun i =>
    if fmtMx fmt then
      (if (lay = 0 ∧ i = 0) ∨ (lay = 1 ∧ 2 ≤ i) then true else decide (recStride ws ext i % 64 = 0))
    else decide (recStride ws ext i % fmtEsz fmt = 0)))

/-! ### Element offsets (R56) -/

/-- A storage offset has 64 bits. -/
def n64 (x : Nat) : Nat := x % 2 ^ 64

/-- Sum of c[i]·STRIDE[i] from dimension `i` up. -/
def strideSum (ws ext : List Word) : Nat → List Nat → Nat
  | _, [] => 0
  | i, c :: cs => c * recStride ws ext i + strideSum ws ext (i + 1) cs

/-- Where an element lies. -/
inductive ElemAt
  | scalar (el : Nat)
  /-- offsets of the first plane, the 2-bit plane and the scale of the element's block -/
  | mx (pl1 pl2 scl : Nat)
  deriving DecidableEq, Repr

/-- Offsets of element `c`, which has RANK coordinates. -/
def elemAt (ws ext : List Word) (c : List Nat) : ElemAt :=
  let fmt := recFmt ws
  let sz1 := fmtSz1 fmt
  let sz2 := fmtSz2 fmt
  let c0 := c.getD 0 0
  let c1 := c.getD 1 0
  let t := c0 / 64 * recStride ws ext 0 + c1 / 64 * recStride ws ext 1 + strideSum ws ext 2 (c.drop 2)
  match recLayout ws, fmtMx fmt with
  | 0, false => .scalar (n64 (strideSum ws ext 0 c))
  | 0, true =>
    let row := strideSum ws ext 1 (c.drop 1)
    let n := recShape ws ext 0 / 64
    let b := c0 / 64
    .mx (n64 (row + b * sz1)) (n64 (row + n * sz1 + b * sz2)) (n64 (row + n * (sz1 + sz2) + b))
  | 1, false => .scalar (n64 (t + (c1 % 64 * 64 + c0 % 64) * fmtEsz fmt))
  | 1, true =>
    let rho := c1 % 64
    .mx (n64 (t + rho * sz1)) (n64 (t + 64 * sz1 + rho * sz2)) (n64 (t + 64 * (sz1 + sz2) + rho))
  | _, _ =>
    let l := c0 / 64 + strideSum ws ext 1 (c.drop 1)
    .mx (n64 (l * sz1)) (n64 (fld (wd ws 15) 0 32 * 256 + l * 16)) (n64 (fld (wd ws 15) 32 32 * 256 + l))

/-- Offsets of every byte of a scalar element, or of the whole block of an MX element: first plane,
2-bit plane, scale. -/
def elemBytes (ws ext : List Word) (c : List Nat) : List Nat :=
  match elemAt ws ext c with
  | .scalar el => (upto (fmtEsz (recFmt ws))).map fun i => n64 (el + i)
  | .mx p1 p2 sc =>
    (upto (fmtSz1 (recFmt ws))).map (fun i => n64 (p1 + i)) ++ (upto (fmtSz2 (recFmt ws))).map (fun i => n64 (p2 + i)) ++ [sc]

/-- Every coordinate is below its shape (R57). -/
def inShape (ws ext : List Word) : Nat → List Nat → Bool
  | _, [] => true
  | i, c :: cs => decide (c < recShape ws ext i) && inShape ws ext (i + 1) cs

/-! ### Device addresses, windows and homes (R81, R82, R59) -/

/-- Position of the n-th set bit of a 4-bit mask. -/
def nthSet (mask n : Nat) : Nat := (((upto 4).filter fun d => Nat.testBit mask d).getD n 0)

/-- Device address of storage offset `o` (R82). -/
def devAddr (ws : List Word) (o : Nat) : Nat :=
  if recHomeMode ws = 1 then
    let n := ((upto 4).filter fun d => Nat.testBit (recStripe ws) d).length
    let k := o / 0x200000
    dramBase (nthSet (recStripe ws) (k % n)) + recBase ws + k / n * 0x200000 + o % 0x200000
  else recBase ws + o

/-- How a translated address stands. -/
inductive Win
  | ok
  | denied
  | offline
  deriving DecidableEq, Repr

/-- A fabric address through its peer entry, by ports of a die of the accessing partition (R26, R371). -/
def fabricWin (s : State) (part die a : Nat) : Win :=
  let i := (a - fabricBase) / 0x10000000000
  let ports := tgetD s.hub.peers (512 * part + 2 * i + 1) 0
  let mine := (upto 16).filter fun k => fbit ports (16 * die + k)
  if s.hub.variant = 2 ∨ !dieIn s part die ∨ !fbit (tgetD s.hub.peers (512 * part + 2 * i) 0) 63 ∨ mine.isEmpty then .denied
  else if mine.any fun k => fbit s.hub.trained (16 * die + k) then .ok
  else match s.hub.op with
    | some (.reset d _ step _) => if d = die ∧ 2 ≤ step then .offline else .denied
    | _ => .denied

/-- A host address, which the IOMMU may refuse (R368). -/
def hostWin (s : State) (a : Nat) : Win :=
  if s.edge.iommuDeny.any fun r => decide (r.1 ≤ a - hostBase) && decide (a - hostBase < r.1 + r.2) then .denied else .ok

/-- The window of a host or fabric address; `die` is the record's HOME_DIE. -/
def farWin (s : State) (part die a : Nat) : Win :=
  if fabricBase ≤ a ∧ a < 0x1000000000000 then fabricWin s part die a
  else if hostBase ≤ a ∧ a < fabricBase then hostWin s a
  else .denied

/-- The window of a RESMAP or EXT pointer of a record (R81, R377). -/
def ptrWin (s : State) (part : Nat) (ws : List Word) (a : Nat) : Win :=
  if inPartition s part a then (if serves s (homeOf a) then .ok else .offline) else farWin s part (recHomeDie ws) a

/-- The window of a byte at home on die `d`, which must stand in the accessing partition (R3, R26, R59). -/
def dieWin (s : State) (part d : Nat) (here : Bool) : Win :=
  if dieIn s part d && here then (if serves s d then .ok else .offline) else .denied

/-- The window of a byte of an object (R59, R81, R368, R371). -/
def winOf (s : State) (part : Nat) (ws : List Word) (o : Nat) : Win :=
  let a := devAddr ws o
  match recHomeMode ws with
  | 0 => let d := recHomeDie ws; dieWin s part d (inDram s d a || inBoard s d a)
  | 1 =>
    let n := ((upto 4).filter fun d => Nat.testBit (recStripe ws) d).length
    let d := nthSet (recStripe ws) (o / 0x200000 % n)
    dieWin s part d (inDram s d a)
  | _ => farWin s part (recHomeDie ws) a

/-! ### Record caches (R63, R64) -/

/-- What a handle names. -/
inductive RcLook
  | badHandle
  | badRecord (gen : Nat)
  /-- the table entry or the extension record lies outside the partition's windows (R26, R81) -/
  | denied (gen : Nat)
  /-- it lies on a die under warm reset, or behind one (R371, R377) -/
  | offline (gen : Nat)
  /-- the extension record lies in another package and has not come: the record, and the lines to ask for (R371) -/
  | far (e : RcEnt) (lines : List Nat)
  /-- a MIGRATING record: read from the table and not cached -/
  | migrating (e : RcEnt)
  | found (e : RcEnt)
  deriving DecidableEq, Repr

/-- Words of a handle-table entry and of its extension. -/
def readRecord (s : State) (base h : Nat) : List Word × List Word :=
  let ws := (upto 16).map fun i => gword s (base + 128 * h + 8 * i)
  (ws, if recRank ws ≤ 6 then [] else (upto 12).map fun i => gword s (recExt ws + 8 * i))

/-- Words 12 to 15 of an extension record are reserved (R54). -/
def extTailOk (s : State) (ws : List Word) : Bool :=
  decide (recRank ws ≤ 6) || (upto 4).all fun i => decide (gword s (recExt ws + 96 + 8 * i) = 0)

/-- Put an entry at the head of a cache of `n` entries. -/
def rcFill (n : Nat) (rc : List RcEnt) (e : RcEnt) : List RcEnt :=
  (e :: rc.filter fun x => decide (x.handle ≠ e.handle)).take n

/-- The bytes of a run of storage carry no poison (R381). -/
def soundRun (s : State) (a n : Nat) : Bool := !poisoned s ((upto n).map (a + ·))

/-- Lines that another package has answered stand where a read finds them now. -/
def gotPut (s : State) (got : Tbl LineRes) (lines : List Nat) : State :=
  wiredPut s ((got.filter fun e => lines.contains e.1).foldl (fun w e => w.add (128 * e.1) e.2.data e.2.bad) {})

/-- Class of the refusal of a line; 0 for none. -/
def gotCode (got : Tbl LineRes) (l : Nat) : Nat := match tget got l with | some r => r.code | none => 0

/-- Read a handle's record from the table in use and check it (R51, R55, R81); `got` are lines that other packages have
answered (R372). A record whose own words fail raises before its extension is read. Uncorrectable data is no valid record (R381,
assumption 47). -/
def rcRead (s : State) (d : Nat) (got : Tbl LineRes) (h : Nat) : RcLook :=
  let die := dieOf s d
  let at' := fld die.useBase 12 36 * 4096 + 128 * h
  let s := gotPut s got [recExt (readRecord s (fld die.useBase 12 36 * 4096) h).1 / 128]
  let r := readRecord s (fld die.useBase 12 36 * 4096) h
  let e : RcEnt := { handle := h, words := r.1, ext := r.2, map := [] }
  let ext := recExt r.1
  let far := decide (6 < recRank r.1) && isRemote ext
  if !(inPartition s die.part at' && inPartition s die.part (at' + 127)) then .denied 0
  else if !serves s (homeOf at') then .offline 0
  else if !soundRun s at' 128 then .badRecord 0
  else if !recordOk s die.part r.1 [] then .badRecord (recGen r.1)
  else if decide (6 < recRank r.1) && decide (ptrWin s die.part r.1 ext = .denied) then .denied (recGen r.1)
  else if decide (6 < recRank r.1) && decide (ptrWin s die.part r.1 ext = .offline) then .offline (recGen r.1)
  else if far && (tget got (ext / 128)).isNone then .far { e with ext := [] } [ext / 128]
  else if far && decide (gotCode got (ext / 128) = 4) then .denied (recGen r.1)
  else if far && decide (gotCode got (ext / 128) = 8) then .offline (recGen r.1)
  else if !(recordOk s die.part r.1 r.2 && extTailOk s r.1) || (decide (6 < recRank r.1) && !soundRun s ext 128) then
    .badRecord (recGen r.1)
  else if recState r.1 = 1 then .migrating e
  else .found e

/-- Ask another package for whole lines, through the ports of a die. -/
def askLines (s : State) (fr n work die : Nat) (lines : List Nat) : State :=
  sendRemote s fr n { work := work, ty := 1, rel := false, die := die, handle := if work = 11 then n else 0 } (fun _ => false)
    (lines.flatMap fun l => (upto 128).map fun i => (128 * l + i, 0))

/-- Lines that a translation has taken, and refusals, are asked for anew by the next that needs them. -/
def dropGot (s : State) (fr : Nat) (lines : List Nat) : State :=
  let f := frameOf s fr
  let gone (e : Nat × LineRes) : Bool := decide (e.2.code ≠ 0) || lines.contains e.1
  if f.recGot.any gone then setFrame s fr { f with recGot := f.recGot.filter fun e => !gone e } else s

/-- Enter a record in the caches of a frame and its die. -/
def rcEnter (s : State) (fr : Nat) (e : RcEnt) : State :=
  let d := fr / Config.framesPerDie
  let die := dieOf s d
  let f := frameOf s fr
  setFrame (setDie s d { die with rc := rcFill Config.rcDie die.rc e }) fr
    { f with rc := rcFill Config.rcFrame f.rc e, reread := f.reread.filter fun x => decide (x.handle ≠ e.handle) }

/-- Look a handle up for the frame `fr`: the record its stalled translation read again (R65, R71), frame cache, die
cache, handle table. -/
def rcLookup (s : State) (fr h : Nat) : RcLook × State :=
  let d := fr / Config.framesPerDie
  let die := dieOf s d
  let f := frameOf s fr
  if h = 0 ∨ !fbit die.useBase 0 ∨ die.useLen.toNat ≤ h then (.badHandle, s)
  else
    match f.reread.find? fun e => decide (e.handle = h) with
    | some e => (.found e, rcEnter s fr e)
    | none =>
    match f.rc.find? fun e => decide (e.handle = h) with
    | some e => (.found e, s)
    | none =>
      match die.rc.find? fun e => decide (e.handle = h) with
      | some e => (.found e, setFrame s fr { f with rc := rcFill Config.rcFrame f.rc e })
      | none =>
        match rcRead s d f.recGot h with
        | .found e => (.found e, dropGot (rcEnter s fr e) fr [recExt e.words / 128])
        | .migrating e => (.migrating e, dropGot s fr [recExt e.words / 128])
        | .far e lines => (.far e lines, s)
        | x => (x, dropGot s fr [])

/-- Replace a handle's entry in the caches of a frame and its die. -/
def rcUpdate (s : State) (fr : Nat) (e : RcEnt) : State :=
  let d := fr / Config.framesPerDie
  let f := frameOf s fr
  let die := dieOf s d
  let up (l : List RcEnt) := l.map fun x => if x.handle = e.handle then e else x
  setDie (setFrame s fr { f with rc := up f.rc }) d { die with rc := up die.rc }

/-! ### One access (R59 to R61) -/

/-- Permissions an access needs (R59). -/
structure Need where
  r : Bool := false
  w : Bool := false
  x : Bool := false
  b : Bool := false
  deriving DecidableEq, Repr

def needR : Need := { r := true }
def needW : Need := { w := true }
def needRW : Need := { r := true, w := true }
def needX : Need := { x := true }
def needB : Need := { b := true }

def permOk (ws : List Word) (n : Need) : Bool :=
  (!n.x || fbit (wd ws 0) 45) && (!n.b || fbit (wd ws 0) 44) && (!n.w || fbit (wd ws 0) 43) &&
    (!n.r || fbit (wd ws 0) 42)

/-- The answer of a translation. -/
inductive Xl
  /-- device addresses of the bytes, in order, and the entry used -/
  | ok (das : List Nat) (e : RcEnt)
  /-- class, failing offset, GEN -/
  | err (cls : L2Class) (off gen : Nat)
  /-- the record is MIGRATING (R71) -/
  | stall
  /-- lines of the record or its map lie in another package and have not come: HOME_DIE and lines (R371) -/
  | far (die : Nat) (lines : List Nat)
  deriving DecidableEq, Repr

/-- Residency of sub-tile `j`, read through the entry (R67, R68). A map word with an uncorrectable error shows nothing
resident (R381, assumption 47). -/
def residentIn (s : State) (e : RcEnt) (j : Nat) : Bool :=
  match tget e.map (j / 64) with
  | some w => fbit w (j % 64)
  | none => let a := recMap e.words + 8 * (j / 64); soundRun s a 8 && fbit (gword s a) (j % 64)

/-- Lines of a residency map in another package that these offsets consult and the entry has not read (R67, R371). -/
def mapLines (e : RcEnt) (offs : List Nat) : List Nat :=
  if recMapped e.words && isRemote (recMap e.words) then
    sortUniq (((sortUniq (offs.map (· / (64 * recTile e.words)))).filter fun k => (tget e.map k).isNone).map fun k =>
      (recMap e.words + 8 * k) / 128)
  else []

/-- The entry with the map words of these sub-tiles read into it. -/
def mapRead (s : State) (e : RcEnt) (js : List Nat) : RcEnt :=
  js.foldl (fun e j =>
    match tget e.map (j / 64) with
    | some _ => e
    | none => { e with map := tset e.map (j / 64) (gword s (recMap e.words + 8 * (j / 64))) }) e

/-- The entry without the map words of these sub-tiles (R68). -/
def mapForget (e : RcEnt) (js : List Nat) : RcEnt :=
  js.foldl (fun e j => { e with map := terase e.map (j / 64) }) e

/-- Sub-tiles of these offsets that are not resident, lowest first. -/
def absentTiles (s : State) (e : RcEnt) (offs : List Nat) : List Nat :=
  if recMapped e.words then
    (sortUniq (offs.map (· / recTile e.words))).filter fun j => !residentIn s e j
  else []

/-- The checks after the record's own, in the order of R61, for bytes at `offs`. `bad` is the offset of
a coordinate access that is out of shape. An address outside the windows is told before one past EXTENT, and every
residency-map word consulted must lie inside the windows too (R81). -/
def checkAccess (s : State) (fr : Nat) (e : RcEnt) (perm : Need) (offs : List Nat) (bad : Option Nat)
    (migr : Bool) : Xl × State :=
  let ws := e.words
  let part := (dieOf s (fr / Config.framesPerDie)).part
  let gen := recGen ws
  let first := offs.headD (bad.getD 0)
  let maps := if recMapped ws then sortUniq ((offs.filter fun o => decide (o < recExtent ws)).map (· / (64 * recTile ws))) else []
  let mapBad := maps.any fun k => decide (ptrWin s part ws (recMap ws + 8 * k) = .denied)
  let mapOff := maps.any fun k => (tget e.map k).isNone && decide (ptrWin s part ws (recMap ws + 8 * k) = .offline)
  if !permOk ws perm then (.err .permission first gen, s)
  else if mapBad then (.err .permission first gen, s)
  else match offs.find? fun o => decide (winOf s part ws o = .denied) with
  | some o => (.err .permission o gen, s)
  | none =>
    if migr then (.stall, s)
    else if recState ws = 3 then (.err .retired first gen, s)
    else match bad.orElse fun _ => offs.find? fun o => decide (recExtent ws ≤ o) with
    | some o => (.err .outOfShape o gen, s)
    | none =>
      let need := mapLines e offs
      if recState ws = 2 then (.err .residency 0 gen, s)
      else if mapOff then (.err .homeOffline first gen, s)
      else
      let got := (frameOf s fr).recGot
      let refused (c : Nat) : Bool := need.any fun l => decide (gotCode got l = c)
      if need.any fun l => (tget got l).isNone then (.far (recHomeDie ws) need, s)
      else let s := dropGot s fr need
      if refused 4 then (.err .permission first gen, s)
      else if refused 8 then (.err .homeOffline first gen, s)
      else
      let found := gotPut s got need
      match absentTiles found e offs with
      | j :: js => (.err .residency (j * recTile ws) gen, rcUpdate s fr (mapForget e (j :: js)))
      | [] =>
        match offs.find? fun o => decide (winOf s part ws o = .offline) with
        | some o => (.err .homeOffline o gen, s)
        | none =>
          let e' := if recMapped ws then mapRead found e (sortUniq (offs.map (· / recTile ws))) else e
          (.ok (offs.map (devAddr ws)) e', rcUpdate s fr e')

/-- Translate byte offsets of a handle for a frame. -/
def translate (s : State) (fr h : Nat) (need : Need) (offs : List Nat) : Xl × State :=
  match rcLookup s fr h with
  | (.badHandle, s) => (.err .badHandle (offs.headD 0) 0, s)
  | (.badRecord g, s) => (.err .badRecord (offs.headD 0) g, s)
  | (.denied g, s) => (.err .permission (offs.headD 0) g, s)
  | (.offline g, s) => (.err .homeOffline (offs.headD 0) g, s)
  | (.far e lines, s) => (.far (recHomeDie e.words) lines, s)
  | (.migrating e, s) => checkAccess s fr e need offs none true
  | (.found e, s) => checkAccess s fr e need offs none false

/-- Handle and offset of a handle-tagged address (R62). -/
def tagHandle (a : Word) : Nat := fld a 44 20
def tagOff (a : Word) : Nat := fld a 0 44

/-- Translate `n` bytes at a handle-tagged address of the moving frame. -/
def translateTagged (s : State) (a : Word) (n : Nat) (need : Need) : Xl × State :=
  translate s s.cur (tagHandle a) need ((upto n).map (tagOff a + ·))

end Sys2Proof.Machine
end

