-- ==== Sys2Proof/Machine/FabricOut.lean ====
section
/-! DEFINITION. Requests that leave through the fabric ports (R107, R370, R371). -/

namespace Sys2Proof.Machine

/-- HOME_DIE of a handle's record, as the frame finds it. -/
def handleDie (s : State) (fr h : Nat) : Nat :=
  match (rcLookup s fr h).1 with
  | .found e => recHomeDie e.words
  | .migrating e => recHomeDie e.words
  | _ => 0

/-- BASE of a handle's record, as the frame finds it. -/
def handleBase (s : State) (fr h : Nat) : Nat :=
  match (rcLookup s fr h).1 with
  | .found e => recBase e.words
  | .migrating e => recBase e.words
  | _ => 0

/-- Generation of a handle's record, as the frame finds it (R66). -/
def handleGen (s : State) (fr h : Nat) : Nat :=
  match (rcLookup s fr h).1 with
  | .found e => recGen e.words
  | .migrating e => recGen e.words
  | _ => 0

/-! ### Requests of the generator core -/

/-- The requests of the instruction at pc so far. -/
def remNow (f : Frame) : Remote :=
  match f.rem with
  | some r => if r.pc = f.gen.pc ∧ r.ret = f.gen.instret then r else { pc := f.gen.pc, ret := f.gen.instret, got := [], err := none }
  | none => { pc := f.gen.pc, ret := f.gen.instret, got := [], err := none }

/-- The translation that the instruction at pc holds for an access (R70). -/
def heldXl (f : Frame) (a : Word) (n : Nat) (code : Bool) : Option HeldXl :=
  (remNow f).held.find? fun h => decide (h.addr = a) && decide (h.len = n) && decide (h.code = code)

/-- The translation of an access, as it is to be held. -/
def newXl (s : State) (a : Word) (n : Nat) (code : Bool) (das : List Nat) : HeldXl :=
  (heldXl (curFrame s) a n code).getD
    { addr := a, len := n, code := code, das := das, gen := handleGen s s.cur (tagHandle a), die := handleDie s s.cur (tagHandle a) }

/-- Hold a translation. -/
def holdXl (r : Remote) (x : HeldXl) : Remote := if r.held.contains x then r else { r with held := r.held ++ [x] }

/-- The instruction at pc has asked another package for bytes, or for lines of a record, and is not done with them. -/
def remWaits (f : Frame) : Bool := !(remNow f).held.isEmpty || (remNow f).asks

/-- The instruction at pc has requests on their way to another package, or goes on with what their replies brought. -/
def remBusy (f : Frame) : Bool :=
  match f.gen.stall with
  | some .remote => true
  | some (.gwait ..) | none => remWaits f
  | _ => false

/-- What the instruction's replies have brought stands where it reads it. -/
def remPut (s : State) : State := wiredPut s (remNow (curFrame s)).had

/-- Lines of another package that accesses of the frame's data are on their way to, or whose replies one has not used: the
engines', and with `gen` the generator's. -/
def linesOut (s : State) (fr : Nat) (gen : Bool) : List Nat :=
  let f := frameOf s fr
  let ofGen (w : Nat) : Bool := decide (4 ≤ w) && decide (w ≤ 6)
  let out := (s.edge.flitsWait ++ s.edge.parked).filter fun o =>
    decide (o.frame = fr) && decide (o.work ≤ 8) && (gen || !ofGen o.work)
  out.map (fun o => o.base / 128) ++
    (if gen && remBusy f then ((remNow f).held.filter fun x => !x.code).flatMap fun x => x.das.map (· / 128) else []) ++
    f.vec.loads.flatMap fun l => match l.far with | some x => x.das.map (· / 128) | none => []

/-- One of these bytes of another package lies in a line that another access of the moving frame is on its way to: the
frame's accesses of one such line follow one another, so that its L1 and its paths meet them in the order their home does
(R91, R92, R94). The generator's own instruction (`gen` false) does not wait for itself. -/
def farBusy (s : State) (das : List Nat) (gen : Bool := true) : Bool :=
  let out := linesOut s s.cur gen
  (das.filter isRemote).any fun a => out.contains (a / 128)

/-- Send the requests of an engine's piece of work, in turn with the frame's other accesses of their lines. -/
def sendFar (s : State) (n : Nat) (k : ReqKind) (poison : Nat → Bool) (bytes : List (Nat × Byte)) : State :=
  if awaits s s.cur k.work n || farBusy s (bytes.map (·.1)) then s else sendRemote s s.cur n k poison bytes

/-- Lines of another package among device addresses; those the L1 serves at frame scope are left out. -/
def farLines (f : Frame) (das : List Nat) (scope : Scope) : List Nat :=
  (sortUniq ((das.filter isRemote).map (· / 128))).filter fun l =>
    !(decide (scope = .fr) && f.sram.l1.any fun e => decide (e.line = l))

end Sys2Proof.Machine
end

