-- ==== Sys2Proof/Machine/Flags.lean ====
section
/-! DEFINITION. The condition flags of the vector engine: the bits of CF[L] and of VCOND, and how an
issue records them (R36, R280, R307 to R309). -/

namespace Sys2Proof.Machine

/-- A set of conditions, laid out as CF[L] (R307). -/
abbrev Cond := BitVec 6

def condNX : Cond := 0x01
def condUF : Cond := 0x02
def condOF : Cond := 0x04
def condDZ : Cond := 0x08
def condIV : Cond := 0x10
def condSAT : Cond := 0x20

/-- A condition that holds or not. -/
def condIf (b : Bool) (c : Cond) : Cond := if b then c else 0

/-- CF[L]. -/
def cfOf (v : Vec) (L : Nat) : Cond := tgetD v.cf L 0

/-- OR conditions into CF[L] (R307). -/
def cfRecord (v : Vec) (L : Nat) (c : Cond) : Vec := { v with cf := tput 0 v.cf L (cfOf v L ||| c) }

/-- Record one condition set per lane: `cs L` for each lane of the list. -/
def cfRecords (v : Vec) (lanes : List Nat) (cs : Nat → Cond) : Vec :=
  lanes.foldl (fun v L => if cs L = 0 then v else cfRecord v L (cs L)) v

/-- Clear CF[L]. -/
def cfClear (v : Vec) (L : Nat) : Vec := { v with cf := terase v.cf L }

/-- VCOND: the conditions any lane holds (R308). -/
def vcond (v : Vec) : Word := (v.cf.foldl (fun acc e => acc ||| e.2) (0 : Cond)).zeroExtend 64

end Sys2Proof.Machine
end

