-- ==== Sys2Proof/Machine/Float.lean ====
section
/-! DEFINITION. Floating point: FP32, BF16 and FP16 decoded to exact dyadic numbers, one rounding
function with the conditions of R36, arithmetic, comparison, seeds and conversion (R30 to R37, R296 to
R303), block elements (R39 to R43). -/

namespace Sys2Proof.Machine

/-- A binary format: exponent and fraction bits (R30). -/
structure FFmt where
  eb : Nat
  fb : Nat
  deriving DecidableEq, Repr

def fmtF32 : FFmt := ⟨8, 23⟩
def fmtBF16 : FFmt := ⟨8, 7⟩
def fmtF16 : FFmt := ⟨5, 10⟩

def FFmt.bias (f : FFmt) : Nat := 2 ^ (f.eb - 1) - 1
/-- Exponent of the smallest normal. -/
def FFmt.emin (f : FFmt) : Int := 1 - (f.bias : Int)
/-- Bits of a positive infinity. -/
def FFmt.inf (f : FFmt) : Nat := (2 ^ f.eb - 1) * 2 ^ f.fb
/-- Canonical NaN (R32). -/
def FFmt.nan (f : FFmt) : Nat := f.inf + 2 ^ (f.fb - 1)
/-- Largest finite. -/
def FFmt.maxFin (f : FFmt) : Nat := f.inf - 1
/-- The sign bit's weight. -/
def FFmt.sign (f : FFmt) : Nat := 2 ^ (f.eb + f.fb)

/-- A decoded operand; `fin neg m e` is ±m·2^e. -/
inductive FVal
  | nan
  | inf (neg : Bool)
  | fin (neg : Bool) (m : Nat) (e : Int)
  deriving DecidableEq, Repr

/-- Decode element bits (R30, R31). -/
def fdec (f : FFmt) (bits : Nat) : FVal :=
  let neg := decide (f.sign ≤ bits % (2 * f.sign))
  let ex := bits / 2 ^ f.fb % 2 ^ f.eb
  let fr := bits % 2 ^ f.fb
  if ex = 2 ^ f.eb - 1 then (if fr = 0 then .inf neg else .nan)
  else if ex = 0 then .fin neg fr (f.emin - f.fb)
  else .fin neg (2 ^ f.fb + fr) ((ex : Int) - f.bias - f.fb)

def fsigned (f : FFmt) (neg : Bool) (bits : Nat) : Nat := if neg then f.sign + bits else bits

/-! ### Rounding (R33 to R36) -/

/-- Round m / 2^k to an integer by mode and sign. -/
def roundShift (rm : RoundMode) (neg : Bool) (m k : Nat) : Nat :=
  let q := m / 2 ^ k
  let r := m % 2 ^ k
  let up : Bool := match rm with
    | .rne => decide (2 ^ k < 2 * r) || (decide (2 * r = 2 ^ k) && decide (q % 2 = 1))
    | .rtz => false
    | .rup => decide (r ≠ 0) && !neg
    | .rdn => decide (r ≠ 0) && neg
  if up ∧ k ≠ 0 then q + 1 else q

/-- m·2^e rounded to a multiple of 2^q: the multiple. -/
def roundTo (rm : RoundMode) (neg : Bool) (m : Nat) (e q : Int) : Nat :=
  if q ≤ e then m * 2 ^ (e - q).toNat else roundShift rm neg m (q - e).toNat

/-- m·2^e is a multiple of 2^q. -/
def exactAt (m : Nat) (e q : Int) : Bool :=
  decide (q ≤ e) || decide (m % 2 ^ (q - e).toNat = 0)

/-- Bits of n·2^q, with n at most 2^(fb+1), q the quantum of its binade or the subnormal quantum. -/
def fpack (f : FFmt) (n : Nat) (q : Int) : Nat :=
  if n < 2 ^ f.fb then n
  else if n = 2 ^ (f.fb + 1) then (q + 1 + f.fb + f.bias).toNat * 2 ^ f.fb
  else (q + f.fb + f.bias).toNat * 2 ^ f.fb + (n - 2 ^ f.fb)

/-- What overflow delivers (R34). -/
def overflowBits (f : FFmt) (rm : RoundMode) (neg : Bool) : Nat :=
  match rm, neg with
  | .rne, _ => f.inf
  | .rtz, _ => f.maxFin
  | .rup, false => f.inf
  | .rup, true => f.maxFin
  | .rdn, false => f.maxFin
  | .rdn, true => f.inf

/-- Round ±m·2^e once: bits and conditions. m = 0 gives a zero of that sign. -/
def fround (f : FFmt) (rm : RoundMode) (neg : Bool) (m : Nat) (e : Int) : Nat × Cond :=
  if m = 0 then (fsigned f neg 0, 0)
  else
    let top : Int := Nat.log2 m + e
    let qu : Int := top - f.fb
    let q : Int := max qu (f.emin - f.fb)
    let n := roundTo rm neg m e q
    let nx := !exactAt m e q
    let nu := roundTo rm neg m e qu
    let ovf := decide (2 ^ (f.fb + 1) * 2 ^ (f.bias - f.fb + 256) ≤ n * 2 ^ (q + 256).toNat)
    let tiny := decide (nu * 2 ^ (qu + 512).toNat < 2 ^ (f.emin + 512).toNat)
    if ovf then (fsigned f neg (overflowBits f rm neg), condOF ||| condNX)
    else (fsigned f neg (fpack f n q), condIf nx condNX ||| condIf (tiny && nx) condUF)

/-! ### Arithmetic (R35, R36, R296) -/

/-- A signed dyadic as an integer at exponent `e`. -/
def atExp (neg : Bool) (m : Nat) (me e : Int) : Int :=
  let v : Int := (m * 2 ^ (me - e).toNat : Nat)
  if neg then -v else v

/-- Round an exact sum of two finite numbers; zero sums by R35. -/
def sumFin (f : FFmt) (rm : RoundMode) (n1 : Bool) (m1 : Nat) (e1 : Int) (n2 : Bool) (m2 : Nat)
    (e2 : Int) : Nat × Cond :=
  let e := min e1 e2
  let v := atExp n1 m1 e1 e + atExp n2 m2 e2 e
  if v = 0 then
    let neg := if m1 = 0 ∧ m2 = 0 ∧ n1 = n2 then n1 else decide (rm = .rdn)
    (fsigned f neg 0, 0)
  else fround f rm (decide (v < 0)) v.natAbs e

def fnan (f : FFmt) : Nat × Cond := (f.nan, 0)
def finvalid (f : FFmt) : Nat × Cond := (f.nan, condIV)

/-- a + b. -/
def fadd (f : FFmt) (rm : RoundMode) (a b : FVal) : Nat × Cond :=
  match a, b with
  | .nan, _ => fnan f
  | _, .nan => fnan f
  | .inf x, .inf y => if x = y then (fsigned f x f.inf, 0) else finvalid f
  | .inf x, .fin .. => (fsigned f x f.inf, 0)
  | .fin .., .inf y => (fsigned f y f.inf, 0)
  | .fin n1 m1 e1, .fin n2 m2 e2 => sumFin f rm n1 m1 e1 n2 m2 e2

/-- −a. -/
def fneg : FVal → FVal
  | .nan => .nan
  | .inf n => .inf (!n)
  | .fin n m e => .fin (!n) m e

/-- a − b: the sum a + (−b). -/
def fsub (f : FFmt) (rm : RoundMode) (a b : FVal) : Nat × Cond := fadd f rm a (fneg b)

/-- The exact product; none for 0 × Inf. -/
def fprod (a b : FVal) : Option FVal :=
  match a, b with
  | .nan, _ => some .nan
  | _, .nan => some .nan
  | .inf x, .inf y => some (.inf (x != y))
  | .inf x, .fin y m _ => if m = 0 then none else some (.inf (x != y))
  | .fin x m _, .inf y => if m = 0 then none else some (.inf (x != y))
  | .fin x m e, .fin y n g => some (.fin (x != y) (m * n) (e + g))

/-- a · b. -/
def fmul (f : FFmt) (rm : RoundMode) (a b : FVal) : Nat × Cond :=
  match fprod a b with
  | none => finvalid f
  | some .nan => fnan f
  | some (.inf n) => (fsigned f n f.inf, 0)
  | some (.fin n m e) => fround f rm n m e

/-- d + a·b, or d − a·b, rounded once. -/
def ffma (f : FFmt) (rm : RoundMode) (d a b : FVal) (negate : Bool) : Nat × Cond :=
  match fprod a b with
  | none => finvalid f
  | some p => fadd f rm d (if negate then fneg p else p)

/-! ### Order (R297, R298) -/

/-- A key that orders non-NaN bits, −0 below +0. -/
def fkey (f : FFmt) (bits : Nat) : Int :=
  let b := bits % (2 * f.sign)
  if f.sign ≤ b then -((b - f.sign : Nat) : Int) - 1 else (b : Int)

def isNan (f : FFmt) (bits : Nat) : Bool := decide (fdec f bits = .nan)

/-- minimum and maximum of IEEE 754-2019 (R297). -/
def fmin (f : FFmt) (a b : Nat) : Nat :=
  if isNan f a || isNan f b then f.nan else if fkey f b < fkey f a then b else a
def fmax (f : FFmt) (a b : Nat) : Nat :=
  if isNan f a || isNan f b then f.nan else if fkey f a < fkey f b then b else a

/-- Comparison by value: +0 equals −0; a NaN makes only NE true (R298). -/
def fcmp (f : FFmt) (c : CmpCond) (a b : Nat) : Bool :=
  let z (k : Int) : Int := if k = -1 then 0 else k
  let x := z (fkey f a)
  let y := z (fkey f b)
  if isNan f a || isNan f b then decide (c = .ne)
  else match c with
    | .eq => decide (x = y) | .ne => decide (x ≠ y) | .lt => decide (x < y) | .le => decide (x ≤ y)

/-! ### Seeds (R300, R301) -/

/-- Quotient of naturals rounded to nearest, ties to even, and whether it is exact. -/
def divRne (a b : Nat) : Nat × Bool :=
  let q := a / b
  let r := a % b
  (if b < 2 * r ∨ (2 * r = b ∧ q % 2 = 1) then q + 1 else q, decide (r = 0))

/-- Integer square root, from bit `i` down. -/
def isqrt (n : Nat) : Nat → Nat → Nat
  | 0, r => if (r + 1) * (r + 1) ≤ n then r + 1 else r
  | i + 1, r =>
    let t := r + 2 ^ (i + 1)
    isqrt n i (if t * t ≤ n then t else r)

/-- 2^t / √M rounded to nearest even, and whether it is exact. -/
def rsqrtRne (M t : Nat) : Nat × Bool :=
  let n := isqrt (4 ^ t / M) 20 0
  let w := (2 * n + 1) * (2 * n + 1) * M
  (if w < 4 * 4 ^ t ∨ (w = 4 * 4 ^ t ∧ n % 2 = 1) then n + 1 else n, decide (n * n * M = 4 ^ t))

/-- Grid exponent of a seed whose exact value has floor(log2) q (R300). Of a subnormal F32 seed R300 also says that it is
within half of 2^−149 of the exact value, which its own grid of 2^(q − 12) does not give: the model follows the grid, DESIGN
CHOICE (assumption 49). -/
def seedGrid (f : FFmt) (q : Int) : Int :=
  if f = fmtF32 then max q (-137) - 12 else max q f.emin - f.fb

/-- Bits and conditions of the seed n·2^g (R301). -/
def seedPack (f : FFmt) (neg : Bool) (n : Nat) (g : Int) (exact : Bool) : Nat × Cond :=
  let r := (fround f .rtz neg n g).1
  let ovf := decide (2 ^ (f.bias + 1 + 256) ≤ n * 2 ^ (g + 256).toNat)
  let small := decide (n * 2 ^ (g + 512).toNat < 2 ^ (f.emin + 512).toNat)
  if ovf then (fsigned f neg f.inf, condOF ||| condIf (!exact || true) condNX)
  else (r, condIf (!exact) condNX ||| condIf (small && !exact) condUF)

/-- Seed of 1/a. -/
def frcp (f : FFmt) (a : FVal) : Nat × Cond :=
  match a with
  | .nan => fnan f
  | .inf n => (fsigned f n 0, 0)
  | .fin n m e =>
    if m = 0 then (fsigned f n f.inf, condDZ)
    else
      let l := Nat.log2 m
      let q : Int := if m = 2 ^ l then -(l + e) else -(l + e) - 1
      let g := seedGrid f q
      let t := -e - g
      let r := if 0 ≤ t then divRne (2 ^ t.toNat) m else divRne 1 (m * 2 ^ (-t).toNat)
      seedPack f n r.1 g r.2

/-- Seed of 1/√a. -/
def frsq (f : FFmt) (a : FVal) : Nat × Cond :=
  match a with
  | .nan => fnan f
  | .inf n => if n then finvalid f else (0, 0)
  | .fin n m e =>
    if m = 0 then (fsigned f n f.inf, condDZ)
    else if n then finvalid f
    else
      let odd := decide (e % 2 = 1)
      let M := if odd then 2 * m else m
      let h : Int := (if odd then e - 1 else e) / 2
      let l := Nat.log2 M
      let q : Int := (if M = 2 ^ l ∧ l % 2 = 0 then -((l / 2 : Nat) : Int) else -((l / 2 : Nat) : Int) - 1) - h
      let g := seedGrid f q
      let r := rsqrtRne M (-h - g).toNat
      seedPack f false r.1 g r.2

end Sys2Proof.Machine

namespace Sys2Proof

open Sys2Proof.Machine in
/-- The floating format of a type. -/
def ElemType.ffmt : ElemType → FFmt
  | .bf16 => fmtBF16 | .f16 => fmtF16 | _ => fmtF32

/-- Element bytes of a scalar type (R256). -/
def ElemType.esz : ElemType → Nat
  | .s8 | .n8 => 1 | .s16 | .n16 | .bf16 | .f16 => 2 | _ => 4

def ElemType.isSigned : ElemType → Bool
  | .s8 | .s16 | .s32 => true
  | _ => false

/-- The floating types. -/
def ElemType.isFl (t : ElemType) : Bool :=
  match t with | .f32 | .bf16 | .f16 => true | _ => false

end Sys2Proof

namespace Sys2Proof.Machine

/-! ### Element types and conversion (R37, R302, R303) -/

/-- Range of an integer type (R38). -/
def intMin (t : ElemType) : Int := if t.isSigned then -(2 ^ (8 * t.esz - 1) : Nat) else 0
def intMax (t : ElemType) : Int :=
  if t.isSigned then (2 ^ (8 * t.esz - 1) : Nat) - 1 else (2 ^ (8 * t.esz) : Nat) - 1

/-- Value of element bits in an integer type. -/
def intVal (t : ElemType) (bits : Nat) : Int :=
  if t.isSigned then sgn (8 * t.esz) bits else (bits % 2 ^ (8 * t.esz) : Nat)

/-- Bits of an integer in an integer type, wrapping. -/
def intBits (t : ElemType) (v : Int) : Nat := wrapNat (8 * t.esz) v

/-- Clamp into an integer type. -/
def clampInt (t : ElemType) (v : Int) : Int :=
  if v < intMin t then intMin t else if intMax t < v then intMax t else v

/-- Round a finite number to an integer. -/
def toIntRound (rm : RoundMode) (neg : Bool) (m : Nat) (e : Int) : Int :=
  let n : Int := roundTo rm neg m e 0
  if neg then -n else n

/-- Float to integer: round, clamp, conditions (R36, R303). -/
def fToInt (t : ElemType) (rm : RoundMode) (a : FVal) : Nat × Cond :=
  match a with
  | .nan => (0, condIV)
  | .inf n => (intBits t (if n then intMin t else intMax t), condIV)
  | .fin n m e =>
    let v := toIntRound rm n m e
    if clampInt t v ≠ v then (intBits t (clampInt t v), condIV)
    else (intBits t v, condIf (!exactAt m e 0) condNX)

/-- Integer to float. -/
def intToF (f : FFmt) (rm : RoundMode) (v : Int) : Nat × Cond := fround f rm (decide (v < 0)) v.natAbs 0

/-- Float to float (R37). -/
def fToF (f : FFmt) (rm : RoundMode) (a : FVal) : Nat × Cond :=
  match a with
  | .nan => fnan f
  | .inf n => (fsigned f n f.inf, 0)
  | .fin n m e => fround f rm n m e

/-- Convert one element (R303). -/
def convert (dst src : ElemType) (rm : RoundMode) (bits : Nat) : Nat × Cond :=
  match src.isFl, dst.isFl with
  | true, true => fToF dst.ffmt rm (fdec src.ffmt bits)
  | true, false => fToInt dst rm (fdec src.ffmt bits)
  | false, true => intToF dst.ffmt rm (intVal src bits)
  | false, false =>
    let v := intVal src bits
    (intBits dst (clampInt dst v), condIf (decide (clampInt dst v ≠ v)) condSAT)

/-- The element bits of a scalar broadcast `#n` in a type (R120). -/
def constBits (t : ElemType) (n : Int) : Nat :=
  if t.isFl then (intToF t.ffmt .rne n).1 else intBits t n

/-! ### Block elements (R40 to R43) -/

/-- Element width of a block format. -/
def mxWidth : ElemType → Nat
  | .mx8 => 8 | .mx6 => 6 | _ => 4

/-- Implied scale f = w − 2. -/
def mxF (t : ElemType) : Nat := mxWidth t - 2

/-- Plane sizes (R42). -/
def mxSz1 : ElemType → Nat
  | .mx8 => 64 | _ => 32
def mxSz2 : ElemType → Nat
  | .mx6 => 16 | _ => 0

/-- Element i of a block whose planes stand in `p1` and `p2` (R42). -/
def mxElem (t : ElemType) (p1 p2 : Nat → Byte) (i : Nat) : Nat :=
  match t with
  | .mx8 => (p1 i).toNat
  | .mx6 => fld (p1 (i / 2)) (4 * (i % 2)) 4 + 16 * fld (p2 (i / 4)) (2 * (i % 4)) 2
  | _ => fld (p1 (i / 2)) (4 * (i % 2)) 4

/-- Dequantise an element exactly (R40, R41). The most negative element under scale 0xFE is −2^128, which neither FP32 nor
BF16 holds although R41 calls every dequantisation exact: the model delivers −Inf and no condition, DESIGN CHOICE
(assumption 49). -/
def mxToF (f : FFmt) (t : ElemType) (scale : Nat) (q : Nat) : Nat :=
  if scale = 255 then f.nan
  else
    let v := sgn (mxWidth t) q
    (fround f .rne (decide (v < 0)) v.natAbs ((scale : Int) - 127 - mxF t)).1

/-- floor(log2) of the largest magnitude of finite numbers; none when all are zero. -/
def maxExp : List FVal → Option Int
  | [] => none
  | .fin _ m e :: r =>
    let here : Option Int := if m = 0 then none else some (Nat.log2 m + e)
    match here, maxExp r with
    | some a, some b => some (max a b)
    | some a, none => some a
    | none, x => x
  | _ :: r => maxExp r

/-- Quantise a block (R43): scale and elements. -/
def quantise (t : ElemType) (rm : RoundMode) (xs : List FVal) : Nat × List Int :=
  let w := mxWidth t
  let bad := xs.any fun x => match x with | .fin .. => false | _ => true
  if bad then (255, xs.map fun _ => 0)
  else match maxExp xs with
    | none => (0, xs.map fun _ => 0)
    | some X0 =>
      let X := max X0 (-127)
      let lo : Int := -(2 ^ (w - 1) : Nat)
      let hi : Int := (2 ^ (w - 1) : Nat) - 1
      let q (x : FVal) : Int := match x with
        | .fin n m e =>
          let v := toIntRound rm n m (e + mxF t - X)
          if v < lo then lo else if hi < v then hi else v
        | _ => 0
      ((X + 127).toNat, xs.map q)

/-- Element i of 64 placed in a plane byte: the bytes of a block's planes (R42). -/
def mxPlanes (t : ElemType) (q : List Int) : List Byte :=
  let e (i : Nat) : Nat := wrapNat (mxWidth t) (q.getD i 0)
  match t with
  | .mx8 => (upto 64).map fun i => BitVec.ofNat 8 (e i)
  | .mx6 =>
    ((upto 32).map fun i => BitVec.ofNat 8 (e (2 * i) % 16 + 16 * (e (2 * i + 1) % 16))) ++
    ((upto 16).map fun i => BitVec.ofNat 8
      (e (4 * i) / 16 + 4 * (e (4 * i + 1) / 16) + 16 * (e (4 * i + 2) / 16) + 64 * (e (4 * i + 3) / 16)))
  | _ => (upto 32).map fun i => BitVec.ofNat 8 (e (2 * i) + 16 * e (2 * i + 1))

end Sys2Proof.Machine
end

