-- ==== Sys2Proof/Machine/Legal.lean ====
section
/-! DEFINITION. Which field values the encodings allow: the ILLEGAL_BUNDLE cases of slot words (R131)
and the illegal-instruction cases of the generator extension (R137), one check per format. -/

namespace Sys2Proof

/-! ### Element types, by the column Types of R128 -/

/-- TYPE codes 0 to 5. -/
def ElemType.isInt : ElemType → Bool
  | .s8 | .n8 | .s16 | .n16 | .s32 | .n32 => true
  | _ => false

/-- TYPE codes 6 and 7: the types the vector engine computes in. -/
def ElemType.isFloat : ElemType → Bool
  | .f32 | .bf16 => true
  | _ => false

/-- TYPE codes 9 to 11: the block formats. -/
def ElemType.isMx : ElemType → Bool
  | .mx8 | .mx6 | .mx4 => true
  | _ => false

/-- TYPE codes 0 to 7. -/
def ElemType.isArith (t : ElemType) : Bool := t.isInt || t.isFloat

/-- TYPE codes 0 to 8. -/
def ElemType.isScalar (t : ElemType) : Bool := !t.isMx

/-! ### Operand fields (R120, R121) -/

/-- DIR 3: a special operand. -/
def Opd.special (o : Opd) : Bool := o.dir == 3

/-- A port operand, Q0 to Q7. -/
def Opd.isPort (o : Opd) : Bool := o.dir == 3 && decide (o.idx.toNat < 8)

/-- The operand ZERO. -/
def Opd.isZero (o : Opd) : Bool := o.dir == 3 && o.idx == 0x100

/-- A scalar broadcast `#n`. -/
def Opd.isConst (o : Opd) : Bool := o.dir == 3 && decide (0x200 ≤ o.idx.toNat)

/-- The port number of a port operand. -/
def Opd.port (o : Opd) : Nat := o.idx.toNat

/-- A legal source operand: LAST only with DIR 0, and a special index of R120. -/
def Opd.okSrc (o : Opd) : Bool :=
  (!o.last || o.dir == 0) && (!o.special || o.isPort || o.isZero || o.isConst)

/-- A legal destination operand: no LAST, no scalar broadcast. -/
def Opd.okDst (o : Opd) : Bool :=
  !o.last && (!o.special || o.isPort || o.isZero)

/-- A legal guard: SENSE and PRED are zero when EN is 0 (R123). -/
def Guard.ok (g : Guard) : Bool := g.en || (!g.sense && g.pred == 0)

/-! ### Vector formats (R124, R128, R311) -/

/-- What VR words share: guard, operands, TYPE in the column and RM zero unless it rounds. -/
def VR.okBase (f : VR) (tyOk rounds : Bool) : Bool :=
  f.g.ok && f.d.okDst && f.a.okSrc && f.b.okSrc && tyOk && (rounds || f.rm == .rne)

/-- VADD and VSUB: SAT for integer types only. -/
def VR.okAdd (f : VR) : Bool :=
  f.okBase f.ty.isArith f.ty.isFloat && (f.mod == 0 || (f.mod == 1 && f.ty.isInt))

/-- VMUL. -/
def VR.okMul (f : VR) : Bool := f.okBase f.ty.isArith f.ty.isFloat && f.mod == 0

/-- VMIN and VMAX. -/
def VR.okMinMax (f : VR) : Bool := f.okBase f.ty.isArith false && f.mod == 0

/-- VMULH, VSHL and VSHR: integer types. -/
def VR.okInt (f : VR) : Bool := f.okBase f.ty.isInt false && f.mod == 0

/-- The operations of TYPE 5 only: logic and VPERM. -/
def VR.okN32 (f : VR) : Bool := f.okBase (f.ty == .n32) false && f.mod == 0

/-- VFSHL and VFSHR: D is also read, so it is a register (R279). -/
def VR.okFunnel (f : VR) : Bool := f.okN32 && !f.d.special

/-- VFMA: D is also read; MOD[1] is zero (R296). -/
def VR.okFma (f : VR) : Bool :=
  f.okBase f.ty.isFloat true && !f.d.special && (f.mod == 0 || f.mod == 1)

/-- VSEL: EN must be 1 (R282). -/
def VR.okSel (f : VR) : Bool := f.okBase f.ty.isArith false && f.mod == 0 && f.g.en

/-- VGATH: A is a row operand without LAST (R285). -/
def VR.okGath (f : VR) : Bool := f.okN32 && f.a.dir == 0 && !f.a.last

/-- What VU words share. -/
def VU.okBase (f : VU) (tyOk rounds : Bool) : Bool :=
  f.g.ok && f.d.okDst && f.a.okSrc && tyOk && (rounds || f.rm == .rne)

/-- VCLZ and VPOPC. -/
def VU.okCount (f : VU) : Bool := f.okBase f.ty.isInt false

/-- VRCP and VRSQ. -/
def VU.okSeed (f : VU) : Bool := f.okBase f.ty.isFloat false

/-- VQNT. -/
def VU.okQnt (f : VU) : Bool := f.okBase f.ty.isMx true

/-- VCMP. -/
def VP.ok (f : VP) : Bool := f.g.ok && f.a.okSrc && f.b.okSrc && f.ty.isArith

/-- PLOG. -/
def VPL.ok (f : VPL) : Bool := f.g.ok

/-- VRSUM rounds at floating types; k = 7 is reserved. -/
def VK.okSum (f : VK) : Bool :=
  f.g.ok && f.d.okDst && f.a.okSrc && f.ty.isArith && (f.ty.isFloat || f.rm == .rne) && f.k != 7

/-- VRMAX and VRMIN: RM zero. -/
def VK.okMax (f : VK) : Bool :=
  f.g.ok && f.d.okDst && f.a.okSrc && f.ty.isArith && f.rm == .rne && f.k != 7

/-- VCVT: scalar types; STEP zero with a special A (R302). -/
def VCv.okCvt (f : VCv) : Bool :=
  f.g.ok && f.d.okDst && f.a.okSrc && f.src.isScalar && f.ty.isScalar && (!f.a.special || f.step == 0)

/-- VDQT: A is a row or a port; RM zero (R306). -/
def VCv.okDqt (f : VCv) : Bool :=
  f.g.ok && f.d.okDst && f.a.okSrc && f.src.isMx && f.ty.isFloat && f.rm == .rne
    && (f.a.dir == 0 || f.a.isPort)

/-- VFLAGS: D a register or ZERO; selectors 0 to 4 (R309). -/
def VFl.ok (f : VFl) : Bool :=
  f.g.ok && f.d.okDst && !f.d.isPort && decide (f.sel.toNat ≤ 4)

/-- DATA of a VM word: DIR 0, a port or ZERO (R287). -/
def Opd.okData (o : Opd) : Bool := o.dir == 0 || o.isPort || o.isZero

/-- ADDR of a VM word: any source but a port (R287). -/
def Opd.okAddr (o : Opd) : Bool := o.okSrc && !o.isPort

/-- VLD and VLDU: DATA is a destination; FE allowed; no release. -/
def VM.okLoad (f : VM) : Bool :=
  f.g.ok && f.data.okData && f.data.okDst && f.addr.okAddr && (f.ord == .rlx || f.ord == .acq) && f.ty.isScalar

/-- VLDG: as a load, with FE zero (R290). -/
def VM.okLoadG (f : VM) : Bool := f.okLoad && f.fe == .none

/-- VST, VSTU and VSTG: DATA is a source; FE zero; no acquire. -/
def VM.okStore (f : VM) : Bool :=
  f.g.ok && f.data.okData && f.data.okSrc && f.addr.okAddr && (f.ord == .rlx || f.ord == .rel)
    && f.fe == .none && f.ty.isScalar

/-- VAMO: DATA is a row without LAST; the operation's types (R292). -/
def VAm.ok (f : VAm) : Bool :=
  f.g.ok && f.data.dir == 0 && !f.data.last && f.addr.okAddr
    && (match f.op with
        | .and | .or | .xor => f.ty == .n32
        | _ => f.ty == .s32 || f.ty == .n32 || f.ty == .f32)

/-- VFEC (R291). -/
def VFe.ok (f : VFe) : Bool := f.g.ok && f.addr.okAddr

/-- VBREL: EN must be 1 (R274). -/
def VBr.ok (f : VBr) : Bool := f.g.ok && f.g.en

/-! ### Bead and copy formats -/

/-- A range f, n with f + n at most 64 (R238). -/
def ARange.ok (r : ARange) : Bool := decide (r.first.toNat + r.nm1.toNat < 64)

/-- BGRID: KG·NG at most 64 (R239). -/
def bgridOk (kgm1 ngm1 : BitVec 6) : Bool :=
  decide ((kgm1.toNat + 1) * (ngm1.toNat + 1) ≤ 64)

/-- BSTEP, the six cases of R242. -/
def BStep.ok (f : BStep) : Bool :=
  !f.d.last && !f.bnd.last && (f.d.dir == 0 || f.d.dir == 1)
    && (f.bnd.dir == 0 || f.bnd.dir == 1 || f.bnd.isZero)
    && f.a.isPort && !f.a.last && decide (f.beam.toNat ≤ 4) && decide (f.sexp.toNat ≤ 20)
    && (f.bnd.isZero || f.bnd.idx.extractLsb' 0 6 == f.d.idx.extractLsb' 0 6)

/-- BLDP: A is a port (R247). -/
def BLdp.ok (f : BLdp) : Bool := f.r.ok && f.a.isPort && !f.a.last

/-- BCALR: a row destination without LAST (R252). -/
def bcalrOk (d : Opd) : Bool := d.dir == 0 && !d.last

/-- BCALW: a row or ZERO (R252). -/
def bcalwOk (a : Opd) : Bool := a.dir == 0 || (a.isZero && !a.last)

/-- Copy operations take RLX or REL (R89, R317). -/
def Ordering4.okCopy (o : Ordering4) : Bool := o == .rlx || o == .rel

/-- CRLD: the array range of R324. -/
def CRld.ok (f : CRld) : Bool := f.r.ok

/-- LOOP, PHASE, WAITC, VJOIN and SETFMT allow every field value (R146). -/
def controlOk : Bool := true

/-! ### Generator forms -/

/-- POS + WIDTH at most 320 (R134). -/
def kinsOk (pos : BitVec 9) (wm1 : BitVec 6) : Bool := decide (pos.toNat + wm1.toNat < 320)

/-- Word shifts use five bits of the amount. -/
def IntOp.ok : IntOp → Bool
  | .shift op _ _ sh =>
    match op with
    | .slliw | .srliw | .sraiw | .roriw => decide (sh.toNat < 32)
    | _ => true
  | _ => true

/-- The two words of the handler's return are instructions of their own (R207). -/
def csrOk (op : CsrOp) (rd : BitVec 5) (src : CsrSrc) (csr : BitVec 12) : Bool :=
  !(op == .rw && rd == 0 && csr == 0x805 && (src == .imm 4 || src == .imm 12))

/-- The encodings' limits, step by step; steps that have no encoding have no limit of this kind. -/
def Instr.legal : Instr → Bool
  | .bgrid k n => bgridOk k n
  | .bstep f => f.ok
  | .bldp f => f.ok
  | .bswap r => r.ok
  | .bcal r => r.ok
  | .bcalr d _ _ => bcalrOk d
  | .bcalw a _ _ => bcalwOk a
  | .vadd f => f.okAdd
  | .vsub f => f.okAdd
  | .vmul f => f.okMul
  | .vmulh f => f.okInt
  | .vmin f => f.okMinMax
  | .vmax f => f.okMinMax
  | .vfma f => f.okFma
  | .vand f => f.okN32
  | .vor f => f.okN32
  | .vxor f => f.okN32
  | .vandn f => f.okN32
  | .vshl f => f.okInt
  | .vshr f => f.okInt
  | .vfshl f => f.okFunnel
  | .vfshr f => f.okFunnel
  | .vclz f => f.okCount
  | .vpopc f => f.okCount
  | .vcmp f => f.ok
  | .vsel f => f.okSel
  | .plog f => f.ok
  | .vperm f => f.okN32
  | .vgath f => f.okGath
  | .vrsum f => f.okSum
  | .vrmax f => f.okMax
  | .vrmin f => f.okMax
  | .vrcp f => f.okSeed
  | .vrsq f => f.okSeed
  | .vcvt f => f.okCvt
  | .vqnt f => f.okQnt
  | .vdqt f => f.okDqt
  | .vflags f => f.ok
  | .vld f => f.okLoad
  | .vst f => f.okStore
  | .vldu f => f.okLoad
  | .vstu f => f.okStore
  | .vldg f => f.okLoadG
  | .vstg f => f.okStore
  | .vamo f => f.ok
  | .vfec f => f.ok
  | .vbrelRet f => f.ok
  | .vbrelOff f => f.ok
  | .cboxOs f => f.ord.okCopy
  | .cboxSo f => f.ord.okCopy
  | .cboxOo f => f.ord.okCopy
  | .cfillO f => f.ord.okCopy && f.sb == 0
  | .cdisc f => f.ord.okCopy && f.sb == 0
  | .caddSo f => f.ord.okCopy
  | .caddOo f => f.ord.okCopy
  | .crld f => f.ok
  | .cctrAdd _ o _ _ => o.okCopy
  | .kmerge _ _ m => m != 0
  | .krd _ _ w => decide (w.toNat ≤ 4)
  | .kins _ _ pos wm1 => kinsOk pos wm1
  | .kinsi _ _ pos wm1 => kinsOk pos wm1
  | .gself _ sel => decide (sel.toNat ≤ 8)
  | .gld _ o _ _ _ => o == .rlx || o == .acq
  | .gst _ o _ _ _ => o == .rlx || o == .rel
  | .csrAccess op rd src csr => csrOk op rd src csr
  | .integerInstruction op => op.ok
  | _ => true

end Sys2Proof
end

