-- ==== Sys2Proof/WellFormed.lean ====
section
/-! DEFINITION. Well-formed steps: those whose fields the encodings allow (R131, R137). -/

namespace Sys2Proof

/-- A step whose every field is one its encoding allows. -/
abbrev WellFormed (i : Instr) : Prop := i.legal = true

end Sys2Proof
end

