-- ==== Sys2Proof/Decode.lean ====
section
/-! DEFINITION. Decoding and encoding. The generator core's instructions (R133 to R137, R176), with the
compressed forms; the four slots' words (R124 to R130, R146, R236, R317); the bundle header (R113).
The decoders are total: a generator word that means nothing decodes to `illegalInstruction`, an
illegal slot word to none (R131). -/

namespace Sys2Proof

/-- Bits [lo+len-1:lo] of a word. -/
def bits {n : Nat} (w : BitVec n) (lo len : Nat) : BitVec len := w.extractLsb' lo len

/-- One bit of a word. -/
def bit {n : Nat} (w : BitVec n) (i : Nat) : Bool := w.getLsbD i

/-! ### Codes -/

def ElemType.code : ElemType → BitVec 4
  | .s8 => 0 | .n8 => 1 | .s16 => 2 | .n16 => 3 | .s32 => 4 | .n32 => 5
  | .f32 => 6 | .bf16 => 7 | .f16 => 8 | .mx8 => 9 | .mx6 => 10 | .mx4 => 11

/-- The format of a TYPE code; 12 to 15 are reserved (R124). -/
def ElemType.ofCode (c : BitVec 4) : Option ElemType :=
  match c.toNat with
  | 0 => some .s8 | 1 => some .n8 | 2 => some .s16 | 3 => some .n16 | 4 => some .s32 | 5 => some .n32
  | 6 => some .f32 | 7 => some .bf16 | 8 => some .f16 | 9 => some .mx8 | 10 => some .mx6
  | 11 => some .mx4 | _ => none

def RoundMode.code : RoundMode → BitVec 2
  | .rne => 0 | .rtz => 1 | .rup => 2 | .rdn => 3

def RoundMode.ofCode (c : BitVec 2) : RoundMode :=
  match c.toNat with | 0 => .rne | 1 => .rtz | 2 => .rup | _ => .rdn

def Ordering4.code : Ordering4 → BitVec 2
  | .rlx => 0 | .acq => 1 | .rel => 2 | .ar => 3

def Ordering4.ofCode (c : BitVec 2) : Ordering4 :=
  match c.toNat with | 0 => .rlx | 1 => .acq | 2 => .rel | _ => .ar

def Scope.code : Scope → BitVec 2
  | .fr => 0 | .die => 1 | .pkg => 2 | .sys => 3

def Scope.ofCode (c : BitVec 2) : Scope :=
  match c.toNat with | 0 => .fr | 1 => .die | 2 => .pkg | _ => .sys

def FeMode.code : FeMode → BitVec 2
  | .none => 0 | .keep => 1 | .clear => 2

def FeMode.ofCode (c : BitVec 2) : Option FeMode :=
  match c.toNat with | 0 => some .none | 1 => some .keep | 2 => some .clear | _ => Option.none

def CmpCond.code : CmpCond → BitVec 2
  | .eq => 0 | .ne => 1 | .lt => 2 | .le => 3

def CmpCond.ofCode (c : BitVec 2) : CmpCond :=
  match c.toNat with | 0 => .eq | 1 => .ne | 2 => .lt | _ => .le

def LogOp.code : LogOp → BitVec 2
  | .and => 0 | .or => 1 | .xor => 2 | .andn => 3

def LogOp.ofCode (c : BitVec 2) : LogOp :=
  match c.toNat with | 0 => .and | 1 => .or | 2 => .xor | _ => .andn

/-- The code AOP·4 + MOD of an atomic (R292). -/
def AmoCode.code : AmoCode → BitVec 4
  | .swap => 0 | .add => 1 | .and => 2 | .or => 3 | .xor => 4 | .min => 5 | .max => 6

def AmoCode.ofCode (c : BitVec 4) : Option AmoCode :=
  match c.toNat with
  | 0 => some .swap | 1 => some .add | 2 => some .and | 3 => some .or | 4 => some .xor
  | 5 => some .min | 6 => some .max | _ => none

def BeadFmt.code : BeadFmt → BitVec 4
  | .i8 => 0 | .mx8 => 9 | .mx6 => 10 | .mx4 => 11

def BeadFmt.ofCode (c : BitVec 4) : Option BeadFmt :=
  match c.toNat with | 0 => some .i8 | 9 => some .mx8 | 10 => some .mx6 | 11 => some .mx4 | _ => none

def AccSize.code : AccSize → BitVec 2
  | .b => 0 | .h => 1 | .w => 2 | .d => 3

def AccSize.ofCode (c : BitVec 2) : AccSize :=
  match c.toNat with | 0 => .b | 1 => .h | 2 => .w | _ => .d

def FenceKind.code : FenceKind → BitVec 3
  | .acq => 1 | .rel => 2 | .ar => 3 | .sc => 4

def FenceKind.ofCode (c : BitVec 3) : Option FenceKind :=
  match c.toNat with | 1 => some .acq | 2 => some .rel | 3 => some .ar | 4 => some .sc | _ => none

def Domain.code : Domain → BitVec 5
  | .gen => 0 | .exec => 1 | .copy => 2

def Domain.ofCode (c : BitVec 5) : Option Domain :=
  match c.toNat with | 0 => some .gen | 1 => some .exec | 2 => some .copy | _ => none

/-! ### Slot fields -/

/-- The operand field whose lowest bit is `lo` (R120). -/
def opdAt (w : Word) (lo : Nat) : Opd := ⟨bit w (lo + 12), bits w (lo + 10) 2, bits w lo 10⟩

/-- The guard of a vector word (R123). -/
def guardOf (w : Word) : Guard := ⟨bit w 55, bit w 54, bits w 50 4⟩

/-- A word with only zeros under `mask`: its zero fields are zero (R131). -/
def zeroIn (w : Word) (mask : Nat) : Bool := (w &&& BitVec.ofNat 64 mask) == 0

def vrOf (w : Word) : Option VR :=
  (ElemType.ofCode (bits w 2 4)).map fun ty =>
    { g := guardOf w, d := opdAt w 37, a := opdAt w 24, b := opdAt w 11,
      rm := RoundMode.ofCode (bits w 9 2), step := bits w 6 3, ty := ty, mod := bits w 0 2 }

def vuOf (w : Word) : Option VU :=
  if zeroIn w 0xFFF803 then
    (ElemType.ofCode (bits w 2 4)).map fun ty =>
      { g := guardOf w, d := opdAt w 37, a := opdAt w 24,
        rm := RoundMode.ofCode (bits w 9 2), step := bits w 6 3, ty := ty }
  else none

def vpOf (w : Word) : Option VP :=
  if zeroIn w 0x3FE0000000600 then
    (ElemType.ofCode (bits w 2 4)).map fun ty =>
      { g := guardOf w, p := bits w 37 4, a := opdAt w 24, b := opdAt w 11,
        step := bits w 6 3, ty := ty, cond := CmpCond.ofCode (bits w 0 2) }
  else none

def plogOf (w : Word) : Option VPL :=
  if zeroIn w 0x3FE1FF0FF87FC then
    some { g := guardOf w, p := bits w 37 4, pa := bits w 24 4, pb := bits w 11 4,
           op := LogOp.ofCode (bits w 0 2) }
  else none

def vkOf (w : Word) : Option VK :=
  if zeroIn w 0xFFC003 then
    (ElemType.ofCode (bits w 2 4)).map fun ty =>
      { g := guardOf w, d := opdAt w 37, a := opdAt w 24, k := bits w 11 3,
        rm := RoundMode.ofCode (bits w 9 2), step := bits w 6 3, ty := ty }
  else none

def vcvOf (w : Word) : Option VCv :=
  if zeroIn w 0xFF8003 then
    match ElemType.ofCode (bits w 11 4), ElemType.ofCode (bits w 2 4) with
    | some src, some ty =>
      some { g := guardOf w, d := opdAt w 37, a := opdAt w 24, src := src,
             rm := RoundMode.ofCode (bits w 9 2), step := bits w 6 3, ty := ty }
    | _, _ => none
  else none

/-- VFLAGS: every zero field zero and TYPE 5 (R309). -/
def vflOf (w : Word) : Option VFl :=
  if zeroIn w 0x1FF0FFFFC3 && bits w 2 4 == 5 then
    some { g := guardOf w, d := opdAt w 37, sel := bits w 24 4 }
  else none

def vmOf (w : Word) : Option VM :=
  if zeroIn w 0x1E03 then
    match ElemType.ofCode (bits w 2 4), FeMode.ofCode (bits w 13 2) with
    | some ty, some fe =>
      some { g := guardOf w, data := opdAt w 37, addr := opdAt w 24, pset := bits w 19 5,
             ord := Ordering4.ofCode (bits w 17 2), scope := Scope.ofCode (bits w 15 2), fe := fe,
             step := bits w 6 3, ty := ty }
    | _, _ => none
  else none

def vamOf (w : Word) : Option VAm :=
  if zeroIn w 0x6600 then
    match ElemType.ofCode (bits w 2 4), AmoCode.ofCode (bits w 11 2 ++ bits w 0 2) with
    | some ty, some op =>
      some { g := guardOf w, data := opdAt w 37, addr := opdAt w 24, pset := bits w 19 5,
             ord := Ordering4.ofCode (bits w 17 2), scope := Scope.ofCode (bits w 15 2), op := op,
             step := bits w 6 3, ty := ty }
    | _, _ => none
  else none

def vfeOf (w : Word) : Option VFe :=
  if zeroIn w 0x3FFE00007FE3F then
    some { g := guardOf w, addr := opdAt w 24, pset := bits w 19 5, step := bits w 6 3 }
  else none

def vbrOf (w : Word) : Option VBr :=
  if zeroIn w 0x3FFFFFFF7FE3F then some { g := guardOf w, step := bits w 6 3 } else none

/-- An illegal step is dropped. -/
def keepLegal (i : Option Instr) : Option Instr := i.filter Instr.legal

/-- The vector slot's operations (R128). -/
def decodeVector (w : Word) : Option Instr :=
  keepLegal <| match (bits w 56 8).toNat with
  | 0x00 => if w = 0 then some (.idle .vector) else none
  | 0x01 => (vrOf w).map .vadd
  | 0x02 => (vrOf w).map .vsub
  | 0x03 => (vrOf w).map .vmul
  | 0x04 => (vrOf w).map .vmulh
  | 0x05 => (vrOf w).map .vmin
  | 0x06 => (vrOf w).map .vmax
  | 0x07 => (vrOf w).map .vfma
  | 0x08 => (vrOf w).map .vand
  | 0x09 => (vrOf w).map .vor
  | 0x0A => (vrOf w).map .vxor
  | 0x0B => (vrOf w).map .vandn
  | 0x10 => (vrOf w).map .vshl
  | 0x11 => (vrOf w).map .vshr
  | 0x12 => (vrOf w).map .vfshl
  | 0x13 => (vrOf w).map .vfshr
  | 0x14 => (vuOf w).map .vclz
  | 0x15 => (vuOf w).map .vpopc
  | 0x18 => (vpOf w).map .vcmp
  | 0x19 => (vrOf w).map .vsel
  | 0x1A => (plogOf w).map .plog
  | 0x20 => (vrOf w).map .vperm
  | 0x21 => (vrOf w).map .vgath
  | 0x28 => (vkOf w).map .vrsum
  | 0x29 => (vkOf w).map .vrmax
  | 0x2A => (vkOf w).map .vrmin
  | 0x30 => (vuOf w).map .vrcp
  | 0x31 => (vuOf w).map .vrsq
  | 0x38 => (vcvOf w).map .vcvt
  | 0x39 => (vuOf w).map .vqnt
  | 0x3A => (vcvOf w).map .vdqt
  | 0x3C => (vflOf w).map .vflags
  | 0xC0 => (vmOf w).map .vld
  | 0xC1 => (vmOf w).map .vst
  | 0xC2 => (vmOf w).map .vldu
  | 0xC3 => (vmOf w).map .vstu
  | 0xC4 => (vmOf w).map .vldg
  | 0xC5 => (vmOf w).map .vstg
  | 0xC6 => (vamOf w).map .vamo
  | 0xC7 => (vfeOf w).map .vfec
  | 0xC8 => if bit w 19 then (vbrOf w).map .vbrelOff else (vbrOf w).map .vbrelRet
  | _ => none

/-- FIRST and NM1 of the bead slot. -/
def arangeAt (w : Word) (first nm1 : Nat) : ARange := ⟨bits w first 6, bits w nm1 6⟩

/-- The bead slot's operations (R127, R236). -/
def decodeBead (w : Word) : Option Instr :=
  keepLegal <| match (bits w 56 8).toNat with
  | 0x00 => if w = 0 then some (.idle .bead) else none
  | 0x01 => if zeroIn w 0xFFFFFFFFFFF then some (.bgrid (bits w 50 6) (bits w 44 6)) else none
  | 0x02 =>
    if zeroIn w 0x1F then
      some (.bstep { d := opdAt w 43, bnd := opdAt w 30, a := opdAt w 17, beam := bits w 14 3,
                     sexp := bits w 9 5, step := bits w 6 3, ovw := bit w 5 })
    else none
  | 0x03 =>
    if zeroIn w 0xFFFC0000FFF then
      (BeadFmt.ofCode (bits w 12 4)).map fun lfmt =>
        .bldp { r := arangeAt w 50 44, a := opdAt w 17, swm := bit w 16, lfmt := lfmt }
    else none
  | 0x04 => if zeroIn w 0xFFFFFFFFFFF then some (.bswap (arangeAt w 50 44)) else none
  | 0x05 => if zeroIn w 0xFFFFFFFFFFF then some (.bcal (arangeAt w 50 44)) else none
  | 0x06 => if zeroIn w 0x1FFFFFFE3F then some (.bcalr (opdAt w 43) (bits w 37 6) (bits w 6 3)) else none
  | 0x07 =>
    if zeroIn w 0xFFF81FC001FE3F then some (.bcalw (opdAt w 17) (bits w 37 6) (bits w 6 3)) else none
  | 0x08 =>
    if zeroIn w 0xFFFFFFFFFFF then
      if bit w 51 then some (.bflagClip (bits w 52 4) (bits w 45 6) (bit w 44))
      else if bits w 45 6 = 0 then some (.bflagStale (bits w 52 4) (bit w 44)) else none
    else none
  | 0x09 =>
    if zeroIn w 0x7FFFFFFFFFFFFF then (if bit w 55 then some .bmodeDigital else some .bmodeAnalog)
    else none
  | _ => none

/-- The set and ordering fields of a copy word (R317). -/
def cpwOf (w : Word) : CpW :=
  { sa := bits w 49 5, se := bits w 44 5, sb := bits w 39 5,
    ord := Ordering4.ofCode (bits w 37 2), scope := Scope.ofCode (bits w 35 2) }

/-- The copy slot's operations (R129, R317 to R325). -/
def decodeCopy (w : Word) : Option Instr :=
  keepLegal <| match (bits w 56 8).toNat, (bits w 54 2).toNat with
  | 0x00, _ => if w = 0 then some (.idle .copy) else none
  | 0x01, 0 => if zeroIn w 0x7FFFFFFFF then some (.cboxOs (cpwOf w)) else none
  | 0x01, 1 => if zeroIn w 0x7FFFFFFFF then some (.cboxSo (cpwOf w)) else none
  | 0x01, 2 => if zeroIn w 0x7FFFFFFFF then some (.cboxOo (cpwOf w)) else none
  | 0x02, 0 =>
    if zeroIn w 0x1FFF80000FFFF then
      some (.crld { sa := bits w 49 5, r := arangeAt w 29 23, kgm1 := bits w 17 6, swm := bit w 16 })
    else none
  | 0x03, 0 => if zeroIn w 0x7FFFFFFFF then some (.cfillO (cpwOf w)) else none
  | 0x03, 1 => if zeroIn w 0x3E007FFFFFFFFF then some (.cfillS (bits w 39 5) (bits w 44 5)) else none
  | 0x04, 0 => if zeroIn w 0xFFFFFFFFFFF then some (.cpref (bits w 49 5) (bits w 44 5)) else none
  | 0x05, 0 => if zeroIn w 0x7FFFFFFFF then some (.cdisc (cpwOf w)) else none
  | 0x06, 1 => if zeroIn w 0x7FFFFFFFF then some (.caddSo (cpwOf w)) else none
  | 0x06, 2 => if zeroIn w 0x7FFFFFFFF then some (.caddOo (cpwOf w)) else none
  | 0x07, 0 =>
    if zeroIn w 0x1FF87FFFF0000 then
      some (.cctrAdd (bits w 49 5) (Ordering4.ofCode (bits w 37 2)) (Scope.ofCode (bits w 35 2)) (bits w 0 16))
    else none
  | _, _ => none

/-- The control slot's operations (R130, R146). -/
def decodeControl (w : Word) : Option Instr :=
  keepLegal <| match (bits w 56 8).toNat with
  | 0x00 => if w = 0 then some (.idle .control) else none
  | 0x01 => if zeroIn w 0x1FFFFFFFF then some (.loop (bits w 49 7) (bits w 33 16)) else none
  | 0x02 => if zeroIn w 0xFFFFFFFFFFFFFF then some .phase else none
  | 0x03 =>
    if zeroIn w 0xFFFFFF then some (.waitc (bits w 48 8) (bits w 40 8) (bits w 32 8) (bits w 24 8)) else none
  | 0x04 => if zeroIn w 0xFFFFFFFFFFFFFF then some .vjoin else none
  | 0x05 =>
    if zeroIn w 0xFFFFFFFFFFFF then
      match BeadFmt.ofCode (bits w 52 4), BeadFmt.ofCode (bits w 48 4) with
      | some a, some b => some (.setfmt a b)
      | _, _ => none
    else none
  | _ => none

/-- The operation of a slot word, none when it is illegal (R131). -/
def decodeSlot (s : SlotName) (w : Word) : Option Instr :=
  match s with
  | .bead => decodeBead w
  | .vector => decodeVector w
  | .copy => decodeCopy w
  | .control => decodeControl w

/-! ### The bundle header (R113) -/

/-- SMASK bit of a slot. -/
def hdrHas (h : Word) : SlotName → Bool
  | .bead => bit h 60 | .vector => bit h 61 | .copy => bit h 62 | .control => bit h 63

/-- REPEAT: repetitions minus one. -/
def hdrRepeat (h : Word) : Nat := (bits h 48 12).toNat

/-- COMMIT. -/
def hdrCommit (h : Word) : Bool := bit h 47

/-- PCLASS. -/
def hdrPclass (h : Word) : Nat := (bits h 45 2).toNat

/-- Bits [44:0] are reserved. -/
def hdrOk (h : Word) : Bool := bits h 0 45 == 0

/-! ### Generator instructions, 32 bits -/

/-- The rd, rs1 and rs2 fields. -/
def rdOf (w : BitVec 32) : BitVec 5 := bits w 7 5
def rs1Of (w : BitVec 32) : BitVec 5 := bits w 15 5
def rs2Of (w : BitVec 32) : BitVec 5 := bits w 20 5

/-- A buffer number in a five-bit field: its upper two bits are zero (R133). -/
def bufOf (f : BitVec 5) : Option (BitVec 3) := if bits f 3 2 = 0 then some (bits f 0 3) else none

/-- custom-0: compose-buffer and emit instructions (R133). -/
def decodeCustom0 (w : BitVec 32) : Option Instr :=
  match (bits w 12 3).toNat with
  | 0 => if bits w 20 12 = 0 then (bufOf (rdOf w)).map fun d => .kload d (rs1Of w) else none
  | 1 => if bits w 15 17 = 0 then (bufOf (rdOf w)).map fun d => .kclr d else none
  | 2 =>
    if bits w 25 7 = 0 && bits w 15 5 == 0 then
      match bufOf (rdOf w), bufOf (rs2Of w) with
      | some d, some s => some (.kmov d s)
      | _, _ => none
    else none
  | 3 =>
    if bits w 29 3 = 0 && bits w 15 5 == 0 then
      match bufOf (rdOf w), bufOf (rs2Of w) with
      | some d, some s => some (.kmerge d s (bits w 25 4))
      | _, _ => none
    else none
  | 4 =>
    if bits w 28 4 = 0 && bits w 15 5 == 0 then (bufOf (rs2Of w)).map fun s => .krd (rdOf w) s (bits w 25 3)
    else none
  | 5 =>
    if bits w 25 7 = 0 && bits w 7 5 == 0 then (bufOf (rs2Of w)).map fun s => .gemit s (rs1Of w) else none
  | 6 => if bits w 25 7 = 0 then (bufOf (rs2Of w)).map fun s => .gemitNb (rdOf w) s (rs1Of w) else none
  | _ => if bits w 15 17 = 0 then some (.geq (rdOf w)) else none

/-- custom-1: field insertion (R134). -/
def decodeCustom1 (w : BitVec 32) : Option Instr :=
  match (bits w 12 2).toNat with
  | 0 => some (.kins (bits w 20 3) (rs1Of w) (bits w 23 9) (bits w 14 1 ++ bits w 7 5))
  | 1 => some (.kinsi (bits w 20 3) (rs1Of w) (bits w 23 9) (bits w 14 1 ++ bits w 7 5))
  | _ => none

/-- custom-2: thread and synchronisation instructions (R135). -/
def decodeCustom2 (w : BitVec 32) : Option Instr :=
  match (bits w 12 3).toNat, (bits w 25 7).toNat with
  | 0, 0 => some (.gwaitAny (rdOf w) (rs1Of w) (rs2Of w))
  | 0, 1 => some (.gwaitAll (rdOf w) (rs1Of w) (rs2Of w))
  | 1, 0 => if rs2Of w = 0 then some (.gjoin (rdOf w) (rs1Of w)) else none
  | 2, 0 => if rs2Of w = 0 then some (.gleave (rdOf w) (rs1Of w)) else none
  | 3, 0 => if rs2Of w = 0 then some (.gbar (rdOf w) (rs1Of w)) else none
  | 4, 0 => if rs2Of w = 0 then some (.glaunch (rdOf w) (rs1Of w)) else none
  | 5, 0 => if bits w 15 10 = 0 && bits w 7 5 == 0 then some .gexit else none
  | 6, 0 => if rs1Of w = 0 then some (.gself (rdOf w) (rs2Of w)) else none
  | _, _ => none

/-- custom-3: memory, port, fence and clock instructions (R136). -/
def decodeCustom3 (w : BitVec 32) : Option Instr :=
  match (bits w 12 3).toNat with
  | 0 => if bits w 25 7 = 0 then some (.grec (rdOf w) (rs1Of w) (rs2Of w)) else none
  | 1 => if bits w 28 4 = 0 && bits w 15 5 == 0 then some (.psetw (rs2Of w) (rdOf w) (bits w 25 3)) else none
  | 2 => if bits w 28 4 = 0 && bits w 20 5 == 0 then some (.psetr (rdOf w) (rs1Of w) (bits w 25 3)) else none
  | 3 => if bits w 28 4 = 0 && bits w 15 5 == 0 && bits w 7 5 == 0 then some (.gfenceX (bits w 24 4) (bits w 20 4)) else none
  | 4 =>
    if bits w 25 7 = 0 && bits w 15 5 == 0 && bits w 7 5 == 0 then
      (FenceKind.ofCode (bits w 22 3)).map fun k => .gfence k (Scope.ofCode (bits w 20 2))
    else none
  | 5 =>
    if bit w 31 = false && bits w 20 5 == 0 then
      some (.gld (AccSize.ofCode (bits w 29 2)) (Ordering4.ofCode (bits w 27 2)) (Scope.ofCode (bits w 25 2))
        (rdOf w) (rs1Of w))
    else none
  | 6 =>
    if bit w 31 = false && bits w 7 5 == 0 then
      some (.gst (AccSize.ofCode (bits w 29 2)) (Ordering4.ofCode (bits w 27 2)) (Scope.ofCode (bits w 25 2))
        (rs2Of w) (rs1Of w))
    else none
  | _ =>
    match (bits w 25 7).toNat with
    | 0 => (Domain.ofCode (rs2Of w)).map fun d => .gdiv (rdOf w) (rs1Of w) d
    | 1 => if rs2Of w = 0 then some (.sprint (rdOf w) (rs1Of w)) else none
    | _ => none

/-- A non-memory base instruction as a step. -/
def intI (op : IntOp) : Option Instr := some (.integerInstruction op)

/-- OP-IMM (opcode 0x13). -/
def decodeOpImm (w : BitVec 32) : Option Instr :=
  let rd := rdOf w; let r1 := rs1Of w; let imm := bits w 20 12; let sh := bits w 20 6
  match (bits w 12 3).toNat with
  | 0 => intI (.imm .addi rd r1 imm)
  | 2 => intI (.imm .slti rd r1 imm)
  | 3 => intI (.imm .sltiu rd r1 imm)
  | 4 => intI (.imm .xori rd r1 imm)
  | 6 => intI (.imm .ori rd r1 imm)
  | 7 => intI (.imm .andi rd r1 imm)
  | 1 =>
    if bits w 26 6 = 0 then intI (.shift .slli rd r1 sh)
    else match imm.toNat with
      | 0x600 => intI (.un .clz rd r1)
      | 0x601 => intI (.un .ctz rd r1)
      | 0x602 => intI (.un .cpop rd r1)
      | 0x604 => intI (.un .sextb rd r1)
      | 0x605 => intI (.un .sexth rd r1)
      | _ => none
  | _ =>
    match (bits w 26 6).toNat with
    | 0x00 => intI (.shift .srli rd r1 sh)
    | 0x10 => intI (.shift .srai rd r1 sh)
    | 0x18 => intI (.shift .rori rd r1 sh)
    | _ => match imm.toNat with
      | 0x287 => intI (.un .orcb rd r1)
      | 0x6B8 => intI (.un .rev8 rd r1)
      | _ => none

/-- OP-IMM-32 (opcode 0x1B). -/
def decodeOpImm32 (w : BitVec 32) : Option Instr :=
  let rd := rdOf w; let r1 := rs1Of w; let sh := bits w 20 6
  match (bits w 12 3).toNat with
  | 0 => intI (.imm .addiw rd r1 (bits w 20 12))
  | 1 =>
    match (bits w 26 6).toNat with
    | 0x00 => if bit w 25 then none else intI (.shift .slliw rd r1 sh)
    | 0x02 => intI (.shift .slliuw rd r1 sh)
    | _ => match (bits w 20 12).toNat with
      | 0x600 => intI (.un .clzw rd r1)
      | 0x601 => intI (.un .ctzw rd r1)
      | 0x602 => intI (.un .cpopw rd r1)
      | _ => none
  | 5 =>
    match (bits w 25 7).toNat with
    | 0x00 => intI (.shift .srliw rd r1 sh)
    | 0x20 => intI (.shift .sraiw rd r1 sh)
    | 0x30 => intI (.shift .roriw rd r1 sh)
    | _ => none
  | _ => none

/-- The operation of OP (opcode 0x33) by funct7 and funct3. -/
def aluOpOf (f7 f3 : Nat) : Option AluOp :=
  match f7, f3 with
  | 0x00, 0 => some .add | 0x00, 1 => some .sll | 0x00, 2 => some .slt | 0x00, 3 => some .sltu
  | 0x00, 4 => some .xor | 0x00, 5 => some .srl | 0x00, 6 => some .or | 0x00, 7 => some .and
  | 0x20, 0 => some .sub | 0x20, 5 => some .sra
  | 0x20, 4 => some .xnor | 0x20, 6 => some .orn | 0x20, 7 => some .andn
  | 0x01, 0 => some .mul | 0x01, 1 => some .mulh | 0x01, 2 => some .mulhsu | 0x01, 3 => some .mulhu
  | 0x01, 4 => some .div | 0x01, 5 => some .divu | 0x01, 6 => some .rem | 0x01, 7 => some .remu
  | 0x10, 2 => some .sh1add | 0x10, 4 => some .sh2add | 0x10, 6 => some .sh3add
  | 0x05, 4 => some .min | 0x05, 5 => some .minu | 0x05, 6 => some .max | 0x05, 7 => some .maxu
  | 0x30, 1 => some .rol | 0x30, 5 => some .ror
  | _, _ => none

/-- The operation of OP-32 (opcode 0x3B) by funct7 and funct3. -/
def aluWOpOf (f7 f3 : Nat) : Option AluWOp :=
  match f7, f3 with
  | 0x00, 0 => some .addw | 0x00, 1 => some .sllw | 0x00, 5 => some .srlw
  | 0x20, 0 => some .subw | 0x20, 5 => some .sraw
  | 0x01, 0 => some .mulw | 0x01, 4 => some .divw | 0x01, 5 => some .divuw
  | 0x01, 6 => some .remw | 0x01, 7 => some .remuw
  | 0x04, 0 => some .adduw
  | 0x10, 2 => some .sh1adduw | 0x10, 4 => some .sh2adduw | 0x10, 6 => some .sh3adduw
  | 0x30, 1 => some .rolw | 0x30, 5 => some .rorw
  | _, _ => none

/-- Standard atomics by funct5. -/
def amoOpOf (f5 : Nat) : Option AmoOp :=
  match f5 with
  | 0x01 => some .swap | 0x00 => some .add | 0x04 => some .xor | 0x0C => some .and | 0x08 => some .or
  | 0x10 => some .min | 0x14 => some .max | 0x18 => some .minu | 0x1C => some .maxu | _ => none

/-- The atomic memory opcode 0x2F: widths .W and .D. -/
def decodeAmo (w : BitVec 32) : Option Instr :=
  let rd := rdOf w; let r1 := rs1Of w; let r2 := rs2Of w
  let aq := bit w 26; let rl := bit w 25; let dbl := bits w 12 3 == 3
  if bits w 13 2 = 1 then
    match (bits w 27 5).toNat with
    | 0x02 => if r2 = 0 then some (.lr dbl aq rl rd r1) else none
    | 0x03 => some (.sc dbl aq rl rd r1 r2)
    | f5 => (amoOpOf f5).map fun op => .amo op dbl aq rl rd r1 r2
  else none

/-- SYSTEM (opcode 0x73): ECALL, EBREAK and Zicsr; every privileged form is illegal (R177). CSRRWI x0, L1STATUS
with RESUME, alone or with ABANDON, is the handler's return (R207). -/
def decodeSystem (w : BitVec 32) : Option Instr :=
  let rd := rdOf w; let r1 := rs1Of w; let csr := bits w 20 12
  match (bits w 12 3).toNat with
  | 0 => if w = 0x00000073 then some .ecall else if w = 0x00100073 then some .ebreak else none
  | 1 => some (.csrAccess .rw rd (.reg r1) csr)
  | 2 => some (.csrAccess .rs rd (.reg r1) csr)
  | 3 => some (.csrAccess .rc rd (.reg r1) csr)
  | 5 =>
    if rd = 0 ∧ csr = 0x805 ∧ r1 = 4 then some .handlerResume
    else if rd = 0 ∧ csr = 0x805 ∧ r1 = 12 then some .handlerAbandon
    else some (.csrAccess .rw rd (.imm r1) csr)
  | 6 => some (.csrAccess .rs rd (.imm r1) csr)
  | 7 => some (.csrAccess .rc rd (.imm r1) csr)
  | _ => none

def loadOpOf (f3 : Nat) : Option LoadOp :=
  match f3 with
  | 0 => some .lb | 1 => some .lh | 2 => some .lw | 3 => some .ld | 4 => some .lbu | 5 => some .lhu
  | 6 => some .lwu | _ => none

def storeOpOf (f3 : Nat) : Option StoreOp :=
  match f3 with
  | 0 => some .sb | 1 => some .sh | 2 => some .sw | 3 => some .sd | _ => none

def brOpOf (f3 : Nat) : Option BrOp :=
  match f3 with
  | 0 => some .beq | 1 => some .bne | 4 => some .blt | 5 => some .bge | 6 => some .bltu | 7 => some .bgeu
  | _ => none

/-- A 32-bit instruction, before the limits of `legal`. -/
def decode32Raw (w : BitVec 32) : Option Instr :=
  let rd := rdOf w; let r1 := rs1Of w; let r2 := rs2Of w; let f3 := (bits w 12 3).toNat
  match (bits w 0 7).toNat with
  | 0x03 => (loadOpOf f3).map fun op => .standardLoad op rd r1 (bits w 20 12)
  | 0x0B => decodeCustom0 w
  | 0x0F =>
    match f3 with
    | 0 => some (.fence (bits w 28 4) (bits w 24 4) (bits w 20 4))
    | 1 => some .fenceI
    | _ => none
  | 0x13 => decodeOpImm w
  | 0x17 => intI (.auipc rd (bits w 12 20))
  | 0x1B => decodeOpImm32 w
  | 0x23 => (storeOpOf f3).map fun op => .standardStore op r2 r1 (bits w 25 7 ++ bits w 7 5)
  | 0x2B => decodeCustom1 w
  | 0x2F => decodeAmo w
  | 0x33 => (aluOpOf (bits w 25 7).toNat f3).bind fun op => intI (.alu op rd r1 r2)
  | 0x37 => intI (.lui rd (bits w 12 20))
  | 0x3B =>
    if bits w 25 7 = 0x04 && f3 == 4 && r2 == 0 then intI (.un .zexth rd r1)
    else (aluWOpOf (bits w 25 7).toNat f3).bind fun op => intI (.aluW op rd r1 r2)
  | 0x5B => decodeCustom2 w
  | 0x63 =>
    (brOpOf f3).bind fun c => intI (.branch c r1 r2 (bits w 31 1 ++ bits w 7 1 ++ bits w 25 6 ++ bits w 8 4))
  | 0x67 => if f3 = 0 then intI (.jalr rd r1 (bits w 20 12)) else none
  | 0x6F => intI (.jal rd (bits w 31 1 ++ bits w 12 8 ++ bits w 20 1 ++ bits w 21 10))
  | 0x73 => decodeSystem w
  | 0x7B => decodeCustom3 w
  | _ => none

/-- A 32-bit instruction; whatever is unassigned, reserved or absent is an illegal instruction (R137, R176). -/
def decode32 (w : BitVec 32) : Instr := (keepLegal (decode32Raw w)).getD (.illegalInstruction w)

/-! ### Compressed instructions -/

/-- A register of the eight-register fields. -/
def cReg (f : BitVec 3) : BitVec 5 := 1#2 ++ f

/-- The six-bit immediate of CI forms, sign-extended to 12 bits. -/
def cImm6 (h : BitVec 16) : BitVec 12 := (bits h 12 1 ++ bits h 2 5).signExtend 12

/-- Quadrant 0. -/
def decodeC0 (h : BitVec 16) : Option Instr :=
  let rd := cReg (bits h 2 3); let r1 := cReg (bits h 7 3)
  let iw : BitVec 7 := bits h 5 1 ++ bits h 10 3 ++ bits h 6 1 ++ 0#2
  let id : BitVec 8 := bits h 5 2 ++ bits h 10 3 ++ 0#3
  match (bits h 13 3).toNat with
  | 0 =>
    let imm : BitVec 10 := bits h 7 4 ++ bits h 11 2 ++ bits h 5 1 ++ bits h 6 1 ++ 0#2
    if imm = 0 then none else intI (.imm .addi rd 2 (imm.zeroExtend 12))
  | 2 => some (.standardLoad .lw rd r1 (iw.zeroExtend 12))
  | 3 => some (.standardLoad .ld rd r1 (id.zeroExtend 12))
  | 6 => some (.standardStore .sw rd r1 (iw.zeroExtend 12))
  | 7 => some (.standardStore .sd rd r1 (id.zeroExtend 12))
  | _ => none

/-- The register-register forms of quadrant 1. -/
def decodeC1Alu (h : BitVec 16) : Option Instr :=
  let rd := cReg (bits h 7 3); let r2 := cReg (bits h 2 3)
  match bit h 12, (bits h 5 2).toNat with
  | false, 0 => intI (.alu .sub rd rd r2)
  | false, 1 => intI (.alu .xor rd rd r2)
  | false, 2 => intI (.alu .or rd rd r2)
  | false, _ => intI (.alu .and rd rd r2)
  | true, 0 => intI (.aluW .subw rd rd r2)
  | true, 1 => intI (.aluW .addw rd rd r2)
  | true, _ => none

/-- Quadrant 1. -/
def decodeC1 (h : BitVec 16) : Option Instr :=
  let rd : BitVec 5 := bits h 7 5; let rp := cReg (bits h 7 3)
  let bo : BitVec 8 := bits h 12 1 ++ bits h 5 2 ++ bits h 2 1 ++ bits h 10 2 ++ bits h 3 2
  match (bits h 13 3).toNat with
  | 0 => intI (.imm .addi rd rd (cImm6 h))
  | 1 => if rd = 0 then none else intI (.imm .addiw rd rd (cImm6 h))
  | 2 => intI (.imm .addi rd 0 (cImm6 h))
  | 3 =>
    if rd = 2 then
      let imm : BitVec 10 := bits h 12 1 ++ bits h 3 2 ++ bits h 5 1 ++ bits h 2 1 ++ bits h 6 1 ++ 0#4
      if imm = 0 then none else intI (.imm .addi 2 2 (imm.signExtend 12))
    else
      let imm : BitVec 6 := bits h 12 1 ++ bits h 2 5
      if imm = 0 then none else intI (.lui rd (imm.signExtend 20))
  | 4 =>
    match (bits h 10 2).toNat with
    | 0 => intI (.shift .srli rp rp (bits h 12 1 ++ bits h 2 5))
    | 1 => intI (.shift .srai rp rp (bits h 12 1 ++ bits h 2 5))
    | 2 => intI (.imm .andi rp rp (cImm6 h))
    | _ => decodeC1Alu h
  | 5 =>
    let jo : BitVec 11 := bits h 12 1 ++ bits h 8 1 ++ bits h 9 2 ++ bits h 6 1 ++ bits h 7 1 ++ bits h 2 1
      ++ bits h 11 1 ++ bits h 3 3
    intI (.jal 0 (jo.signExtend 20))
  | 6 => intI (.branch .beq rp 0 (bo.signExtend 12))
  | _ => intI (.branch .bne rp 0 (bo.signExtend 12))

/-- Quadrant 2. -/
def decodeC2 (h : BitVec 16) : Option Instr :=
  let rd : BitVec 5 := bits h 7 5; let r2 : BitVec 5 := bits h 2 5
  match (bits h 13 3).toNat with
  | 0 => intI (.shift .slli rd rd (bits h 12 1 ++ bits h 2 5))
  | 2 =>
    let imm : BitVec 8 := bits h 2 2 ++ bits h 12 1 ++ bits h 4 3 ++ 0#2
    if rd = 0 then none else some (.standardLoad .lw rd 2 (imm.zeroExtend 12))
  | 3 =>
    let imm : BitVec 9 := bits h 2 3 ++ bits h 12 1 ++ bits h 5 2 ++ 0#3
    if rd = 0 then none else some (.standardLoad .ld rd 2 (imm.zeroExtend 12))
  | 4 =>
    match bit h 12, r2 == 0, rd == 0 with
    | false, true, true => none
    | false, true, false => intI (.jalr 0 rd 0)
    | false, false, _ => intI (.alu .add rd 0 r2)
    | true, true, true => some .ebreak
    | true, true, false => intI (.jalr 1 rd 0)
    | true, false, _ => intI (.alu .add rd rd r2)
  | 6 =>
    let imm : BitVec 8 := bits h 7 2 ++ bits h 9 4 ++ 0#2
    some (.standardStore .sw r2 2 (imm.zeroExtend 12))
  | 7 =>
    let imm : BitVec 9 := bits h 7 3 ++ bits h 10 3 ++ 0#3
    some (.standardStore .sd r2 2 (imm.zeroExtend 12))
  | _ => none

/-- A 16-bit instruction; F and D forms are absent (R176). -/
def decode16 (h : BitVec 16) : Instr :=
  (match (bits h 0 2).toNat with
   | 0 => decodeC0 h
   | 1 => decodeC1 h
   | 2 => decodeC2 h
   | _ => none).getD (.illegalInstruction (h.zeroExtend 32))

/-- True when the first halfword is a whole instruction. -/
def isShort (h : BitVec 16) : Bool := bits h 0 2 != 3

/-- Little-endian bytes as a word. -/
def leBytes : List Byte → Nat
  | [] => 0
  | b :: bs => b.toNat + 256 * leBytes bs

/-- The instruction at the head of the bytes, and its length; bytes that are missing read as zero. -/
def decodeBytes (bs : List Byte) : Instr × Nat :=
  let h := BitVec.ofNat 16 (leBytes (bs.take 2))
  if isShort h then (decode16 h, 2) else (decode32 (BitVec.ofNat 32 (leBytes (bs.take 4))), 4)

/-- `n` little-endian bytes of a natural number. -/
def natBytes (w : Nat) : Nat → List Byte
  | 0 => []
  | n + 1 => BitVec.ofNat 8 w :: natBytes (w / 256) n

/-- What the decoder reads from an instruction whose bits are `w` in the opcode table's numbering;
bits above `nbits` are zero. -/
def decodeTableWord (nbits w : Nat) : Option Instr :=
  some (decodeBytes (natBytes (w % 2 ^ nbits) 4)).1

/-! ### Encoding -/

/-- The 13-bit operand field (R120). -/
def encOpd (o : Opd) : BitVec 13 := BitVec.ofBool o.last ++ o.dir ++ o.idx

/-- The 6-bit guard field (R123). -/
def encGuard (g : Guard) : BitVec 6 := BitVec.ofBool g.en ++ BitVec.ofBool g.sense ++ g.pred

def encVR (op : BitVec 8) (f : VR) : Word :=
  op ++ encGuard f.g ++ encOpd f.d ++ encOpd f.a ++ encOpd f.b ++ f.rm.code ++ f.step ++ f.ty.code ++ f.mod

def encVU (op : BitVec 8) (f : VU) : Word :=
  op ++ encGuard f.g ++ encOpd f.d ++ encOpd f.a ++ 0#13 ++ f.rm.code ++ f.step ++ f.ty.code ++ 0#2

def encVP (op : BitVec 8) (f : VP) : Word :=
  op ++ encGuard f.g ++ 0#9 ++ f.p ++ encOpd f.a ++ encOpd f.b ++ 0#2 ++ f.step ++ f.ty.code ++ f.cond.code

def encPlog (f : VPL) : Word :=
  0x1A#8 ++ encGuard f.g ++ 0#9 ++ f.p ++ 0#9 ++ f.pa ++ 0#9 ++ f.pb ++ 0#9 ++ f.op.code

def encVK (op : BitVec 8) (f : VK) : Word :=
  op ++ encGuard f.g ++ encOpd f.d ++ encOpd f.a ++ 0#10 ++ f.k ++ f.rm.code ++ f.step ++ f.ty.code ++ 0#2

def encVCv (op : BitVec 8) (f : VCv) : Word :=
  op ++ encGuard f.g ++ encOpd f.d ++ encOpd f.a ++ 0#9 ++ f.src.code ++ f.rm.code ++ f.step ++ f.ty.code ++ 0#2

def encVFl (f : VFl) : Word :=
  0x3C#8 ++ encGuard f.g ++ encOpd f.d ++ 0#9 ++ f.sel ++ 0#18 ++ 5#4 ++ 0#2

def encVM (op : BitVec 8) (f : VM) : Word :=
  op ++ encGuard f.g ++ encOpd f.data ++ encOpd f.addr ++ f.pset ++ f.ord.code ++ f.scope.code ++ f.fe.code
    ++ 0#4 ++ f.step ++ f.ty.code ++ 0#2

def encVAm (f : VAm) : Word :=
  0xC6#8 ++ encGuard f.g ++ encOpd f.data ++ encOpd f.addr ++ f.pset ++ f.ord.code ++ f.scope.code ++ 0#2
    ++ bits f.op.code 2 2 ++ 0#2 ++ f.step ++ f.ty.code ++ bits f.op.code 0 2

def encVFe (f : VFe) : Word :=
  0xC7#8 ++ encGuard f.g ++ 0#13 ++ encOpd f.addr ++ f.pset ++ 0#10 ++ f.step ++ 0#6

def encVBr (off : Bool) (f : VBr) : Word :=
  0xC8#8 ++ encGuard f.g ++ 0#30 ++ BitVec.ofBool off ++ 0#10 ++ f.step ++ 0#6

def encRange (op : BitVec 8) (r : ARange) : Word := op ++ r.first ++ r.nm1 ++ 0#44

def encCp (op : BitVec 8) (mode : BitVec 2) (f : CpW) : Word :=
  op ++ mode ++ f.sa ++ f.se ++ f.sb ++ f.ord.code ++ f.scope.code ++ 0#35

/-- The slot and the word of a slot operation; none for a step that has no slot word. -/
def encodeSlot : Instr → Option (SlotName × Word)
  | .idle s => some (s, 0)
  | .loop n c => some (.control, 0x01#8 ++ n ++ c ++ 0#33)
  | .phase => some (.control, 0x02#8 ++ 0#56)
  | .waitc l s c b => some (.control, 0x03#8 ++ l ++ s ++ c ++ b ++ 0#24)
  | .vjoin => some (.control, 0x04#8 ++ 0#56)
  | .setfmt a w => some (.control, 0x05#8 ++ a.code ++ w.code ++ 0#48)
  | .bgrid k n => some (.bead, 0x01#8 ++ k ++ n ++ 0#44)
  | .bstep f =>
    some (.bead, 0x02#8 ++ encOpd f.d ++ encOpd f.bnd ++ encOpd f.a ++ f.beam ++ f.sexp ++ f.step
      ++ BitVec.ofBool f.ovw ++ 0#5)
  | .bldp f =>
    some (.bead, 0x03#8 ++ f.r.first ++ f.r.nm1 ++ 0#14 ++ encOpd f.a ++ BitVec.ofBool f.swm ++ f.lfmt.code ++ 0#12)
  | .bswap r => some (.bead, encRange 0x04#8 r)
  | .bcal r => some (.bead, encRange 0x05#8 r)
  | .bcalr d b st => some (.bead, 0x06#8 ++ encOpd d ++ b ++ 0#28 ++ st ++ 0#6)
  | .bcalw a b st => some (.bead, 0x07#8 ++ 0#13 ++ b ++ 0#7 ++ encOpd a ++ 0#8 ++ st ++ 0#6)
  | .bflagStale p c => some (.bead, 0x08#8 ++ p ++ 0#7 ++ BitVec.ofBool c ++ 0#44)
  | .bflagClip p b c => some (.bead, 0x08#8 ++ p ++ 1#1 ++ b ++ BitVec.ofBool c ++ 0#44)
  | .bmodeDigital => some (.bead, 0x09#8 ++ 1#1 ++ 0#55)
  | .bmodeAnalog => some (.bead, 0x09#8 ++ 0#56)
  | .vadd f => some (.vector, encVR 0x01#8 f)
  | .vsub f => some (.vector, encVR 0x02#8 f)
  | .vmul f => some (.vector, encVR 0x03#8 f)
  | .vmulh f => some (.vector, encVR 0x04#8 f)
  | .vmin f => some (.vector, encVR 0x05#8 f)
  | .vmax f => some (.vector, encVR 0x06#8 f)
  | .vfma f => some (.vector, encVR 0x07#8 f)
  | .vand f => some (.vector, encVR 0x08#8 f)
  | .vor f => some (.vector, encVR 0x09#8 f)
  | .vxor f => some (.vector, encVR 0x0A#8 f)
  | .vandn f => some (.vector, encVR 0x0B#8 f)
  | .vshl f => some (.vector, encVR 0x10#8 f)
  | .vshr f => some (.vector, encVR 0x11#8 f)
  | .vfshl f => some (.vector, encVR 0x12#8 f)
  | .vfshr f => some (.vector, encVR 0x13#8 f)
  | .vclz f => some (.vector, encVU 0x14#8 f)
  | .vpopc f => some (.vector, encVU 0x15#8 f)
  | .vcmp f => some (.vector, encVP 0x18#8 f)
  | .vsel f => some (.vector, encVR 0x19#8 f)
  | .plog f => some (.vector, encPlog f)
  | .vperm f => some (.vector, encVR 0x20#8 f)
  | .vgath f => some (.vector, encVR 0x21#8 f)
  | .vrsum f => some (.vector, encVK 0x28#8 f)
  | .vrmax f => some (.vector, encVK 0x29#8 f)
  | .vrmin f => some (.vector, encVK 0x2A#8 f)
  | .vrcp f => some (.vector, encVU 0x30#8 f)
  | .vrsq f => some (.vector, encVU 0x31#8 f)
  | .vcvt f => some (.vector, encVCv 0x38#8 f)
  | .vqnt f => some (.vector, encVU 0x39#8 f)
  | .vdqt f => some (.vector, encVCv 0x3A#8 f)
  | .vflags f => some (.vector, encVFl f)
  | .vld f => some (.vector, encVM 0xC0#8 f)
  | .vst f => some (.vector, encVM 0xC1#8 f)
  | .vldu f => some (.vector, encVM 0xC2#8 f)
  | .vstu f => some (.vector, encVM 0xC3#8 f)
  | .vldg f => some (.vector, encVM 0xC4#8 f)
  | .vstg f => some (.vector, encVM 0xC5#8 f)
  | .vamo f => some (.vector, encVAm f)
  | .vfec f => some (.vector, encVFe f)
  | .vbrelRet f => some (.vector, encVBr false f)
  | .vbrelOff f => some (.vector, encVBr true f)
  | .cboxOs f => some (.copy, encCp 0x01#8 0#2 f)
  | .cboxSo f => some (.copy, encCp 0x01#8 1#2 f)
  | .cboxOo f => some (.copy, encCp 0x01#8 2#2 f)
  | .crld f =>
    some (.copy, 0x02#8 ++ 0#2 ++ f.sa ++ 0#14 ++ f.r.first ++ f.r.nm1 ++ f.kgm1 ++ BitVec.ofBool f.swm ++ 0#16)
  | .cfillO f => some (.copy, encCp 0x03#8 0#2 f)
  | .cfillS sb se => some (.copy, 0x03#8 ++ 1#2 ++ 0#5 ++ se ++ sb ++ 0#39)
  | .cpref sa se => some (.copy, 0x04#8 ++ 0#2 ++ sa ++ se ++ 0#44)
  | .cdisc f => some (.copy, encCp 0x05#8 0#2 f)
  | .caddSo f => some (.copy, encCp 0x06#8 1#2 f)
  | .caddOo f => some (.copy, encCp 0x06#8 2#2 f)
  | .cctrAdd sa o c imm => some (.copy, 0x07#8 ++ 0#2 ++ sa ++ 0#10 ++ o.code ++ c.code ++ 0#19 ++ imm)
  | _ => none

/-- The 32-bit R-type layout. -/
def encR (f7 : BitVec 7) (rs2 rs1 : BitVec 5) (f3 : BitVec 3) (rd : BitVec 5) (op : BitVec 7) : BitVec 32 :=
  f7 ++ rs2 ++ rs1 ++ f3 ++ rd ++ op

/-- The 32-bit I-type layout. -/
def encI (imm : BitVec 12) (rs1 : BitVec 5) (f3 : BitVec 3) (rd : BitVec 5) (op : BitVec 7) : BitVec 32 :=
  imm ++ rs1 ++ f3 ++ rd ++ op

/-- A buffer number as a five-bit field. -/
def encBuf (k : BitVec 3) : BitVec 5 := 0#2 ++ k

def encAlu (op : AluOp) (rd r1 r2 : BitVec 5) : BitVec 32 :=
  let e (f7 : BitVec 7) (f3 : BitVec 3) := encR f7 r2 r1 f3 rd 0x33#7
  match op with
  | .add => e 0 0 | .sll => e 0 1 | .slt => e 0 2 | .sltu => e 0 3 | .xor => e 0 4 | .srl => e 0 5
  | .or => e 0 6 | .and => e 0 7 | .sub => e 0x20 0 | .sra => e 0x20 5 | .xnor => e 0x20 4
  | .orn => e 0x20 6 | .andn => e 0x20 7
  | .mul => e 1 0 | .mulh => e 1 1 | .mulhsu => e 1 2 | .mulhu => e 1 3 | .div => e 1 4 | .divu => e 1 5
  | .rem => e 1 6 | .remu => e 1 7 | .sh1add => e 0x10 2 | .sh2add => e 0x10 4 | .sh3add => e 0x10 6
  | .min => e 5 4 | .minu => e 5 5 | .max => e 5 6 | .maxu => e 5 7 | .rol => e 0x30 1 | .ror => e 0x30 5

def encAluW (op : AluWOp) (rd r1 r2 : BitVec 5) : BitVec 32 :=
  let e (f7 : BitVec 7) (f3 : BitVec 3) := encR f7 r2 r1 f3 rd 0x3B#7
  match op with
  | .addw => e 0 0 | .sllw => e 0 1 | .srlw => e 0 5 | .subw => e 0x20 0 | .sraw => e 0x20 5
  | .mulw => e 1 0 | .divw => e 1 4 | .divuw => e 1 5 | .remw => e 1 6 | .remuw => e 1 7
  | .adduw => e 4 0 | .sh1adduw => e 0x10 2 | .sh2adduw => e 0x10 4 | .sh3adduw => e 0x10 6
  | .rolw => e 0x30 1 | .rorw => e 0x30 5

def encImm (op : ImmOp) (rd r1 : BitVec 5) (imm : BitVec 12) : BitVec 32 :=
  match op with
  | .addi => encI imm r1 0 rd 0x13#7 | .slti => encI imm r1 2 rd 0x13#7 | .sltiu => encI imm r1 3 rd 0x13#7
  | .xori => encI imm r1 4 rd 0x13#7 | .ori => encI imm r1 6 rd 0x13#7 | .andi => encI imm r1 7 rd 0x13#7
  | .addiw => encI imm r1 0 rd 0x1B#7

def encShift (op : ShOp) (rd r1 : BitVec 5) (sh : BitVec 6) : BitVec 32 :=
  match op with
  | .slli => encI (0#6 ++ sh) r1 1 rd 0x13#7 | .srli => encI (0#6 ++ sh) r1 5 rd 0x13#7
  | .srai => encI (0x10#6 ++ sh) r1 5 rd 0x13#7 | .rori => encI (0x18#6 ++ sh) r1 5 rd 0x13#7
  | .slliw => encI (0#6 ++ sh) r1 1 rd 0x1B#7 | .srliw => encI (0#6 ++ sh) r1 5 rd 0x1B#7
  | .sraiw => encI (0x10#6 ++ sh) r1 5 rd 0x1B#7 | .roriw => encI (0x18#6 ++ sh) r1 5 rd 0x1B#7
  | .slliuw => encI (0x02#6 ++ sh) r1 1 rd 0x1B#7

def encUn (op : UnOp) (rd r1 : BitVec 5) : BitVec 32 :=
  match op with
  | .clz => encI 0x600 r1 1 rd 0x13#7 | .ctz => encI 0x601 r1 1 rd 0x13#7 | .cpop => encI 0x602 r1 1 rd 0x13#7
  | .sextb => encI 0x604 r1 1 rd 0x13#7 | .sexth => encI 0x605 r1 1 rd 0x13#7
  | .zexth => encR 4 0 r1 4 rd 0x3B#7
  | .rev8 => encI 0x6B8 r1 5 rd 0x13#7 | .orcb => encI 0x287 r1 5 rd 0x13#7
  | .clzw => encI 0x600 r1 1 rd 0x1B#7 | .ctzw => encI 0x601 r1 1 rd 0x1B#7 | .cpopw => encI 0x602 r1 1 rd 0x1B#7

def brF3 : BrOp → BitVec 3
  | .beq => 0 | .bne => 1 | .blt => 4 | .bge => 5 | .bltu => 6 | .bgeu => 7

def encInt : IntOp → BitVec 32
  | .lui rd imm => imm ++ rd ++ 0x37#7
  | .auipc rd imm => imm ++ rd ++ 0x17#7
  | .jal rd o => bits o 19 1 ++ bits o 0 10 ++ bits o 10 1 ++ bits o 11 8 ++ rd ++ 0x6F#7
  | .jalr rd r1 imm => encI imm r1 0 rd 0x67#7
  | .branch c r1 r2 o =>
    bits o 11 1 ++ bits o 4 6 ++ r2 ++ r1 ++ brF3 c ++ bits o 0 4 ++ bits o 10 1 ++ 0x63#7
  | .imm op rd r1 imm => encImm op rd r1 imm
  | .shift op rd r1 sh => encShift op rd r1 sh
  | .alu op rd r1 r2 => encAlu op rd r1 r2
  | .aluW op rd r1 r2 => encAluW op rd r1 r2
  | .un op rd r1 => encUn op rd r1

def loadF3 : LoadOp → BitVec 3
  | .lb => 0 | .lh => 1 | .lw => 2 | .ld => 3 | .lbu => 4 | .lhu => 5 | .lwu => 6

def storeF3 : StoreOp → BitVec 3
  | .sb => 0 | .sh => 1 | .sw => 2 | .sd => 3

def amoF5 : AmoOp → BitVec 5
  | .swap => 1 | .add => 0 | .xor => 4 | .and => 0x0C | .or => 8 | .min => 0x10 | .max => 0x14
  | .minu => 0x18 | .maxu => 0x1C

/-- funct3 of an atomic: .W or .D. -/
def amoF3 (dbl : Bool) : BitVec 3 := if dbl then 3 else 2

/-- Sources of CSR instructions: funct3 and the five-bit field. -/
def csrF3 (op : CsrOp) : CsrSrc → BitVec 3 × BitVec 5
  | .reg r => (match op with | .rw => 1 | .rs => 2 | .rc => 3, r)
  | .imm u => (match op with | .rw => 5 | .rs => 6 | .rc => 7, u)

/-- The 32-bit word of a generator instruction; none for a step that has none. -/
def encode : Instr → Option (BitVec 32)
  | .kload d r => some (encR 0 0 r 0 (encBuf d) 0x0B#7)
  | .kclr d => some (encR 0 0 0 1 (encBuf d) 0x0B#7)
  | .kmov d s => some (encR 0 (encBuf s) 0 2 (encBuf d) 0x0B#7)
  | .kmerge d s m => some (encR (0#3 ++ m) (encBuf s) 0 3 (encBuf d) 0x0B#7)
  | .krd rd s w => some (encR (0#4 ++ w) (encBuf s) 0 4 rd 0x0B#7)
  | .gemit s r => some (encR 0 (encBuf s) r 5 0 0x0B#7)
  | .gemitNb rd s r => some (encR 0 (encBuf s) r 6 rd 0x0B#7)
  | .geq rd => some (encR 0 0 0 7 rd 0x0B#7)
  | .kins k r pos w => some (pos ++ k ++ r ++ bits w 5 1 ++ 0#2 ++ bits w 0 5 ++ 0x2B#7)
  | .kinsi k u pos w => some (pos ++ k ++ u ++ bits w 5 1 ++ 1#2 ++ bits w 0 5 ++ 0x2B#7)
  | .gwaitAny rd a t => some (encR 0 t a 0 rd 0x5B#7)
  | .gwaitAll rd a t => some (encR 1 t a 0 rd 0x5B#7)
  | .gjoin rd g => some (encR 0 0 g 1 rd 0x5B#7)
  | .gleave rd g => some (encR 0 0 g 2 rd 0x5B#7)
  | .gbar rd g => some (encR 0 0 g 3 rd 0x5B#7)
  | .glaunch rd a => some (encR 0 0 a 4 rd 0x5B#7)
  | .gexit => some (encR 0 0 0 5 0 0x5B#7)
  | .gself rd sel => some (encR 0 sel 0 6 rd 0x5B#7)
  | .grec rd h w => some (encR 0 w h 0 rd 0x7B#7)
  | .psetw r2 ps w => some (encR (0#4 ++ w) r2 0 1 ps 0x7B#7)
  | .psetr rd ps w => some (encR (0#4 ++ w) 0 ps 2 rd 0x7B#7)
  | .gfenceX p s => some (0#4 ++ p ++ s ++ 0#5 ++ 3#3 ++ 0#5 ++ 0x7B#7)
  | .gfence k c => some (0#7 ++ k.code ++ c.code ++ 0#5 ++ 4#3 ++ 0#5 ++ 0x7B#7)
  | .gld z o c rd a => some (encR (0#1 ++ z.code ++ o.code ++ c.code) 0 a 5 rd 0x7B#7)
  | .gst z o c t a => some (encR (0#1 ++ z.code ++ o.code ++ c.code) t a 6 0 0x7B#7)
  | .gdiv rd r m => some (encR 0 m.code r 7 rd 0x7B#7)
  | .sprint rd r => some (encR 1 0 r 7 rd 0x7B#7)
  | .standardLoad op rd r imm => some (encI imm r (loadF3 op) rd 0x03#7)
  | .standardStore op r2 r imm => some (bits imm 5 7 ++ r2 ++ r ++ storeF3 op ++ bits imm 0 5 ++ 0x23#7)
  | .amo op dbl aq rl rd r1 r2 =>
    some (encR (amoF5 op ++ BitVec.ofBool aq ++ BitVec.ofBool rl) r2 r1 (amoF3 dbl) rd 0x2F#7)
  | .lr dbl aq rl rd r1 =>
    some (encR (2#5 ++ BitVec.ofBool aq ++ BitVec.ofBool rl) 0 r1 (amoF3 dbl) rd 0x2F#7)
  | .sc dbl aq rl rd r1 r2 =>
    some (encR (3#5 ++ BitVec.ofBool aq ++ BitVec.ofBool rl) r2 r1 (amoF3 dbl) rd 0x2F#7)
  | .fence fm p s => some (fm ++ p ++ s ++ 0#5 ++ 0#3 ++ 0#5 ++ 0x0F#7)
  | .fenceI => some (encI 0 0 1 0 0x0F#7)
  | .ecall => some 0x00000073
  | .ebreak => some 0x00100073
  | .csrAccess op rd src csr => some (encI csr (csrF3 op src).2 (csrF3 op src).1 rd 0x73#7)
  | .handlerResume => some (encI 0x805 4 5 0 0x73#7)
  | .handlerAbandon => some (encI 0x805 12 5 0 0x73#7)
  | .integerInstruction op => some (encInt op)
  | .illegalInstruction w => some w
  | _ => none

end Sys2Proof
end

