-- ==== Sys2Proof/Machine/Fetch.lean ====
section
/-! DEFINITION. Instruction fetch of the generator core (R62, R110, R176, R177, R204). -/

namespace Sys2Proof.Machine

/-- What fetching at pc gives. -/
inductive Fetched
  | instr (i : Instr) (len : Nat)
  | fault (code : Nat) (addr : Word) (gen : Nat)
  | stall (handle : Nat)
  /-- lines of the record or its map lie in another package and have been asked for -/
  | ask
  /-- the bytes lie in another package and have not come -/
  | far (addr : Word) (das : List Nat)
  deriving DecidableEq, Repr

/-- Translate a halfword of code; a fetch that awaits another package goes on with the translation it holds (R70). -/
def codeXlate (s : State) (a : Word) : Xl × State :=
  match heldXl (curFrame s) a 2 true with
  | some h => (.ok h.das { handle := tagHandle a, words := [], ext := [], map := [] }, s)
  | none => translateTagged s a 2 needX

/-- Lines of another package that the fetch view does not hold since the last FENCE.I (R110, R371). -/
def codeLines (f : Frame) (das : List Nat) : List Nat :=
  (farLines f das .pkg).filter fun l => !f.codeHad.contains l && !(remNow f).got.contains (128 * l)

/-- A byte to be fetched is uncorrectable, in the fetch view or where the access finds it now (R381). -/
def codeBad (s : State) (das : List Nat) : Bool :=
  (das.any fun a => (curFrame s).gen.ibad.contains (a / 32)) ||
    loadBad s (curFrame s).sram (das.filter fun a => !isRemote a) .fr

/-- One halfword of code, as the thread's fetch view holds it (R110); PERM_X is needed. The access passes through the
frame's L1 (R177), which a line of another package's code leaves at once (assumption 23). -/
def fetchHalf (s : State) (a : Word) : (List Byte ⊕ Fetched) × State :=
  match codeXlate s a with
  | (.ok das _, s) =>
    if !(codeLines (curFrame s) das).isEmpty then (.inr (.far a das), s)
    else if codeBad s das then (.inr (.fault causeGenEcc a 0), s)
    else (.inl (das.map (memGet (curFrame s).gen.imem)), if das.any isRemote then s else (gload s das .rlx .fr).2)
  | (.err c _ gen, s) => (.inr (.fault c.l1code a gen), s)
  | (.stall, s) => (.inr (.stall (tagHandle a)), s)
  | (.far die lines, s) => (.inr .ask, askLines s s.cur (tagHandle a) 11 die lines)

/-- Fetch and decode the instruction at pc. -/
def fetchInstr (s : State) : Fetched × State :=
  let pc := (curFrame s).gen.pc
  match fetchHalf s pc with
  | (.inr f, s) => (f, s)
  | (.inl b0, s) =>
    if isShort (BitVec.ofNat 16 (leBytes b0)) then (.instr (decodeBytes b0).1 2, s)
    else match fetchHalf s (pc + 2) with
      | (.inr f, s) => (f, s)
      | (.inl b1, s) => (.instr (decodeBytes (b0 ++ b1)).1 4, s)

/-- Qualifying cool-down time passes while the package draws below 1.8 kW (R17). -/
def coolPass (ticks : Nat) (e : Nat × Frame) : Nat × Frame :=
  match e.2.clk.cool with
  | some n => (e.1, { e.2 with clk := { e.2.clk with cool := some (n - ticks) } })
  | none => e

/-- G-cycles pass for a thread; those stalled in a blocking GEMIT count in QFULL_CYC (R178, R190). -/
def genCycles (n : Nat) (g : Gen) : Gen :=
  { g with cycle := g.cycle + BitVec.ofNat 64 n,
           qfull := match g.stall with | some (.emit _ _) => g.qfull + BitVec.ofNat 32 n | _ => g.qfull }

/-- Time passes: ticks for the package and G-cycles for the thread that moves (R178); how many is free. -/
def tick (s : State) : State :=
  let (t, s) := draw s
  let (c, s) := draw s
  let s := { s with time := s.time + 1 + t,
                    frames := if s.edge.draw < 1800 then s.frames.map (coolPass (1 + t)) else s.frames }
  match (curFrame s).disp.running with
  | none => s
  | some _ => onGen s (genCycles (1 + c))

/-- The generator may fetch: a thread is bound, it is neither stopped nor stalled, no level-2 fault waits for its
delivery at this boundary (R206; an instruction with requests to another package is at none), no pre-emption point has landed (R210), no bank is being fetched and no fault of the bind waits for its rollback (R345), and no event
holds the frame (R362). -/
def genRuns (f : Frame) : Bool :=
  f.disp.running.isSome && !f.ph.bindFault && decide (f.disp.evHeld = 0) && !f.gen.halted && (!(f.gen.h.l2pend && !f.gen.h.inH) || remBusy f) && f.gen.stall.isNone && f.disp.fetch.isEmpty &&
    (match f.disp.req with | some r => !r.landed | none => true)

/-- Place an instruction's bytes where the generator of the moving frame fetches next, and let it move.
Handle 1 names a code object of 16 bytes at device address 0x2000 through a cached record. -/
def placeCode (s : State) (bs : List Byte) : State :=
  let d := curDie s
  let f := curFrame s
  let rec1 : RcEnt :=
    { handle := 1,
      words := [fput (fput (mk64 [(45, 1, 1), (42, 1, 1), (30, 4, 1), (26, 2, d)]) 40 2 (curPart s)) 46 16 0,
                BitVec.ofNat 64 (dramBase d + 0x2000), 0, 0, 0, 16, 0, 0, 1, 0, 0, 0, 0, 0, 16, 0],
      ext := [], map := [] }
  let run : BindRec := f.disp.running.getD
    { image := false, prio := 0, split := 12, tid := 0, tcb := 0x3000, area := 0, areaLen := 0 }
  let mem := memWrite s.mem (dramBase d + 0x2000) bs
  let f := { f with
    gen := { f.gen with pc := 0x0000100000000000, stall := none, halted := false, imem := memWrite f.gen.imem (dramBase d + 0x2000) bs },
    disp := { f.disp with running := some run, req := none, fetch := [], evHeld := 0 },
    rc := rcFill Config.rcFrame f.rc rec1, seen := memWrite f.seen (dramBase d + 0x2000) bs }
  let die := dieOf s d
  let s := setDie s d { die with useBase := fput die.useBase 0 1 1,
                                 useLen := if die.useLen.toNat < 2 then 2 else die.useLen }
  setCur { s with mem := mem, turns := .gen s.cur :: s.turns } f

end Sys2Proof.Machine
end

