-- ==== Sys2Proof/Machine/GenInt.lean ====
section
/-! DEFINITION. The generator core's non-memory base instructions: RV64I, M, Zba and Zbb (R176, R179),
and the illegal instruction. -/

namespace Sys2Proof.Machine

/-- The low 32 bits, sign-extended (the word forms of RV64). -/
def sext32 (w : Word) : Word := (w.extractLsb' 0 32).signExtend 64

/-- The low 32 bits, zero-extended. -/
def zext32 (w : Word) : Word := (w.extractLsb' 0 32).zeroExtend 64

/-- Signed division of RISC-V: by zero gives −1, overflow gives the dividend (R179). -/
def rvDiv {n : Nat} (a b : BitVec n) : BitVec n := if b = 0 then -1 else BitVec.sdiv a b

/-- Signed remainder: by zero gives the dividend, overflow gives 0. -/
def rvRem {n : Nat} (a b : BitVec n) : BitVec n := if b = 0 then a else BitVec.srem a b

def rvDivu {n : Nat} (a b : BitVec n) : BitVec n := if b = 0 then -1 else BitVec.udiv a b

def rvRemu {n : Nat} (a b : BitVec n) : BitVec n := if b = 0 then a else BitVec.umod a b

/-- The high 64 bits of an exact product. -/
def hi64 (p : Int) : Word := BitVec.ofInt 64 (p / 2 ^ 64)

/-- Two-register operations on 64 bits. -/
def aluOp (op : AluOp) (a b : Word) : Word :=
  let sh := b.toNat % 64
  match op with
  | .add => a + b
  | .sub => a - b
  | .sll => a <<< sh
  | .slt => if a.slt b then 1 else 0
  | .sltu => if a.ult b then 1 else 0
  | .xor => a ^^^ b
  | .srl => a >>> sh
  | .sra => a.sshiftRight sh
  | .or => a ||| b
  | .and => a &&& b
  | .mul => a * b
  | .mulh => hi64 (a.toInt * b.toInt)
  | .mulhsu => hi64 (a.toInt * b.toNat)
  | .mulhu => hi64 (a.toNat * b.toNat : Nat)
  | .div => rvDiv a b
  | .divu => rvDivu a b
  | .rem => rvRem a b
  | .remu => rvRemu a b
  | .sh1add => (a <<< 1) + b
  | .sh2add => (a <<< 2) + b
  | .sh3add => (a <<< 3) + b
  | .andn => a &&& ~~~b
  | .orn => a ||| ~~~b
  | .xnor => ~~~(a ^^^ b)
  | .min => if a.slt b then a else b
  | .minu => if a.ult b then a else b
  | .max => if a.slt b then b else a
  | .maxu => if a.ult b then b else a
  | .rol => a.rotateLeft sh
  | .ror => a.rotateRight sh

/-- Two-register operations on words, and those with a zero-extended word operand. -/
def aluWOp (op : AluWOp) (a b : Word) : Word :=
  let x : BitVec 32 := a.extractLsb' 0 32
  let y : BitVec 32 := b.extractLsb' 0 32
  let sh := y.toNat % 32
  match op with
  | .addw => (x + y).signExtend 64
  | .subw => (x - y).signExtend 64
  | .sllw => (x <<< sh).signExtend 64
  | .srlw => (x >>> sh).signExtend 64
  | .sraw => (x.sshiftRight sh).signExtend 64
  | .mulw => (x * y).signExtend 64
  | .divw => (rvDiv x y).signExtend 64
  | .divuw => (rvDivu x y).signExtend 64
  | .remw => (rvRem x y).signExtend 64
  | .remuw => (rvRemu x y).signExtend 64
  | .adduw => zext32 a + b
  | .sh1adduw => (zext32 a <<< 1) + b
  | .sh2adduw => (zext32 a <<< 2) + b
  | .sh3adduw => (zext32 a <<< 3) + b
  | .rolw => (x.rotateLeft sh).signExtend 64
  | .rorw => (x.rotateRight sh).signExtend 64

/-- Register and immediate operations; the immediate is sign-extended. -/
def immOp (op : ImmOp) (a : Word) (i : BitVec 12) : Word :=
  let v : Word := i.signExtend 64
  match op with
  | .addi => a + v
  | .slti => if a.slt v then 1 else 0
  | .sltiu => if a.ult v then 1 else 0
  | .xori => a ^^^ v
  | .ori => a ||| v
  | .andi => a &&& v
  | .addiw => sext32 (a + v)

/-- Register and shift-amount operations. -/
def shiftOp (op : ShOp) (a : Word) (sh : BitVec 6) : Word :=
  let n := sh.toNat
  let x : BitVec 32 := a.extractLsb' 0 32
  match op with
  | .slli => a <<< n
  | .srli => a >>> n
  | .srai => a.sshiftRight n
  | .rori => a.rotateRight n
  | .slliw => (x <<< (n % 32)).signExtend 64
  | .srliw => (x >>> (n % 32)).signExtend 64
  | .sraiw => (x.sshiftRight (n % 32)).signExtend 64
  | .roriw => (x.rotateRight (n % 32)).signExtend 64
  | .slliuw => zext32 a <<< n

/-- Leading zeros of the low `n` bits. -/
def clzNat (w : Nat) : Nat → Nat
  | 0 => 0
  | n + 1 => if w.testBit n then 0 else 1 + clzNat w n

/-- Trailing zeros of the low `n` bits. -/
def ctzNat (w : Nat) : Nat → Nat
  | 0 => 0
  | n + 1 => if w.testBit 0 then 0 else 1 + ctzNat (w / 2) n

/-- One bits of the low `n` bits. -/
def popNat (w : Nat) : Nat → Nat
  | 0 => 0
  | n + 1 => w % 2 + popNat (w / 2) n

/-- One-register operations of Zbb. -/
def unOp (op : UnOp) (a : Word) : Word :=
  match op with
  | .clz => BitVec.ofNat 64 (clzNat a.toNat 64)
  | .ctz => BitVec.ofNat 64 (ctzNat a.toNat 64)
  | .cpop => BitVec.ofNat 64 (popNat a.toNat 64)
  | .sextb => (a.extractLsb' 0 8).signExtend 64
  | .sexth => (a.extractLsb' 0 16).signExtend 64
  | .zexth => (a.extractLsb' 0 16).zeroExtend 64
  | .rev8 => bytesWord (wordBytes a).reverse
  | .orcb => bytesWord ((wordBytes a).map fun b => if b = 0 then 0 else 0xFF)
  | .clzw => BitVec.ofNat 64 (clzNat (a.toNat % 2 ^ 32) 32)
  | .ctzw => BitVec.ofNat 64 (ctzNat (a.toNat % 2 ^ 32) 32)
  | .cpopw => BitVec.ofNat 64 (popNat (a.toNat % 2 ^ 32) 32)

/-- Branch conditions. -/
def brTaken (c : BrOp) (a b : Word) : Bool :=
  match c with
  | .beq => decide (a = b)
  | .bne => decide (a ≠ b)
  | .blt => a.slt b
  | .bge => !a.slt b
  | .bltu => a.ult b
  | .bgeu => !a.ult b

/-- A branch or jump offset held in halfwords. -/
def pcOff {n : Nat} (o : BitVec n) : Word := (o ++ 0#1).signExtend 64

/-- Effect on the generator core, pc of the instruction in `pc` and the next in `npc`. -/
def intEffect (op : IntOp) (g : Gen) : Gen :=
  match op with
  | .lui rd imm => retire (wx g rd ((imm ++ 0#12).signExtend 64))
  | .auipc rd imm => retire (wx g rd (g.pc + (imm ++ 0#12).signExtend 64))
  | .jal rd off => retireTo (wx g rd g.npc) (g.pc + pcOff off)
  | .jalr rd rs1 imm => retireTo (wx g rd g.npc) ((rx g rs1 + imm.signExtend 64) &&& ~~~1#64)
  | .branch c rs1 rs2 off =>
    if brTaken c (rx g rs1) (rx g rs2) then retireTo g (g.pc + pcOff off) else retire g
  | .imm op rd rs1 imm => retire (wx g rd (immOp op (rx g rs1) imm))
  | .shift op rd rs1 sh => retire (wx g rd (shiftOp op (rx g rs1) sh))
  | .alu op rd rs1 rs2 => retire (wx g rd (aluOp op (rx g rs1) (rx g rs2)))
  | .aluW op rd rs1 rs2 => retire (wx g rd (aluWOp op (rx g rs1) (rx g rs2)))
  | .un op rd rs1 => retire (wx g rd (unOp op (rx g rs1)))

/-- R176, R179. -/
def execIntegerInstruction (op : IntOp) (s : State) : Out := .next (onGen s (intEffect op))

/-- R137, R176, R204: cause 2 with the instruction bits. -/
def execIllegalInstruction (w : BitVec 32) (s : State) : Out := .next (takeIllegal s w)

/-- R204, R205: cause 3, L1TVAL the pc. -/
def execEbreak (s : State) : Out := .next (takeL1 s causeBreak (curFrame s).gen.pc)

/-- R204, R205: cause 8 always escalates; the thread goes on at the next instruction. -/
def execEcall (s : State) : Out := .next (takeL1 s causeEcall 0)

end Sys2Proof.Machine
end

