-- ==== Sys2Proof/Machine/GenMem.lean ====
section
/-! DEFINITION. The generator core's memory instructions and fences: standard loads and stores, atomics,
LR and SC, FENCE, FENCE.I, GLD, GST, KLOAD, GFENCE and GFENCE.X (R62, R93, R94, R97, R110, R179 to R182,
R185, R200 to R202). -/

namespace Sys2Proof.Machine

/-- A generator access either goes on with bytes or has ended the instruction: a fault taken, or a wait. -/
inductive GRes
  | ok (bs : List Byte) (das : List Nat) (s : State)
  | stop (s : State)
  deriving DecidableEq, Repr

/-- The generator waits on a MIGRATING record; the instruction executes again (R71). -/
def genStall (s : State) (h : Nat) : State := onGen s fun g => { g with stall := some (.translation h) }

/-- The generator waits for lines that its translation has asked of another package; the instruction, which completes before
a pre-emption (R210), executes again with them (R371). -/
def genAsk (s : State) : State :=
  let f := curFrame s
  setCur s { f with rem := some { remNow f with asks := true }, gen := { f.gen with stall := some .remote } }

/-- Check and translate a generator access of `n` bytes; `align` is the cause of a misaligned address
(R179), and the failing address stands in L1TVAL (R204). An access that awaits another package goes on with the
translation it holds (R70). -/
def genXlate (s : State) (a : Word) (n align : Nat) (need : Need) : GRes :=
  if a.toNat % n ≠ 0 then .stop (takeL1 s align a)
  else match heldXl (curFrame s) a n false with
  | some h => .ok [] h.das s
  | none =>
    match translateTagged s a n need with
    | (.ok das _, s) => .ok [] das s
    | (.err c _ gen, s) => .stop (takeL1 s c.l1code a gen)
    | (.stall, s) => .stop (genStall s (tagHandle a))
    | (.far die lines, s) => .stop (genAsk (askLines s s.cur (tagHandle a) 11 die lines))

/-! ### Bytes of another package (R370 to R372) -/

/-- An access of the instruction at pc to bytes of another package, under a translation that it holds from then on (R70):
`keys` name what it needs, `bytes` what its requests carry. It waits for its turn among the frame's accesses of the lines and
for the replies, takes the fault that a refusal or the want of a port stands for, with the record's generation (R66), or goes
on with what came (R107, R370, R372). -/
def genFar (s : State) (x : HeldXl) (k : ReqKind) (keys : List Nat) (bytes : List (Nat × Byte)) : GRes :=
  let f := curFrame s
  let r := remNow f
  let left := bytes.filter fun b => !r.got.contains b.1 && !r.got.contains (b.1 / 128 * 128)
  if keys.all r.got.contains then .ok [] [] (remPut s)
  else match r.err with
    | some c => .stop (takeL1 s c.l1code x.addr x.gen)
    | none =>
      if awaits s s.cur k.work 0 then .stop (setCur s { f with rem := some (holdXl r x), gen := { f.gen with stall := some .remote } })
      else if farBusy s (left.map (·.1)) false then .stop (setCur s { f with rem := some (holdXl r x) })
      else if noPort s s.cur x.die left then .stop (takeL1 s (L2Class.l1code .homeOffline) x.addr x.gen)
      else
        let s := setCur s { f with rem := some (holdXl r x), gen := { f.gen with stall := some .remote } }
        .stop (sendRemote s s.cur 0 { k with die := x.die, handle := tagHandle x.addr } (fun _ => false) left)

/-- A read of `n` bytes of another package asks for their lines; work 9 reads code. -/
def genFarRead (s : State) (a : Word) (n work : Nat) (das : List Nat) (scope : Scope) : GRes :=
  let lines := farLines (curFrame s) das scope
  if lines.isEmpty then .ok [] [] s
  else genFar s (newXl s a n (decide (work = 9)) das) { work := work, ty := 1, rel := false, die := 0 } (lines.map (128 * ·))
    (lines.flatMap fun l => (upto 128).map fun i => (128 * l + i, 0))

/-- A write or atomic on bytes of another package. -/
def genFarWrite (s : State) (a : Word) (work : Nat) (ty : BitVec 4) (rel : Bool) (amo : AmoOp) (bytes : List (Nat × Byte)) : GRes :=
  if !bytes.any fun b => isRemote b.1 then .ok [] [] s
  else genFar s (newXl s a bytes.length false (bytes.map (·.1))) { work := work, ty := ty, rel := rel, die := 0, amo := amo }
    (bytes.map (·.1)) bytes

/-- A generator load; uncorrectable data raises GEN_ECC (R204, R381). -/
def genLoad (s : State) (a : Word) (n : Nat) (ord : Ordering4) (scope : Scope) : GRes :=
  match genXlate s a n causeLoadAlign needR with
  | .stop s => .stop s
  | .ok _ das s =>
    match genFarRead s a n 4 das scope with
    | .stop s => .stop s
    | .ok _ _ s =>
      if loadBad s (curFrame s).sram das scope then .stop (takeL1 s causeGenEcc a)
      else .ok (gload s das ord scope).1 das (gload s das ord scope).2

/-- Aligned doublewords at these addresses, in order, as relaxed frame-scope loads. -/
def genLoads (s : State) : List Word → GRes
  | [] => .ok [] [] s
  | a :: r =>
    match genLoad s a 8 .rlx .fr with
    | .stop s => .stop s
    | .ok b d s =>
      match genLoads s r with
      | .stop s => .stop s
      | .ok bs ds s => .ok (b ++ bs) (d ++ ds) s

/-- A generator store; one to another package is performed once that acknowledges it. -/
def genStore (s : State) (a : Word) (bs : List Byte) (rel : Bool := false) : State :=
  match genXlate s a bs.length causeStoreAlign needW with
  | .stop s => s
  | .ok _ das s =>
    match genFarWrite s a 5 3 rel .add (zipBytes das bs) with
    | .stop s => s
    | .ok _ _ s => retireNop (gput s (zipBytes das bs))

/-- Bytes of a load width. -/
def loadLen : LoadOp → Nat
  | .lb | .lbu => 1 | .lh | .lhu => 2 | .lw | .lwu => 4 | .ld => 8

/-- The loaded value in 64 bits. -/
def loadVal (op : LoadOp) (bs : List Byte) : Word :=
  let v := leNat bs
  match op with
  | .lb => BitVec.ofInt 64 (sgn 8 v)
  | .lh => BitVec.ofInt 64 (sgn 16 v)
  | .lw => BitVec.ofInt 64 (sgn 32 v)
  | .ld | .lbu | .lhu | .lwu => BitVec.ofNat 64 v

def storeLen : StoreOp → Nat
  | .sb => 1 | .sh => 2 | .sw => 4 | .sd => 8

/-- Address of a base and a 12-bit offset. -/
def effAddr (g : Gen) (rs1 : BitVec 5) (imm : BitVec 12) : Word := rx g rs1 + imm.signExtend 64

/-- R180: relaxed, frame scope. -/
def execStandardLoad (op : LoadOp) (rd rs1 : BitVec 5) (imm : BitVec 12) (s : State) : Out :=
  .next <| match genLoad s (effAddr (curFrame s).gen rs1 imm) (loadLen op) .rlx .fr with
    | .stop s => s
    | .ok bs _ s => retireWith s rd (loadVal op bs)

/-- R180: relaxed, package scope. -/
def execStandardStore (op : StoreOp) (rs2 rs1 : BitVec 5) (imm : BitVec 12) (s : State) : Out :=
  .next (genStore s (effAddr (curFrame s).gen rs1 imm) (leOf (rx (curFrame s).gen rs2).toNat (storeLen op)))

/-- New value of an atomic on `n`-bit words. -/
def amoNew {n : Nat} (op : AmoOp) (old v : BitVec n) : BitVec n :=
  match op with
  | .swap => v
  | .add => old + v
  | .xor => old ^^^ v
  | .and => old &&& v
  | .or => old ||| v
  | .min => if v.slt old then v else old
  | .max => if old.slt v then v else old
  | .minu => if v.ult old then v else old
  | .maxu => if old.ult v then v else old

/-- Value of a word or doubleword read by LR or an AMO. -/
def amoRead (dbl : Bool) (bs : List Byte) : Word := loadVal (if dbl then .ld else .lw) bs

/-- R93, R179, R180: one read and write at the home, never in the L1; in another package a flit carries it, and its reply
brings the value read (R370). -/
def execAmo (op : AmoOp) (dbl aq rl : Bool) (rd rs1 rs2 : BitVec 5) (s : State) : Out :=
  let a := rx (curFrame s).gen rs1
  let v := rx (curFrame s).gen rs2
  let n := if dbl then 8 else 4
  .next <| match genXlate s a n causeStoreAlign needRW with
    | .stop s => s
    | .ok _ das s =>
      match genFarWrite s a 6 5 rl op (zipBytes das (leOf v.toNat n)) with
      | .stop s => s
      | .ok _ _ s =>
      if poisoned s das then takeL1 s causeGenEcc a
      else
        let old := gread s das
        let new := if dbl then leOf (amoNew op (bytesWord old) v).toNat 8
          else leOf (amoNew op (BitVec.ofNat 32 (leNat old)) (v.extractLsb' 0 32)).toNat 4
        let s := gput s (zipBytes das new)
        retireWith (if aq then l1Invalidate s else s) rd (amoRead dbl old)

/-- R180, R181: a load at package scope that reserves its 128-byte line. -/
def execLr (dbl aq rl : Bool) (rd rs1 : BitVec 5) (s : State) : Out :=
  let _ := rl
  let a := rx (curFrame s).gen rs1
  .next <| match genLoad s a (if dbl then 8 else 4) (if aq then .acq else .rlx) .pkg with
    | .stop s => s
    | .ok bs das s =>
      onGen (retireWith s rd (amoRead dbl bs)) fun g => { g with resv := das.head?.map (· / 128) }

/-- Bytes of an SC lie in another package, whose agents' writes to the line this one cannot see: whether one of them has
ended the reservation is free (R181, assumption 23). -/
def peerBroke (s : State) (das : List Nat) : Bool × State :=
  if das.any isRemote then let d := draw s; (decide (d.1 % 2 = 1), d.2) else (false, s)

/-- R181: succeeds only with the line reserved; any SC ends the reservation. An SC whose write another package has been
asked for has succeeded. -/
def execSc (dbl aq rl : Bool) (rd rs1 rs2 : BitVec 5) (s : State) : Out :=
  let _ := aq
  let g := (curFrame s).gen
  let a := rx g rs1
  let n := if dbl then 8 else 4
  .next <| match genXlate s a n causeStoreAlign needW with
    | .stop s => s
    | .ok _ das s =>
      let sent := (heldXl (curFrame s) a n false).isSome
      let mine := decide (g.resv.isSome) && decide (g.resv = das.head?.map (· / 128))
      let p := if mine && !sent then peerBroke s das else (false, s)
      let s := p.2
      let hit := sent || (mine && !p.1)
      let bytes := if hit then zipBytes das (leOf (rx g rs2).toNat n) else []
      match genFarWrite s a 5 3 rl .add bytes with
      | .stop s => s
      | .ok _ _ s =>
      let s := if hit then gput s bytes else s
      onGen (retireWith s rd (if hit then 0 else 1)) fun g => { g with resv := none }

/-- A G-path fence: acquires at die scope or wider invalidate the L1 (R94, R201); every earlier access
has been performed when its instruction retired. -/
def fenceEffect (s : State) (k : FenceKind) (c : Scope) : State :=
  if c ≠ .fr ∧ k ≠ .rel then l1Invalidate s else s

/-- The fence a FENCE acts as (R182). -/
def fenceKind (fm pred succ : BitVec 4) : Option FenceKind :=
  let pr := fbit pred 1
  let pw := fbit pred 0
  let sr := fbit succ 1
  let sw := fbit succ 0
  if fm = 8 ∧ pr ∧ pw ∧ sr ∧ sw then some .ar
  else if !(pr || pw) || !(sr || sw) then none
  else if !pw then some .acq
  else if !sr then some .rel
  else some .sc

/-- R176, R182. -/
def execFence (fm pred succ : BitVec 4) (s : State) : Out :=
  .next <| retireNop <| match fenceKind fm pred succ with
    | none => s
    | some k => fenceEffect s k .pkg

/-- R110: later fetches see the thread's own stores, and the writes of others that precede its acquires. -/
def execFenceI (s : State) : Out :=
  let f := curFrame s
  .next (onGen (setCur s { f with codeHad := [], codeNew := f.codeNew.filter fun e => !e.2 }) fun g =>
    retire { g with imem := f.seen, ibad := f.seenBad })

/-- R201. -/
def execGfence (k : FenceKind) (c : Scope) (s : State) : Out := .next (retireNop (fenceEffect s k c))

/-- Bytes of an access size. -/
def accLen : AccSize → Nat
  | .b => 1 | .h => 2 | .w => 4 | .d => 8

/-- R202. -/
def execGld (z : AccSize) (o : Ordering4) (c : Scope) (rd rs1 : BitVec 5) (s : State) : Out :=
  .next <| match genLoad s (rx (curFrame s).gen rs1) (accLen z) o c with
    | .stop s => s
    | .ok bs _ s => retireWith s rd (BitVec.ofInt 64 (sgn (8 * accLen z) (leNat bs)))

/-- R202: stores are performed in program order, so a release orders every earlier access. -/
def execGst (z : AccSize) (o : Ordering4) (c : Scope) (rs2 rs1 : BitVec 5) (s : State) : Out :=
  .next (genStore s (rx (curFrame s).gen rs1) (leOf (rx (curFrame s).gen rs2).toNat (accLen z))
    (decide (o = .rel) && decide (c = .sys)))

/-- R185: five 8-byte loads. -/
def execKload (kd : BitVec 3) (rs1 : BitVec 5) (s : State) : Out :=
  let a := rx (curFrame s).gen rs1
  .next <| match genLoads s ((upto 5).map fun i => a + BitVec.ofNat 64 (8 * i)) with
    | .stop s => s
    | .ok bs _ s => onGen s fun g => retire (kput g kd (BitVec.ofNat 320 (leNat bs)))

/-! ### Cross-path fences (R97, R200) -/

/-- Every entry emitted so far has been taken and every issue of it handed out; a loop whose first
iteration still lacks entries holds nothing back. -/
def streamDrained (f : Frame) : Bool :=
  decide (f.seq.taken = f.seq.queue.length) && f.seq.cur.isNone && decide (f.seq.stage ≠ .commit) &&
    (f.seq.loops.isEmpty || decide (f.seq.cursor = f.seq.rbuf.length))

/-- Accesses of an engine path before the place that issue number `lim` stands for are performed: bit 1 V, 2 B, 3 C. A
withheld write has the place of the commit that released it (R98). -/
def pathDone (f : Frame) (p : BitVec 4) (lim : Nat) : Bool :=
  let empty (q : SlotQ) := q.q.all fun e => decide (lim ≤ e.n)
  let rel (r : Released) : Nat := match r with | .store v => v.place | .add a => a.place
  let relV (r : Released) : Bool := match r with | .store _ => true | .add _ => false
  (!fbit p 1 || (empty f.seq.qv && f.vec.loads.all (fun l => decide (lim ≤ l.n)) &&
    f.ph.released.all fun r => !relV r || decide (lim < rel r))) &&
  (!fbit p 2 || (empty f.seq.qb && (match f.bead.bldp with | some b => decide (lim ≤ b.n) | none => true))) &&
  (!fbit p 3 || (empty f.seq.qc && f.cpe.ops.all (fun o => decide (lim ≤ o.n)) &&
    f.ph.released.all fun r => relV r || decide (lim < rel r)))

/-- A fence with an empty set, or naming one path twice, has no effect (R97). -/
def fenceVoid (p q : BitVec 4) : Bool :=
  decide (p = 0) || decide (q = 0) || (decide (p = q) && decide (popNat p.toNat 4 = 1))

/-- A fence with G in P puts the generator's stores so far before the accesses of entries emitted later by the engine paths
in S (R96, R97). -/
def fenceLate (p q : BitVec 4) (f : Frame) : Frame :=
  if fbit p 0 then { f with late := lateFence (fbit q 1) (fbit q 3) f.gen.emitSer f.late } else f

/-- R97, R200: with G in S and an engine path in P the generator waits, and executes the fence again. -/
def execGfenceX (p q : BitVec 4) (s : State) : Out :=
  let f := curFrame s
  let waits := fbit q 0 && decide (p &&& 0xE ≠ 0)
  .next <|
    if fenceVoid p q then retireNop s
    else if waits && !(streamDrained f && pathDone f p (f.seq.issueNo + 1)) then s
    else if q &&& 0xE = 0 then retireNop s
    else onGen (setCur s (fenceLate p q f)) fun g => retire { g with fences := g.fences ++ [{ p := p, s := q }] }

end Sys2Proof.Machine
end

