-- ==== Sys2Proof/Machine/SeqOps.lean ====
section
/-! DEFINITION. The stream sequencer's operations: packing, open span, advance, loops, issue numbers,
counters, the undo log, snapshots, rollback, replay and abandonment (R111 to R119, R143 to R168, R187). -/

namespace Sys2Proof.Machine

/-! ### Bundles (R111, R112) -/

/-- Pack a compose image: the words whose mask bits are set. -/
def pack (img : Image) : Bundle :=
  let h := imgWord img 0
  { hdr := h,
    bead := if hdrHas h .bead then some (imgWord img 1) else none,
    vec := if hdrHas h .vector then some (imgWord img 2) else none,
    copy := if hdrHas h .copy then some (imgWord img 3) else none,
    ctl := if hdrHas h .control then some (imgWord img 4) else none }

/-- The slot word of a bundle. -/
def Bundle.word (b : Bundle) : SlotName → Option Word
  | .bead => b.bead | .vector => b.vec | .copy => b.copy | .control => b.ctl

/-- OP of a present control slot. -/
def ctlOp (b : Bundle) : Nat := match b.ctl with | some w => fld w 56 8 | none => 0

/-- The bundle asks for a commit: COMMIT, or PHASE in the control slot (R160). -/
def asksCommit (b : Bundle) : Bool := hdrCommit b.hdr || decide (ctlOp b = 2)

/-- LEN of a LOOP in the control slot: n − 1. -/
def loopLen (b : Bundle) : Option Nat :=
  match b.ctl with
  | some w => if fld w 56 8 = 1 then some (fld w 49 7) else none
  | none => none

/-- The word of a bundle in memory: header and present words (R111). -/
def packedWords (b : Bundle) : List Word :=
  [b.hdr] ++ b.bead.toList ++ b.vec.toList ++ b.copy.toList ++ b.ctl.toList

/-! ### The open span (R161, R187) -/

/-- Walk entries in emit order. `open'` holds the loops whose bodies are running, outermost last: first
entry of the body and entries of it still to come. The result is the first retained entry. -/
def spanWalk : List Entry → Nat → List (Nat × Nat) → Nat → Nat
  | [], _, _, start => start
  | e :: r, i, loops, start =>
    let left := loops.map fun l => (l.1, l.2 - 1)
    let left := match loopLen e.bun with
      | some n => (i + 1, n + 1) :: left
      | none => left
    let left := left.filter fun l => decide (l.2 ≠ 0)
    let start := if asksCommit e.bun then
        (match left.getLast? with | some l => l.1 | none => i + 1)
      else start
    spanWalk r (i + 1) left start

/-- Entries that would be retained once every entry emitted so far had executed. -/
def openSpan (q : Seq) (ph : Phase) : Nat :=
  let init := match ph.snap.loops with | l :: _ => [(0, l.len + 1)] | [] => []
  q.queue.length - spanWalk q.queue 0 init 0

/-! ### Advance (R117) -/

/-- The step of a STEP code. -/
def stepOf (code : Nat) : Nat := if code = 0 then 0 else 2 ^ (code - 1)

/-- An operand field at bit `lo`, advanced by `d`. -/
def advOpd (w : Word) (lo d : Nat) : Word :=
  let i := fld w lo 10
  match fld w (lo + 10) 2 with
  | 0 | 1 => fput w lo 10 ((i + d) % 1024)
  | 2 => fput w lo 10 (i / 64 * 64 + (i + d) % 64)
  | _ => w

/-- Operand positions of a vector word, by OP (R124, R128). -/
def vecOpds (op : Nat) : List Nat :=
  if op = 0 then []
  else if op = 0x18 then [24, 11]
  else if op = 0x1A then []
  else if op = 0x14 ∨ op = 0x15 ∨ (0x28 ≤ op ∧ op ≤ 0x3A) then [37, 24]
  else if op = 0x3C then [37]
  else if op = 0xC7 then [24]
  else if op = 0xC8 then []
  else if 0xC0 ≤ op then [37, 24]
  else [37, 24, 11]

/-- Operand positions of a bead word, by OP (R236). -/
def beadOpds (op : Nat) : List Nat :=
  match op with | 2 => [43, 30, 17] | 6 => [43] | 7 => [17] | _ => []

/-- advance(W) of R117. A copy word is not changed: its sets advance instead (R314). -/
def advance (sl : SlotName) (w : Word) : Word :=
  let op := fld w 56 8
  let d := stepOf (fld w 6 3)
  match sl with
  | .bead => (beadOpds op).foldl (fun w lo => advOpd w lo d) w
  | .vector => (vecOpds op).foldl (fun w lo => advOpd w lo d) w
  | _ => w

/-! ### Slot queues -/

/-- The queue of an engine; the control slot has none. -/
def slotQ (q : Seq) : SlotName → SlotQ
  | .bead => q.qb | .vector => q.qv | .copy => q.qc | .control => .fresh

def setSlotQ (q : Seq) (sl : SlotName) (v : SlotQ) : Seq :=
  match sl with
  | .bead => { q with qb := v } | .vector => { q with qv := v } | .copy => { q with qc := v }
  | .control => q

/-- The issue an engine executes next. -/
def headOf (f : Frame) (sl : SlotName) : Option SlotIssue := (slotQ f.seq sl).q.head?

/-- The engine has executed its head issue. -/
def popHead (f : Frame) (sl : SlotName) : Frame :=
  { f with seq := setSlotQ f.seq sl { q := (slotQ f.seq sl).q.tail, hold := none } }

/-- The engine waits. -/
def holdHead (f : Frame) (sl : SlotName) (h : Hold) : Frame :=
  { f with seq := setSlotQ f.seq sl { slotQ f.seq sl with hold := some h } }

/-- Slot codes of a report (R209). -/
def slotCode : SlotName → Nat
  | .bead => 0 | .vector => 1 | .copy => 2 | .control => 3

/-- The level-2 fault of an issue (R167). -/
def issueFault (e : SlotIssue) (slot : Nat) (cls : L2Class) (mem : Option MemInfo := none) (final : Bool := false) : L2Fault :=
  { n := e.n, slot := slot, cls := cls, pos := e.pos, rep := e.rep, iters := e.iters, tag := e.tag, mem := mem, final := final }

/-- Stands for an issue none of whose rows is recorded for the first time. -/
def noFault : L2Fault :=
  { n := 0, slot := 0, cls := .undoOverflow, pos := 0, rep := 0, iters := [], tag := { pc := 0, ser := 0, tid := 0 }, mem := none,
    final := false }

/-- A level-2 fault is raised, to be delivered by a rollback (R165). -/
def addFault (f : Frame) (x : L2Fault) : Frame := { f with ph := { f.ph with faults := f.ph.faults ++ [x] } }

/-- The issue raises a level-2 fault: it is recorded, and the issue is over (R164, R167). -/
def raiseL2 (f : Frame) (sl : SlotName) (e : SlotIssue) (cls : L2Class) (mem : Option MemInfo := none)
    (final : Bool := false) : Frame :=
  addFault (popHead f sl) (issueFault e (slotCode sl) cls mem final)

/-- All three queues are empty. -/
def queuesEmpty (f : Frame) : Bool := f.seq.qb.q.isEmpty && f.seq.qv.q.isEmpty && f.seq.qc.q.isEmpty

/-! ### Counters (R105, R154, R156) -/

def cntLD (f : Frame) : Nat := f.vec.loads.length
def cntST (f : Frame) : Nat := min 255 f.ph.released.length

/-- An add-reduce leaves CP when its source has been read; CRLD never enters it (R105, R324, R330). -/
def opInCP (o : COp) : Bool := match o.kind with | .crld .. => false | .add => !o.got | _ => true

def cntCP (f : Frame) : Nat := (f.cpe.ops.filter opInCP).length

def opInBS (o : COp) : Bool := match o.kind with | .crld .. => true | _ => false

def cntBS (f : Frame) : Nat :=
  (f.cpe.ops.filter opInBS).length + (if f.bead.bldp.isSome then 1 else 0) + f.disp.fetch.length

/-! ### The undo log (R162) -/

/-- Record a row before its first write or kill of the phase. -/
def undoNote (f : Frame) (r : Nat) : Frame :=
  if f.ph.undo.any (fun u => decide (u.1 = r)) then f
  else
    let marks := if f.vec.bad.contains r then insertUniq r f.ph.snap.badRows else f.ph.snap.badRows
    { f with ph := { f.ph with undo := f.ph.undo ++ [(r, tget f.vec.rows r)], snap := { f.ph.snap with badRows := marks } } }

/-- Fault `x` is of an earlier issue than `y`, or of an earlier slot of the same (R167). -/
def faultBefore (x y : L2Fault) : Bool := decide (x.n < y.n) || (decide (x.n = y.n) && decide (x.slot < y.slot))

/-- Count `k` rows more for an issue, the issues in their order. -/
def logCount (x : L2Fault) (k : Nat) : List (L2Fault × Nat) → List (L2Fault × Nat)
  | [] => [(x, k)]
  | y :: r =>
    if faultBefore x y.1 then (x, k) :: y :: r
    else if faultBefore y.1 x then y :: logCount x k r
    else (y.1, y.2 + k) :: r

/-- The issue that recorded the 257th row of the phase, in issue order. -/
def logOver : Nat → List (L2Fault × Nat) → Option L2Fault
  | _, [] => none
  | n, y :: r => if 256 < n + y.2 then some y.1 else logOver (n + y.2) r

/-- The issue that `x` stands for records several rows. The log holds 256: of the issues that have recorded rows, the one
that comes to a 257th in issue order raises UNDO_OVERFLOW, whichever engine was ahead, so that it is the same one at
every splitting level (R28, R162): none when it is this issue, else that one's fault is raised. -/
def undoNotes (f : Frame) (x : L2Fault) (rows : List Nat) : Option Frame :=
  let g := rows.foldl undoNote f
  let k := g.ph.undo.length - f.ph.undo.length
  if k = 0 then some f
  else
    let g := { g with ph := { g.ph with logs := logCount x k g.ph.logs } }
    if g.ph.undo.length ≤ 256 then some g
    else match logOver (g.ph.undo.length - (g.ph.logs.map (·.2)).foldl (· + ·) 0) g.ph.logs with
      | some y => if faultBefore x y then some (addFault g { y with cls := .undoOverflow, mem := none, final := false }) else none
      | none => none

/-! ### Snapshot, replay, rollback -/

/-- The active banks as a word: bit b set when bank 1 of array b is active. -/
def activesOf (b : Bead) : Word :=
  b.arrays.foldl (fun w e => if e.2.act then w ||| BitVec.ofNat 64 (2 ^ e.1) else w) 0

/-- Stale flags as a word (R235). -/
def staleFlags (b : Bead) : Word :=
  b.arrays.foldl (fun w e => if e.2.staleF then w ||| BitVec.ofNat 64 (2 ^ e.1) else w) 0

/-- The snapshot of a phase that starts now (R163). -/
def takeSnap (f : Frame) : Snap :=
  { pos := f.seq.pos, taken := f.seq.taken, loops := f.seq.loops, rbuf := f.seq.rbuf,
    cursor := f.seq.cursor, wb := f.seq.wb, wv := f.seq.wv, wc := f.seq.wc, fmt := f.seq.fmt,
    preds := f.vec.preds, cf := f.vec.cf,
    clip := (f.bead.arrays.map fun (e : Nat × BArr) => (e.1, e.2.clip)).filter fun e => decide (e.2 ≠ 0),
    staleF := staleFlags f.bead, digital := f.bead.digital, ports := f.vec.ports, fifos := f.vec.fifos,
    origins := f.cpe.origins, actives := activesOf f.bead,
    srcs := f.bead.arrays.map fun (e : Nat × BArr) => (e.1, (e.2.b0.src, e.2.b1.src)),
    fmts := f.bead.arrays.map fun (e : Nat × BArr) => (e.1, (e.2.b0.fmt, e.2.b1.fmt)),
    kg := f.bead.kg, ng := f.bead.ng, des := f.cpe.des, issueNo := f.seq.issueNo }

/-- A new phase starts: snapshot, empty undo log, cleared phase marks (R160, R163, R168, R227). SPAD_ECC faults are
remembered until a commit (R166). -/
def startPhase (f : Frame) : Frame :=
  let clean (b : Bank) : Bank := { b with touched := false }
  let f := { f with bead := { f.bead with arrays := f.bead.arrays.map fun (e : Nat × BArr) =>
    (e.1, { e.2 with b0 := clean e.2.b0, b1 := clean e.2.b1, swapped := false }) } }
  { f with ph := { f.ph with undo := [], logs := [], snap := takeSnap f, replays := 0, forced := false,
                             ordered := false, closing := false } }

/-- Bank of an array by number. -/
def bankOf (a : BArr) (one : Bool) : Bank := if one then a.b1 else a.b0
def setBank (a : BArr) (one : Bool) (b : Bank) : BArr := if one then { a with b1 := b } else { a with b0 := b }

def arrOf (f : Frame) (b : Nat) : BArr := tgetD f.bead.arrays b .fresh
def setArr (f : Frame) (b : Nat) (a : BArr) : Frame :=
  { f with bead := { f.bead with arrays := tset f.bead.arrays b a } }

/-- A bank of zero weights (R215) that keeps nothing. -/
def zeroBank : Bank := { Bank.fresh with touched := false }

/-- The shadow bank of an array is FILLING. -/
def shadowFilling (f : Frame) (b : Nat) : Bool := let a := arrOf f b; (bankOf a (!a.act)).filling

/-- A reload of an array's shadow is in progress or waits for its checksum. A shadow that a cancelled
reload left FILLING takes the next reload at once (R214, R216). -/
def reloading (f : Frame) (b : Nat) : Bool :=
  let a := arrOf f b
  shadowFilling f b && ((bankOf a (!a.act)).got || (f.bead.bldp.any fun x => x.todo.contains b) ||
    (f.cpe.ops.any fun o => match o.kind with | .crld todo _ _ _ _ _ => todo.contains b | _ => false) ||
    f.disp.fetch.contains (b, !a.act))

/-- The replay may read the bank's phase-start contents (R216). The phase-start shadow is exposed once the phase has swapped it
in, as the third sentence of that rule has it, also where the phase had reloaded it first, so that the replay would rewrite it
before any read: DESIGN CHOICE (assumption 50). -/
def bankExposed (f : Frame) (b : Nat) (one : Bool) : Bool :=
  decide (fbit f.ph.snap.actives b = one) || (arrOf f b).swapped

/-- The bank must be restored: it is exposed, and a reload of the phase wrote it wholly or in part (R216). -/
def bankLost (f : Frame) (b : Nat) (one : Bool) : Bool := bankExposed f b one && (bankOf (arrOf f b) one).touched

/-- The phase-start source and format of a bank. -/
def startSrc (f : Frame) (b : Nat) (one : Bool) : BankSrc :=
  let p := tgetD f.ph.snap.srcs b (.zero, .zero)
  if one then p.2 else p.1
def startFmt (f : Frame) (b : Nat) (one : Bool) : BeadFmt :=
  let p := tgetD f.ph.snap.fmts b (.i8, .i8)
  if one then p.2 else p.1

/-- Banks of a frame that a reload or a swap has named. -/
def knownBanks (f : Frame) : List (Nat × Bool) :=
  f.bead.arrays.flatMap fun e => [(e.1, false), (e.1, true)]

/-- A port-loaded bank cannot be restored (R164). -/
def weightLost (f : Frame) : Bool :=
  (knownBanks f).any fun p => bankLost f p.1 p.2 && decide (startSrc f p.1 p.2 = .ports)

/-- A reload of the open phase has named the bank and written nothing of it. Of an exposed bank this is so whenever it is
FILLING and untouched, whether the reload still waits or has ended in a fault: it was VALID at the phase start, or full when
the phase exchanged it (R214). -/
def reloadUnbegun (f : Frame) (b : Nat) (one : Bool) : Bool :=
  let k := bankOf (arrOf f b) one
  bankExposed f b one && k.filling && !k.touched && !k.got

/-- Restore the exposed banks of a rollback: ZERO banks at once, OBJECT banks by refetching (R164). An exposed bank
that a reload has named and not written keeps its contents, and is again what it was at the phase start (R216). -/
def restoreBanks (f : Frame) : Frame :=
  (knownBanks f).foldl (fun f p =>
    let a := arrOf f p.1
    if bankLost f p.1 p.2 then
      match startSrc f p.1 p.2 with
      | .zero => setArr f p.1 (setBank a p.2 zeroBank)
      | .object h g o =>
        let k := { bankOf a p.2 with src := .object h g o, fmt := startFmt f p.1 p.2, filling := true, got := false, summed := false, swm := false }
        let f := setArr f p.1 (setBank a p.2 k)
        { f with disp := { f.disp with fetch := f.disp.fetch ++ [p] } }
      | .ports => f
    else if reloadUnbegun f p.1 p.2 then
      setArr f p.1 (setBank a p.2 { bankOf a p.2 with
        filling := false, src := startSrc f p.1 p.2, fmt := startFmt f p.1 p.2, swm := false })
    else f) f

/-- Undo the row changes of the phase (R162, R164), error marks with them (R381); slates of restored live rows wake
(R262). -/
def restoreRows (f : Frame) : Frame :=
  let marks := f.ph.snap.badRows
  let mark (v : Vec) (r : Nat) : List Nat :=
    if marks.contains r then insertUniq r v.bad else v.bad.filter fun b => decide (b ≠ r)
  let v := f.ph.undo.foldl (fun (v : Vec) u =>
    match u.2 with
    | some r => { v with rows := tset v.rows u.1 r, slates := tset v.slates (u.1 / 64) 0, bad := mark v u.1 }
    | none => { v with rows := terase v.rows u.1, bad := v.bad.filter fun b => decide (b ≠ u.1) }) f.vec
  { f with vec := v }

/-- Device of one double-buffered region: base, size, from a parameter set of kind 11 (R326). -/
def psetWord (v : Vec) (set w : Nat) : Word := tgetD v.psets (8 * set + w) 0

/-- The set declares a region whose fields hold (R313, R326), before overlap with lower sets is seen. -/
def dbufFields (v : Vec) (split set : Nat) : Option (Nat × Nat) :=
  let w0 := psetWord v set 0
  let w1 := psetWord v set 1
  let base := fld w0 0 23
  let size := fld w1 0 22
  if fld w0 60 4 = 11 ∧ onlyBits w0 [(60, 4), (0, 23)] ∧ onlyBits w1 [(0, 22)] ∧
      ((upto 6).all fun i => decide (psetWord v set (i + 2) = 0)) ∧
      size ≠ 0 ∧ base < 2 ^ 22 ∧ base % (256 * split) = 0 ∧ size % (256 * split) = 0 ∧
      base + 2 * size ≤ split * 0x40000 then some (base, size)
  else none

/-- Valid double-buffered regions: set, base, size, lowest set first (R326). -/
def regions (v : Vec) (split : Nat) : List (Nat × Nat × Nat) :=
  (upto 32).foldl (fun acc k =>
    match dbufFields v split k with
    | some (b, z) =>
      if acc.any fun r => decide (b < r.2.1 + 2 * r.2.2) && decide (r.2.1 < b + 2 * z) then acc
      else acc ++ [(k, b, z)]
    | none => acc) []

/-- Byte key of frame-SRAM byte `a` in a view (R76). -/
def sramKey (split : Nat) (swz : Bool) (a : Nat) : Nat :=
  let l := a / 256
  let j := a / 64 % 4
  let g := l % split
  let w := l / split
  let bank := if swz then 4 * ((g + w) % split) + (j + w) % 4 else 4 * g + j
  bank * 65536 + w * 64 + a % 64

/-- A location as storage sees it: byte address, or byte of frame SRAM. -/
def locKey (m : Sram) : CLoc → Nat
  | .glob a _ => 2 * a
  | .sram fa => 2 * sramKey m.split (decide (fa / 2 ^ 22 = 1)) (fa % 2 ^ 22) + 1

/-- Two lists of locations share a byte. -/
def locsMeet (m : Sram) (a b : List CLoc) : Bool :=
  let ks := b.map (locKey m)
  a.any fun l => ks.contains (locKey m l)

/-- Destinations of released add-reduces issued before `n`. -/
def addsBefore (f : Frame) (n : Nat) : List CLoc :=
  f.ph.released.flatMap fun r => match r with
    | .add c => if c.n < n then c.elems.flatMap fun x => (upto 4).map fun j => .glob (x.1 + j) 0 else []
    | .store _ => []

/-- The bytes of withheld add-reduces before issue `n` (R98). -/
def heldAdds (f : Frame) (n : Nat) : List CLoc :=
  f.ph.adds.flatMap fun c => if c.n < n then c.elems.flatMap fun x => (upto 4).map fun j => .glob (x.1 + j) 0 else []

/-- A copy write that an earlier withheld add-reduce holds back until the commit has released it and it is applied: one of
the same bytes (R92), or a release (R99). CCTR waits for none (R325). A thread that is being pre-empted could not come to
that commit, so its writes do not wait (assumption 41). -/
def behindAdds (f : Frame) (o : COp) (locs : List CLoc) : Bool :=
  let isCtr := match o.kind with | .ctr .. => true | _ => false
  let stopping := match f.disp.req with | some r => r.landed | none => false
  !isCtr && !stopping && f.ph.adds.any (fun c => decide (c.n < o.n)) &&
    (decide (o.ord = .rel) || locsMeet f.sram locs (heldAdds f o.n))

/-- The writes of `o` come after the earlier operation `p`: a release after every one (R99), a counter after those of CP
(R325), a location in the order of issue (R92). -/
def behindOp (f : Frame) (p o : COp) : Bool :=
  let isCtr := match o.kind with | .ctr .. => true | _ => false
  decide (o.ord = .rel) || (isCtr && opInCP p) || locsMeet f.sram o.dst p.dst

/-- The copy operations that only the phase's commit lets go on: their reads have returned, and they are behind a withheld
add-reduce, or behind an operation that is. -/
def awaitOps (f : Frame) : List COp :=
  f.cpe.ops.foldl (fun w o => if o.got && (behindAdds f o o.dst || w.any fun p => behindOp f p o) then w ++ [o] else w) []

def awaitsCommit (f : Frame) (o : COp) : Bool := (awaitOps f).any fun p => decide (p.n = o.n)

/-- Zero the back half of every region and empty its granules (R327). -/
def emptyBacks (f : Frame) : Frame :=
  let keys := (regions f.vec f.sram.split).flatMap fun r =>
    let off := r.2.1 + r.2.2 * (1 - (fld f.cpe.des r.1 1))
    (upto (r.2.2 / 16)).map fun i => sramKey f.sram.split false (off + 16 * i) / 16
  let gone (a : Nat) := keys.contains (a / 16)
  { f with sram := { f.sram with cells := f.sram.cells.filter fun c => !gone c.1,
                                 full := f.sram.full.filter fun g => !keys.contains g,
                                 bad := f.sram.bad.filter fun g => !keys.contains g } }

/-- The state part of a rollback (R164): every table row of that rule. Cross-path fences that stand before the phase go on
holding its accesses; the replay meets the others again (R97, assumption 37). -/
def rollbackState (f : Frame) : Frame :=
  let p := f.ph.snap
  let f := restoreRows (restoreBanks f)
  let f := { f with
    seq := { f.seq with pos := p.pos, taken := p.taken, loops := p.loops, rbuf := p.rbuf,
                        cursor := p.cursor, cur := none, stage := .faulted, wb := p.wb, wv := p.wv,
                        wc := p.wc, fmt := p.fmt, sub := 3, qb := .fresh, qv := .fresh, qc := .fresh,
                        fences := f.seq.fences.filter fun x => decide (x.lim ≤ p.issueNo) },
    vec := { f.vec with preds := p.preds, cf := p.cf, ports := p.ports, fifos := p.fifos,
                        loads := f.vec.loads.filter fun l => decide (l.n < p.issueNo) },
    bead := { f.bead with
      kg := p.kg, ng := p.ng, digital := p.digital, bwb := [],
      bldp := f.bead.bldp.filter fun b => decide (b.n < p.issueNo),
      arrays := f.bead.arrays.map fun (e : Nat × BArr) =>
        (e.1, { e.2 with act := fbit p.actives e.1, clip := tgetD p.clip e.1 0,
                         staleF := fbit p.staleF e.1, swapped := false,
                         b0 := { e.2.b0 with touched := false }, b1 := { e.2.b1 with touched := false } }) },
    cpe := { f.cpe with ops := f.cpe.ops.filter (fun o => decide (o.n < p.issueNo)),
                        origins := p.origins, des := p.des, pend := 0 },
    ph := { f.ph with undo := [], logs := [], stores := [], adds := [], faults := [], bindFault := false } }
  emptyBacks f

/-- Abandon the phase: discard its entries and every later one; POS and EMIT_SER return to the first
retained entry; no loop is active; the FILLING banks that cancelled reloads left become ZERO (R165, R189, R347). The
phase that follows starts clean: no replays counted, beam not forced (assumption 35). The fences emitted so far still stand
between the accesses of committed phases and what is emitted from now on (R97, assumption 37). -/
def abandonPhase (f : Frame) : Frame :=
  let first := f.seq.pos - f.seq.taken
  let ser := match f.seq.queue with | e :: _ => e.tag.ser | [] => f.gen.emitSer
  let arrays := f.bead.arrays.map fun (e : Nat × BArr) =>
    let busy (one : Bool) : Bool := f.disp.fetch.contains (e.1, one) || (decide (one = !e.2.act) && reloading f e.1)
    let fix (one : Bool) (b : Bank) : Bank := if b.filling && !busy one then zeroBank else b
    (e.1, { e.2 with b0 := fix false e.2.b0, b1 := fix true e.2.b1 })
  let fences := f.seq.fences ++ (f.seq.queue.flatMap Entry.fences).map fun x => { f := x, lim := f.seq.issueNo }
  let f := { f with
    seq := { f.seq with pos := first, queue := [], taken := 0, kept := 0, loops := [], rbuf := [], cursor := 0, fences := fences },
    gen := { f.gen with emitSer := ser },
    bead := { f.bead with arrays := arrays } }
  startPhase f

/-- Start the replay of the phase from the restored state, in ordered mode (R165, R380). -/
def startReplay (f : Frame) : Frame :=
  { f with seq := { f.seq with stage := .boundary },
           ph := { f.ph with replays := min 255 (f.ph.replays + 1), ordered := true, pending := none } }

/-- Resolve the reported fault: replay, or go on after an abandonment (R165, R207). -/
def resolveL2 (f : Frame) (abandon : Bool) : Frame :=
  match f.ph.pending with
  | none => f
  | some true =>
    if abandon then
      let f := abandonPhase f
      { f with seq := { f.seq with stage := .boundary }, ph := { f.ph with pending := none } }
    else startReplay f
  | some false => { f with seq := { f.seq with stage := .boundary }, ph := { f.ph with pending := none } }

end Sys2Proof.Machine
end

