-- ==== Sys2Proof/Machine/Sequencer.lean ====
section
/-! DEFINITION. The sequencer's steps: taking and decoding bundles, handing out repetitions, splitting,
control words, commits, rollback, delivery and divisors (R113 to R119, R131, R143 to R175). An event whose
condition does not hold leaves the state as it is: it does not happen. -/

namespace Sys2Proof.Machine

/-- The sequencer may act: a thread is bound, no fault waits for its rollback or handler, no pre-emption point has
landed, no bank is being fetched, and no event holds the frame (R362). -/
def seqRuns (f : Frame) : Bool :=
  f.disp.running.isSome && decide (f.disp.evHeld = 0) && f.ph.faults.isEmpty && decide (f.seq.stage ≠ .faulted) &&
    !(match f.disp.req with | some r => r.landed | none => false) && f.disp.fetch.isEmpty

/-- Last sub-issue of a splitting level (R171). -/
def lastSub (lvl : Nat) : Nat := match lvl with | 0 => 0 | 1 => 1 | _ => 3

/-- The sub-issue in which a slot begins (R171). -/
def subOf (lvl : Nat) (sl : SlotName) : Nat :=
  match lvl with
  | 0 => 0
  | 1 => (match sl with | .bead | .copy => 0 | _ => 1)
  | _ => (match sl with | .bead => 0 | .vector => 1 | .copy => 2 | .control => 3)

/-- Everything handed out so far has been executed and written, but for what only the commit of the phase lets go on
(R380, assumption 41). -/
def allPerformed (f : Frame) : Bool :=
  queuesEmpty f && f.vec.loads.isEmpty && f.bead.bwb.isEmpty && f.bead.bldp.isNone &&
    f.cpe.ops.all (awaitsCommit f) && f.ph.released.isEmpty

/-! ### Divisors (R15, R16, R174) -/

/-- Floor of EXEC_DIV (R15). -/
def execFloor (c : Clocks) : Nat := if c.cool.isSome then 5 else if c.grant.isSome then 3 else 4

/-- The divisor a request receives (R15, R203). -/
def divisorFor (floor : Nat) (v : Nat) : Nat := if v < floor then floor else if 32 < v then 32 else v

/-- Apply the requested divisors, floors checked again (R174). -/
def applyDivisors (c : Clocks) : Clocks :=
  let pick (cur : BitVec 6) (req : Option (BitVec 6)) (floor : Nat) : BitVec 6 :=
    match req with | some v => BitVec.ofNat 6 (divisorFor floor v.toNat) | none => cur
  { c with gen := pick c.gen c.reqGen 3, exec := pick c.exec c.reqExec (execFloor c),
           copy := pick c.copy c.reqCopy 4, reqGen := none, reqExec := none, reqCopy := none }

/-- R16, R174: at a bundle boundary. -/
def execDivisorApply (s : State) : Out :=
  let f := curFrame s
  .next <| if f.seq.stage = .boundary then setCur s { f with clk := applyDivisors f.clk } else s

/-! ### FMT (R158) -/

/-- Apply the pending SETFMTs whose shadow has passed. -/
def applyFmt (m : Fmt) : Fmt :=
  m.pend.foldl (fun m p =>
    if p.left = 0 then { m with afmt := p.afmt, wfmt := p.wfmt } else { m with pend := m.pend ++ [p] })
    { m with pend := [] }

/-- One executed bundle has passed. -/
def countFmt (m : Fmt) : Fmt := { m with pend := m.pend.map fun p => { p with left := p.left - 1 } }

/-- R158: the bundles from here on use the new value. -/
def execFmtApply (s : State) : Out :=
  let f := curFrame s
  .next <| if f.seq.stage = .boundary then setCur s { f with seq := { f.seq with fmt := applyFmt f.seq.fmt } }
           else s

/-! ### Taking a bundle (R131, R143, R147, R148) -/

/-- Where the next bundle comes from: its entry, its position, and whether it was taken before. This order of handing
out, iteration by iteration (R147, R167), is what the model takes as an engine path's program order (assumption 36). -/
def nextBundle (q : Seq) : Option (Entry × Nat × Bool) :=
  match q.loops, q.rbuf[q.cursor]? with
  | _ :: _, some e => some (e, q.pos - q.rbuf.length + q.cursor, true)
  | _, _ => (q.queue[q.taken]?).map fun e => (e, q.pos, false)

/-- A LOOP that would be the seventh, or whose body passes the end of the body around it (R148). -/
def loopIllegal (q : Seq) (b : Bundle) : Bool :=
  match loopLen b with
  | none => false
  | some n =>
    decide (6 ≤ q.loops.length) ||
      (match q.loops.getLast? with
       | some l => decide (l.start + l.len + 1 < q.cursor + 1 + (n + 1))
       | none => false)

/-- The first offending part of a bundle (R131): header 3, bead 0, vector 1, copy 2, control 3. -/
def bundleFault (q : Seq) (b : Bundle) : Option Nat :=
  let bad (sl : SlotName) : Bool :=
    match b.word sl with | some w => (decodeSlot sl w).isNone | none => false
  if !hdrOk b.hdr then some 3
  else if bad .bead then some 0
  else if bad .vector then some 1
  else if bad .copy then some 2
  else if bad .control || loopIllegal q b then some 3
  else none

/-- The splitting level of a bundle: the level in force, moved by its hint (R172). -/
def bundleLevel (s : State) (f : Frame) (h : Word) : Nat :=
  let pct := tgetD s.edge.loadPct s.cur 0
  if hdrPclass h = 3 ∧ 75 < pct then min 2 (f.clk.level + 1)
  else if hdrPclass h = 1 ∧ pct < 50 then f.clk.level - 1
  else f.clk.level

/-- The sequencer after taking an entry (R143, R147). Its fences go into the stream, in every iteration that meets them
(R97, assumption 37). -/
def takeEntry (q : Seq) (e : Entry) (replayed : Bool) : Seq :=
  let fences := q.fences ++ e.fences.map fun x => { f := x, lim := q.issueNo }
  if replayed then { q with fences := fences }
  else { q with
    pos := (q.pos + 1) % 2 ^ 48, taken := q.taken + 1, kept := max q.kept (q.taken + 1),
    rbuf := if q.loops.isEmpty then q.rbuf else q.rbuf ++ [e], fences := fences }

/-- The sequencer before it took the bundle in progress, of which nothing has been handed out (R169). -/
def untake (q : Seq) : Seq :=
  match q.cur with
  | none => q
  | some c =>
    let q := { q with cur := none, stage := .boundary, fences := q.fences.take (q.fences.length - c.ent.fences.length) }
    if c.replayed then q
    else { q with
      pos := c.pos, taken := q.taken - 1, kept := if q.kept = q.taken then q.taken - 1 else q.kept,
      rbuf := if q.loops.isEmpty then q.rbuf else q.rbuf.dropLast }

/-- R131, R143: take a bundle and decode it in full. Divisors and FMT due at this boundary apply first. -/
def execBundleDecode (s : State) : Out :=
  let f := curFrame s
  .next <|
    if !(seqRuns f && decide (f.seq.stage = .boundary)) then s
    else if f.ph.ordered && !allPerformed f then s
    else
      let f := { f with clk := applyDivisors f.clk, seq := { f.seq with fmt := applyFmt f.seq.fmt } }
      match nextBundle f.seq with
      | none => setCur s f
      | some (e, pos, replayed) =>
        let bad := bundleFault f.seq e.bun
        let iters := f.seq.loops.map LoopEnt.iter
        let q := takeEntry f.seq e replayed
        match bad with
        | some slot =>
          let fault : L2Fault :=
            { n := q.issueNo, slot := slot, cls := .illegalBundle, pos := pos, rep := 0, iters := iters,
              tag := e.tag, mem := none, final := false }
          setCur s { f with seq := q, ph := { f.ph with faults := f.ph.faults ++ [fault] } }
        | none =>
          let cur : CurBundle := { ent := e, pos := pos, rep := 0, lvl := bundleLevel s f e.bun.hdr,
                                   replayed := replayed }
          setCur s { f with seq := { q with cur := some cur, stage := .issuing } }

/-! ### The end of a bundle -/

/-- End-of-body handling, innermost loop first: another iteration, or the loop ends (R147, R148). -/
def loopEnd : List LoopEnt → Nat → List LoopEnt × Nat
  | [], c => ([], c)
  | l :: r, c =>
    if c = l.start + l.len + 1 then
      (if l.iter < l.cnt then ({ l with iter := l.iter + 1 } :: r, l.start) else loopEnd r c)
    else (l :: r, c)

/-- Move past a bundle; `push` is the LEN and CNT of a LOOP it holds. -/
def advanceLoops (q : Seq) (push : Option (Nat × Nat)) : Seq :=
  let inLoop := !q.loops.isEmpty
  match push with
  | some (len, cnt) =>
    if inLoop then
      { q with cursor := q.cursor + 1,
               loops := q.loops ++ [{ iter := 0, cnt := cnt, len := len, start := q.cursor + 1 }] }
    else { q with cursor := 0, rbuf := [], loops := [{ iter := 0, cnt := cnt, len := len, start := 0 }] }
  | none =>
    if inLoop then
      let r := loopEnd q.loops.reverse (q.cursor + 1)
      if r.1.isEmpty then { q with loops := [], cursor := 0, rbuf := [] }
      else { q with loops := r.1.reverse, cursor := r.2 }
    else q

/-- The bundle in progress ends: FMT shadows shorten, loops move on, and a commit follows if asked. -/
def finishBundle (f : Frame) (push : Option (Nat × Nat)) (setfmt : Option (BeadFmt × BeadFmt)) : Frame :=
  match f.seq.cur with
  | none => f
  | some c =>
    let m := countFmt f.seq.fmt
    let m := match setfmt with
      | some (a, w) => { m with pend := m.pend ++ [{ left := 4, afmt := a, wfmt := w }] }
      | none => m
    let q := advanceLoops f.seq push
    { f with seq := { q with cur := none, fmt := m,
                             stage := if asksCommit c.ent.bun then .commit else .boundary } }

/-- The control word is due: the last repetition is out and its last sub-issue has begun (R118, R171). -/
def controlDue (f : Frame) : Bool :=
  seqRuns f && decide (f.seq.stage = .control) &&
    (match f.seq.cur with | some c => decide (lastSub c.lvl ≤ f.seq.sub) | none => false)

/-! ### Handing out repetitions (R116, R150) -/

/-- Push an issue into an engine's queue. -/
def pushIssue (q : Seq) (sl : SlotName) (e : SlotIssue) : Seq :=
  setSlotQ q sl { slotQ q sl with q := (slotQ q sl).q ++ [e] }

/-- The current word of an engine. -/
def curWord (q : Seq) : SlotName → Word
  | .bead => q.wb | .vector => q.wv | .copy => q.wc | .control => 0

def setCurWord (q : Seq) (sl : SlotName) (w : Word) : Seq :=
  match sl with
  | .bead => { q with wb := w } | .vector => { q with wv := w } | .copy => { q with wc := w }
  | .control => q

/-- Issue one slot of a repetition: a present slot's word as it stands on the first repetition, else the
current word advanced (R116). -/
def issueSlot (c : CurBundle) (q : Seq) (sl : SlotName) : Seq :=
  let fresh := if c.rep = 0 then c.ent.bun.word sl else none
  let q := match fresh with
    | some w => setCurWord q sl w
    | none => setCurWord q sl (advance sl (curWord q sl))
  let w := curWord q sl
  pushIssue q sl
    { n := q.issueNo, w := w, adv := decide (sl = .copy) && fresh.isNone && decide (w ≠ 0), pos := c.pos,
      rep := c.rep, iters := q.loops.map LoopEnt.iter, tag := c.ent.tag, sub := subOf c.lvl sl,
      afmt := q.fmt.afmt, wfmt := q.fmt.wfmt, rows := [], preds := [] }

/-- No slot queue is full (R150). -/
def roomForIssue (q : Seq) : Bool :=
  decide (q.qb.q.length < 8) && decide (q.qv.q.length < 8) && decide (q.qc.q.length < 8)

/-- In ordered mode a repetition waits for every access of every earlier entry (R380). -/
def orderedReady (f : Frame) (c : CurBundle) : Bool :=
  let mine (q : SlotQ) : Bool := q.q.all fun e => decide (e.pos = c.pos)
  !f.ph.ordered ||
    (if c.rep = 0 then allPerformed f
     else mine f.seq.qb && mine f.seq.qv && mine f.seq.qc && f.vec.loads.all (fun l => decide (l.iss.pos = c.pos)) &&
       f.cpe.ops.all (fun o => decide (o.issue.pos = c.pos) || awaitsCommit f o) && f.bead.bldp.all (fun b => decide (b.iss.pos = c.pos)) &&
       f.bead.bwb.isEmpty)

/-- After a bundle's last repetition its control word is due; with none the bundle ends once its last sub-issue has
begun (R16, R169, R171). -/
def afterLast (f : Frame) (c : CurBundle) : Frame :=
  if c.ent.bun.ctl.isSome || decide (f.seq.sub < lastSub c.lvl) then { f with seq := { f.seq with stage := .control } }
  else finishBundle f none none

/-- R116, R150, R171: hand out the next repetition of the bundle in progress. -/
def execIssueRepetition (s : State) : Out :=
  let f := curFrame s
  .next <|
    match f.seq.cur with
    | none => s
    | some c =>
      if !(seqRuns f && decide (f.seq.stage = .issuing) && roomForIssue f.seq &&
           orderedReady f c && (decide (c.rep = 0) || decide (lastSub c.lvl ≤ f.seq.sub))) then s
      else
        let q := [SlotName.bead, .vector, .copy].foldl (issueSlot c) f.seq
        let c' := { c with rep := c.rep + 1 }
        let q := { q with issueNo := q.issueNo + 1, sub := 0, cur := some c' }
        let clk := match c.lvl with
          | 0 => f.clk
          | 1 => { f.clk with l1cnt := f.clk.l1cnt + 1 }
          | _ => { f.clk with l2cnt := f.clk.l2cnt + 1 }
        let f := { f with seq := q, clk := clk }
        setCur s (if c.rep < hdrRepeat c.ent.bun.hdr then f else afterLast f c')

/-- Operations of the latest issue in sub-issues up to the one that has begun are complete (R171): they have left their
queues, written their rows and left their counters. A copy that only the commit lets go on is waited for there. -/
def subDone (f : Frame) : Bool :=
  let n := f.seq.issueNo - 1
  let late (q : SlotQ) := q.q.all fun e => !(decide (e.n = n) && decide (e.sub ≤ f.seq.sub))
  late f.seq.qb && late f.seq.qv && late f.seq.qc && f.bead.bwb.all (fun b => decide (b.n ≠ n)) &&
    f.vec.loads.all (fun l => decide (l.n ≠ n)) && f.cpe.ops.all (fun o => decide (o.n ≠ n) || awaitsCommit f o) &&
    f.bead.bldp.all fun b => decide (b.n ≠ n)

/-- R171: the next sub-issue of the latest repetition begins; with the last one of a bundle's last repetition the bundle
ends, unless its control word is due. -/
def execSubIssueStart (s : State) : Out :=
  let f := curFrame s
  .next <|
    if f.seq.sub < 3 ∧ subDone f then
      let f := { f with seq := { f.seq with sub := f.seq.sub + 1 } }
      setCur s (match f.seq.stage, f.seq.cur with
        | .control, some c => if c.ent.bun.ctl.isNone then afterLast f c else f
        | _, _ => f)
    else s

/-- The draw of the moving frame, percent of its share (R172). -/
def drawPct (s : State) : Nat := tgetD s.edge.loadPct s.cur 0

/-- R172: at a bundle boundary the controller raises the level while the draw exceeds the share. -/
def execSplitLevelRaise (s : State) : Out :=
  let f := curFrame s
  .next <|
    if f.seq.stage = .boundary ∧ 100 < drawPct s then
      setCur s { f with clk := { f.clk with level := min 2 (f.clk.level + 1) } } else s

/-- R172: at a bundle boundary the controller lowers the level while the draw is below 90 % of the share. -/
def execSplitLevelLower (s : State) : Out :=
  let f := curFrame s
  .next <|
    if f.seq.stage = .boundary ∧ drawPct s < 90 then setCur s { f with clk := { f.clk with level := f.clk.level - 1 } }
    else s

/-! ### Control words (R146 to R160) -/

/-- R126: no operation; an engine's IDLE leaves its queue, a control IDLE ends the bundle. -/
def execIdle (slot : SlotName) (s : State) : Out :=
  let f := curFrame s
  .next <| match slot with
    | .control => if controlDue f then setCur s (finishBundle f none none) else s
    | sl => if (headOf f sl).isSome then setCur s (popHead f sl) else s

/-- R147, R148: the next LEN + 1 bundles run CNT + 1 times. -/
def execLoop (len : BitVec 7) (cnt : BitVec 16) (s : State) : Out :=
  let f := curFrame s
  .next <| if controlDue f then setCur s (finishBundle f (some (len.toNat, cnt.toNat)) none) else s

/-- R160: the phase commits after this bundle. -/
def execPhase (s : State) : Out :=
  let f := curFrame s
  .next <| if controlDue f then setCur s (finishBundle f none none) else s

/-- R155: waits until every earlier slot has issued and every limit holds at once; then the acquire of
R106 drops the L1. The slots of WAITC's own bundle count among the earlier ones (assumption 39). -/
def execWaitc (ld st cp bs : BitVec 8) (s : State) : Out :=
  let f := curFrame s
  let le (v : Nat) (lim : BitVec 8) := decide (lim = 255) || decide (v ≤ lim.toNat)
  .next <|
    if controlDue f && queuesEmpty f && le (cntLD f) ld && le (cntST f) st && le (cntCP f) cp &&
        le (cntBS f) bs then setCur s (finishBundle f none none)
    else s

/-- A copy operation writes frame SRAM. -/
def writesSram (o : COp) : Bool := o.dst.any fun l => match l with | .sram _ => true | .glob .. => false

/-- R157: waits until every frame-SRAM write of earlier bundles is performed; both views then agree. -/
def execVjoin (s : State) : Out :=
  let f := curFrame s
  .next <|
    if controlDue f && queuesEmpty f && f.vec.loads.isEmpty && f.cpe.ops.all (fun o => !writesSram o) then
      setCur s (finishBundle { f with sram := { f.sram with views := [] } } none none)
    else s

/-- R158: the new formats apply from the fifth bundle after this one. -/
def execSetfmt (a w : BeadFmt) (s : State) : Out :=
  let f := curFrame s
  .next <| if controlDue f then setCur s (finishBundle f none (some (a, w))) else s

/-! ### Commit (R160) -/

/-- Every operation of the phase has passed its fault horizon, and what the commit swaps is ready. -/
def commitReady (f : Frame) : Bool :=
  let swmOk (e : Nat × BArr) : Bool := let b := bankOf e.2 (!e.2.act); !(b.swm && b.filling)
  queuesEmpty f && f.vec.loads.isEmpty && f.bead.bwb.isEmpty &&
    f.bead.bldp.isNone &&
    f.cpe.ops.all (fun o => o.got) &&
    (decide (f.cpe.pend = 0) || f.cpe.ops.all fun o => !writesSram o) &&
    f.bead.arrays.all swmOk

/-- Exchange the banks of an array; the new shadow's swap mode is EXPLICIT (R214, R250). -/
def swapArr (a : BArr) : BArr :=
  let clear (b : Bank) : Bank := { b with swm := false }
  { a with act := !a.act, swapped := true, b0 := clear a.b0, b1 := clear a.b1 }

/-- Withheld work as a commit releases it: its place is after every issue handed out so far (R98). -/
def release (n : Nat) (stores : List VStore) (adds : List CAdd) : List Released :=
  stores.map (fun v => .store { v with place := n }) ++ adds.map fun a => .add { a with place := n }

/-- The commit's four steps in order. -/
def commitPhase (f : Frame) : Frame :=
  let f := { f with
    ph := { f.ph with released := f.ph.released ++ release f.seq.issueNo f.ph.stores f.ph.adds,
                      stores := [], adds := [], eccSeen := [] },
    cpe := { f.cpe with des := f.cpe.des ^^^ f.cpe.pend, pend := 0 },
    bead := { f.bead with arrays := f.bead.arrays.map fun (e : Nat × BArr) =>
      (e.1, if (bankOf e.2 (!e.2.act)).swm then swapArr e.2 else e.2) } }
  let keep := if f.seq.loops.isEmpty then 0 else f.seq.rbuf.length
  let f := { f with seq := { f.seq with queue := f.seq.queue.drop (f.seq.taken - keep), taken := keep,
                                        kept := f.seq.kept - (f.seq.taken - keep), stage := .boundary } }
  startPhase f

/-- The whole of the phase's withheld work fits under ST (R154). -/
def commitFits (f : Frame) : Bool := decide (f.ph.released.length + f.ph.stores.length + f.ph.adds.length ≤ 255)

/-- Released work writes in another package. -/
def farReleased (r : Released) : Bool :=
  match r with
  | .store v => isRemote v.da || isRemote v.da2
  | .add c => c.elems.any fun x => isRemote x.1

/-- A copy operation writes in another package; a discard sends nothing there. -/
def farWrite (o : COp) : Bool :=
  (match o.kind with | .disc _ => false | _ => true) && o.dst.any fun l => match l with | .glob a _ => isRemote a | .sram _ => false

/-- Writes of the thread to another package that have not been answered: that package may still refuse them (R372). -/
def farOut (f : Frame) : Bool :=
  (f.ph.released ++ release 0 f.ph.stores f.ph.adds).any farReleased || f.cpe.ops.any farWrite

/-- A commit releases what fits under ST, in order, and holds the rest until ST falls (R154). From its first release on
nothing of the phase rolls back: its copy writes are those of a committed phase (R160). -/
def releaseSome (f : Frame) : Frame :=
  let k := 255 - f.ph.released.length
  let j := k - f.ph.stores.length
  { f with ph := { f.ph with
    released := f.ph.released ++ release f.seq.issueNo (f.ph.stores.take k) (f.ph.adds.take j),
    stores := f.ph.stores.drop k, adds := f.ph.adds.drop j, snap := { f.ph.snap with issueNo := f.seq.issueNo }, closing := true } }

/-- A commit has released its phase's work, or part of it, and waits: for ST to fall (R154), or for the answers of another
package, whose refusals are level-2 faults, which none of the phase's entries raises once OCC has fallen (R335, R372,
assumption 43). -/
def releasing (f : Frame) : Bool := decide (f.seq.stage = .commit) && f.ph.closing

/-! ### Rollback and delivery (R164 to R167, R206, R209) -/

/-- The fault of the earliest issue, slots in order (R167). -/
def earliest : List L2Fault → Option L2Fault
  | [] => none
  | x :: r =>
    match earliest r with
    | none => some x
    | some y => if y.n < x.n ∨ (y.n = x.n ∧ y.slot < x.slot) then some y else some x

/-- Handle, offset and generation, which only the memory classes report (R61, R167). -/
def memInfo (e : L2Fault) : Option MemInfo := if e.cls.code ≤ 8 then e.mem else none

/-- The report registers of a fault (R209). -/
def reportOf (e : L2Fault) (recov : Bool) : L2Report :=
  let it (i : Nat) := e.iters.getD i 0
  { info := mk64 [(56, 8, e.cls.code), (54, 2, e.slot), (53, 1, if recov then 1 else 0),
                  (50, 3, e.iters.length), (0, 48, e.pos)],
    iterA := mk64 [(0, 16, it 0), (16, 16, it 1), (32, 16, it 2), (48, 16, it 3)],
    iterB := mk64 [(32, 12, e.rep), (0, 16, it 4), (16, 16, it 5)],
    tagPc := e.tag.pc,
    tagId := mk64 [(32, 32, e.tag.ser.toNat), (0, 32, e.tag.tid.toNat)],
    mem0 := match memInfo e with | some m => mk64 [(44, 20, m.handle), (0, 44, m.off)] | none => 0,
    mem1 := match memInfo e with | some m => mk64 [(16, 1, 1), (0, 16, m.gen)] | none => 0 }

/-- Roll the phase back for fault `e`: restore, report, and abandon the phase of an unrecoverable class.
A CHECKSUM makes the replay run at forced full beam (R227, R234). -/
def rollbackFor (f : Frame) (e : L2Fault) : Frame :=
  let lost := weightLost f
  let e := if lost then { e with cls := L2Class.weightLost, slot := 0, mem := none } else e
  let recov := e.cls.recoverable && !e.final
  let f := rollbackState f
  let f := { f with
    gen := { f.gen with l2 := reportOf e recov, h := { f.gen.h with l2pend := true } },
    ph := { f.ph with pending := some recov, forced := f.ph.forced || decide (e.cls = .checksum),
                      eccSeen := if e.cls = .spadEcc then f.ph.eccSeen ++ (match e.mem with | some m => [(e.pos, m.off)] | none => []) else f.ph.eccSeen } }
  if recov then f else
    let f := abandonPhase f
    { f with seq := { f.seq with stage := .faulted } }

/-- A commit ends: with the faults of its refused work it reports the first of them, and the entries after it are abandoned
(R165). -/
def commitEnd (f : Frame) : Frame :=
  match earliest f.ph.faults with
  | none => commitPhase f
  | some e => rollbackFor (commitPhase { f with ph := { f.ph with faults := [] } }) e

/-- R154, R160: the commit takes place when it is ready; otherwise it waits. -/
def execPhaseCommit (s : State) : Out :=
  let f := curFrame s
  .next <|
    if (seqRuns f || releasing f) && decide (f.seq.stage = .commit) && commitReady f then
      setCur s (
        if commitFits f && !farOut f then (if f.ph.faults.isEmpty || decide (f.disp.evHeld = 0) then commitEnd f else f)
        else releaseSome f)
    else s

/-- A stop request's point has landed (R169). -/
def landed (f : Frame) : Bool := match f.disp.req with | some r => r.landed | none => false

/-- The deadline a GWAIT in progress keeps when it is abandoned (R193). -/
def abandonStall (g : Gen) : Gen :=
  match g.stall with
  | some (.gwait _ _ _ d) =>
    { g with stall := none, kept := (g.pc, d) :: g.kept.filter fun k => decide (k.1 ≠ g.pc) }
  | _ => { g with stall := none }

/-- A level-2 fault is delivered at this instruction boundary (R206); an instruction with requests to another package is not
at one, nor is a frame that an event holds (R362). -/
def l2Due (f : Frame) : Bool :=
  f.gen.h.l2pend && !f.gen.h.inH && !f.gen.halted && f.disp.running.isSome && !landed f && f.disp.fetch.isEmpty &&
    decide (f.disp.evHeld = 0) && !remBusy f

/-- R206: delivered at an instruction boundary, to the handler or by escalation. The delivery of HOME_OFFLINE is an
acquire (R94, R378). -/
def execL2FaultDelivery (s : State) : Out :=
  let f := curFrame s
  .next <|
    if !l2Due f then s
    else
      let s := if fld f.gen.l2.info 56 8 = L2Class.code .homeOffline then l1Invalidate s else s
      let s := onGen s fun g => { abandonStall g with exiting := false, h := { g.h with l2pend := false } }
      if fld f.gen.h.tvec 0 2 = 1 then onGen s fun g => enterHandler g (causeWord true 0 16) 0
      else escalate s .l2

end Sys2Proof.Machine
end

