-- ==== Sys2Proof/Machine/GenExt.lean ====
section
/-! DEFINITION. The generator extension but for waits and threads: compose buffers, emitting, parameter
sets, records, identity, divisors and sprint (R15 to R18, R174, R175, R185 to R190, R197 to R199, R203). -/

namespace Sys2Proof.Machine

/-! ### Compose buffers (R185) -/

/-- R185: K[d] := 0. -/
def execKclr (kd : BitVec 3) (s : State) : Out := .next (onGen s fun g => retire (kput g kd 0))

/-- R185: K[d] := K[s]. -/
def execKmov (kd ks : BitVec 3) (s : State) : Out :=
  .next (onGen s fun g => retire (kput g kd (kget g ks)))

/-- Copy the words and mask bits that `m` names from `src` into `d`. -/
def kmergeImg (d src : Image) (m : BitVec 4) : Image :=
  (upto 4).foldl (fun acc e =>
    if fbit m e then
      fput (fput acc (64 * (e + 1)) 64 (fld src (64 * (e + 1)) 64)) (60 + e) 1 (fld src (60 + e) 1)
    else acc) d

/-- R185: the words and header mask bits named by m; other header bits are kept. -/
def execKmerge (kd ks : BitVec 3) (m : BitVec 4) (s : State) : Out :=
  .next (onGen s fun g => retire (kput g kd (kmergeImg (kget g kd) (kget g ks) m)))

/-- R185: x[rd] := K[s].word[w]. -/
def execKrd (rd : BitVec 5) (ks : BitVec 3) (w : BitVec 3) (s : State) : Out :=
  .next (retireWith s rd (imgWord (kget (curFrame s).gen ks) w.toNat))

/-- R134, R185: insert the low WIDTH bits of x[rs1] at POS. -/
def execKins (kd : BitVec 3) (rs1 : BitVec 5) (pos : BitVec 9) (wm1 : BitVec 6) (s : State) : Out :=
  .next (onGen s fun g =>
    retire (kput g kd (fput (kget g kd) pos.toNat (wm1.toNat + 1) (rx g rs1).toNat)))

/-- R134, R185: insert a 5-bit value, zero-extended and cut to WIDTH. -/
def execKinsi (kd : BitVec 3) (imm : BitVec 5) (pos : BitVec 9) (wm1 : BitVec 6) (s : State) : Out :=
  .next (onGen s fun g => retire (kput g kd (fput (kget g kd) pos.toNat (wm1.toNat + 1) imm.toNat)))

/-! ### Emitting (R186 to R190) -/

/-- TID of the bound thread. -/
def curTid (f : Frame) : BitVec 32 := match f.disp.running with | some b => b.tid | none => 0

/-- Append the packed image with its tag and the fences emitted since the last entry. -/
def appendEntry (f : Frame) (img : Image) : Frame :=
  let e : Entry := { tag := { pc := f.gen.pc, ser := f.gen.emitSer, tid := curTid f }, bun := pack img,
                     fences := f.gen.fences }
  { f with seq := { f.seq with queue := f.seq.queue ++ [e] },
           gen := { f.gen with emitSer := f.gen.emitSer + 1, fences := [] } }

/-- The image with REPEAT overridden (R186). -/
def overrideRep (img : Image) (n : Nat) : Image := fput img 48 12 (n - 1)

/-- The pseudocode of R186. `nb` names rd of the non-blocking form. -/
def emitOp (s : State) (ks : BitVec 3) (rs1 : BitVec 5) (nb : Option (BitVec 5)) : State :=
  let f := curFrame s
  let n := (rx f.gen rs1).toNat
  if rs1 ≠ 0 ∧ (n = 0 ∨ 4096 < n) then takeL1 s causeEmitArg (rx f.gen rs1)
  else
    let img := if rs1 = 0 then kget f.gen ks else overrideRep (kget f.gen ks) n
    if Config.queueEntries < openSpan f.seq f.ph + 1 then takeL1 s causeEmitSpan f.gen.pc
    else if f.seq.queue.length = Config.queueEntries then
      match nb with
      | some rd => retireWith s rd 1
      | none => onGen s fun g => { g with stall := some (.emit ks img) }
    else
      let s := setCur s (appendEntry f img)
      match nb with
      | some rd => retireWith s rd 0
      | none => retireNop s

/-- R186: blocking form. -/
def execGemit (ks : BitVec 3) (rs1 : BitVec 5) (s : State) : Out := .next (emitOp s ks rs1 none)

/-- R186: non-blocking form. -/
def execGemitNb (rd : BitVec 5) (ks : BitVec 3) (rs1 : BitVec 5) (s : State) : Out :=
  .next (emitOp s ks rs1 (some rd))

/-- R186, R188: a stalled GEMIT appends once the queue has room, unless an event holds the frame (R362). -/
def execEmitQueueSpace (s : State) : Out :=
  let f := curFrame s
  .next <| match f.gen.stall with
    | some (.emit _ img) =>
      if f.seq.queue.length < Config.queueEntries ∧ f.disp.evHeld = 0 then retireNop (setCur s (appendEntry f img)) else s
    | _ => s

/-- R190: OCC, UNTAKEN and OPEN. -/
def execGeq (rd : BitVec 5) (s : State) : Out :=
  let f := curFrame s
  .next (retireWith s rd (mk64 [(0, 10, f.seq.queue.length), (16, 10, f.seq.queue.length - f.seq.kept),
                                (32, 10, openSpan f.seq f.ph)]))

/-! ### Parameter sets (R199, R267, R314, R326) -/

/-- Forget a set's current origin: it is then the origin the set holds (R314). -/
def resetOrigin (f : Frame) (set : Nat) : Frame :=
  { f with cpe := { f.cpe with origins := terase f.cpe.origins set },
           ph := { f.ph with snap := { f.ph.snap with origins := terase f.ph.snap.origins set } } }

/-- A write of word 0 of set k < 8 returns port k to position 0 and empties its FIFO (R267). -/
def resetPort (f : Frame) (k : Nat) : Frame :=
  { f with vec := { f.vec with ports := terase f.vec.ports k, fifos := terase f.vec.fifos k },
           ph := { f.ph with snap := { f.ph.snap with ports := terase f.ph.snap.ports k,
                                                      fifos := terase f.ph.snap.fifos k } } }

/-- A write of word 0 or 1 of a kind-11 set clears its designation and pending swap (R326). -/
def resetRegion (f : Frame) (k : Nat) : Frame :=
  { f with cpe := { f.cpe with des := fput f.cpe.des k 1 0, pend := fput f.cpe.pend k 1 0 } }

/-- Write one word of a set. -/
def psetWrite (f : Frame) (k w : Nat) (v : Word) : Frame :=
  let was := fld (psetWord f.vec k 0) 60 4
  let f := { f with vec := { f.vec with psets := tput 0 f.vec.psets (8 * k + w) v } }
  let f := resetOrigin f k
  let f := if w = 0 ∧ k < 8 then resetPort f k else f
  if w ≤ 1 ∧ (was = 11 ∨ fld (psetWord f.vec k 0) 60 4 = 11) then resetRegion f k else f

/-- R199: the word is written when the instruction retires. -/
def execPsetw (rs2 ps : BitVec 5) (w : BitVec 3) (s : State) : Out :=
  let f := curFrame s
  .next (retireNop (setCur s (psetWrite f ps.toNat w.toNat (rx f.gen rs2))))

/-- R199. -/
def execPsetr (rd ps : BitVec 5) (w : BitVec 3) (s : State) : Out :=
  .next (retireWith s rd (psetWord (curFrame s).vec ps.toNat w.toNat))

/-! ### Records and identity (R197, R198) -/

/-- R198: a word of the record or extension record, through the record caches; LAST_GEN := GEN. A fault puts the
handle-tagged address of the record's offset 0 in L1TVAL: R204 says "faulting address" and GREC has only a handle
(assumption 32). R198 lets GREC raise no memory class but BAD_HANDLE and BAD_RECORD, so an extension record that it cannot
reach is a bad record (assumption 32). -/
def execGrec (rd rs1 : BitVec 5) (w : BitVec 5) (s : State) : Out :=
  let a := rx (curFrame s).gen rs1
  let h := fld a 0 20
  let at' : Word := BitVec.ofNat 64 (h * 2 ^ 44)
  let give (e : RcEnt) (s : State) : State :=
    let v := if w.toNat < 16 then wd e.words w.toNat else wd e.ext (w.toNat - 16)
    onGen (retireWith s rd v) fun g => { g with lastGen := BitVec.ofNat 16 (recGen e.words) }
  .next <| match rcLookup s s.cur h with
    | (.badHandle, s) => takeL1 s (L2Class.l1code .badHandle) at'
    | (.badRecord gen, s) => takeL1 s (L2Class.l1code .badRecord) at' gen
    | (.denied gen, s) => takeL1 s (L2Class.l1code .badRecord) at' gen
    | (.offline gen, s) => takeL1 s (L2Class.l1code .badRecord) at' gen
    | (.far e lines, s) => genAsk (askLines s s.cur h 11 (recHomeDie e.words) lines)
    | (.migrating e, s) => give e s
    | (.found e, s) => give e s

/-- The bind record of a frame with no thread: all fields zero. -/
def noThread : BindRec :=
  { image := false, prio := 0, split := 12, tid := 0, tcb := 0, area := 0, areaLen := 0 }

/-- The control block of the thread that moves. -/
def curTcb (s : State) : Nat := reachTcb s (curPart s) ((curFrame s).disp.running.getD noThread).tcb

/-- The word of the control block that a GSELF selector reads. -/
def selfWord (sel : Nat) : Option Nat := [(0, 0), (1, 2), (2, 2), (3, 3), (4, 4), (8, 0)].lookup sel

/-- The value of a GSELF selector; none above 8 (R197). -/
def selfValue (s : State) (sel : Nat) : Option Word :=
  let w := tcbGet s (curTcb s)
  match sel with
  | 0 => some (BitVec.ofNat 64 (fld (w 0) 0 32))
  | 1 => some (BitVec.ofNat 64 (fld (w 2) 0 20))
  | 2 => some (BitVec.ofNat 64 (fld (w 2) 32 21))
  | 3 => some (w 3)
  | 4 => some (w 4)
  | 5 => some (BitVec.ofNat 64 (s.cur % Config.framesPerDie))
  | 6 => some (BitVec.ofNat 64 (curDie s))
  | 7 => some (BitVec.ofNat 64 (curPart s))
  | 8 => some (BitVec.ofNat 64 (fld (w 0) 56 3))
  | _ => none

/-- R197: identity values; selectors 9 to 31 are illegal. An uncorrectable word of the control block raises GEN_ECC with the
word's address (R381, assumption 47). -/
def execGself (rd sel : BitVec 5) (s : State) : Out :=
  let bad := (selfWord sel.toNat).filter (tcbBad s (curTcb s))
  .next <| match selfValue s sel.toNat, bad with
    | some _, some i => takeL1 s causeGenEcc (BitVec.ofNat 64 (curTcb s + 8 * i))
    | some v, none => retireWith s rd v
    | none, _ => takeIllegal s ((encode (.gself rd sel)).getD 0)

/-! ### Divisors and sprint (R15, R17, R174, R175, R203) -/

/-- Floor of a domain's divisor (R15). -/
def domFloor (c : Clocks) : Domain → Nat
  | .gen => 3 | .exec => execFloor c | .copy => 4

/-- Record a request (R174): the last one before the boundary applies. -/
def requestDiv (c : Clocks) (dom : Domain) (ask v : Nat) : Clocks :=
  let a : BitVec 6 := BitVec.ofNat 6 ask
  let r : BitVec 6 := BitVec.ofNat 6 v
  match dom with
  | .gen => { c with reqGen := some r, askGen := a }
  | .exec => { c with reqExec := some r, askExec := a }
  | .copy => { c with reqCopy := some r, askCopy := a }

/-- R203: rd gets the divisor that will apply and 0 as requested, 1 raised to the floor, 2 lowered to 32. Of a request above 32,
which an image header's field may not hold (R338), 32 is kept as the divisor last requested: DESIGN CHOICE (assumption 51). -/
def execGdiv (rd rs1 : BitVec 5) (dom : Domain) (s : State) : Out :=
  let f := curFrame s
  let v := (rx f.gen rs1).toNat
  let floor := domFloor f.clk dom
  let d := divisorFor floor v
  let code := if v < floor then 1 else if 32 < v then 2 else 0
  let s := setCur s { f with clk := requestDiv f.clk dom (min 32 v) d }
  .next (retireWith s rd (mk64 [(0, 6, d), (8, 2, code)]))

/-- Ticks of a sprint grant (25 ms) and of a cool-down (100 ms). -/
def grantTicks : Nat := 130000000
def coolTicks : Nat := 520000000

/-- A grant ends: cool-down begins and EXEC_DIV rises to 5 at the next boundary (R17). -/
def endSprint (c : Clocks) : Clocks :=
  let want := match c.reqExec with | some v => v.toNat | none => c.exec.toNat
  { c with grant := none, cool := some coolTicks, reqExec := some (BitVec.ofNat 6 (max 5 want)) }

/-- Status of a SPRINT request (R175). -/
def sprintStatus (s : State) (c : Clocks) (req : Nat) : Nat :=
  match req with
  | 1 =>
    if c.grant.isSome then 1
    else if c.cool.isSome then 2
    else if 2600 ≤ s.edge.sprintW then 3
    else if 650 * (partDies s (curPart s)).length ≤ tgetD s.edge.partW (curPart s) 0 then 4
    else 0
  | 0 => if c.grant.isSome then 5 else 6
  | _ => 7

/-- R175. -/
def execSprint (rd rs1 : BitVec 5) (s : State) : Out :=
  let f := curFrame s
  let st := sprintStatus s f.clk (fld (rx f.gen rs1) 0 2)
  let clk := match st with
    | 0 => { f.clk with grant := some (s.time + grantTicks) }
    | 5 => endSprint f.clk
    | _ => f.clk
  .next (retireWith (setCur s { f with clk := clk }) rd (BitVec.ofNat 64 st))

/-- R17: the grant ends at its limit. -/
def execSprintExpiry (s : State) : Out :=
  let f := curFrame s
  .next <| match f.clk.grant with
    | some e => if e ≤ s.time then setCur s { f with clk := endSprint f.clk } else s
    | none => s

/-- R17: with no qualifying time left the floor returns to 4; a divisor of 5 or more that the program
asked for stays, else the frame runs at 4. -/
def execCooldownEnd (s : State) : Out :=
  let f := curFrame s
  .next <| match f.clk.cool with
    | some 0 =>
      let v := if 5 ≤ f.clk.askExec.toNat then f.clk.askExec else 4
      setCur s { f with clk := { f.clk with cool := none, reqExec := some v } }
    | _ => s

end Sys2Proof.Machine
end

