-- ==== Sys2Proof/Machine/Operands.lean ====
section
/-! DEFINITION. Operands of the engines: guards, register cells, liveness and ECC checks, ports and
parameter sets, frame-SRAM bytes and granules, the scoreboard, and the writes and kills of an issue
(R120 to R123, R151, R162, R256 to R271, R274, R275). -/

namespace Sys2Proof.Machine

/-! ### What part of an issue gives -/

/-- Goes on with a value, waits, or raises a level-2 fault. A wait leaves no trace, but for `wait`, which keeps
what has been popped so far (R245). -/
inductive Acc (α : Type)
  | ok (v : α) (s : State)
  | hold (h : Hold)
  | wait (h : Hold) (s : State)
  | fault (c : L2Class) (m : Option MemInfo) (s : State)

/-- Go on with the value. -/
def Acc.andThen {α β : Type} (a : Acc α) (k : α → State → Acc β) : Acc β :=
  match a with
  | .ok v s => k v s
  | .hold h => .hold h
  | .wait h s => .wait h s
  | .fault c m s => .fault c m s

/-- Change the frame that moves. -/
def onCur (s : State) (g : Frame → Frame) : State := setCur s (g (curFrame s))

/-- All 64 lanes. -/
def lanes64 : List Nat := upto 64

/-! ### Guards and cells (R123, R257, R264, R265) -/

/-- A predicate as the issue sees it: before any write of its own issue (R151). -/
def predSeen (f : Frame) (e : SlotIssue) (p : Nat) : Word := (tget e.preds p).getD (tgetD f.vec.preds p 0)

/-- The enabled lanes of a guard. -/
def guardMask (f : Frame) (e : SlotIssue) (g : Guard) : Word :=
  if !g.en then BitVec.allOnes 64
  else if g.sense then ~~~(predSeen f e g.pred.toNat) else predSeen f e g.pred.toNat

/-- Lanes of a mask, ascending. -/
def lanesOf (m : Word) : List Nat := lanes64.filter fun L => fbit m L

/-- Row and lane of the cell that lane L of a register operand names (R257). -/
def opdCell (o : Opd) (L : Nat) : Nat × Nat :=
  let i := o.idx.toNat
  match o.dir.toNat with
  | 0 => (i, L)
  | 1 => (i / 64 * 64 + L, i % 64)
  | _ => (i / 64 * 64 + L, (L + i % 64) % 64)

/-- A row as the issue sees it (R151). -/
def rowSeen (f : Frame) (e : SlotIssue) (r : Nat) : Option Row :=
  match tget e.rows r with | some o => o | none => tget f.vec.rows r

/-- The row as the issue sees it holds an uncorrectable error (R260). -/
def rowBad (f : Frame) (e : SlotIssue) (r : Nat) : Bool :=
  if (tget e.rows r).isSome then e.badRows.contains r else f.vec.bad.contains r

/-- The first row of a list that faults when read: dead, or with an uncorrectable error (R259, R260). -/
def rowsFault (f : Frame) (e : SlotIssue) : List Nat → Option L2Class
  | [] => none
  | r :: rs =>
    if (rowSeen f e r).isNone then some .deadRead
    else if rowBad f e r then some .regEcc
    else rowsFault f e rs

/-- Rows a register operand reads for these lanes; none for a special operand. -/
def opdRows (o : Opd) (lanes : List Nat) : List Nat :=
  if o.special then []
  else if o.dir = 0 then (if lanes.isEmpty then [] else [o.idx.toNat])
  else lanes.map fun L => (opdCell o L).1

/-- A scalar broadcast in every element of a cell (R120). -/
def constCell (t : ElemType) (o : Opd) : Cell32 :=
  let b := constBits t (sgn 9 o.idx.toNat)
  match t.esz with
  | 1 => BitVec.ofNat 32 (b * 0x01010101)
  | 2 => BitVec.ofNat 32 (b * 0x00010001)
  | _ => BitVec.ofNat 32 b

/-- The cell lane L of a source gives. -/
def opdVal (f : Frame) (e : SlotIssue) (o : Opd) (t : ElemType) (pop : Option FifoVec) (L : Nat) : Cell32 :=
  if o.special then
    match pop with
    | some v => lane v.row L
    | none => if o.isConst then constCell t o else 0
  else lane ((rowSeen f e (opdCell o L).1).getD 0) (opdCell o L).2

/-! ### Frame SRAM (R74 to R78, R274, R275, R381) -/

/-- Bytes of the scratchpad. -/
def spadSize (m : Sram) : Nat := m.split * 0x40000

/-- Where an address of the scratchpad leads: itself, or the half of a double-buffered region that the
access reaches; none outside the scratchpad and in a back range (R75, R326). `cw` marks a copy write. -/
def spadMap (f : Frame) (rs : List (Nat × Nat × Nat)) (cw : Bool) (a : Int) : Option Nat :=
  let n := a.toNat
  if a < 0 ∨ spadSize f.sram ≤ n then none
  else match rs.find? fun r => decide (r.2.1 ≤ n) && decide (n < r.2.1 + 2 * r.2.2) with
    | none => some n
    | some (k, b, z) =>
      if b + z ≤ n then none
      else some (n + z * (if cw then 1 - fld f.cpe.des k 1 else fld f.cpe.des k 1))

/-- SPAD_RANGE at a frame-SRAM address; the report's offset is the address (R61, R269). -/
def spadRange {α : Type} (a : Int) (s : State) : Acc α :=
  .fault .spadRange (some { handle := 0, off := wrapNat 44 a, gen := 0 }) s

/-- Granule key of a byte key. -/
def granOf (key : Nat) : Nat := key / 16

def bankLive (m : Sram) (key : Nat) : Bool := fbit m.live (key / 65536)

/-- What a granule holds. -/
def granNow (m : Sram) (g : Nat) : BitVec 128 := BitVec.ofNat 128 (leNat (memRead m.cells (16 * g) 16))

/-- Values the granule held before writes through the other view that no VJOIN has joined (R77). -/
def granOlds (m : Sram) (swz : Bool) (g : Nat) : List (BitVec 128) :=
  (m.views.filter fun v => decide (v.gran = g) && decide (v.swz ≠ swz)).flatMap ViewRec.olds

/-- Which value of each such granule a read through this view finds: free (R77). -/
def seeGrans (m : Sram) (swz : Bool) : List Nat → State → Tbl (BitVec 128) × State
  | [], s => ([], s)
  | g :: gs, s =>
    match granOlds m swz g with
    | [] => seeGrans m swz gs s
    | olds =>
      let all := olds ++ [granNow m g]
      let d := draw s
      let r := seeGrans m swz gs d.2
      (tset r.1 g (all.getD (d.1 % all.length) 0), r.2)

/-- A byte of a granule table, else of storage. -/
def seenByte (m : Sram) (t : Tbl (BitVec 128)) (key : Nat) : Byte :=
  match tget t (granOf key) with
  | some v => BitVec.ofNat 8 (fld v (8 * (key % 16)) 8)
  | none => memGet m.cells key

/-- Banks that are read or written are FULL afterwards (R274). -/
def wakeBanks (m : Sram) (keys : List Nat) : Sram :=
  { m with retain := keys.foldl (fun w k => w &&& ~~~(BitVec.ofNat 64 (2 ^ (k / 65536)))) m.retain }

/-- Look at scratchpad bytes at in-range addresses of one view: they are live and sound, and of a granule written through
the other view with no VJOIN since, the table says which value the access finds. -/
def sramLook (s : State) (swz : Bool) (as : List Nat) : Acc (Tbl (BitVec 128)) :=
  let m := (curFrame s).sram
  let keys := as.map (sramKey m.split swz)
  if keys.any fun k => !bankLive m k then .fault .deadRead none s
  else match as.find? fun a => m.bad.contains (granOf (sramKey m.split swz a)) with
    | some a => .fault .spadEcc (some { handle := 0, off := a, gen := 0 }) s
    | none =>
      let t := if m.views.isEmpty then ([], s) else seeGrans m swz (sortUniq (keys.map granOf)) s
      .ok t.1 (onCur t.2 fun f => { f with sram := wakeBanks f.sram keys })

/-- Read scratchpad bytes at in-range addresses of one view. -/
def sramRead (s : State) (swz : Bool) (as : List Nat) : Acc (List Byte) :=
  let m := (curFrame s).sram
  (sramLook s swz as).andThen fun t s => .ok (as.map fun a => seenByte m t (sramKey m.split swz a)) s

/-- Note the value a granule holds before a write through a view (R77). -/
def noteView (m : Sram) (swz : Bool) (g : Nat) : Sram :=
  let v := granNow m g
  if m.views.any fun x => decide (x.gran = g) && decide (x.swz = swz) then
    { m with views := m.views.map fun x =>
        if x.gran = g ∧ x.swz = swz ∧ !x.olds.contains v then { x with olds := x.olds ++ [v] } else x }
  else { m with views := m.views ++ [{ gran := g, swz := swz, olds := [v] }] }

/-- Write scratchpad bytes at in-range addresses of one view: banks wake, granules become full (R78, R275).
A granule written whole loses an uncorrectable error. -/
def sramWrite (m : Sram) (swz : Bool) (bytes : List (Nat × Byte)) : Sram :=
  let kb := bytes.map fun b => (sramKey m.split swz b.1, b.2)
  let gs := sortUniq (kb.map fun b => granOf b.1)
  let m := gs.foldl (fun m g => noteView m swz g) m
  let whole (g : Nat) := (upto 16).all fun i => kb.any fun b => decide (b.1 = 16 * g + i)
  let m := wakeBanks m (kb.map (·.1))
  { m with cells := memPut m.cells kb,
           live := kb.foldl (fun w b => w ||| BitVec.ofNat 64 (2 ^ (b.1 / 65536))) m.live,
           full := gs.foldl (fun l g => insertUniq g l) m.full,
           bad := m.bad.filter fun g => !whole g }

/-- Mark granules as holding an uncorrectable error (R381). -/
def sramMark (m : Sram) (gs : List Nat) : Sram := { m with bad := gs.foldl (fun l g => insertUniq g l) m.bad }

/-- Empty granules (R78). -/
def sramEmpty (m : Sram) (gs : List Nat) : Sram := { m with full := m.full.filter fun g => !gs.contains g }

/-- Every granule is full. -/
def allFull (m : Sram) (gs : List Nat) : Bool := gs.all fun g => m.full.contains g

/-- Release a bank: it loses its data and its full-empty bits (R274). -/
def bankOff (m : Sram) (b : Nat) : Sram :=
  { m with cells := memDrop m.cells (65536 * b) 65536, full := m.full.filter fun g => decide (g / 4096 ≠ b),
           bad := m.bad.filter (fun g => decide (g / 4096 ≠ b)),
           views := m.views.filter (fun v => decide (v.gran / 4096 ≠ b)),
           live := m.live &&& ~~~(BitVec.ofNat 64 (2 ^ b)), retain := m.retain &&& ~~~(BitVec.ofNat 64 (2 ^ b)) }

/-! ### Parameter sets (R266) -/

def setKind (v : Vec) (k : Nat) : Nat := fld (psetWord v k 0) 60 4

/-- Words `i` and up of a set are zero. -/
def setTail (v : Vec) (k i : Nat) : Bool := (upto 8).all fun j => decide (j < i) || decide (psetWord v k j = 0)

/-- The fields of a set of a vector kind obey R266. -/
def setValid (v : Vec) (k : Nat) : Bool :=
  let w (i : Nat) := psetWord v k i
  let aligned (i : Nat) := decide (fld (w i) 0 4 = 0)
  let vlen := fld (w 4) 0 9
  let vl := onlyBits (w 4) [(0, 9)] && decide (16 ≤ vlen) && decide (vlen ≤ 256) && decide (vlen % 16 = 0)
  match setKind v k with
  | 1 => onlyBits (w 0) [(60, 4), (58, 2), (0, 23)] && decide (fld (w 0) 58 2 ≠ 3) && aligned 0 &&
         onlyBits (w 1) [(24, 24), (0, 24)] && aligned 1 && onlyBits (w 2) [(24, 24), (0, 24)] && aligned 2 &&
         onlyBits (w 3) [(24, 24), (0, 23)] && vl && setTail v k 5
  | 2 => onlyBits (w 0) [(60, 4), (0, 23)] && aligned 0 && onlyBits (w 1) [(24, 24), (0, 24)] && aligned 1 &&
         onlyBits (w 2) [(24, 24), (0, 24)] && aligned 2 && decide (w 3 = 0) && vl && setTail v k 5
  | 3 => onlyBits (w 0) [(60, 4)] && decide (w 1 = 0) && decide (w 2 = 0) && onlyBits (w 3) [(0, 32)] &&
         setTail v k 4
  | 4 => onlyBits (w 0) [(60, 4), (0, 23)] && setTail v k 1
  | 5 => onlyBits (w 0) [(60, 4), (0, 20)] && onlyBits (w 1) [(0, 44)] && setTail v k 2
  | _ => false

/-- A count field; 0 means 2^24. -/
def cntOf (n : Nat) : Nat := if n = 0 then 2 ^ 24 else n

/-- The view bit and byte address of a 23-bit frame-SRAM address. -/
def viewOf (w : Word) : Bool := fbit w 22
def baseOf (w : Word) : Nat := fld w 0 22

/-- A(p) of a stream, within its view (R268). -/
def streamAddr (v : Vec) (k p : Nat) : Int :=
  let w1 := psetWord v k 1
  let w2 := psetWord v k 2
  let c0 := cntOf (fld w1 24 24)
  let c1 := cntOf (fld w2 24 24)
  baseOf (psetWord v k 0) + (p % c0 : Nat) * sgn 24 (fld w1 0 24) +
    (p / c0 % c1 : Nat) * sgn 24 (fld w2 0 24)

/-- Address of vector p's scale bytes (R268). -/
def scaleAddr (v : Vec) (k p : Nat) : Int :=
  let w3 := psetWord v k 3
  let c := cntOf (fld (psetWord v k 1) 24 24) * cntOf (fld (psetWord v k 2) 24 24)
  baseOf w3 + (p % c : Nat) * sgn 24 (fld w3 24 24)

/-- Mapped addresses of a list, or the first that does not map. -/
def spadList (f : Frame) (cw : Bool) (as : List Int) : List Nat ⊕ Int :=
  let rs := regions f.vec f.sram.split
  match as.find? fun a => (spadMap f rs cw a).isNone with
  | some a => .inr a
  | none => .inl (as.filterMap (spadMap f rs cw))

/-- Mapped addresses a to a+n-1. -/
def spadRun (f : Frame) (cw : Bool) (a : Int) (n : Nat) : List Nat ⊕ Int :=
  spadList f cw ((upto n).map fun (i : Nat) => a + (i : Int))

/-- Port k has popped or pushed one more vector (R267). -/
def bumpPort (f : Frame) (k : Nat) : Frame :=
  { f with vec := { f.vec with ports := tset f.vec.ports k (tgetD f.vec.ports k 0 + 1) } }

/-! ### Pops and pushes (R268 to R271) -/

/-- Pop an IN stream; `mx` when a bead pop reads scale bytes. What a bead pop checks is all the vector's VLEN bytes, at MX6 and
MX4 too, where it needs the first of them alone, and its scale bytes, whose dead bank raises DEADREAD whatever FE is: DESIGN
CHOICE (assumption 50). -/
def popIn (s : State) (k : Nat) (mx : Bool) : Acc FifoVec :=
  let f := curFrame s
  let w0 := psetWord f.vec k 0
  let p := tgetD f.vec.ports k 0
  let fe := fld w0 58 2
  match spadRun f false (streamAddr f.vec k p) (fld (psetWord f.vec k 4) 0 9),
        spadRun f false (scaleAddr f.vec k p) 4 with
  | .inr a, _ => spadRange a s
  | .inl _, .inr a => spadRange a s
  | .inl as, .inl sc =>
    let gs := sortUniq (as.map fun a => granOf (sramKey f.sram.split (viewOf w0) a))
    if fe ≠ 0 ∧ !allFull f.sram gs then .hold (.granules gs)
    else
      (sramRead s (viewOf w0) as).andThen fun bs s =>
      (if mx then sramRead s (viewOf (psetWord f.vec k 3)) sc else .ok [] s).andThen fun sb s =>
        let s := onCur s fun f =>
          bumpPort (if fe = 2 then { f with sram := sramEmpty f.sram gs } else f) k
        .ok { row := bytesRow bs, scales := BitVec.ofNat 32 (leNat sb), bad := false } s

/-- Pop the next vector of a port. -/
def popPort (s : State) (k : Nat) (mx : Bool) : Acc FifoVec :=
  let f := curFrame s
  if !setValid f.vec k then spadRange 0 s
  else match setKind f.vec k with
    | 1 => popIn s k mx
    | 3 =>
      match tgetD f.vec.fifos k [] with
      | [] => .hold (.portEmpty k)
      | v :: r =>
        if v.bad then .fault .regEcc none s
        else .ok v (onCur s fun f => bumpPort { f with vec := { f.vec with fifos := tput [] f.vec.fifos k r } } k)
    | _ => spadRange 0 s

/-- One pop with what its return to the port needs (R245, R271). -/
def popOne (s : State) (k : Nat) (mx : Bool) : Acc Popped :=
  let f := curFrame s
  (popPort s k mx).andThen fun v t =>
    .ok { port := k, vec := v, stream := decide (setKind f.vec k = 1),
          gs := f.sram.full.filter fun g => !(curFrame t).sram.full.contains g } t

/-- The head issue of an engine keeps what it has popped. -/
def keepGot (s : State) (sl : SlotName) (n : Nat) (got : List Popped) : State :=
  let note (x : SlotIssue) : SlotIssue := if x.n = n then { x with got := got } else x
  onCur s fun f => { f with seq := setSlotQ f.seq sl { slotQ f.seq sl with q := (slotQ f.seq sl).q.map note } }

/-- The vectors an issue pops from these ports, in order: those it holds already, then new ones. A pop that finds
its port empty waits with the ones before it kept (R245, R271). -/
def popPorts (s : State) (sl : SlotName) (e : SlotIssue) (mx : Bool) : List Nat → List Popped → Acc (List Popped)
  | [], got => .ok got s
  | k :: ks, got =>
    match e.got[got.length]? with
    | some p => popPorts s sl e mx ks (got ++ [p])
    | none =>
      match popOne s k mx with
      | .ok p s => popPorts s sl e mx ks (got ++ [p])
      | .hold h => if got.length = e.got.length then .hold h else .wait h (keepGot s sl e.n got)
      | .wait h s => .wait h s
      | .fault c m s => .fault c m s

/-- Give each port operand its vector. -/
def givePops : List Opd → List Popped → List (Option FifoVec)
  | [], _ => []
  | o :: os, ps => if o.isPort then ps.head?.map Popped.vec :: givePops os ps.tail else none :: givePops os ps

/-- Pop every port operand of a vector issue, in order (R271). -/
def popOpds (s : State) (e : SlotIssue) (os : List Opd) : Acc (List (Option FifoVec)) :=
  (popPorts s .vector e false ((os.filter Opd.isPort).map Opd.port) []).andThen fun ps s => .ok (givePops os ps) s

/-- Return to their ports the vectors that an abandoned issue had popped (R245, R271): a FIFO has them at its front
again, a stream goes back, and the granules it emptied are full. -/
def unpop (f : Frame) (p : Popped) : Frame :=
  let back : Vec := { f.vec with ports := tput 0 f.vec.ports p.port (tgetD f.vec.ports p.port 0 - 1) }
  if p.stream then { f with vec := back, sram := { f.sram with full := p.gs.foldl (fun l g => insertUniq g l) f.sram.full } }
  else { f with vec := { back with fifos := tset f.vec.fifos p.port (p.vec :: tgetD f.vec.fifos p.port []) } }

/-- The bytes of a row that a mask of bytes enables. -/
def maskRow (row : Row) (en : Nat → Bool) : Row :=
  bytesRow ((upto 256).map fun i => if en i then BitVec.ofNat 8 (fld row (8 * i) 8) else 0)

/-- Push a result row to a port; `en` says which of its bytes count as enabled (R265, R269). -/
def pushPort (s : State) (k : Nat) (row : Row) (en : Nat → Bool) (bad : Bool := false) : Acc Unit :=
  let f := curFrame s
  if !setValid f.vec k then spadRange 0 s
  else match setKind f.vec k with
    | 2 =>
      let w0 := psetWord f.vec k 0
      let a := streamAddr f.vec k (tgetD f.vec.ports k 0)
      match spadRun f false a (fld (psetWord f.vec k 4) 0 9) with
      | .inr x => spadRange x s
      | .inl as =>
        let bytes := (((as.zip (rowBytes row)).zip (upto 256)).filter fun b => en b.2).map (·.1)
        let gs := sortUniq (bytes.map fun b => granOf (sramKey f.sram.split (viewOf w0) b.1))
        let m := sramWrite f.sram (viewOf w0) bytes
        .ok () (onCur s fun f => bumpPort { f with sram := if bad then sramMark m gs else m } k)
    | 3 =>
      let q := tgetD f.vec.fifos k []
      if 8 ≤ q.length then .hold (.portFull k)
      else
        let v : FifoVec := { row := maskRow row en, scales := (psetWord f.vec k 3).extractLsb' 0 32,
                             bad := bad }
        .ok () (onCur s fun f => bumpPort { f with vec := { f.vec with fifos := tset f.vec.fifos k (q ++ [v]) } } k)
    | _ => spadRange 0 s

/-! ### The scoreboard (R151, R270, R271) -/

/-- What an operation may read and write. -/
structure Foot where
  rd    : List Nat := []
  wr    : List Nat := []
  prd   : List Nat := []
  pwr   : List Nat := []
  pops  : List Nat := []
  push  : List Nat := []
  /-- arrays whose banks it exchanges, or whose shadow it reloads from an object (R250) -/
  swaps : List Nat := []
  loads : List Nat := []
  /-- it may access frame SRAM -/
  sram  : Bool := false
  deriving DecidableEq, Repr

/-- Rows a register operand names in any lane. -/
def opdSpan (o : Opd) : List Nat :=
  if o.special then []
  else if o.dir = 0 then [o.idx.toNat]
  else lanes64.map fun L => o.idx.toNat / 64 * 64 + L

/-- Rows a source kills through LAST (R121). -/
def opdKill (o : Opd) : List Nat := if o.last && o.dir == 0 then [o.idx.toNat] else []

def opdPorts (o : Opd) : List Nat := if o.isPort then [o.port] else []

def guardPreds (g : Guard) : List Nat := if g.en then [g.pred.toNat] else []

/-- Footprint of sources and one destination. -/
def footOf (g : Guard) (srcs : List Opd) (d : Option Opd) : Foot :=
  let ds := d.toList
  { rd := srcs.flatMap opdSpan, wr := srcs.flatMap opdKill ++ ds.flatMap opdSpan, prd := guardPreds g,
    pops := srcs.flatMap opdPorts, push := ds.flatMap opdPorts }

/-- Slates of a BSTEP's rows (R230, R243). -/
def stepRows (idx nl : Nat) : List Nat :=
  (upto (min nl 16)).flatMap fun l => lanes64.map fun n => 64 * ((idx / 64 + l) % 16) + n

/-- Logical N-groups of a grid (R230). -/
def nlOf (ng : Nat) (wfmt : BeadFmt) : Nat := if wfmt = .mx4 then 2 * ng else ng

/-- Arrays of a range. -/
def rangeOf (r : ARange) : List Nat := (upto (r.nm1.toNat + 1)).map (r.first.toNat + ·)

/-- Footprint of a slot operation; `ng` is the grid a BSTEP meets. -/
def foot (ng : Nat) (wfmt : BeadFmt) : Instr → Foot
  | .bstep f =>
    let d := stepRows f.d.idx.toNat (nlOf ng wfmt)
    let b := if f.bnd.isZero then [] else stepRows f.bnd.idx.toNat (nlOf ng wfmt)
    { rd := if f.ovw then [] else d ++ b, wr := d ++ b, pops := opdPorts f.a }
  | .bldp f => { pops := opdPorts f.a }
  | .bcalr d _ _ => { wr := opdSpan d }
  | .bcalw a _ _ => { rd := opdSpan a, wr := opdKill a }
  | .bflagStale p _ => { pwr := [p.toNat] }
  | .bflagClip p _ _ => { pwr := [p.toNat] }
  | .vadd f | .vsub f | .vmul f | .vmulh f | .vmin f | .vmax f | .vand f | .vor f | .vxor f | .vandn f
  | .vshl f | .vshr f | .vsel f | .vperm f => footOf f.g [f.a, f.b] (some f.d)
  | .vfma f | .vfshl f | .vfshr f => footOf f.g [f.d, f.a, f.b] (some f.d)
  | .vgath f =>
    { footOf f.g [f.b] (some f.d) with rd := opdSpan { f.a with dir := 1 } ++ opdSpan f.b }
  | .vclz f | .vpopc f | .vrcp f | .vrsq f | .vqnt f => footOf f.g [f.a] (some f.d)
  | .vcmp f => { footOf f.g [f.a, f.b] none with pwr := [f.p.toNat] }
  | .plog f => { prd := guardPreds f.g ++ [f.pa.toNat, f.pb.toNat], pwr := [f.p.toNat] }
  | .vrsum f | .vrmax f | .vrmin f => footOf f.g [f.a] (some f.d)
  | .vcvt f | .vdqt f => footOf f.g [f.a] (some f.d)
  | .vflags f => footOf f.g [] (some f.d)
  | .vld f | .vldu f => { footOf f.g [f.addr] (some f.data) with sram := true }
  | .vldg f => footOf f.g [f.addr] (some f.data)
  | .vst f | .vstu f => { footOf f.g [f.data, f.addr] none with sram := true }
  | .vstg f => footOf f.g [f.data, f.addr] none
  | .vamo f => { footOf f.g [f.data, f.addr] (some f.data) with sram := true }
  | .vfec f => { footOf f.g [f.addr] none with sram := true }
  | .vbrelRet f | .vbrelOff f => { prd := guardPreds f.g, sram := true }
  | .bswap r => { swaps := rangeOf r }
  | .crld f => { loads := rangeOf f.r }
  | _ => {}

/-- N-groups of the grid that the bead issue `n` meets: the BGRIDs queued before it. -/
def ngAt (f : Frame) (n : Nat) : Nat :=
  f.seq.qb.q.foldl (fun ng x =>
    if x.n < n then (match decodeSlot .bead x.w with | some (.bgrid _ g) => g.toNat + 1 | _ => ng) else ng)
    f.bead.ng

/-- Footprint of a queued issue. -/
def footIssue (f : Frame) (sl : SlotName) (x : SlotIssue) : Foot :=
  match decodeSlot sl x.w with | some i => foot (ngAt f x.n) x.wfmt i | none => {}

def meets (a b : List Nat) : Bool := a.any fun r => b.contains r

/-- `me` must wait for `x` of an earlier issue, or of an earlier slot of the same issue (R151). Pops of one
port are made in issue order, and a push follows every earlier pop and push (R270, R271). A BSWAP waits for an
earlier bundle's reload that has not begun (R250, R254). -/
def footWaits (me x : Foot) (same : Bool) : Bool :=
  (!same && meets me.rd x.wr) || (!same && meets me.wr x.rd) || meets me.wr x.wr ||
  (!same && meets me.prd x.pwr) || (!same && meets me.pwr x.prd) || meets me.pwr x.pwr ||
  meets me.pops x.pops || meets me.push x.pops || meets me.push x.push || (!same && meets me.swaps x.loads)

/-- Footprint of work that has left a slot queue and not written yet. -/
def footLoad (l : GLoad) : Foot := { wr := opdSpan l.dst, push := opdPorts l.dst }
def footBack (b : BWrite) : Foot := { wr := sortUniq (b.cells.map (·.1)) }

/-- What a streaming BLDP has yet to pop (R248). -/
def footBldp (b : BldpStream) : Foot := { pops := [b.port] }

/-- An earlier global load has yet to push its row to an OUT stream: frame SRAM is written in issue order (R294), so the
vector slot's later accesses of it wait. -/
def sramWaits (f : Frame) (sl : SlotName) (e : SlotIssue) (me : Foot) : Bool :=
  decide (sl = .vector) && (me.sram || !me.pops.isEmpty || !me.push.isEmpty) &&
    f.vec.loads.any fun l => decide (l.n < e.n) && l.dst.isPort && decide (setKind f.vec l.dst.port = 2)

/-- The issue waits for another slot's earlier work. BSTEP forwards its own sums (R217). A BLDP goes on popping after
it has left its queue: later pops of its port and pushes to it by the vector slot wait (R248, R270, R271); the bead
slot's own waits are those of R248. -/
def mustWait (f : Frame) (sl : SlotName) (e : SlotIssue) (me : Foot) (fwd : Bool) : Bool :=
  let other (o : SlotName) : Bool :=
    decide (o ≠ sl) && (slotQ f.seq o).q.any fun x =>
      (decide (x.n < e.n) && footWaits me (footIssue f o x) false) ||
      (decide (x.n = e.n) && decide (slotCode o < slotCode sl) && footWaits me (footIssue f o x) true)
  other .bead || other .vector || other .copy ||
    (decide (sl ≠ .bead) && f.bead.bldp.any fun b => decide (b.n ≤ e.n) && footWaits me (footBldp b) false) ||
    f.vec.loads.any (fun l => decide (l.n < e.n) && footWaits me (footLoad l) false) || sramWaits f sl e me ||
    (!fwd && f.bead.bwb.any fun b =>
      (decide (b.n < e.n) && footWaits me (footBack b) false) ||
      (decide (b.n = e.n) && footWaits me (footBack b) true))

/-! ### Writes and kills (R151, R162, R258, R259) -/

/-- Rows an operation kills. -/
def killsOf : Instr → List Nat
  | .bcalw a _ _ => opdKill a
  | .vadd f | .vsub f | .vmul f | .vmulh f | .vmin f | .vmax f | .vand f | .vor f | .vxor f | .vandn f
  | .vshl f | .vshr f | .vsel f | .vperm f | .vfma f | .vfshl f | .vfshr f => opdKill f.a ++ opdKill f.b
  | .vgath f => opdKill f.b
  | .vclz f | .vpopc f | .vrcp f | .vrsq f | .vqnt f => opdKill f.a
  | .vcmp f => opdKill f.a ++ opdKill f.b
  | .vrsum f | .vrmax f | .vrmin f => opdKill f.a
  | .vcvt f | .vdqt f => opdKill f.a
  | .vld f | .vldu f | .vldg f => opdKill f.addr
  | .vst f | .vstu f | .vstg f => opdKill f.data ++ opdKill f.addr
  | .vamo f => opdKill f.addr
  | .vfec f => opdKill f.addr
  | _ => []

/-- Rows that a sibling slot of the same issue has still to kill. -/
def siblingKills (f : Frame) (sl : SlotName) (n : Nat) : List Nat :=
  [SlotName.bead, .vector].flatMap fun o =>
    if o = sl then [] else
      (slotQ f.seq o).q.flatMap fun x =>
        if x.n = n then (match decodeSlot o x.w with | some i => killsOf i | none => []) else []

/-- Record for the sibling slots of issue `n` how these rows stood (R151). -/
def captureRows (f : Frame) (sl : SlotName) (n : Nat) (rows : List Nat) : Frame :=
  let note (x : SlotIssue) : SlotIssue :=
    if x.n = n then
      { x with rows := rows.foldl (fun t r => if (tget t r).isSome then t else tset t r (tget f.vec.rows r)) x.rows,
               badRows := x.badRows ++ rows.filter fun r => (tget x.rows r).isNone && f.vec.bad.contains r }
    else x
  let up (o : SlotName) (q : SlotQ) : SlotQ := if o = sl then q else { q with q := q.q.map note }
  { f with seq := { f.seq with qb := up .bead f.seq.qb, qv := up .vector f.seq.qv } }

/-- The same for a predicate. -/
def capturePred (f : Frame) (sl : SlotName) (n p : Nat) : Frame :=
  let note (x : SlotIssue) : SlotIssue :=
    if x.n = n ∧ (tget x.preds p).isNone then { x with preds := tset x.preds p (tgetD f.vec.preds p 0) } else x
  let up (o : SlotName) (q : SlotQ) : SlotQ := if o = sl then q else { q with q := q.q.map note }
  { f with seq := { f.seq with qb := up .bead f.seq.qb, qv := up .vector f.seq.qv } }

/-- Slates whose rows are read or written are FULL (R261). -/
def wakeRows (v : Vec) (rows : List Nat) : Vec :=
  { v with slates := rows.foldl (fun t r => tset t (r / 64) 0) v.slates }

/-- Reads of rows: their slates in RETAIN are FULL; an OFF slate, none of whose rows is live, stays OFF (R261). -/
def wakeReads (v : Vec) (rows : List Nat) : Vec := wakeRows v (rows.filter fun r => decide (tgetD v.slates (r / 64) 2 ≠ 2))

/-- A row is written whole by these cells. -/
def wholeRow (cells : List (Nat × Nat × Cell32)) (r : Nat) : Bool :=
  lanes64.all fun L => cells.any fun c => decide (c.1 = r) && decide (c.2.1 = L)

/-- Put cells into rows, a dead row standing as zero (R258). -/
def putCells (rows : Tbl Row) (cells : List (Nat × Nat × Cell32)) : Tbl Row :=
  cells.foldl (fun t c => tset t c.1 (setLane (tgetD t c.1 0) c.2.1 c.2.2)) rows

/-- Rows that an issue kills: live ones, but for those killed already. -/
def killRows (f : Frame) (done : Tbl (Option Row)) (kills : List Nat) : List Nat :=
  (sortUniq kills).filter fun r => (tget f.vec.rows r).isSome && (tget done r).isNone

/-- The register writes of part of issue `x`: kills, then cells in order. None when the undo log overflows with it. -/
def writeRows (f : Frame) (sl : SlotName) (x : L2Fault) (done : Tbl (Option Row)) (kills : List Nat)
    (cells : List (Nat × Nat × Cell32)) : Option Frame :=
  let kills := killRows f done kills
  let rows := sortUniq (cells.map (·.1))
  (undoNotes f x (sortUniq (kills ++ rows))).map fun f =>
    let f := captureRows f sl x.n (sortUniq (kills ++ rows))
    let sib := (siblingKills f sl x.n).filter fun r => rows.contains r && (tget done r).isNone
    let dead := (kills ++ sib).foldl (fun t r => terase t r) f.vec.rows
    let bad := f.vec.bad.filter fun r => !(kills.contains r || sib.contains r || wholeRow cells r)
    { f with vec := wakeRows { f.vec with rows := putCells dead cells, bad := bad } rows }

/-- Write a predicate. -/
def writePred (f : Frame) (sl : SlotName) (n p : Nat) (v : Word) : Frame :=
  let f := capturePred f sl n p
  { f with vec := { f.vec with preds := tput 0 f.vec.preds p v } }

/-! ### One issue of an engine -/

/-- Engines execute what they hold: a thread is bound, no fault waits, no bank is being fetched, no event holds the
frame (R362). -/
def engineRuns (f : Frame) : Bool :=
  f.disp.running.isSome && f.ph.faults.isEmpty && f.disp.fetch.isEmpty && decide (f.disp.evHeld = 0)

/-- An engine executes this issue: as above, but with faults waiting the issues up to the earliest of them still
execute, its own issue in every slot, so that the fault reported is the same at every splitting level (R28, R167). -/
def issueRuns (f : Frame) (e : SlotIssue) : Bool :=
  f.disp.running.isSome && f.disp.fetch.isEmpty && decide (f.disp.evHeld = 0) && f.ph.faults.all fun x => decide (e.n ≤ x.n)

/-- Path bit of an engine in a cross-path fence: V 1, B 2, C 3 (R97). -/
def pathBit : SlotName → Nat
  | .bead => 2 | .vector => 1 | .copy => 3 | .control => 0

/-- A cross-path fence in the stream holds the issue (R97). -/
def fenceHolds (f : Frame) (sl : SlotName) (n : Nat) : Bool :=
  f.seq.fences.any fun x =>
    decide (x.lim ≤ n) && fbit x.f.s (pathBit sl) && !fenceVoid x.f.p x.f.s && !pathDone f x.f.p x.lim

/-- The sub-issue of the issue has begun (R171). -/
def subBegun (f : Frame) (e : SlotIssue) : Bool := decide (e.n + 1 < f.seq.issueNo) || decide (e.sub ≤ f.seq.sub)

/-- An earlier global load or atomic of another package's bytes acquires, and its replies have not come: every later access
of the V path comes after it (R99). -/
def acqPending (f : Frame) (sl : SlotName) (n : Nat) : Bool :=
  decide (sl = .vector) && f.vec.loads.any fun l => decide (l.n < n) && l.far.any fun x =>
    decide (x.ord = .acq) || decide (x.ord = .ar)

/-- In ordered mode an issue that a restored slot queue holds waits, as its bundle would, for the accesses of earlier entries
(R380). -/
def orderedHolds (f : Frame) (e : SlotIssue) : Bool :=
  let early (x : SlotIssue) : Bool := decide (x.n < e.n) && decide (x.pos ≠ e.pos)
  f.ph.ordered &&
    ([f.seq.qb, f.seq.qv, f.seq.qc].any (fun q => q.q.any early) || f.vec.loads.any (fun l => early l.iss) ||
     f.cpe.ops.any (fun o => early o.issue && !awaitsCommit f o) || f.bead.bldp.any (fun b => early b.iss) ||
     f.bead.bwb.any (fun b => decide (b.n < e.n)) ||
     f.ph.released.any fun r => match r with | .store v => decide (v.n < e.n) | .add c => decide (c.n < e.n))

/-- A slot of a later sub-issue of the same issue has yet to pop its ports, and its engine is not held: the pops are made at the
start of the first sub-issue (R171), so the slots that begin then wait for them. For a slot that is held they do not wait, for it
may be waiting for one of them, directly or behind an earlier issue, as at the level that does not split (R28). -/
def popsDue (f : Frame) (e : SlotIssue) : Bool :=
  f.seq.qv.hold.isNone && f.seq.qv.q.any fun x => decide (x.n = e.n) && decide (e.sub < x.sub) &&
    decide (x.got.length < (footIssue f .vector x).pops.length)

/-- Why the head issue of an engine cannot start. -/
def startHold (f : Frame) (sl : SlotName) (e : SlotIssue) (i : Instr) : Option Hold :=
  let fwd := match i with | .bstep _ => true | _ => false
  if !subBegun f e || popsDue f e then some .subIssue
  else if fenceHolds f sl e.n || orderedHolds f e then some .fence
  else if acqPending f sl e.n then some .load
  else if mustWait f sl e (foot (ngAt f e.n) e.wfmt i) fwd then some .row
  else none

/-- Delivered unrecoverable: a second SPAD_ECC at the same address and position before a commit (R166), a
CHECKSUM under forced full beam (R234). -/
def faultFinal (f : Frame) (e : SlotIssue) (c : L2Class) (m : Option MemInfo) : Bool :=
  match c, m with
  | .spadEcc, some i => f.ph.eccSeen.contains (e.pos, i.off)
  | .checksum, _ => f.ph.forced
  | _, _ => false

/-- A slot whose sub-issue has not begun pops its ports all the same, for they are popped at the start of the first
(R171); held back by an earlier access of them, a fence or an acquire, it does so once that lets it (R97, R99, R271). -/
def popEarly (s : State) (sl : SlotName) (e : SlotIssue) (i : Instr) : State :=
  let f := curFrame s
  let me : Foot := { pops := (foot (ngAt f e.n) e.wfmt i).pops }
  if fenceHolds f sl e.n || orderedHolds f e then setCur s (holdHead f sl .fence)
  else if acqPending f sl e.n then setCur s (holdHead f sl .load)
  else if mustWait f sl e me false then setCur s (holdHead f sl .row)
  else match popPorts s sl e false me.pops [] with
    | .ok got s => onCur (keepGot s sl e.n got) fun f => holdHead f sl .subIssue
    | .hold h => setCur s (holdHead f sl h)
    | .wait h s => onCur s fun f => holdHead f sl h
    | .fault c m s => onCur s fun f => raiseL2 f sl e c m (faultFinal f e c m)

/-- The engine waits; for lines of a record in another package it asks (R371). -/
def waitHead (s : State) (sl : SlotName) (h : Hold) : State :=
  let s := setCur s (holdHead (curFrame s) sl h)
  match h with
  | .record handle die lines => askLines s s.cur handle 11 die lines
  | _ => s

/-- The engine executes operation `i` as its head issue: it completes and leaves the queue, waits, or
raises a level-2 fault. With no head issue nothing happens. -/
def runSlot (s : State) (sl : SlotName) (i : Instr) (body : SlotIssue → State → Acc Unit) : State :=
  let f := curFrame s
  match headOf f sl with
  | none => s
  | some e =>
    if !issueRuns f e then s
    else match startHold f sl e i with
      | some .subIssue => if subBegun f e then setCur s (holdHead f sl .subIssue) else popEarly s sl e i
      | some h => setCur s (holdHead f sl h)
      | none =>
        match body e s with
        | .ok _ s => onCur s fun f => popHead f sl
        | .hold h => waitHead s sl h
        | .wait h s => waitHead s sl h
        | .fault c m s => onCur s fun f => raiseL2 f sl e c m (faultFinal f e c m)

/-! ### Vector issues -/

/-- Kill and write register rows, or raise UNDO_OVERFLOW. -/
def commitRows (s : State) (sl : SlotName) (e : SlotIssue) (kills : List Nat)
    (cells : List (Nat × Nat × Cell32)) : Acc Unit :=
  match writeRows (curFrame s) sl (issueFault e (slotCode sl) .undoOverflow) e.rows kills cells with
  | some f => .ok () (setCur s f)
  | none => .fault .undoOverflow none s

/-- Deliver a result to a destination operand: cells of the enabled lanes, a push, or nothing. A push to an OUT stream stands
when a LAST kill of the same issue then raises UNDO_OVERFLOW: DESIGN CHOICE (assumption 49). -/
def deliver (s : State) (e : SlotIssue) (d : Opd) (kills : List Nat) (en : List Nat) (r : Nat → Cell32) :
    Acc Unit :=
  if d.isPort then
    (pushPort s d.port (rowOf r) fun i => en.contains (i / 4)).andThen fun _ s => commitRows s .vector e kills []
  else if d.special then commitRows s .vector e kills []
  else commitRows s .vector e kills (en.map fun L => ((opdCell d L).1, (opdCell d L).2, r L))

/-- Read these rows: their slates wake, and the first that is dead or has an uncorrectable error faults (R259 to R261). -/
def readRows (s : State) (e : SlotIssue) (rows : List Nat) : Acc Unit :=
  let fault := rowsFault (curFrame s) e rows
  let s := onCur s fun f => { f with vec := wakeReads f.vec rows }
  match fault with
  | some c => .fault c none s
  | none => .ok () s

/-- Check the rows that lanes of source operands read. -/
def checkSrcs (s : State) (e : SlotIssue) (srcs : List (Opd × List Nat)) : Acc Unit :=
  readRows s e (srcs.flatMap fun x => opdRows x.1 x.2)

/-- Pop, check and read source operands of one type for the lanes given. -/
def readSrcs (s : State) (e : SlotIssue) (srcs : List (Opd × ElemType × List Nat)) :
    Acc (List (Nat → Cell32)) :=
  (popOpds s e (srcs.map (·.1))).andThen fun pops s =>
  (checkSrcs s e (srcs.map fun x => (x.1, x.2.2))).andThen fun _ s =>
    .ok ((srcs.zip pops).map fun x => opdVal (curFrame s) e x.1.1 x.1.2.1 x.2) s

/-- Cell function `i` of a list. -/
def nthSrc (vs : List (Nat → Cell32)) (i : Nat) : Nat → Cell32 := vs.getD i fun _ => 0

/-- Apply an element operation to every element of a lane: bits and conditions. -/
def perElem (t : ElemType) (op : Nat → Nat × Cond) : Cell32 × Cond :=
  (upto (4 / t.esz)).foldl (fun acc j =>
    let r := op j
    (fput acc.1 (8 * t.esz * j) (8 * t.esz) r.1, acc.2 ||| r.2)) (0, 0)

/-- Element j of a cell. -/
def elemOf (t : ElemType) (c : Cell32) (j : Nat) : Nat := fld c (8 * t.esz * j) (8 * t.esz)

/-- An issue that computes each enabled lane from its sources and writes D. `srcs` are the operands read
in field order; conditions are recorded lane by lane (R277, R296, R307). -/
def laneIssue (i : Instr) (g : Guard) (d : Opd) (t : ElemType) (srcs : List Opd)
    (op : List Nat → Nat × Cond) (s : State) : State :=
  runSlot s .vector i fun e s =>
    let en := lanesOf (guardMask (curFrame s) e g)
    (readSrcs s e (srcs.map fun o => (o, t, en))).andThen fun vs s =>
      let res := en.map fun L => (L, perElem t fun j => op (vs.map fun v => elemOf t (v L) j))
      (deliver s e d (killsOf i) en fun L => (tgetD res L (0, 0)).1).andThen fun _ s =>
        .ok () (onCur s fun f => { f with vec := cfRecords f.vec en fun L => (tgetD res L (0, 0)).2 })

end Sys2Proof.Machine
end

