-- ==== Sys2Proof/Machine/VecAlu.lean ====
section
/-! DEFINITION. Vector arithmetic: integer and floating element operations, compare, select, predicate
logic, permutes, gathers, reductions and seeds (R277 to R286, R296 to R301). -/

namespace Sys2Proof.Machine

/-- Width of an element in bits. -/
def wOf (t : ElemType) : Nat := 8 * t.esz

/-! ### Element operations (R278, R296, R297) -/

/-- VADD, VSUB: modulo 2^w, or clamped with SAT (R278, R280). -/
def addInt (t : ElemType) (sat : Bool) (v : Int) : Nat × Cond :=
  if sat then (intBits t (clampInt t v), condIf (decide (clampInt t v ≠ v)) condSAT) else (intBits t v, 0)

def addElem (t : ElemType) (rm : RoundMode) (sat : Bool) (a b : Nat) : Nat × Cond :=
  if t.isFl then fadd t.ffmt rm (fdec t.ffmt a) (fdec t.ffmt b) else addInt t sat (intVal t a + intVal t b)

def subElem (t : ElemType) (rm : RoundMode) (sat : Bool) (a b : Nat) : Nat × Cond :=
  if t.isFl then fsub t.ffmt rm (fdec t.ffmt a) (fdec t.ffmt b) else addInt t sat (intVal t a - intVal t b)

def mulElem (t : ElemType) (rm : RoundMode) (a b : Nat) : Nat × Cond :=
  if t.isFl then fmul t.ffmt rm (fdec t.ffmt a) (fdec t.ffmt b) else (intBits t (intVal t a * intVal t b), 0)

/-- floor(a·b / 2^w). -/
def mulhElem (t : ElemType) (a b : Nat) : Nat × Cond :=
  (intBits t (Int.fdiv (intVal t a * intVal t b) (2 ^ wOf t : Nat)), 0)

def minElem (t : ElemType) (a b : Nat) : Nat :=
  if t.isFl then fmin t.ffmt a b else if intVal t b < intVal t a then b else a

def maxElem (t : ElemType) (a b : Nat) : Nat :=
  if t.isFl then fmax t.ffmt a b else if intVal t a < intVal t b then b else a

def fmaElem (t : ElemType) (rm : RoundMode) (neg : Bool) (d a b : Nat) : Nat × Cond :=
  ffma t.ffmt rm (fdec t.ffmt d) (fdec t.ffmt a) (fdec t.ffmt b) neg

def shlElem (t : ElemType) (a b : Nat) : Nat := if b < wOf t then a * 2 ^ b % 2 ^ wOf t else 0

def shrElem (t : ElemType) (a b : Nat) : Nat :=
  if b < wOf t then intBits t (Int.fdiv (intVal t a) (2 ^ b : Nat))
  else if intVal t a < 0 then 2 ^ wOf t - 1 else 0

/-- VFSHL and VFSHR on 64-bit X = d·2^32 + a (R279). -/
def fshlElem (d a b : Nat) : Nat := (d * 2 ^ 32 + a) * 2 ^ (b % 64) % 2 ^ 64 / 2 ^ 32
def fshrElem (d a b : Nat) : Nat := (d * 2 ^ 32 + a) / 2 ^ (b % 64) % 2 ^ 32

/-- Leading zero bits in w bits. -/
def clzElem (w a : Nat) : Nat := if a = 0 then w else w - 1 - Nat.log2 a

def condElem (t : ElemType) (c : CmpCond) (a b : Nat) : Bool :=
  if t.isFl then fcmp t.ffmt c a b
  else match c with
    | .eq => decide (intVal t a = intVal t b)
    | .ne => decide (intVal t a ≠ intVal t b)
    | .lt => decide (intVal t a < intVal t b)
    | .le => decide (intVal t a ≤ intVal t b)

/-- Arguments of an element operation. -/
def arg (xs : List Nat) (i : Nat) : Nat := xs.getD i 0

/-- A VR issue over A and B. -/
def vrIssue (i : Instr) (f : VR) (op : Nat → Nat → Nat × Cond) (s : State) : State :=
  laneIssue i f.g f.d f.ty [f.a, f.b] (fun xs => op (arg xs 0) (arg xs 1)) s

/-- A VR issue that also reads D, first in field order. -/
def vrdIssue (i : Instr) (f : VR) (op : Nat → Nat → Nat → Nat × Cond) (s : State) : State :=
  laneIssue i f.g f.d f.ty [f.d, f.a, f.b] (fun xs => op (arg xs 0) (arg xs 1) (arg xs 2)) s

/-- A VU issue over A. -/
def vuIssue (i : Instr) (f : VU) (op : Nat → Nat × Cond) (s : State) : State :=
  laneIssue i f.g f.d f.ty [f.a] (fun xs => op (arg xs 0)) s

/-- R278, R280, R296. -/
def execVadd (f : VR) (s : State) : Out := .next (vrIssue (.vadd f) f (addElem f.ty f.rm (fbit f.mod 0)) s)
def execVsub (f : VR) (s : State) : Out := .next (vrIssue (.vsub f) f (subElem f.ty f.rm (fbit f.mod 0)) s)
def execVmul (f : VR) (s : State) : Out := .next (vrIssue (.vmul f) f (mulElem f.ty f.rm) s)
def execVmulh (f : VR) (s : State) : Out := .next (vrIssue (.vmulh f) f (mulhElem f.ty) s)

/-- R278, R297. -/
def execVmin (f : VR) (s : State) : Out := .next (vrIssue (.vmin f) f (fun a b => (minElem f.ty a b, 0)) s)
def execVmax (f : VR) (s : State) : Out := .next (vrIssue (.vmax f) f (fun a b => (maxElem f.ty a b, 0)) s)

/-- R296: d + a·b, or d − a·b with MOD[0]. -/
def execVfma (f : VR) (s : State) : Out := .next (vrdIssue (.vfma f) f (fmaElem f.ty f.rm (fbit f.mod 0)) s)

/-- R278: on all 32 bits. -/
def execVand (f : VR) (s : State) : Out := .next (vrIssue (.vand f) f (fun a b => (Nat.land a b, 0)) s)
def execVor (f : VR) (s : State) : Out := .next (vrIssue (.vor f) f (fun a b => (Nat.lor a b, 0)) s)
def execVxor (f : VR) (s : State) : Out := .next (vrIssue (.vxor f) f (fun a b => (Nat.xor a b, 0)) s)
def execVandn (f : VR) (s : State) : Out :=
  .next (vrIssue (.vandn f) f (fun a b => (Nat.land a (2 ^ wOf f.ty - 1 - b), 0)) s)

/-- R278. -/
def execVshl (f : VR) (s : State) : Out := .next (vrIssue (.vshl f) f (fun a b => (shlElem f.ty a b, 0)) s)
def execVshr (f : VR) (s : State) : Out := .next (vrIssue (.vshr f) f (fun a b => (shrElem f.ty a b, 0)) s)

/-- R279. -/
def execVfshl (f : VR) (s : State) : Out :=
  .next (vrdIssue (.vfshl f) f (fun d a b => (fshlElem d a b, 0)) s)
def execVfshr (f : VR) (s : State) : Out :=
  .next (vrdIssue (.vfshr f) f (fun d a b => (fshrElem d a b, 0)) s)

/-- R278. -/
def execVclz (f : VU) (s : State) : Out :=
  .next (vuIssue (.vclz f) f (fun a => (clzElem (wOf f.ty) a, 0)) s)
def execVpopc (f : VU) (s : State) : Out :=
  .next (vuIssue (.vpopc f) f (fun a => (popNat a (wOf f.ty), 0)) s)

/-- R300, R301. -/
def execVrcp (f : VU) (s : State) : Out :=
  .next (vuIssue (.vrcp f) f (fun a => frcp f.ty.ffmt (fdec f.ty.ffmt a)) s)
def execVrsq (f : VU) (s : State) : Out :=
  .next (vuIssue (.vrsq f) f (fun a => frsq f.ty.ffmt (fdec f.ty.ffmt a)) s)

/-! ### Compare, select, predicate logic (R281 to R283, R298) -/

/-- A predicate with the bits of these lanes replaced. -/
def predMerge (old : Word) (lanes : List Nat) (v : Nat → Bool) : Word :=
  lanes.foldl (fun w L => fput w L 1 (if v L then 1 else 0)) old

/-- R281, R298: enabled bits of P; a lane's bit is 1 when every element satisfies the condition. -/
def execVcmp (f : VP) (s : State) : Out :=
  .next <| runSlot s .vector (.vcmp f) fun e s =>
    let en := lanesOf (guardMask (curFrame s) e f.g)
    (readSrcs s e [(f.a, f.ty, en), (f.b, f.ty, en)]).andThen fun vs s =>
      let bit (L : Nat) := (upto (4 / f.ty.esz)).all fun j =>
        condElem f.ty f.cond (elemOf f.ty (nthSrc vs 0 L) j) (elemOf f.ty (nthSrc vs 1 L) j)
      (commitRows s .vector e (killsOf (.vcmp f)) []).andThen fun _ s =>
        let old := tgetD (curFrame s).vec.preds f.p.toNat 0
        .ok () (if en.isEmpty then s else
          onCur s fun fr => writePred fr .vector e.n f.p.toNat (predMerge old en bit))

/-- R282: every lane of D is written; A is read in the enabled lanes and B in the others. -/
def execVsel (f : VR) (s : State) : Out :=
  .next <| runSlot s .vector (.vsel f) fun e s =>
    let m := guardMask (curFrame s) e f.g
    (readSrcs s e [(f.a, f.ty, lanesOf m), (f.b, f.ty, lanesOf (~~~m))]).andThen fun vs s =>
      deliver s e f.d (killsOf (.vsel f)) lanes64 fun L =>
        if fbit m L then nthSrc vs 0 L else nthSrc vs 1 L

/-- R283: enabled bits of Pd. -/
def execPlog (f : VPL) (s : State) : Out :=
  .next <| runSlot s .vector (.plog f) fun e s =>
    let fr := curFrame s
    let m := guardMask fr e f.g
    let a := predSeen fr e f.pa.toNat
    let b := predSeen fr e f.pb.toNat
    let v := match f.op with
      | .and => a &&& b | .or => a ||| b | .xor => a ^^^ b | .andn => a &&& ~~~b
    let old := tgetD fr.vec.preds f.p.toNat 0
    .ok () (if m = 0 then s else setCur s (writePred fr .vector e.n f.p.toNat ((old &&& ~~~m) ||| (v &&& m))))

/-! ### Permutes and gathers (R284, R285) -/

/-- R284: each enabled lane takes the lane of A that its cell of B selects. -/
def execVperm (f : VR) (s : State) : Out :=
  .next <| runSlot s .vector (.vperm f) fun e s =>
    let en := lanesOf (guardMask (curFrame s) e f.g)
    (popOpds s e [f.a, f.b]).andThen fun pops s =>
    (checkSrcs s e [(f.b, en)]).andThen fun _ s =>
      let sel (L : Nat) := fld (opdVal (curFrame s) e f.b f.ty (pops.getD 1 none) L) 0 6
      (checkSrcs s e [(f.a, en.map sel)]).andThen fun _ s =>
        let fr := curFrame s
        deliver s e f.d (killsOf (.vperm f)) en fun L => opdVal fr e f.a f.ty (pops.getD 0 none) (sel L)

/-- R285: each enabled lane takes a cell of A's slate, row and lane selected by its cell of B. -/
def execVgath (f : VR) (s : State) : Out :=
  .next <| runSlot s .vector (.vgath f) fun e s =>
    let en := lanesOf (guardMask (curFrame s) e f.g)
    (readSrcs s e [(f.b, f.ty, en)]).andThen fun vs s =>
      let b (L : Nat) := nthSrc vs 0 L
      let row (L : Nat) := f.a.idx.toNat / 64 * 64 + fld (b L) 6 6
      (readRows s e (en.map row)).andThen fun _ s =>
        deliver s e f.d (killsOf (.vgath f)) en fun L =>
          lane ((rowSeen (curFrame s) e (row L)).getD 0) (fld (b L) 0 6)

/-! ### Segmented reductions (R45, R286, R299) -/

/-- One level of the tree: neighbours combine, the lower first. -/
def treeStep (op : Nat → Nat → Nat × Cond) : List (Nat × Cond) → List (Nat × Cond)
  | a :: b :: r => ((op a.1 b.1).1, a.2 ||| b.2 ||| (op a.1 b.1).2) :: treeStep op r
  | l => l

/-- Reduce groups of 2^k by the tree of R45. -/
def treeRed (op : Nat → Nat → Nat × Cond) : Nat → List (Nat × Cond) → List (Nat × Cond)
  | 0, l => l
  | k + 1, l => treeRed op k (treeStep op l)

/-- A reduction's element: a group of one lane delivers it, and a NaN is canonical then too (R32). -/
def redElem (t : ElemType) (x : Nat) : Nat := if t.isFl ∧ fdec t.ffmt x = .nan then t.ffmt.nan else x

/-- A reduction issue; `ident` stands for disabled lanes. -/
def vkIssue (i : Instr) (f : VK) (op : Nat → Nat → Nat × Cond) (ident : Nat) (s : State) : State :=
  runSlot s .vector i fun e s =>
    let en := lanesOf (guardMask (curFrame s) e f.g)
    (readSrcs s e [(f.a, f.ty, en)]).andThen fun vs s =>
      let col (j : Nat) := treeRed op f.k.toNat (lanes64.map fun L =>
        (if en.contains L then redElem f.ty (elemOf f.ty (nthSrc vs 0 L) j) else ident, (0 : Cond)))
      let cols := (upto (4 / f.ty.esz)).map col
      let at' (L j : Nat) : Nat × Cond := (cols.getD j []).getD (L / 2 ^ f.k.toNat) (0, 0)
      let res := en.map fun L => (L, perElem f.ty (at' L))
      (deliver s e f.d (killsOf i) en fun L => (tgetD res L (0, 0)).1).andThen fun _ s =>
        .ok () (onCur s fun fr => { fr with vec := cfRecords fr.vec en fun L => (tgetD res L (0, 0)).2 })

/-- R286, R299: sums; disabled lanes add 0, −0 for floats, or +0 in RDN. -/
def execVrsum (f : VK) (s : State) : Out :=
  let ident := if f.ty.isFl ∧ f.rm ≠ .rdn then f.ty.ffmt.sign else 0
  .next (vkIssue (.vrsum f) f (addElem f.ty f.rm false) ident s)

/-- R286, R299: maxima; disabled lanes give the least value. -/
def execVrmax (f : VK) (s : State) : Out :=
  let ident := if f.ty.isFl then f.ty.ffmt.sign + f.ty.ffmt.inf else intBits f.ty (intMin f.ty)
  .next (vkIssue (.vrmax f) f (fun a b => (maxElem f.ty a b, 0)) ident s)

/-- R286, R299: minima; disabled lanes give the greatest value. -/
def execVrmin (f : VK) (s : State) : Out :=
  let ident := if f.ty.isFl then f.ty.ffmt.inf else intBits f.ty (intMax f.ty)
  .next (vkIssue (.vrmin f) f (fun a b => (minElem f.ty a b, 0)) ident s)

end Sys2Proof.Machine
end

