-- ==== Sys2Proof/Machine/VecCvt.lean ====
section
/-! DEFINITION. Vector conversion, block images and the condition flags' instruction (R302 to R309), and
the converter staleness and bead flags it reads (R223, R224, R226, R235). -/

namespace Sys2Proof.Machine

/-! ### VCVT (R302, R303) -/

/-- Number of elements converted. -/
def cvtCount (src dst : ElemType) : Nat := 256 / max src.esz dst.esz

/-- Source lane of element i. -/
def cvtLane (src : ElemType) (i : Nat) : Nat := i * src.esz / 4

/-- Elements that destination lane L receives. -/
def cvtElems (src dst : ElemType) (L : Nat) : List Nat :=
  ((upto (4 / dst.esz)).map fun j => L * (4 / dst.esz) + j).filter fun i => decide (i < cvtCount src dst)

/-- R302, R303. -/
def execVcvt (f : VCv) (s : State) : Out :=
  .next <| runSlot s .vector (.vcvt f) fun e s =>
    let en := lanesOf (guardMask (curFrame s) e f.g)
    let srcLanes := sortUniq (en.flatMap fun L => (cvtElems f.src f.ty L).map (cvtLane f.src))
    (readSrcs s e [(f.a, f.src, srcLanes)]).andThen fun vs s =>
      let one (i : Nat) : Nat × Cond :=
        convert f.ty f.src f.rm (elemOf f.src (nthSrc vs 0 (cvtLane f.src i)) (i % (4 / f.src.esz)))
      let cell (L : Nat) : Cell32 × Cond := perElem f.ty fun j =>
        let i := L * (4 / f.ty.esz) + j
        if i < cvtCount f.src f.ty then one i else (0, 0)
      let res := en.map fun L => (L, cell L)
      (deliver s e f.d (killsOf (.vcvt f)) en fun L => (tgetD res L (0, 0)).1).andThen fun _ s =>
        .ok () (onCur s fun fr => { fr with vec := cfRecords fr.vec en fun L => (tgetD res L (0, 0)).2 })

/-! ### Block images (R304 to R306) -/

/-- The block image of a scale and elements. -/
def blockImage (t : ElemType) (E : Nat) (q : List Int) : Row :=
  let planes := mxPlanes t q
  bytesRow (planes ++ List.replicate (255 - planes.length) 0 ++ [BitVec.ofNat 8 E])

/-- R305: disabled lanes contribute +0; with a lane enabled the whole of D is written. -/
def execVqnt (f : VU) (s : State) : Out :=
  .next <| runSlot s .vector (.vqnt f) fun e s =>
    let en := lanesOf (guardMask (curFrame s) e f.g)
    (readSrcs s e [(f.a, .f32, en)]).andThen fun vs s =>
      let xs := lanes64.map fun L =>
        if en.contains L then fdec fmtF32 (nthSrc vs 0 L).toNat else FVal.fin false 0 0
      let q := quantise f.ty f.rm xs
      let img := if en.isEmpty then 0 else blockImage f.ty q.1 q.2
      deliver s e f.d (killsOf (.vqnt f)) (if en.isEmpty then [] else lanes64) (lane img)

/-- R306: at BF16 lanes 32 to 63 read nothing and are written zero. -/
def execVdqt (f : VCv) (s : State) : Out :=
  .next <| runSlot s .vector (.vdqt f) fun e s =>
    let en := lanesOf (guardMask (curFrame s) e f.g)
    let takes := en.filter fun L => decide (L < 16 * f.ty.esz)
    (readSrcs s e [(f.a, .n8, takes)]).andThen fun vs s =>
      let byte (i : Nat) : Byte := BitVec.ofNat 8 (fld (nthSrc vs 0 (i / 4)) (8 * (i % 4)) 8)
      let val (i : Nat) : Nat :=
        mxToF f.ty.ffmt f.src (byte 255).toNat (mxElem f.src byte (fun k => byte (mxSz1 f.src + k)) i)
      let cell (L : Nat) : Cell32 :=
        if takes.contains L then (perElem f.ty fun j => (val (L * (4 / f.ty.esz) + j), 0)).1 else 0
      deliver s e f.d (killsOf (.vdqt f)) en cell

/-! ### Staleness and flags (R223, R224, R235, R309) -/

/-- 50 ms in ticks (R224). -/
def calAge : Nat := 260000000

/-- The array's calibration is stale now (R223, R224). -/
def staleNow (s : State) (a : BArr) : Bool := a.calStale || a.calOut || decide (calAge ≤ s.time - a.calTime)

/-- CAL_STALE of a frame (R226). -/
def calStaleWord (s : State) (f : Frame) : Word :=
  lanes64.foldl (fun w b => if staleNow s (arrOf f b) then w ||| BitVec.ofNat 64 (2 ^ b) else w) 0

/-- The row that VFLAGS selectors 2 to 4 deliver now. -/
def flagRow (s : State) (f : Frame) (sel : Nat) : Row :=
  rowOf fun L =>
    let a := arrOf f L
    match sel with
    | 2 => BitVec.ofNat 32 ((if a.staleF then 1 else 0) + if staleNow s a then 2 else 0)
    | 3 => BitVec.ofNat 32 (fld a.clip 0 32)
    | _ => BitVec.ofNat 32 (fld a.clip 32 32)

/-- Key in an issue's row overlay of the flags as they stood before a bead issue of its own number or a
later one changed them (R309). -/
def flagKey (sel : Nat) : Nat := 1024 + sel

/-- Record the flags for every waiting VFLAGS that the bead issue `n` must not be seen by (R309). -/
def captureFlags (s : State) (n : Nat) : State :=
  let f := curFrame s
  let note (x : SlotIssue) : SlotIssue :=
    match decodeSlot .vector x.w with
    | some (.vflags v) =>
      if 2 ≤ v.sel.toNat ∧ x.n ≤ n ∧ (tget x.rows (flagKey v.sel.toNat)).isNone then
        { x with rows := tset x.rows (flagKey v.sel.toNat) (some (flagRow s f v.sel.toNat)) }
      else x
    | _ => x
  setCur s { f with seq := { f.seq with qv := { f.seq.qv with q := f.seq.qv.q.map note } } }

/-- The bead word's operation changes flags that a VFLAGS selector delivers: a BSTEP both kinds, a calibration the stale
flags alone, BFLAG the kind it clears (R223, R224, R235, R252, R253). -/
def flagWork (sel : Nat) (w : Word) : Bool :=
  match decodeSlot .bead w with
  | some (.bstep _) => true
  | some (.bcal _) | some (.bcalw ..) => decide (sel = 2)
  | some (.bflagStale _ clr) => clr && decide (sel = 2)
  | some (.bflagClip _ _ clr) => clr && decide (3 ≤ sel)
  | _ => false

/-- The flags that a VFLAGS of this issue delivers are not yet those that the earlier issues leave (R309). -/
def flagsDue (f : Frame) (e : SlotIssue) (sel : Nat) : Bool :=
  decide (2 ≤ sel) && f.seq.qb.q.any fun x => decide (x.n < e.n) && flagWork sel x.w

/-- R309: selectors 2 to 4 wait until every BSTEP of an earlier issue has converted, and what else of earlier issues changes
the flags they deliver is done; the values are those before this issue. -/
def execVflags (f : VFl) (s : State) : Out :=
  .next <| runSlot s .vector (.vflags f) fun e s =>
    let fr := curFrame s
    let sel := f.sel.toNat
    let en := lanesOf (guardMask fr e f.g)
    if flagsDue fr e sel then .hold .flags
    else
      let bead : Row := ((tget e.rows (flagKey sel)).getD none).getD (flagRow s fr sel)
      let val (L : Nat) : Cell32 := if sel ≤ 1 then (cfOf fr.vec L).zeroExtend 32 else lane bead L
      (deliver s e f.d [] en val).andThen fun _ s =>
        .ok () (if sel = 1 then onCur s fun fr => { fr with vec := en.foldl cfClear fr.vec } else s)

end Sys2Proof.Machine
end

