-- ==== Sys2Proof/Machine/VecMem.lean ====
section
/-! DEFINITION. Vector loads, stores, atomics, emptying and bank release, the return of load data and the
performing of released stores (R92, R98, R104, R105, R274, R275, R287 to R292). -/

namespace Sys2Proof.Machine

/-! ### Addresses (R287) -/

/-- The cell of ADDR for a lane: always an integer. -/
def addrCell (f : Frame) (e : SlotIssue) (o : Opd) (L : Nat) : Cell32 := opdVal f e o .n32 none L

/-- The scalar x of a frame-SRAM form, signed, and of a global form, unsigned. -/
def addrX (f : Frame) (e : SlotIssue) (o : Opd) : Int := sgn 32 (addrCell f e o 0).toNat
def addrXu (f : Frame) (e : SlotIssue) (o : Opd) : Nat := (addrCell f e o 0).toNat

/-- BASE of a set usable by a frame-SRAM form: view and byte address. -/
def sramBase (f : Frame) (k : Nat) : Option (Bool × Nat) :=
  if [1, 2, 4].contains (setKind f.vec k) && setValid f.vec k then
    some (viewOf (psetWord f.vec k 0), baseOf (psetWord f.vec k 0)) else none

/-- HANDLE and ORIGIN of a set usable by a global form. -/
def globBase (f : Frame) (k : Nat) : Option (Nat × Nat) :=
  if setKind f.vec k = 5 ∧ setValid f.vec k then
    some (fld (psetWord f.vec k 0) 0 20, fld (psetWord f.vec k 1) 0 44) else none

/-- Clear the low bits of an address below a power of two. -/
def floorTo (n : Nat) (a : Int) : Int := a - a % (n : Int)

/-- Byte mask of elements of size `esz`. -/
def elemMask (esz : Nat) (en : List Nat) (i : Nat) : Bool := en.contains (i / esz) && decide (i < 64 * esz)

/-- Bytes of an image, by index, that enabled elements hold. -/
def imageIdx (esz : Nat) (en : List Nat) : List Nat := en.flatMap fun e => (upto esz).map fun j => esz * e + j

/-- A row image from bytes by index; other bytes zero. -/
def imageRow (idx : List Nat) (bs : List Byte) : Row :=
  (idx.zip bs).foldl (fun r x => fput r (8 * x.1) 8 x.2.toNat) 0

/-- Byte i of a row. -/
def rowByte (r : Row) (i : Nat) : Byte := BitVec.ofNat 8 (fld r (8 * i) 8)

/-- A vector memory issue addressed by a scalar: `en` are the enabled elements. With none enabled nothing
is read (R265); otherwise ADDR's lane-0 row is read. -/
def readAddr (s : State) (e : SlotIssue) (o : Opd) (en : List Nat) : Acc Unit :=
  checkSrcs s e [(o, if en.isEmpty then [] else [0])]

/-! ### Delivering loaded rows -/

/-- Cells that put the masked bytes of a row image into row r. The other bytes of such a cell stay as they were, or are
zero where a kill of the same issue precedes the write (R121, R258). -/
def byteCells (f : Frame) (n r : Nat) (img : Row) (mask : Nat → Bool) (killed : Bool := false) : List (Nat × Nat × Cell32) :=
  let base := if killed || (siblingKills f .vector n).contains r then 0 else tgetD f.vec.rows r 0
  (lanes64.filter fun L => (upto 4).any fun j => mask (4 * L + j)).map fun L =>
    (r, L, (upto 4).foldl (fun c j =>
      fput c (8 * j) 8 (if mask (4 * L + j) then rowByte img (4 * L + j) else rowByte base (4 * L + j)).toNat) 0)

/-- The bytes a load writes: its enabled elements, and every byte past the image (R288). -/
def loadMask (esz : Nat) (en : List Nat) (i : Nat) : Bool :=
  if 64 * esz ≤ i then !en.isEmpty else en.contains (i / esz)

/-- Write a loaded image to DATA: row bytes, a push, or nothing. -/
def deliverLoad (s : State) (e : SlotIssue) (d : Opd) (kills : List Nat) (img : Row) (mask : Nat → Bool)
    (bad : Bool) : Acc Unit :=
  if d.isPort then
    (pushPort s d.port img mask bad).andThen fun _ s => commitRows s .vector e kills []
  else if d.special then commitRows s .vector e kills []
  else
    (commitRows s .vector e kills (byteCells (curFrame s) e.n d.idx.toNat img mask
      (kills.contains d.idx.toNat && (tget e.rows d.idx.toNat).isNone))).andThen fun _ s =>
      .ok () (if bad then
        onCur s fun f => { f with vec := { f.vec with bad := insertUniq d.idx.toNat f.vec.bad } } else s)

/-! ### Frame-SRAM loads and stores (R288, R289) -/

/-- Address of image byte 0. -/
def imageAddr (base : Nat) (x : Int) (unaligned : Bool) : Int :=
  if unaligned then base + x else floorTo 16 (base + 16 * x)

/-- R288, R289: a load from frame SRAM. An unusable set is reported at offset 0, here as for every frame-SRAM form of R287:
DESIGN CHOICE (assumption 50). Granules that FE 2 has emptied stay empty when the delivery of the row then faults:
DESIGN CHOICE (assumption 49). -/
def sramLoad (i : Instr) (f : VM) (unaligned : Bool) (s : State) : State :=
  runSlot s .vector i fun e s =>
    let en := lanesOf (guardMask (curFrame s) e f.g)
    let esz := f.ty.esz
    (readAddr s e f.addr en).andThen fun _ s =>
      let fr := curFrame s
      if en.isEmpty then deliverLoad s e f.data (killsOf i) 0 (fun _ => false) false
      else match sramBase fr f.pset.toNat with
        | none => spadRange 0 s
        | some (swz, base) =>
          let a := imageAddr base (addrX fr e f.addr) unaligned
          let idx := imageIdx esz en
          match spadList fr false (idx.map fun (k : Nat) => a + (k : Int)) with
          | .inr x => spadRange x s
          | .inl as =>
            let gs := sortUniq (as.map fun a => granOf (sramKey fr.sram.split swz a))
            if f.fe ≠ .none ∧ !allFull fr.sram gs then .hold (.granules gs)
            else (sramRead s swz as).andThen fun bs s =>
              let s := if f.fe = .clear then onCur s fun fr => { fr with sram := sramEmpty fr.sram gs } else s
              deliverLoad s e f.data (killsOf i) (imageRow idx bs) (loadMask esz en) false

def execVld (f : VM) (s : State) : Out := .next (sramLoad (.vld f) f false s)
def execVldu (f : VM) (s : State) : Out := .next (sramLoad (.vldu f) f true s)

/-- DATA of a store as a row: the popped vector, the register row's lanes, or zero. -/
def storeData (s : State) (e : SlotIssue) (o : Opd) (lanes : List Nat) : Acc Row :=
  (readSrcs s e [(o, .n32, lanes)]).andThen fun vs s => .ok (rowOf (nthSrc vs 0)) s

/-- Lanes that hold bytes of these elements. -/
def dataLanes (esz : Nat) (en : List Nat) : List Nat := sortUniq (en.map fun e => e * esz / 4)

def sramStore (i : Instr) (f : VM) (unaligned : Bool) (s : State) : State :=
  runSlot s .vector i fun e s =>
    let en := lanesOf (guardMask (curFrame s) e f.g)
    let esz := f.ty.esz
    (storeData s e f.data (dataLanes esz en)).andThen fun row s =>
    (readAddr s e f.addr en).andThen fun _ s =>
      let fr := curFrame s
      if en.isEmpty then commitRows s .vector e (killsOf i) []
      else match sramBase fr f.pset.toNat with
        | none => spadRange 0 s
        | some (swz, base) =>
          let a := imageAddr base (addrX fr e f.addr) unaligned
          let idx := imageIdx esz en
          match spadList fr false (idx.map fun (k : Nat) => a + (k : Int)) with
          | .inr x => spadRange x s
          | .inl as =>
            (commitRows s .vector e (killsOf i) []).andThen fun _ s =>
              .ok () (onCur s fun fr => { fr with sram := sramWrite fr.sram swz (as.zip (idx.map (rowByte row))) })

def execVst (f : VM) (s : State) : Out := .next (sramStore (.vst f) f false s)
def execVstu (f : VM) (s : State) : Out := .next (sramStore (.vstu f) f true s)

/-! ### Global loads and stores (R290) -/

/-- Device address and byte of each stored byte of an image (R82). -/
def storeBytes (v : VStore) : List (Nat × Byte) :=
  let cut := 0x200000 - v.off % 0x200000
  ((upto 256).filter fun i => fbit v.mask i).map fun i =>
    (if v.da2 ≠ 0 ∧ cut ≤ i then v.da2 + (i - cut) else v.da + i, rowByte v.data i)

/-- Bytes of the thread's own stores that are released or withheld, oldest first (R92, R98). -/
def ownStores (f : Frame) : List (Nat × Byte) :=
  (f.ph.released.flatMap fun r => match r with | .store v => storeBytes v | .add _ => []) ++
    f.ph.stores.flatMap storeBytes

/-- A loaded byte with the thread's own later stores over it. -/
def seeOwn (own : List (Nat × Byte)) (a : Nat) (b : Byte) : Byte :=
  own.foldl (fun b o => if o.1 = a then o.2 else b) b

/-- Offset of image byte 0 of a global form. -/
def globOff (f : Frame) (e : SlotIssue) (o : Opd) (org esz : Nat) : Nat :=
  let x := org + addrXu f e o
  x - x % esz

/-- Translate for an engine of the moving frame: a fault carries its report, MIGRATING holds (R61, R71). -/
def engXlate (s : State) (h : Nat) (need : Need) (offs : List Nat) : Acc (List Nat × RcEnt) :=
  match translate s s.cur h need offs with
  | (.ok das e, s) => .ok (das, e) s
  | (.err c off gen, s) => .fault c (some { handle := h, off := off, gen := gen }) s
  | (.stall, _) => .hold (.migrating h)
  | (.far die lines, _) => .hold (.record h die lines)

/-- BAD_HANDLE of an unusable set, at offset 0. -/
def badSet {α : Type} (s : State) : Acc α := .fault .badHandle (some { handle := 0, off := 0, gen := 0 }) s

/-- A 256-bit mask of byte indexes. -/
def maskBits (idx : List Nat) : BitVec 256 := idx.foldl (fun m i => m ||| BitVec.ofNat 256 (2 ^ i)) 0

/-- Put a global load into flight: its row is recorded in the undo log and its kills are made. -/
def startLoad (s : State) (e : SlotIssue) (kills : List Nat) (l : GLoad) : Acc Unit :=
  let f := curFrame s
  let rows := if l.dst.special then [] else [l.dst.idx.toNat]
  match undoNotes f (issueFault e 1 .undoOverflow) (sortUniq ((kills.filter fun r => (tget f.vec.rows r).isSome) ++ rows)) with
  | none => .fault .undoOverflow none s
  | some f =>
    (commitRows (setCur s f) .vector e kills []).andThen fun _ s =>
      .ok () (onCur s fun f => { f with vec := { f.vec with loads := f.vec.loads ++ [l] } })

/-- Bytes that a vector load of the entry with this serial finds: storage's, or those before a generator store that the load
may precede (R96), under the thread's own V-path stores (R92). -/
def seeLoad (s : State) (ser : BitVec 32) (own : List (Nat × Byte)) (das : List Nat) (ord : Ordering4) (scope : Scope) :
    List Byte × State :=
  let r := gload s das ord scope
  let q := lateRead r.2 false ser (das.zip r.1)
  ((das.zip q.1).map fun b => seeOwn own b.1 b.2, if acquires ord scope then onCur q.2 (lateEnd false) else q.2)

/-- An earlier load or atomic of a line of these bytes awaits its replies: accesses of one location keep their order (R92). -/
def linesPending (f : Frame) (n : Nat) (das : List Nat) : Bool :=
  f.vec.loads.any fun l => decide (l.n < n) && l.far.any fun x =>
    das.any fun a => x.das.any fun b => decide (a / 128 = b / 128)

/-- R290: the data is read when the load is performed, under the thread's own stores (R92), and counts
under LD until its row is written. Bytes of another package are asked for, and their data performs the load (R370). -/
def execVldg (f : VM) (s : State) : Out :=
  .next <| runSlot s .vector (.vldg f) fun e s =>
    let en := lanesOf (guardMask (curFrame s) e f.g)
    let esz := f.ty.esz
    (readAddr s e f.addr en).andThen fun _ s =>
      let fr := curFrame s
      if en.isEmpty then deliverLoad s e f.data (killsOf (.vldg f)) 0 (fun _ => false) false
      else match globBase fr f.pset.toNat with
        | none => badSet s
        | some (h, org) =>
          if 255 ≤ cntLD fr then .hold (.counter 0)
          else if f.data.isPort && !(setValid fr.vec f.data.port && [2, 3].contains (setKind fr.vec f.data.port)) then
            spadRange 0 s
          else if f.data.isPort && decide (8 ≤ (tgetD fr.vec.fifos f.data.port []).length) then
            .hold (.portFull f.data.port)
          else
            let a := globOff fr e f.addr org esz
            let idx := imageIdx esz en
            (engXlate s h needR (idx.map (a + ·))).andThen fun x s =>
              let own := ownStores (curFrame s)
              let lines := farLines (curFrame s) x.1 f.scope
              let load : GLoad :=
                { n := e.n, iss := e, dst := f.data, val := 0, gen := recGen x.2.words,
                  mask := maskBits ((upto 256).filter (loadMask esz en)), poison := false, handle := h }
              if linesPending (curFrame s) e.n x.1 || farBusy s (lines.map (128 * ·)) then .hold .load
              else if lines.isEmpty then
                let r := seeLoad s e.tag.ser own x.1 f.ord f.scope
                startLoad r.2 e (killsOf (.vldg f))
                  { load with val := imageRow idx r.1, poison := loadBad s (curFrame s).sram x.1 f.scope }
              else
                let k : ReqKind := { work := 7, ty := 1, rel := false, die := recHomeDie x.2.words, handle := h }
                startLoad (sendRemote s s.cur e.n k (fun _ => false) (lines.flatMap fun l => (upto 128).map fun i => (128 * l + i, 0)))
                  e (killsOf (.vldg f))
                  { load with far := some { das := x.1, offs := idx.map (a + ·), idx := idx, own := own, ord := f.ord,
                                            scope := f.scope, amo := none } }

/-- R105, R290, R292: the data of the oldest load in flight is written and the load leaves LD. A fault of
its push is raised as the load's. -/
def execVldgDataReturn (s : State) : Out :=
  let f := curFrame s
  .next <| match f.vec.loads with
    | [] => s
    | l :: r =>
      if l.far.isSome then s
      else
      let s' := setCur s { f with vec := { f.vec with loads := r } }
      match deliverLoad s' l.iss l.dst [] l.val (fun i => fbit l.mask i) l.poison with
      | .ok _ s => s
      | .hold _ | .wait _ _ => s
      | .fault c m s =>
        onCur s fun f => addFault f (issueFault l.iss 1 c m)

/-- R98, R290: the store is withheld until its phase commits. -/
def execVstg (f : VM) (s : State) : Out :=
  .next <| runSlot s .vector (.vstg f) fun e s =>
    let en := lanesOf (guardMask (curFrame s) e f.g)
    let esz := f.ty.esz
    (storeData s e f.data (dataLanes esz en)).andThen fun row s =>
    (readAddr s e f.addr en).andThen fun _ s =>
      let fr := curFrame s
      if en.isEmpty then commitRows s .vector e (killsOf (.vstg f)) []
      else match globBase fr f.pset.toNat with
        | none => badSet s
        | some (h, org) =>
          let a := globOff fr e f.addr org esz
          let idx := imageIdx esz en
          (engXlate s h needW (idx.map (a + ·))).andThen fun x s =>
          (commitRows s .vector e (killsOf (.vstg f)) []).andThen fun _ s =>
            let ws := x.2.words
            let cut := a + (0x200000 - a % 0x200000)
            let v : VStore :=
              { n := e.n, handle := h, gen := recGen ws, ord := f.ord, scope := f.scope, off := a, ser := e.tag.ser,
                da := devAddr ws a, da2 := if cut < a + 64 * esz then devAddr ws cut else 0,
                mask := maskBits idx, data := row, die := recHomeDie ws }
            .ok () (onCur s fun fr => { fr with ph := { fr.ph with stores := fr.ph.stores ++ [v] } })

/-- Every byte's home serves it; host and fabric bytes have no home die (R365, R379). -/
def homesServe (s : State) (das : List Nat) : Bool := das.all fun a => decide (homeOf a = 4) || serves s (homeOf a)

/-- The moving frame's thread still reaches the byte: a partition change has not taken its home away (R3, R374). -/
def reaches (s : State) (a : Nat) : Bool := decide (homeOf a = 4) || decide ((dieOf s (homeOf a)).part = curPart s)

/-- Committed writes that may still be performed: none reaches another partition (R374). -/
def inReach (s : State) (bytes : List (Nat × Byte)) : List (Nat × Byte) := bytes.filter fun b => reaches s b.1

/-- Take the first released entry that `p` names out of the list. -/
def takeFirst {α β : Type} (p : α → Option β) : List α → Option (β × List α)
  | [] => none
  | a :: r => match p a with
    | some b => some (b, r)
    | none => (takeFirst p r).map fun x => (x.1, a :: x.2)

def relStore : Released → Option VStore | .store v => some v | .add _ => none
def relAdd : Released → Option CAdd | .add c => some c | .store _ => none

/-- The oldest released vector store is performed and leaves ST. -/
def performStore (s : State) : State :=
  let f := curFrame s
  match takeFirst relStore f.ph.released with
  | none => s
  | some (v, rest) =>
    let r := lateWrite (setCur s { f with ph := { f.ph with released := rest } }) false v.ser (inReach s (storeBytes v))
    gstore r.2 r.1

/-- R98, R105: the thread's oldest released vector store is performed and leaves ST. With its home offline
it waits (R160); bytes in another package are sent there first, and the acknowledgement performs it (R107). -/
def execStorePerformed (s : State) : Out :=
  .next <| match takeFirst relStore (curFrame s).ph.released with
    | none => s
    | some (v, _) =>
      let bs := storeBytes v
      if !homesServe s (bs.map (·.1)) then s
      else if bs.any fun b => isRemote b.1 then
        sendFar s v.n { work := 0, ty := 3, rel := decide (v.ord = .rel), die := v.die, handle := v.handle } (fun _ => false) bs
      else performStore s

/-! ### Atomics (R292) -/

/-- New value of an atomic. -/
def vamoNew (op : AmoCode) (t : ElemType) (old v : Nat) : Nat :=
  match op with
  | .swap => v
  | .add => if t = .f32 then (fadd fmtF32 .rne (fdec fmtF32 old) (fdec fmtF32 v)).1 else (old + v) % 2 ^ 32
  | .and => Nat.land old v
  | .or => Nat.lor old v
  | .xor => Nat.xor old v
  | .min => minElem t old v
  | .max => maxElem t old v

/-- Lane offset: the ADDR cell with bits [1:0] cleared. -/
def amoOff (f : Frame) (e : SlotIssue) (o : Opd) (L : Nat) : Nat :=
  let c := (addrCell f e o L).toNat
  c - c % 4

/-- A granule table after bytes are written (R77). -/
def patchGrans (t : Tbl (BitVec 128)) (kb : List (Nat × Byte)) : Tbl (BitVec 128) :=
  kb.foldl (fun t b => match tget t (granOf b.1) with
    | some v => tset t (granOf b.1) (fput v (8 * (b.1 % 16)) 8 b.2.toNat)
    | none => t) t

/-- One atomic on frame SRAM per lane, ascending; the values read. `seen` says what the access finds in a granule written
through the other view with no VJOIN since (R77). -/
def sramAtomics (m : Sram) (swz : Bool) (op : AmoCode) (t : ElemType) :
    Tbl (BitVec 128) → List (Nat × List Nat × Nat) → Sram × List (Nat × Nat)
  | _, [] => (m, [])
  | seen, (L, as, v) :: r =>
    let old := leNat (as.map fun a => seenByte m seen (sramKey m.split swz a))
    let bytes := as.zip (leOf (vamoNew op t old v) 4)
    let x := sramAtomics (sramWrite m swz bytes) swz op t
      (patchGrans seen (bytes.map fun b => (sramKey m.split swz b.1, b.2))) r
    (x.1, (L, old) :: x.2)

/-- One atomic on global storage per lane, ascending, of the entry with this serial; the values read. -/
def globAtomics (s : State) (ser : BitVec 32) (op : AmoCode) (t : ElemType) :
    List (Nat × List Nat × Nat) → State × List (Nat × Nat)
  | [] => (s, [])
  | (L, das, v) :: r =>
    let a := lateAtomic s false ser das fun old => leOf (vamoNew op t (leNat old) v) 4
    let x := globAtomics (gstore a.2.2 a.2.1) ser op t r
    (x.1, (L, leNat a.1) :: x.2)

/-- Split a list into pieces of four. -/
def fours : List Nat → List (List Nat)
  | a :: b :: c :: d :: r => [a, b, c, d] :: fours r
  | _ => []

/-- The frame-SRAM form. The atomics stand when the write of DATA then faults: DESIGN CHOICE (assumption 49). -/
def vamoSram (f : VAm) (e : SlotIssue) (en : List Nat) (vals : Nat → Cell32) (s : State) : Acc Unit :=
  let fr := curFrame s
  let offs := en.map fun L => sgn 32 (amoOff fr e f.addr L)
  match sramBase fr f.pset.toNat with
  | none => spadRange 0 s
  | some (swz, base) =>
    match spadList fr false (offs.flatMap fun o => (upto 4).map fun (j : Nat) => (base : Int) + o + (j : Int)) with
    | .inr x => spadRange x s
    | .inl as =>
      (sramLook s swz as).andThen fun seen s =>
        let work := en.zip ((fours as).zip (en.map fun L => (vals L).toNat))
        let r := sramAtomics (curFrame s).sram swz f.op f.ty seen work
        let s := onCur s fun fr => { fr with sram := r.1 }
        deliver s e f.data (killsOf (.vamo f)) en fun L => BitVec.ofNat 32 (tgetD r.2 L 0)

/-- An atomic's operation is on FP32 values (R93, R292). -/
def amoFp (op : AmoCode) (t : ElemType) : Bool := decide (t = .f32) && [AmoCode.add, .min, .max].contains op

/-- The operation of an atomic flit. -/
def amoFlit (op : AmoCode) (t : ElemType) : AmoOp :=
  match op with
  | .swap => .swap | .add => .add | .and => .and | .or => .or | .xor => .xor
  | .min => if t = .n32 then .minu else .min
  | .max => if t = .n32 then .maxu else .max

/-- An earlier load or atomic of another package's bytes awaits its replies. -/
def farPending (f : Frame) (n : Nat) : Bool := f.vec.loads.any fun l => decide (l.n < n) && l.far.isSome

/-- The global form: at the home board, never withheld; its DATA row is written when the data returns. A release waits
until the thread's earlier released stores are performed and the replies to its earlier loads and atomics have come (R99,
R107); the withheld stores of its own phase, which its commit releases later, are not waited for (assumption 40). In another
package each lane's atomic is a flit (R93, R370). The atomics stand when the write of DATA then faults (assumption 49). -/
def vamoGlob (f : VAm) (e : SlotIssue) (en : List Nat) (vals : Nat → Cell32) (s : State) : Acc Unit :=
  let fr := curFrame s
  match globBase fr f.pset.toNat with
  | none => badSet s
  | some (h, org) =>
    if 255 ≤ cntLD fr then .hold (.counter 0)
    else
      let offs := en.flatMap fun L => (upto 4).map fun j => org + amoOff fr e f.addr L + j
      (engXlate s h needRW offs).andThen fun x s =>
        let rel := (curFrame s).ph.released.flatMap fun r => match r with | .store v => storeBytes v | .add _ => []
        let order := decide (f.ord = .rel) || decide (f.ord = .ar)
        if (order && !rel.isEmpty) || x.1.any (fun a => rel.any fun b => decide (b.1 = a)) then .hold .store
        else if linesPending (curFrame s) e.n x.1 || (order && farPending (curFrame s) e.n) || farBusy s x.1 then .hold .load
        else if x.1.any isRemote then
          let ops := en.map fun L => (vals L).toNat
          let k : ReqKind := { work := 8, ty := 5, rel := order && decide (f.scope = .sys), die := recHomeDie x.2.words,
                               amo := amoFlit f.op f.ty, fp := amoFp f.op f.ty, handle := h }
          let pieces := ((fours x.1).zip ops).map fun y => (y.1.headD 0, leOf y.2 4)
          startLoad (pieces.foldl (sendPiece s.cur e.n k fun _ => false) s) e (killsOf (.vamo f))
            { n := e.n, iss := e, dst := f.data, val := 0, mask := maskBits (imageIdx 4 en), poison := false, handle := h,
              gen := recGen x.2.words,
              far := some { das := pieces.map (·.1), offs := en.map fun L => org + amoOff fr e f.addr L, idx := en, own := [], ord := f.ord, scope := f.scope, amo := some (f.op, f.ty, ops) } }
        else
          let bad := poisoned s x.1
          let r := globAtomics s e.tag.ser f.op f.ty (en.zip ((fours x.1).zip (en.map fun L => (vals L).toNat)))
          let s := if acquires f.ord f.scope then vAcquire r.1 else r.1
          let row := rowOf fun L => BitVec.ofNat 32 (tgetD r.2 L 0)
          startLoad s e (killsOf (.vamo f))
            { n := e.n, iss := e, dst := f.data, val := row, mask := maskBits (imageIdx 4 en), poison := bad, handle := h,
              gen := recGen x.2.words }

/-- R292: KIND of the set decides the form. -/
def execVamo (f : VAm) (s : State) : Out :=
  .next <| runSlot s .vector (.vamo f) fun e s =>
    let en := lanesOf (guardMask (curFrame s) e f.g)
    (readSrcs s e [(f.data, f.ty, en), (f.addr, .n32, en)]).andThen fun vs s =>
      if en.isEmpty then commitRows s .vector e (killsOf (.vamo f)) []
      else if setKind (curFrame s).vec f.pset.toNat = 5 then vamoGlob f e en (nthSrc vs 0) s
      else vamoSram f e en (nthSrc vs 0) s

/-! ### Emptying and release (R274, R291) -/

/-- R291. -/
def execVfec (f : VFe) (s : State) : Out :=
  .next <| runSlot s .vector (.vfec f) fun e s =>
    let en := lanesOf (guardMask (curFrame s) e f.g)
    (readAddr s e f.addr en).andThen fun _ s =>
      let fr := curFrame s
      let low := en.filter fun L => decide (L < 16)
      if en.isEmpty then commitRows s .vector e (killsOf (.vfec f)) []
      else match sramBase fr f.pset.toNat with
        | none => spadRange 0 s
        | some (swz, base) =>
          let a := floorTo 16 (base + 16 * addrX fr e f.addr)
          match spadList fr false (low.map fun (L : Nat) => a + 16 * (L : Int)) with
          | .inr x => spadRange x s
          | .inl as =>
            let gs := as.map fun a => granOf (sramKey fr.sram.split swz a)
            (commitRows s .vector e (killsOf (.vfec f)) []).andThen fun _ s =>
              .ok () (onCur s fun fr => { fr with sram := sramEmpty fr.sram gs })

/-- Scratchpad banks that a guard names. -/
def namedBanks (f : Frame) (e : SlotIssue) (g : Guard) : List Nat :=
  (lanesOf (guardMask f e g)).filter fun b => decide (b < 4 * f.sram.split)

/-- R274: named live banks go to RETAIN and keep their data. -/
def execVbrelRet (f : VBr) (s : State) : Out :=
  .next <| runSlot s .vector (.vbrelRet f) fun e s =>
    let ret (m : Sram) (b : Nat) : Sram :=
      if fbit m.live b then { m with retain := m.retain ||| BitVec.ofNat 64 (2 ^ b) } else m
    .ok () (onCur s fun fr => { fr with sram := (namedBanks fr e f.g).foldl ret fr.sram })

/-- R274, R275: named banks are released. -/
def execVbrelOff (f : VBr) (s : State) : Out :=
  .next <| runSlot s .vector (.vbrelOff f) fun e s =>
    .ok () (onCur s fun fr => { fr with sram := (namedBanks fr e f.g).foldl bankOff fr.sram })

end Sys2Proof.Machine
end

