-- ==== Sys2Proof/Machine/Bead.lean ====
section
/-! DEFINITION. The bead arrays: formats, beam, conversion, error classes, accumulation with bounds,
checksums, and the bead slot's operations but for the reloads' completion (R46, R211 to R235, R239 to
R255). -/

namespace Sys2Proof.Machine

/-! ### Elements (R212, R217, R245) -/

/-- Element width. -/
def beadW : BeadFmt → Nat
  | .i8 | .mx8 => 8 | .mx6 => 6 | .mx4 => 4

/-- f of a format; an I8 operand has f = 0 (R40, R231). -/
def beadF : BeadFmt → Nat
  | .i8 => 0 | .mx8 => 6 | .mx6 => 4 | .mx4 => 2

/-- Weight element of row r, rod n, set t in a format. -/
def weightElem (b : Bank) (fmt : BeadFmt) (t r n : Nat) : Int :=
  let v := (tgetD b.w (64 * r + n) 0).toNat
  match fmt with
  | .i8 | .mx8 => sgn 8 v
  | .mx6 => sgn 6 v
  | .mx4 => sgn 4 (v / 16 ^ t)

/-- Activation element of row r. -/
def actElem (fmt : BeadFmt) (v : Row) (r : Nat) : Int :=
  let nib := fld v (8 * (r / 2) + 4 * (r % 2)) 4
  match fmt with
  | .i8 | .mx8 => sgn 8 (fld v (8 * r) 8)
  | .mx6 => sgn 6 (nib + 16 * fld v (8 * (128 + r / 4) + 2 * (r % 4)) 2)
  | .mx4 => sgn 4 nib

/-- Scale byte of a rod's weights. -/
def weightScale (b : Bank) (t j n : Nat) : Nat := (tgetD b.scales (256 * t + 64 * j + n) 0x7F).toNat

/-- Sets of a weight format. -/
def beadSets (fmt : BeadFmt) : Nat := if fmt = .mx4 then 2 else 1

/-! ### One segment of one rod (R218 to R222) -/

/-- A segment's error: bound as an exact value. -/
inductive SegErr
  | digital
  | bound (s : Nat)
  | clipped
  deriving DecidableEq, Repr

/-- A converted segment. -/
structure Seg where
  S   : Int
  err : SegErr
  deriving DecidableEq, Repr

/-- Conditions under which a step runs. -/
structure StepMode where
  /-- effective beam K′ (R218) -/
  kp    : Nat
  s     : Nat
  afmt  : BeadFmt
  wfmt  : BeadFmt
  deriving DecidableEq, Repr

/-- Effective beam. -/
def effBeam (full : Bool) (K : Nat) (wfmt : BeadFmt) : Nat := if full then beadW wfmt else min K (beadW wfmt)

/-- Earth bits u. -/
def earthBits (m : StepMode) : Nat := beadW m.wfmt - m.kp

/-- Sum over a segment's rows of a[r] · g(w[r][n]). -/
def segSum (b : Bank) (fmt : BeadFmt) (t j n : Nat) (a : Nat → Int) (g : Int → Int) : Int :=
  (upto 64).foldl (fun acc i => acc + a (64 * j + i) * g (weightElem b fmt t (64 * j + i) n)) 0

/-- Heaven and earth parts of an element. -/
def heaven (u : Nat) (w : Int) : Int := Int.fdiv w (2 ^ u : Nat)
def earth (u : Nat) (w : Int) : Int := w - heaven u w * (2 ^ u : Nat)

/-- s is at least s_safe (R222). -/
def sSafe (m : StepMode) : Bool :=
  decide (64 * 2 ^ (beadW m.afmt - 1) * (2 ^ earthBits m - 1) ≤ 48 * 2 ^ m.s)

/-- A code the converter may deliver for the earth sum E: any within the class's bound of E and the converter's own
offset, chosen by a free value (R48, R220, R221). -/
def converterCode (m : StepMode) (stale : Bool) (own E : Int) (free : Nat) : Int :=
  let q : Int := (2 ^ m.s : Nat)
  let w : Int := if stale then 2 * q else q
  let lo := -Int.fdiv (w - E) q
  let hi := Int.fdiv (E + w) q
  lo + own + (free % ((hi - lo).toNat + 1) : Nat)

/-- Convert and reconstruct one segment (R220, R221). The converter delivers its code with its own offset, as the last
calibration measured it; the reconstruction takes off the installed one, which BCALW may have made another (R252). With fresh
offsets and s at least s_safe nothing clips (R222), not even a code that an own offset above 15 takes past −64 to 63, which
R220 would clip: the code is used as it is, DESIGN CHOICE (assumption 13). -/
def segment (m : StepMode) (a : BArr) (stale : Bool) (bank : Bank) (act : Nat → Int) (t j n free : Nat) : Seg :=
  let u := earthBits m
  let h := segSum bank m.wfmt t j n act fun w => heaven u w * (2 ^ u : Nat)
  if u = 0 then { S := h, err := .digital }
  else
    let E := segSum bank m.wfmt t j n act (earth u)
    let cal := tgetD a.cal (64 * j + n) 0
    let c := converterCode m stale (tgetD a.meas (64 * j + n) 0) E free
    let clips := (decide (c < -64) || decide (63 < c)) && !(sSafe m && !stale)
    if clips then { S := h + ((if c < 0 then -64 else 63) - cal) * (2 ^ m.s : Nat), err := .clipped }
    else { S := h + (c - cal) * (2 ^ m.s : Nat), err := .bound (if stale then m.s + 1 else m.s) }

/-! ### Accumulation (R46) -/

/-- A running bound tb, as FP32 bits. -/
abbrev TBound := Nat

/-- up_add: FP32 plus an exact value, rounded toward +∞. -/
def upAdd (a : Nat) (x : FVal) : Nat := (fadd fmtF32 .rup (fdec fmtF32 a) x).1

/-- Half an ulp of a finite FP32 value. -/
def halfUlp (y : Nat) : FVal :=
  match fdec fmtF32 y with
  | .fin _ m e => .fin false 1 (if m = 0 then -150 else max (Nat.log2 m + e) (-126) - 24)
  | v => v

/-- A rounded value with its conditions enters the running bound: round_tracked of R46. -/
def tracked (tb : TBound) (r : Nat × Cond) : Nat × TBound :=
  match fdec fmtF32 r.1 with
  | .fin .. => (r.1, if r.2 &&& condNX ≠ 0 then upAdd tb (halfUlp r.1) else tb)
  | _ => (r.1, fmtF32.inf)

/-- A segment with its scale exponent; `none` where a scale is NaN. -/
structure SegIn where
  seg : Seg
  e   : Option Int
  deriving DecidableEq, Repr

/-- The segment's value S·2^e. -/
def segValue (x : SegIn) : Nat × Cond :=
  match x.e with
  | none => (fmtF32.nan, 0)
  | some e => fround fmtF32 .rne (decide (x.seg.S < 0)) x.seg.S.natAbs e

/-- segerr·2^e. -/
def segBound (x : SegIn) : FVal :=
  match x.seg.err, x.e with
  | .digital, _ => .fin false 0 0
  | .clipped, _ => .inf false
  | .bound s, some e => .fin false 1 (s + e)
  | .bound _, none => .inf false

/-- FP32 addition to nearest. -/
def addRne (a b : Nat) : Nat × Cond := fadd fmtF32 .rne (fdec fmtF32 a) (fdec fmtF32 b)

/-- The segments of one array, in order: value and running bound. -/
def accSegs (tb : TBound) (a : Option Nat) : List SegIn → Nat × TBound
  | [] => (a.getD 0, tb)
  | x :: r =>
    let v := tracked tb (segValue x)
    let tb := upAdd v.2 (segBound x)
    match a with
    | none => accSegs tb (some v.1) r
    | some p => accSegs (tracked tb (addRne p v.1)).2 (some (tracked tb (addRne p v.1)).1) r

/-- The arrays of a logical N-group, in ascending K-group. -/
def accArrays (tb : TBound) (total : Option Nat) : List (List SegIn) → Nat × TBound
  | [] => (total.getD 0, tb)
  | xs :: r =>
    let v := accSegs tb none xs
    match total with
    | none => accArrays v.2 (some v.1) r
    | some p => accArrays (tracked v.2 (addRne p v.1)).2 (some (tracked v.2 (addRne p v.1)).1) r

/-- R46: the new destination and bound elements. -/
def accumulate (d b : Nat) (arrays : List (List SegIn)) : Nat × Nat :=
  let t := accArrays 0 none arrays
  let r := tracked t.2 (addRne d t.1)
  let nb := upAdd b (fdec fmtF32 r.2)
  (r.1, match fdec fmtF32 r.1 with | .fin .. => nb | _ => fmtF32.inf)

/-! ### Checksums (R232 to R234) -/

/-- Row sum over rods, both sets at MX4. -/
def rowSum (b : Bank) (fmt : BeadFmt) (r : Nat) : Int :=
  (upto (beadSets fmt)).foldl (fun acc t => (upto 64).foldl (fun acc n => acc + weightElem b fmt t r n) acc) 0

/-- C / 2^σ rounded to nearest even. -/
def rneShift (c : Int) (sg : Nat) : Int :=
  let m : Int := roundShift .rne (decide (c < 0)) c.natAbs sg
  if c < 0 then -m else m

/-- The smallest σ that fits a segment. -/
def sigmaOf (sums : List Int) : Nat :=
  ((upto 8).find? fun sg => sums.all fun c => decide (-128 ≤ rneShift c sg) && decide (rneShift c sg ≤ 127)).getD 7

/-- Compute a bank's checksum from the element integers of the reload's format. -/
def bankChecksum (b : Bank) : Bank :=
  let sums (j : Nat) := (upto 64).map fun i => rowSum b b.fmt (64 * j + i)
  let sg (j : Nat) := sigmaOf (sums j)
  { b with sigma := (upto 4).foldl (fun t j => tput 0 t j (sg j)) [],
           chk := (upto 4).foldl (fun t j =>
             ((upto 64).zip (sums j)).foldl (fun t x => tput 0 t (64 * j + x.1) (rneShift x.2 (sg j))) t) [] }

/-- A segment's checksum test: |lhs − chk| > tol (R233); a poisoned segment never matches (R381). -/
def checksumFails (b : Bank) (act : Nat → Int) (j : Nat) (segs : List Seg) : Bool :=
  let sg := tgetD b.sigma j 0
  let rows := (upto 64).map fun i => 64 * j + i
  let lhs := segs.foldl (fun acc x => acc + x.S) 0
  let chk := rows.foldl (fun acc r => acc + act r * tgetD b.chk r 0 * (2 ^ sg : Nat)) 0
  let slack : Int := (2 ^ sg / 2 : Nat) * rows.foldl (fun acc r => acc + ((act r).natAbs : Int)) 0
  let tol := segs.foldl (fun acc x =>
    match acc, x.err with
    | none, _ => none
    | _, .clipped => none
    | some v, .bound s => some (v + (2 ^ s : Nat))
    | some v, .digital => some v) (some slack)
  b.unmatch.contains j || (match tol with | some v => decide (v < (lhs - chk).natAbs) | none => false)

/-! ### BSTEP (R244) -/

/-- Pop KG activation vectors; those popped before a wait are kept (R245). -/
def popActs (s : State) (e : SlotIssue) (port : Nat) (mx : Bool) (kg : Nat) : Acc (List FifoVec) :=
  (popPorts s .bead e mx (List.replicate kg port) []).andThen fun got s => .ok (got.map Popped.vec) s

/-- A register cell as the bead engine sees it, its own unwritten sums forwarded (R217). -/
def fwdCell (f : Frame) (e : SlotIssue) (row ln : Nat) : Cell32 :=
  let mine := (f.bead.bwb.flatMap BWrite.cells).filter fun c => decide (c.1 = row) && decide (c.2.1 = ln)
  match mine.getLast? with
  | some c => c.2.2
  | none =>
    let dead := (rowSeen f e row).isNone
    if dead then 0 else lane ((rowSeen f e row).getD 0) ln

/-- Rows that a sum waiting for its write-back makes live. -/
def fwdRows (f : Frame) : List Nat := f.bead.bwb.flatMap fun b => b.cells.map (·.1)

/-- The first row, in the order of R244's loop, that a BSTEP reading lane `c` faults on: a row no sum waiting for its
write-back makes live, when dead; and one with an uncorrectable error, unless the cell read is forwarded (R217, R259, R260).
That a step which reads rows of both kinds reports the class of the first of them: DESIGN CHOICE (assumption 50). -/
def stepFault (f : Frame) (e : SlotIssue) (c : Nat) (rows : List Nat) : Option L2Class :=
  rows.findSome? fun r =>
    if (rowSeen f e r).isNone && !(fwdRows f).contains r then some .deadRead
    else if rowBad f e r && !(f.bead.bwb.any fun b => b.cells.any fun x => decide (x.1 = r) && decide (x.2.1 = c)) then
      some .regEcc
    else none

/-- One array's part in a step: array, its segments by (set, segment, rod). -/
structure ArrStep where
  b    : Nat
  bank : Bank
  act  : Nat → Int
  ea   : Nat → Nat
  seg  : Nat → Nat → Nat → Seg

/-- The step of array b on one activation vector; free values are taken from `base` on. -/
def arrStep (s : State) (f : Frame) (m : StepMode) (b : Nat) (v : FifoVec) (base : Nat) : ArrStep :=
  let a := arrOf f b
  let bank := bankOf a a.act
  let stale := staleNow s a
  { b := b, bank := bank, act := actElem m.afmt v.row,
    ea := fun j => if m.afmt = .i8 then 127 else fld v.scales (8 * j) 8,
    seg := fun t j n =>
      segment m a stale bank (actElem m.afmt v.row) t j n (Config.freeValue (base + ((2 * b + t) * 4 + j) * 64 + n)) }

/-- Scale exponent of a segment (R231). -/
def segExp (m : StepMode) (x : ArrStep) (t j n : Nat) : Option Int :=
  let ew := if m.wfmt = .i8 then 127 else weightScale x.bank t j n
  let ea := x.ea j
  if ea = 255 ∨ ew = 255 then none
  else some (((ea : Int) - 127 - beadF m.afmt) + ((ew : Int) - 127 - beadF m.wfmt))

/-- Segments of rod n in logical N-group l, per array in ascending K-group. -/
def rodSegs (m : StepMode) (kg : Nat) (steps : List ArrStep) (l n : Nat) : List (List SegIn) :=
  let sets := beadSets m.wfmt
  let g := l / sets
  let t := l % sets
  (steps.filter fun x => decide (x.b / kg = g)).map fun x =>
    (upto 4).map fun j => { seg := x.seg t j n, e := segExp m x t j n }

/-- Rods of an array that clipped. -/
def clipBits (m : StepMode) (x : ArrStep) : Word :=
  lanes64.foldl (fun w n =>
    if (upto (beadSets m.wfmt)).any fun t => (upto 4).any fun j => decide ((x.seg t j n).err = .clipped)
    then w ||| BitVec.ofNat 64 (2 ^ n) else w) 0

/-- Flags that a step sets on an array (R235). -/
def stepFlags (s : State) (m : StepMode) (f : Frame) (x : ArrStep) : Frame :=
  let a := arrOf f x.b
  let a := { a with clip := a.clip ||| clipBits m x,
                    staleF := a.staleF || (staleNow s a && decide (earthBits m ≠ 0)) }
  setArr f x.b a

/-- Segments that fail the checksum, lowest array and segment first (R234). -/
def stepMismatch (m : StepMode) (steps : List ArrStep) : Option (Nat × Nat) :=
  (steps.flatMap fun x => (upto 4).filterMap fun j =>
    let segs := (upto (beadSets m.wfmt)).flatMap fun t => lanes64.map fun n => x.seg t j n
    if checksumFails x.bank x.act j segs then some (x.b, j) else none).head?

/-- Record a mismatch in BEAD_STAT (R234). -/
def noteMismatch (f : Frame) (p : Nat × Nat) : Frame :=
  { f with bead := { f.bead with chkArray := p.1, chkSeg := p.2, chkValid := true,
                                 chkCnt := min 65535 (f.bead.chkCnt + 1) } }

/-- R46, R217 to R222, R233, R243, R244: the step forms its rows and leaves them to be written back. -/
def execBstep (f : BStep) (s : State) : Out :=
  .next <| runSlot s .bead (.bstep f) fun e s =>
    let fr := curFrame s
    let kg := fr.bead.kg
    let nl := nlOf fr.bead.ng e.wfmt
    let c := f.d.idx.toNat % 64
    let noB := f.bnd.isZero
    if fr.bead.bldp.any fun b => decide (b.port = f.a.port) then .hold .bldpBusy
    else
    (popActs s e f.a.port (decide (e.afmt ≠ .i8)) kg).andThen fun acts s =>
      let fr := curFrame s
      let rd := if f.ovw then [] else if noB then stepRows f.d.idx.toNat nl
        else ((stepRows f.d.idx.toNat nl).zip (stepRows f.bnd.idx.toNat nl)).flatMap fun x => [x.1, x.2]
      let s := onCur s fun fr => { fr with vec := wakeReads fr.vec rd }
      match stepFault fr e c rd with
      | some cls => .fault cls none s
      | none =>
        let m : StepMode :=
          { kp := effBeam (fr.bead.digital || fr.ph.forced) (2 * f.beam.toNat) e.wfmt, s := f.sexp.toNat,
            afmt := e.afmt, wfmt := e.wfmt }
        let steps := (upto (kg * fr.bead.ng)).map fun b =>
          arrStep s fr m b (acts.getD (b % kg) { row := 0, scales := 0, bad := false }) s.freeCtr
        let s := captureFlags { s with freeCtr := s.freeCtr + 32768 } e.n
        match stepMismatch m steps with
        | some p => .fault .checksum none (onCur s fun fr => noteMismatch fr p)
        | none =>
          let dr (l n : Nat) := 64 * ((f.d.idx.toNat / 64 + l) % 16) + n
          let br (l n : Nat) := 64 * ((f.bnd.idx.toNat / 64 + l) % 16) + n
          let rods := (upto nl).flatMap fun l => lanes64.map fun n => (l, n)
          let res := rods.map fun x =>
            let d := if f.ovw then 0 else (fwdCell fr e (dr x.1 x.2) c).toNat
            let b := if f.ovw || noB then 0 else (fwdCell fr e (br x.1 x.2) c).toNat
            (x, accumulate d b (rodSegs m kg steps x.1 x.2))
          let cells := (res.map fun y => (dr y.1.1 y.1.2, c, BitVec.ofNat 32 y.2.1)) ++
            (if noB then [] else res.map fun y => (br y.1.1 y.1.2, c, BitVec.ofNat 32 y.2.2))
          match undoNotes (curFrame s) (issueFault e 0 .undoOverflow) (sortUniq (cells.map (·.1))) with
          | none => .fault .undoOverflow none s
          | some fr =>
            let fr := steps.foldl (stepFlags s m) fr
            .ok () (setCur s { fr with bead := { fr.bead with bwb := fr.bead.bwb ++ [{ n := e.n, cells := cells }] } })

/-- R244, R246: the oldest step's rows are written, results and then bounds. -/
def execBstepWriteback (s : State) : Out :=
  let f := curFrame s
  .next <| match f.bead.bwb with
    | [] => s
    | b :: r =>
      match writeRows { f with bead := { f.bead with bwb := r } } .bead { noFault with n := b.n } [] [] b.cells with
      | some f => setCur s f
      | none => s

/-! ### Grid and mode (R239, R240) -/

def execBgrid (kgm1 ngm1 : BitVec 6) (s : State) : Out :=
  .next <| runSlot s .bead (.bgrid kgm1 ngm1) fun _ s =>
    .ok () (onCur s fun f => { f with bead := { f.bead with kg := kgm1.toNat + 1, ng := ngm1.toNat + 1 } })

def execBmodeDigital (s : State) : Out :=
  .next <| runSlot s .bead .bmodeDigital fun _ s =>
    .ok () (onCur s fun f => { f with bead := { f.bead with digital := true } })

def execBmodeAnalog (s : State) : Out :=
  .next <| runSlot s .bead .bmodeAnalog fun _ s =>
    .ok () (onCur s fun f => { f with bead := { f.bead with digital := false } })

/-! ### Reload from ports (R247, R248) -/

/-- Mark an array's shadow FILLING for a reload (R214). Its bytes, and what is known of its checksum, stay until the
reload's first byte. -/
def startReload (swm : Bool) (src : BankSrc) (fmt : BeadFmt) (f : Frame) (b : Nat) : Frame :=
  let a := arrOf f b
  setArr f b (setBank a (!a.act) { bankOf a (!a.act) with
    filling := true, got := false, summed := false, swm := swm, src := src, fmt := fmt })

/-- The first byte of reload `n` arrives: a reload of the open phase overwrites the bank (R216). -/
def beginBank (f : Frame) (n : Nat) (bank : Bank) : Bank :=
  { bank with touched := bank.touched || decide (f.ph.snap.issueNo ≤ n), unmatch := [] }

/-- R247, R248: the reload enters BS and streams in the background. -/
def execBldp (f : BLdp) (s : State) : Out :=
  .next <| runSlot s .bead (.bldp f) fun e s =>
    let fr := curFrame s
    let arrays := rangeOf f.r
    if fr.bead.bldp.isSome then .hold .bldpBusy
    else if arrays.any (reloading fr) then .hold (.reloading arrays)
    else if 255 ≤ cntBS fr then .hold (.counter 3)
    else
      let fr := arrays.foldl (startReload f.swm .ports f.lfmt) fr
      .ok () (setCur s { fr with bead := { fr.bead with
        bldp := some { n := e.n, iss := e, todo := arrays, vec := 0, port := f.a.port, swm := f.swm,
                       lfmt := f.lfmt } } })

/-- Vectors of one array by format. -/
def bldpVecs : BeadFmt → Nat
  | .i8 => 64 | .mx8 | .mx6 => 65 | .mx4 => 66

/-- Cell byte as a format loads it; at MX6 plane 3 holds nothing the manual names, so it is free. -/
def cellByte (fmt : BeadFmt) (b : Byte) (free : Nat) : Byte :=
  if fmt = .mx6 then BitVec.ofNat 8 (b.toNat % 64 + 64 * (free % 4)) else b

/-- Put port vector v of an array into its bank. A first vector resets the scales to 0x7F (R247). -/
def bankVector (bank : Bank) (fmt : BeadFmt) (v : Nat) (row : Row) (base : Nat) : Bank :=
  if v < 64 then
    { bank with
      scales := if v = 0 then [] else bank.scales,
      w := (upto 256).foldl (fun w i =>
        tput 0 w (64 * (4 * v + i / 64) + i % 64) (cellByte fmt (rowByte row i) (Config.freeValue (base + i)))) bank.w }
  else
    { bank with scales := (upto 256).foldl (fun t i => tput 0x7F t (256 * (v - 64) + i) (rowByte row i)) bank.scales }

/-- R247: one port vector of the streaming BLDP is popped into its array; with the last array's last vector
it leaves BS. -/
def execBldpStreamVector (s : State) : Out :=
  let f := curFrame s
  .next <| match f.bead.bldp with
    | none => s
    | some b =>
      match b.todo with
      | [] => s
      | arr :: rest =>
        if !issueRuns f b.iss then s
        else match popPort s b.port false with
          | .hold _ | .wait _ _ => s
          | .fault c m s =>
            onCur s fun f => addFault f (issueFault b.iss 0 c m (faultFinal f b.iss c m))
          | .ok v s =>
            let f := curFrame s
            let a := arrOf f arr
            let last := decide (b.vec + 1 = bldpVecs b.lfmt)
            let old := if b.vec = 0 then beginBank f b.n (bankOf a (!a.act)) else bankOf a (!a.act)
            let bank := bankVector old b.lfmt b.vec v.row s.freeCtr
            let f := setArr f arr (setBank a (!a.act) { bank with got := last })
            let b := if !last then some { b with vec := b.vec + 1 }
              else if rest.isEmpty then none else some { b with todo := rest, vec := 0 }
            setCur { s with freeCtr := s.freeCtr + 256 } { f with bead := { f.bead with bldp := b } }

/-! ### Swaps (R250) -/

/-- R214, R250: waits until every named shadow is VALID, then exchanges. -/
def execBswap (r : ARange) (s : State) : Out :=
  .next <| runSlot s .bead (.bswap r) fun _ s =>
    let fr := curFrame s
    if (rangeOf r).any (shadowFilling fr) then .hold (.filling (rangeOf r))
    else .ok () (setCur s ((rangeOf r).foldl (fun fr b => setArr fr b (swapArr (arrOf fr b))) fr))

/-! ### Calibration (R223, R251, R252) -/

/-- Saturate an offset to −32…31. -/
def calSat (v : Int) : Int := if v < -32 then -32 else if 31 < v then 31 else v

/-- Measure an array's converters: each mean code is free (R223). -/
def calibrate (s : State) (f : Frame) (b base : Nat) : Frame :=
  let mean (i : Nat) : Int := (Config.freeValue (base + 256 * b + i) % 128 : Nat) - 64
  setArr f b { arrOf f b with
    cal := (upto 256).foldl (fun t i => tput 0 t i (calSat (mean i))) [],
    meas := (upto 256).foldl (fun t i => tput 0 t i (calSat (mean i))) [], calTemp := f.bead.temp, calTime := s.time, calStale := false,
    calOut := (upto 256).any fun i => decide (calSat (mean i) ≠ mean i) }

/-- R251. -/
def execBcal (r : ARange) (s : State) : Out :=
  .next <| runSlot s .bead (.bcal r) fun e s =>
    let s := captureFlags s e.n
    let base := s.freeCtr
    let s := { s with freeCtr := base + 16384 }
    .ok () (onCur s fun f => (rangeOf r).foldl (fun f b => calibrate s f b base) f)

/-- R252: row d := offsets of array b. -/
def execBcalr (d : Opd) (array : BitVec 6) (step : BitVec 3) (s : State) : Out :=
  .next <| runSlot s .bead (.bcalr d array step) fun e s =>
    let a := arrOf (curFrame s) array.toNat
    let cell (n : Nat) : Cell32 :=
      (upto 4).foldl (fun c j => fput c (8 * j) 8 (wrapNat 8 (tgetD a.cal (64 * j + n) 0))) 0
    commitRows s .bead e [] (lanes64.map fun n => (d.idx.toNat, n, cell n))

/-- R252: offsets of array b := bytes of row a, read signed and saturated; calibration point := now. -/
def execBcalw (a : Opd) (array : BitVec 6) (step : BitVec 3) (s : State) : Out :=
  .next <| runSlot s .bead (.bcalw a array step) fun e s =>
    (checkSrcs s e [(a, lanes64)]).andThen fun _ s =>
      let f := curFrame s
      let old := arrOf f array.toNat
      let off (n j : Nat) : Int := calSat (sgn 8 (fld (opdVal f e a .n32 none n) (8 * j) 8))
      let cal := (upto 256).foldl (fun t i => tput 0 t i (off (i % 64) (i / 64))) []
      (commitRows (captureFlags s e.n) .bead e (opdKill a) []).andThen fun _ s =>
        .ok () (onCur s fun f => setArr f array.toNat
          { old with cal := cal, calTemp := f.bead.temp, calTime := s.time, calStale := false })

/-! ### Flags (R253) -/

/-- R253: P := the stale flags; CLR clears them. -/
def execBflagStale (p : BitVec 4) (clr : Bool) (s : State) : Out :=
  .next <| runSlot s .bead (.bflagStale p clr) fun e s =>
    let s := captureFlags s e.n
    let f := curFrame s
    let f := writePred f .bead e.n p.toNat (staleFlags f.bead)
    let clear (x : Nat × BArr) : Nat × BArr := (x.1, { x.2 with staleF := false })
    .ok () (setCur s (if clr then { f with bead := { f.bead with arrays := f.bead.arrays.map clear } } else f))

/-- R253: P := the clip flags of one array; CLR clears them. -/
def execBflagClip (p : BitVec 4) (array : BitVec 6) (clr : Bool) (s : State) : Out :=
  .next <| runSlot s .bead (.bflagClip p array clr) fun e s =>
    let s := captureFlags s e.n
    let f := curFrame s
    let a := arrOf f array.toNat
    let f := writePred f .bead e.n p.toNat a.clip
    .ok () (setCur s (if clr then setArr f array.toNat { a with clip := 0 } else f))

end Sys2Proof.Machine
end

