-- ==== Sys2Proof/Machine/CopyBox.lean ====
section
/-! DEFINITION. The copy engine's sets, current origins, boxes, runs and checks (R313 to R318). -/

namespace Sys2Proof.Machine

/-! ### Sets and current origins (R313, R314) -/

/-- Element i of the fourteen packed values of a set. -/
def packed14 (v : Vec) (k i : Nat) : Nat := fld (psetWord v k (1 + i / 2)) (32 * (i % 2)) 32

/-- The fields of a set of a copy kind obey R313. -/
def copySetValid (v : Vec) (k : Nat) : Bool :=
  let w (i : Nat) := psetWord v k i
  match setKind v k with
  | 8 => onlyBits (w 0) [(60, 4), (56, 4), (32, 24), (0, 20)] && decide (fld (w 0) 56 4 ≤ 13)
  | 9 => onlyBits (w 0) [(60, 4), (0, 32)]
  | 10 => onlyBits (w 0) [(60, 4), (0, 23)] && onlyBits (w 1) [(24, 24), (0, 24)] &&
          decide (fld (w 1) 24 4 = 0) && decide (fld (w 1) 0 4 = 0) && onlyBits (w 2) [(24, 24), (0, 23)] &&
          setTail v k 3
  | 5 => setValid v k
  | _ => false

/-- The set's current origin: fourteen coordinates of kind 8, BASE of kind 10 (R314). -/
def curOrigin (f : Frame) (k : Nat) : List Nat :=
  (tget f.cpe.origins k).getD
    (if setKind f.vec k = 8 then (upto 14).map (packed14 f.vec k)
     else if setKind f.vec k = 10 then [fld (psetWord f.vec k 0) 0 23] else [])

/-- Advance a kind-8 or kind-10 set (R314). -/
def advanceSet (f : Frame) (k : Nat) : Frame :=
  let w0 := psetWord f.vec k 0
  let o := curOrigin f k
  let set (o : List Nat) : Frame := { f with cpe := { f.cpe with origins := tset f.cpe.origins k o } }
  match setKind f.vec k with
  | 8 =>
    let d := fld w0 56 4
    set (lset o d (wrapNat 32 ((o.getD d 0 : Nat) + sgn 24 (fld w0 32 24))))
  | 10 =>
    let b := o.getD 0 0
    set [b / 2 ^ 22 * 2 ^ 22 + wrapNat 22 ((b % 2 ^ 22 : Nat) + sgn 24 (fld (psetWord f.vec k 1) 24 24))]
  | _ => f

/-- A set of the wrong kind, or invalid, and the class it raises (R318). -/
def setFault (f : Frame) (k kind : Nat) : Option L2Class :=
  if setKind f.vec k = kind ∧ copySetValid f.vec k then none
  else match kind with | 9 => some .outOfShape | 10 => some .spadRange | _ => some .badHandle

/-- The class that comes first in R61. -/
def firstClass (cs : List L2Class) : Option L2Class :=
  cs.foldl (fun acc c => match acc with
    | none => some c
    | some d => if c.code < d.code then some c else some d) none

/-! ### Boxes (R315) -/

/-- Vectors below the extents, the first dimension fastest. -/
def boxVecs : List Nat → List (List Nat)
  | [] => [[]]
  | x :: xs => (boxVecs xs).flatMap fun t => (upto x).map fun i => i :: t

/-- Extents of a kind-9 set. -/
def extents (f : Frame) (k : Nat) : List Nat := (upto 14).map (packed14 f.vec k)

def fillValue (f : Frame) (k : Nat) : Nat := fld (psetWord f.vec k 0) 0 32

/-- Extents counted in units: elements, or blocks of 64 along dimension 0 (R56, R315). -/
def unitExt (mx : Bool) : List Nat → List Nat
  | [] => []
  | x :: xs => (if mx then x / 64 else x) :: xs

/-- Coordinates of a unit at relative position u from an origin. -/
def unitCoord (mx : Bool) (org u : List Nat) : List Nat :=
  match org, u with
  | o :: os, x :: xs => (o + if mx then 64 * x else x) :: List.zipWith (· + ·) os xs
  | _, _ => []

/-- First byte offset of an element's storage. -/
def firstOff (ws ext : List Word) (c : List Nat) : Nat :=
  match elemAt ws ext c with | .scalar el => el | .mx p1 _ _ => p1

/-! ### Object sides and their checks (R57 to R61, R318) -/

/-- A fault with its handle, offset and generation. -/
structure SideErr where
  cls : L2Class
  h   : Nat
  off : Nat
  gen : Nat
  deriving DecidableEq, Repr

/-- One object side: its record, the coordinates of its units in move order, and a check of the
operation's own that fails. -/
structure Side where
  h     : Nat
  ent   : RcEnt
  migr  : Bool
  need  : Need
  cs    : List (List Nat)
  extra : Option (L2Class × Nat)

/-- Look up the handles of the object sides: BAD_HANDLE of any before BAD_RECORD of any (R318). A record whose
extension lies outside the windows raises PERMISSION here, its box being unknown, and one whose extension's home does not
serve HOME_OFFLINE; an extension in another package is waited for. The offset reported of all four is 0,
for the rule names no byte (assumption 32). -/
def lookSides (s : State) (hs : List Nat) : Acc (List (RcEnt × Bool)) :=
  let r := hs.foldl (fun (acc : List (Nat × RcLook) × State) h =>
    let x := rcLookup acc.2 s.cur h
    (acc.1 ++ [(h, x.1)], x.2)) ([], s)
  match r.1.find? fun x => decide (x.2 = .badHandle) with
  | some x => .fault .badHandle (some { handle := x.1, off := 0, gen := 0 }) r.2
  | none =>
    match r.1.find? fun x => match x.2 with | .badRecord _ => true | _ => false with
    | some (h, .badRecord g) => .fault .badRecord (some { handle := h, off := 0, gen := g }) r.2
    | _ =>
    match r.1.find? fun x => match x.2 with | .denied _ => true | _ => false with
    | some (h, .denied g) => .fault .permission (some { handle := h, off := 0, gen := g }) r.2
    | _ =>
    match r.1.findSome? fun x => match x.2 with | .far e lines => some (Hold.record x.1 (recHomeDie e.words) lines) | _ => none with
    | some w => .hold w
    | none =>
    match r.1.find? fun x => match x.2 with | .offline _ => true | _ => false with
    | some (h, .offline g) => .fault .homeOffline (some { handle := h, off := 0, gen := g }) r.2
    | _ => .ok (r.1.filterMap fun x => match x.2 with
        | .found e => some (e, false) | .migrating e => some (e, true) | _ => none) r.2

/-- Device addresses and offsets of a side's units, or its first failure. -/
inductive SideRes
  | ok (units : List (List (Nat × Nat)))
  | err (e : SideErr)
  | stall (h : Hold)

/-- Cut a list into pieces of the given lengths. -/
def cutBy {α : Type} : List Nat → List α → List (List α)
  | [], _ => []
  | n :: ns, l => l.take n :: cutBy ns (l.drop n)

/-- Check a whole side (R58). -/
def checkSide (s : State) (x : Side) : SideRes × State :=
  let ws := x.ent.words
  let ext := x.ent.ext
  let gen := recGen ws
  let bad := (x.cs.find? fun c => !inShape ws ext 0 c).map (firstOff ws ext)
  let units := x.cs.map (elemBytes ws ext)
  let mine (e : SideErr) : SideErr :=
    match x.extra with
    | some (c, o) => if c.code ≤ e.cls.code then { cls := c, h := x.h, off := o, gen := gen } else e
    | none => e
  match checkAccess s s.cur x.ent x.need units.flatten bad x.migr with
  | (.ok das _, s) =>
    match x.extra with
    | some (c, o) => (.err { cls := c, h := x.h, off := o, gen := gen }, s)
    | none => (.ok (cutBy (units.map List.length) (das.zip units.flatten)), s)
  | (.err c o _, s) => (.err (mine { cls := c, h := x.h, off := o, gen := gen }), s)
  | (.stall, s) =>
    match x.extra with
    | some (.permission, o) => (.err { cls := .permission, h := x.h, off := o, gen := gen }, s)
    | _ => (.stall (.migrating x.h), s)
  | (.far die lines, s) =>
    match x.extra with
    | some (.permission, o) => (.err { cls := .permission, h := x.h, off := o, gen := gen }, s)
    | _ => (.stall (.record x.h die lines), s)

/-- Check every side; `sram` is a frame-SRAM failure, which comes first. The first class of R61 is raised;
a MIGRATING record holds unless a class before its STATE fails (R60, R61, R71). -/
def checkSides (s : State) (sides : List Side) (sram : Option Int) : Acc (List (List (List (Nat × Nat)))) :=
  match sram with
  | some a => spadRange a s
  | none =>
    let r := sides.foldl (fun (acc : List (Nat × SideRes) × State) x =>
      let y := checkSide acc.2 x
      (acc.1 ++ [(x.h, y.1)], y.2)) ([], s)
    let errs := r.1.filterMap fun x => match x.2 with | .err e => some e | _ => none
    let best := errs.foldl (fun acc e => match acc with
      | none => some e
      | some d => if e.cls.code < d.cls.code then some e else some d) (none : Option SideErr)
    let stall := r.1.findSome? fun x => match x.2 with | .stall w => some w | _ => none
    match stall, best with
    | some w, some e =>
      if e.cls.code ≤ 4 then .fault e.cls (some { handle := e.h, off := e.off, gen := e.gen }) r.2
      else .hold w
    | some w, none => .hold w
    | none, some e => .fault e.cls (some { handle := e.h, off := e.off, gen := e.gen }) r.2
    | none, none => .ok (r.1.filterMap fun x => match x.2 with | .ok u => some u | _ => none) r.2

/-- MX alignment of a box: ORG0 and EXT0 multiples of 64 (R315). -/
def mxMisaligned (ws ext : List Word) (org exts : List Nat) : Option (L2Class × Nat) :=
  if fmtMx (recFmt ws) ∧ (org.headD 0 % 64 ≠ 0 ∨ exts.headD 0 % 64 ≠ 0) then
    some (.outOfShape, firstOff ws ext (org.take (recRank ws)))
  else none

/-- A box with an extent of 0 below the rank. -/
def emptyBox (exts : List Nat) (rank : Nat) : Bool := (exts.take rank).any fun x => decide (x = 0)

/-- The side of a box on an object, with origin and extents cut to its rank. -/
def boxSide (h : Nat) (e : RcEnt × Bool) (need : Need) (org exts : List Nat) (us : List (List Nat))
    (extra : Option (L2Class × Nat)) : Side :=
  let ws := e.1.words
  let mx := fmtMx (recFmt ws)
  { h := h, ent := e.1, migr := e.2, need := need,
    cs := us.map fun u => unitCoord mx (org.take (recRank ws)) (u.take (recRank ws)),
    extra := extra.orElse fun _ => mxMisaligned ws e.1.ext org exts }

/-! ### Runs in frame SRAM (R316) -/

/-- The frame-SRAM side is laid out wrong, or a byte of it does not map: the failing address. Otherwise the
bytes of each unit in move order, view in bit 22. -/
def runUnits (f : Frame) (k : Nat) (fmt : Nat) (cw : Bool) (exts : List Nat) (rank : Nat) :
    List (List Nat) ⊕ Int :=
  let w1 := psetWord f.vec k 1
  let w2 := psetWord f.vec k 2
  let b := (curOrigin f k).getD 0 0
  let base : Int := (b % 2 ^ 22 : Nat)
  let swz := decide (b / 2 ^ 22 % 2 = 1)
  let mx := fmtMx fmt
  let ext0 := exts.getD 0 0
  let nb := ext0 / 64
  let sz1 := fmtSz1 fmt
  let sz2 := fmtSz2 fmt
  let rb := if mx then nb * (sz1 + sz2) else ext0 * fmtEsz fmt
  let pitch := fld w1 0 24
  let P := if pitch = 0 then rb else pitch
  if pitch ≠ 0 ∧ pitch < rb then .inr 0
  else
    let nr := ((exts.take rank).drop 1).foldl (· * ·) 1
    let per := if mx then nb else ext0
    let unit (r u : Nat) : List (Bool × Int) :=
      let at0 : Int := base + (r * P : Nat)
      if mx then
        ((upto sz1).map fun i => (swz, at0 + (u * sz1 + i : Nat))) ++
        ((upto sz2).map fun i => (swz, at0 + (nb * sz1 + u * sz2 + i : Nat))) ++
        [(viewOf w2, (baseOf w2 : Int) + (r : Int) * sgn 24 (fld w2 24 24) + u)]
      else (upto (fmtEsz fmt)).map fun i => (swz, at0 + (fmtEsz fmt * u + i : Nat))
    let units := (upto nr).flatMap fun r => (upto per).map (unit r)
    let rs := regions f.vec f.sram.split
    match units.flatten.find? fun x => (spadMap f rs cw x.2).isNone with
    | some x => .inr x.2
    | none => .inl (units.map fun us => us.filterMap fun x =>
        (spadMap f rs cw x.2).map fun n => n + if x.1 then 2 ^ 22 else 0)

end Sys2Proof.Machine
end

