-- ==== Sys2Proof/Machine/Copy.lean ====
section
/-! DEFINITION. The copy slot: CBOX, CFILL, CPREF, CDISC, CADD, CRLD, CCTR, the completion of held
operations, the application of add-reduces and the completion of bank reloads (R214, R314 to R332). -/

namespace Sys2Proof.Machine

/-! ### Issue (R314, R318, R329) -/

/-- Sets a copy word advances: each kind-8 or kind-10 set it names, once (R314). -/
def copySets : Instr → List Nat
  | .cboxOs f | .cboxSo f | .cboxOo f | .caddSo f | .caddOo f => sortUniq [f.sa.toNat, f.se.toNat, f.sb.toNat]
  | .cfillO f | .cdisc f => sortUniq [f.sa.toNat, f.se.toNat]
  | .cfillS sb se => sortUniq [sb.toNat, se.toNat]
  | .cpref sa se => sortUniq [sa.toNat, se.toNat]
  | .crld f => [f.sa.toNat]
  | _ => []

/-- Set checks: (set, kind) pairs; the class that comes first in R61 is raised at offset 0 (R318). No record has been read, so
the report holds handle 0 and generation 0: DESIGN CHOICE (assumption 12). -/
def checkSets (s : State) (ks : List (BitVec 5 × Nat)) : Acc Unit :=
  match firstClass (ks.filterMap fun k => setFault (curFrame s) k.1.toNat k.2) with
  | some c => .fault c (some { handle := 0, off := 0, gen := 0 }) s
  | none => .ok () s

/-- Regions whose back half these destinations reach become pending (R327). -/
def pendOf (f : Frame) (dst : List CLoc) : BitVec 32 :=
  (regions f.vec f.sram.split).foldl (fun w r =>
    if dst.any fun l => match l with
      | .sram fa => decide (r.2.1 ≤ fa % 2 ^ 22) && decide (fa % 2 ^ 22 < r.2.1 + 2 * r.2.2)
      | .glob .. => false
    then w ||| BitVec.ofNat 32 (2 ^ r.1) else w) f.cpe.pend

/-- The engine takes an operation. -/
def takeOp (s : State) (o : COp) : Acc Unit :=
  .ok () (onCur s fun f => { f with cpe := { f.cpe with ops := f.cpe.ops ++ [o], pend := pendOf f o.dst } })

/-- An operation that moves nothing. -/
def opOf (e : SlotIssue) (kind : CKind) (ord : Ordering4) (scope : Scope) : COp :=
  { n := e.n, kind := kind, src := [], dst := [], vals := [], badv := [], got := false, ord := ord,
    scope := scope, handleA := 0, handleB := 0, genA := 0, genB := 0, issue := e }

/-- Issue a copy word: room in the engine, advance, the operation's own checks. -/
def runCopy (i : Instr) (body : SlotIssue → State → Acc COp) (s : State) : State :=
  runSlot s .copy i fun e s =>
    let f := curFrame s
    if 32 ≤ f.cpe.ops.length then .hold .copyFull
    else
      let s := if e.adv then setCur s ((copySets i).foldl advanceSet f) else s
      (body e s).andThen fun o s => takeOp s o

/-- Locations of an object's bytes. -/
def globLocs (units : List (List (Nat × Nat))) : List CLoc := units.flatten.map fun x => .glob x.1 x.2

def sramLocs (units : List (List Nat)) : List CLoc := units.flatten.map .sram

/-- Bytes of one unit of an operation's box. -/
def unitLen {α : Type} (units : List (List α)) : Nat := (units.headD []).length

/-- A failure of the frame-SRAM side, and its bytes. -/
def runErr : List (List Nat) ⊕ Int → Option Int | .inr a => some a | .inl _ => none
def runOk : List (List Nat) ⊕ Int → List (List Nat) | .inr _ => [] | .inl u => u

/-- Handle of a kind-8 or kind-5 set. -/
def setHandle (f : Frame) (k : BitVec 5) : Nat := fld (psetWord f.vec k.toNat 0) 0 20

/-- Check one object side, with its frame-SRAM side when there is one: the record, units of the box and the
locations on both sides. An empty box gives none. -/
def boxChecks (s : State) (sa se : BitVec 5) (sb : Option (BitVec 5 × Bool)) (need : Need)
    (extra : List Word → Option (L2Class × Nat)) :
    Acc (RcEnt × List (List (Nat × Nat)) × List (List Nat)) :=
  let h := setHandle (curFrame s) sa
  (lookSides s [h]).andThen fun es s =>
    let f := curFrame s
    match es with
    | [] => .ok ({ handle := 0, words := [], ext := [], map := [] }, [], []) s
    | r :: _ =>
      let ws := r.1.words
      let exts := extents f se.toNat
      if emptyBox exts (recRank ws) then .ok (r.1, [], []) s
      else
        let us := boxVecs ((unitExt (fmtMx (recFmt ws)) exts).take (recRank ws))
        let run := match sb with
          | some (k, cw) => runUnits f k.toNat (recFmt ws) cw exts (recRank ws)
          | none => .inl []
        (checkSides s [boxSide h r need (curOrigin f sa.toNat) exts us (extra ws)] (runErr run)).andThen
          fun v s => .ok (r.1, v.getD 0 [], runOk run) s

/-- No check of the operation's own. -/
def noExtra (_ : List Word) : Option (L2Class × Nat) := none

/-! ### Moves (R319) -/

/-- R319: object to frame SRAM; a write at frame-SRAM scope ignores ORD and SCOPE. -/
def execCboxOs (f : CpW) (s : State) : Out :=
  .next <| runCopy (.cboxOs f) (fun e s =>
    (checkSets s [(f.sa, 8), (f.se, 9), (f.sb, 10)]).andThen fun _ s =>
    (boxChecks s f.sa f.se (some (f.sb, true)) needR noExtra).andThen fun x s =>
      .ok { opOf e .box .rlx .fr with
        src := globLocs x.2.1, dst := sramLocs x.2.2, unit := unitLen x.2.2, handleA := x.1.handle, genA := recGen x.1.words,
        dieA := recHomeDie x.1.words } s) s

/-- R319: frame SRAM to object. -/
def execCboxSo (f : CpW) (s : State) : Out :=
  .next <| runCopy (.cboxSo f) (fun e s =>
    (checkSets s [(f.sa, 8), (f.se, 9), (f.sb, 10)]).andThen fun _ s =>
    (boxChecks s f.sa f.se (some (f.sb, false)) needW noExtra).andThen fun x s =>
      .ok { opOf e .box f.ord f.scope with
        src := sramLocs x.2.2, dst := globLocs x.2.1, unit := unitLen x.2.1, handleA := x.1.handle, genA := recGen x.1.words,
        dieA := recHomeDie x.1.words } s) s

/-- Two object sides with the same extents; the lower-rank side needs extents of 1 above its rank (R319).
`fmtOk` says of a side's record and the other's whether its format passes; the rule names no byte of a wrong one, so
offset 0 is reported: DESIGN CHOICE (assumption 14). -/
def twoBoxes (s : State) (f : CpW) (needB : Need) (fmtOk : List Word → List Word → Bool) :
    Acc (RcEnt × RcEnt × List (List (Nat × Nat)) × List (List (Nat × Nat))) :=
  let fr := curFrame s
  let ha := setHandle fr f.sa
  let hb := setHandle fr f.sb
  (lookSides s [ha, hb]).andThen fun es s =>
    let fr := curFrame s
    match es with
    | [a, b] =>
      let ra := recRank a.1.words
      let rb := recRank b.1.words
      let rho := max ra rb
      let exts := extents fr f.se.toNat
      if emptyBox exts rho then .ok (a.1, b.1, [], []) s
      else
        let us (e : RcEnt × Bool) := boxVecs ((unitExt (fmtMx (recFmt e.1.words)) exts).take rho)
        let high := (exts.take rho).drop (min ra rb) |>.any fun x => decide (x ≠ 1)
        let extra (e o : RcEnt × Bool) : Option (L2Class × Nat) :=
          if !fmtOk e.1.words o.1.words then some (.permission, 0)
          else if high ∧ recRank e.1.words = min ra rb ∧ ra ≠ rb then some (.outOfShape, 0)
          else none
        let oa := curOrigin fr f.sa.toNat
        let ob := curOrigin fr f.sb.toNat
        (checkSides s [boxSide ha a needR oa exts (us a) (extra a b),
          boxSide hb b needB ob exts (us b) (extra b a)] none).andThen fun v s =>
            .ok (a.1, b.1, v.getD 0 [], v.getD 1 []) s
    | _ => .ok ({ handle := 0, words := [], ext := [], map := [] },
                { handle := 0, words := [], ext := [], map := [] }, [], []) s

/-- R319: object to object; the records have equal FMT. -/
def execCboxOo (f : CpW) (s : State) : Out :=
  .next <| runCopy (.cboxOo f) (fun e s =>
    (checkSets s [(f.sa, 8), (f.se, 9), (f.sb, 8)]).andThen fun _ s =>
    (twoBoxes s f needW fun a b => decide (recFmt a = recFmt b)).andThen fun x s =>
      .ok { opOf e .box f.ord f.scope with
        src := globLocs x.2.2.1, dst := globLocs x.2.2.2, unit := unitLen x.2.2.2, handleA := x.1.handle,
        genA := recGen x.1.words, handleB := x.2.1.handle, genB := recGen x.2.1.words, dieA := recHomeDie x.1.words,
        dieB := recHomeDie x.2.1.words } s) s

/-! ### Fills, prefetches, discards (R320 to R322) -/

/-- Bytes a fill writes to one unit of a format (R42, R320). -/
def fillUnit (fmt v : Nat) : List Byte :=
  let nib := v % 16 * 17
  match fmt with
  | 9 => List.replicate 64 (BitVec.ofNat 8 v) ++ [BitVec.ofNat 8 (v / 2 ^ 24)]
  | 10 => List.replicate 32 (BitVec.ofNat 8 nib) ++
      List.replicate 16 (BitVec.ofNat 8 (v / 16 % 4 * 0x55)) ++ [BitVec.ofNat 8 (v / 2 ^ 24)]
  | 11 => List.replicate 32 (BitVec.ofNat 8 nib) ++ [BitVec.ofNat 8 (v / 2 ^ 24)]
  | _ => leOf v (fmtEsz fmt)

/-- R320: fill a box of an object. -/
def execCfillO (f : CpW) (s : State) : Out :=
  .next <| runCopy (.cfillO f) (fun e s =>
    (checkSets s [(f.sa, 8), (f.se, 9)]).andThen fun _ s =>
    (boxChecks s f.sa f.se none needW noExtra).andThen fun x s =>
      let v := fillValue (curFrame s) f.se.toNat
      .ok { opOf e .fill f.ord f.scope with
        dst := globLocs x.2.1, vals := x.2.1.flatMap fun _ => fillUnit (recFmt x.1.words) v, got := true,
        unit := unitLen x.2.1, handleA := x.1.handle, genA := recGen x.1.words, dieA := recHomeDie x.1.words } s) s

/-- R320: fill runs of 4-byte elements in frame SRAM, all fourteen extents in use. -/
def execCfillS (sb se : BitVec 5) (s : State) : Out :=
  .next <| runCopy (.cfillS sb se) (fun e s =>
    (checkSets s [(sb, 10), (se, 9)]).andThen fun _ s =>
      let f := curFrame s
      let exts := extents f se.toNat
      let o := { opOf e .fill .rlx .fr with got := true }
      if emptyBox exts 14 then .ok o s
      else match runUnits f sb.toNat 4 true exts 14 with
        | .inr a => spadRange a s
        | .inl us =>
          .ok { o with dst := sramLocs us, unit := 4, vals := us.flatMap fun _ => leOf (fillValue f se.toNat) 4 } s) s

/-- R321: read every line of the box into the board; no value changes. -/
def execCpref (sa se : BitVec 5) (s : State) : Out :=
  .next <| runCopy (.cpref sa se) (fun e s =>
    (checkSets s [(sa, 8), (se, 9)]).andThen fun _ s =>
    (boxChecks s sa se none needR noExtra).andThen fun x s =>
      .ok { opOf e .pref .rlx .fr with
        src := globLocs x.2.1, handleA := x.1.handle, genA := recGen x.1.words, dieA := recHomeDie x.1.words } s) s

/-- Lines of 128 bytes all of whose bytes are listed. -/
def wholeLines (das : List Nat) : List Nat :=
  (sortUniq (das.map (· / 128))).filter fun l => (upto 128).all fun i => das.contains (128 * l + i)

/-- R322: discard the lines that the box covers whole. -/
def execCdisc (f : CpW) (s : State) : Out :=
  .next <| runCopy (.cdisc f) (fun e s =>
    (checkSets s [(f.sa, 8), (f.se, 9)]).andThen fun _ s =>
    (boxChecks s f.sa f.se none needW noExtra).andThen fun x s =>
      .ok { opOf e (.disc (wholeLines (x.2.1.flatten.map (·.1)))) f.ord f.scope with
        dst := globLocs x.2.1, got := true, handleA := x.1.handle, genA := recGen x.1.words, dieA := recHomeDie x.1.words } s) s

/-! ### Add-reduces (R323) -/

/-- A record that is not FP32 raises PERMISSION; the rule names no byte of it, so offset 0 is reported: DESIGN CHOICE
(assumption 14). -/
def notF32 (fmt : Nat) : Option (L2Class × Nat) := if fmt = 6 then none else some (.permission, 0)

/-- R323: frame SRAM added into an object. -/
def execCaddSo (f : CpW) (s : State) : Out :=
  .next <| runCopy (.caddSo f) (fun e s =>
    (checkSets s [(f.sa, 8), (f.se, 9), (f.sb, 10)]).andThen fun _ s =>
    (boxChecks s f.sa f.se (some (f.sb, false)) needRW fun ws => notF32 (recFmt ws)).andThen fun x s =>
      .ok { opOf e .add f.ord f.scope with
        src := sramLocs x.2.2, dst := globLocs x.2.1, handleA := x.1.handle, genA := recGen x.1.words,
        dieA := recHomeDie x.1.words } s) s

/-- R323: a box added into another; ranks may differ as for CBOX.OO. -/
def execCaddOo (f : CpW) (s : State) : Out :=
  .next <| runCopy (.caddOo f) (fun e s =>
    (checkSets s [(f.sa, 8), (f.se, 9), (f.sb, 8)]).andThen fun _ s =>
    (twoBoxes s f needRW fun own _ => decide (recFmt own = 6)).andThen fun x s =>
      .ok { opOf e .add f.ord f.scope with
        src := globLocs x.2.2.1, dst := globLocs x.2.2.2, handleA := x.1.handle,
        genA := recGen x.1.words, handleB := x.2.1.handle, genB := recGen x.2.1.words, dieA := recHomeDie x.1.words,
        dieB := recHomeDie x.2.1.words } s) s

/-! ### Reloads from objects (R324) -/

/-- Bead format of a record format that a reload accepts. -/
def beadFmtOf : Nat → Option BeadFmt
  | 0 => some .i8 | 9 => some .mx8 | 10 => some .mx6 | 11 => some .mx4 | _ => none

/-- Coordinates of row r, rod n, set t for an array at K-index k and group g. -/
def crldCoord (org : List Nat) (rank sets k g t r n : Nat) : List Nat :=
  let c := lset org 0 (org.getD 0 0 + 256 * k + r)
  (lset c 1 (org.getD 1 0 + 64 * (sets * g + t) + n)).take rank

/-- Units that one array reads: an element, or a block where the format is MX. -/
def crldUnits (org : List Nat) (rank sets k g : Nat) (mx : Bool) : List (List Nat) :=
  (upto sets).flatMap fun t => (upto 64).flatMap fun n =>
    (if mx then (upto 4).map (64 * ·) else upto 256).map fun r => crldCoord org rank sets k g t r n

/-- Origin of an array's first element: what its bank records as its object source (R214). -/
def crldOrg (org : List Nat) (sets k g : Nat) : List Nat := crldCoord org 14 sets k g 0 0 0

/-- R324: check the whole box of every array, mark the shadows FILLING and enter BS. Of a record in a format that no bank
takes, offset 0 is reported, for the rule names no byte: DESIGN CHOICE (assumption 14). -/
def execCrld (f : CRld) (s : State) : Out :=
  .next <| runCopy (.crld f) (fun e s =>
    (checkSets s [(f.sa, 8)]).andThen fun _ s =>
      let fr := curFrame s
      let h := setHandle fr f.sa
      let arrays := rangeOf f.r
      let kg := f.kgm1.toNat + 1
      (lookSides s [h]).andThen fun es s =>
        match es with
        | [] => badSet s
        | r :: _ =>
          let ws := r.1.words
          let fmt := beadFmtOf (recFmt ws)
          let sets := if recFmt ws = 11 then 2 else 1
          let org := curOrigin fr f.sa.toNat
          let mx := fmtMx (recFmt ws)
          let cs := (upto arrays.length).flatMap fun i => crldUnits org (recRank ws) sets (i % kg) (i / kg) mx
          let off := firstOff ws r.1.ext (org.take (recRank ws))
          let extra := if fmt.isNone then some (L2Class.permission, 0)
            else if mx ∧ org.headD 0 % 64 ≠ 0 then some (L2Class.outOfShape, off) else none
          (checkSides s [{ h := h, ent := r.1, migr := r.2, need := needB, cs := cs, extra := extra }] none).andThen
            fun _ s =>
              let fr := curFrame s
              if arrays.any (reloading fr) then .hold (.reloading arrays)
              else if 255 ≤ cntBS fr then .hold (.counter 3)
              else
                let src (b : Nat) : BankSrc :=
                  let i := b - f.r.first.toNat
                  .object h (recGen ws) (crldOrg org sets (i % kg) (i / kg))
                let fr := arrays.foldl (fun fr b => startReload f.swm (src b) (fmt.getD .i8) fr b) fr
                .ok { opOf e (.crld arrays kg f.r.first.toNat org ws r.1.ext) .rlx .fr with
                  handleA := h, genA := recGen ws, dieA := recHomeDie ws } (setCur s fr)) s

/-- One weight: element bits, its scale byte (0x7F when scalar), and the device addresses read. -/
def weightAt (s : State) (ws ext : List Word) (c : List Nat) : Nat × Byte × List Nat :=
  let get (o : Nat) : Nat := (memSeen s (devAddr ws o)).toNat
  match elemAt ws ext c with
  | .scalar el => (get el, 0x7F, [devAddr ws el])
  | .mx p1 p2 sc =>
    let i := c.getD 0 0 % 64
    let scale := memSeen s (devAddr ws sc)
    match recFmt ws with
    | 9 => (get (p1 + i), scale, [devAddr ws (p1 + i), devAddr ws sc])
    | 10 => (get (p1 + i / 2) / 16 ^ (i % 2) % 16 + get (p2 + i / 4) / 4 ^ (i % 4) % 4 * 16, scale,
             [devAddr ws (p1 + i / 2), devAddr ws (p2 + i / 4), devAddr ws sc])
    | _ => (get (p1 + i / 2) / 16 ^ (i % 2) % 16, scale, [devAddr ws (p1 + i / 2), devAddr ws sc])

/-- A bank filled from an object; segments fed by poisoned data cannot match (R381). At MX6 plane 3 holds nothing the
manual names, so it is free (R212). -/
def fillBank (s : State) (ws ext : List Word) (org : List Nat) (k g : Nat) (bank : Bank) : Bank :=
  let sets := if recFmt ws = 11 then 2 else 1
  let start := { bank with w := [], scales := [], unmatch := [] }
  let byte (old new t i : Nat) : Byte :=
    let b : Byte := BitVec.ofNat 8 (old + new * 16 ^ t)
    if recFmt ws = 10 then cellByte .mx6 b (Config.freeValue (s.freeCtr + i)) else b
  (upto sets).foldl (fun bank t => (upto 256).foldl (fun bank r => (upto 64).foldl (fun bank n =>
    let x := weightAt s ws ext (crldCoord org (recRank ws) sets k g t r n)
    let i := 64 * r + n
    { bank with
      w := tput 0 bank.w i (byte (tgetD bank.w i 0).toNat x.1 t i),
      scales := if r % 64 = 0 then tput 0x7F bank.scales (256 * t + 64 * (r / 64) + n) x.2.1 else bank.scales,
      unmatch := if poisoned s x.2.2 then insertUniq (r / 64) bank.unmatch else bank.unmatch }) bank) bank) start

/-- The first location whose home does not serve it: its offset. -/
def offlineLoc (s : State) (ls : List CLoc) : Option Nat :=
  ls.findSome? fun l => match l with
    | .glob a o => if homesServe s [a] then none else some o
    | .sram _ => none

/-- The first location in another package that no trained port of the die reaches: its offset (R370). -/
def portlessLoc (s : State) (die : Nat) (ls : List CLoc) : Option Nat :=
  ls.findSome? fun l => match l with
    | .glob a o => if isRemote a && (portNow s (curPart s) die a).isNone then some o else none
    | .sram _ => none

/-- The first location that the thread's partition no longer holds: its offset (R26, R59, R374). -/
def lostLoc (s : State) (ls : List CLoc) : Option Nat :=
  ls.findSome? fun l => match l with
    | .glob a o => if reaches s a then none else some o
    | .sram _ => none

/-- What a held operation's locations meet now: PERMISSION where a partition change has taken one away, HOME_OFFLINE where a
home does not serve or no port leads to it; class and offset. -/
def locFault (s : State) (die : Nat) (ls : List CLoc) : Option (L2Class × Nat) :=
  match lostLoc s ls with
  | some o => some (.permission, o)
  | none => ((offlineLoc s ls).orElse fun _ => portlessLoc s die ls).map fun o => (.homeOffline, o)

/-- A background fault of a held operation: it leaves the engine (R164, R167). -/
def opFault (f : Frame) (k : Nat) (o : COp) (c : L2Class) (m : Option MemInfo) : Frame :=
  addFault { f with cpe := { f.cpe with ops := f.cpe.ops.eraseIdx k } } (issueFault o.issue 2 c m (faultFinal f o.issue c m))

/-! ### Counters in memory (R325) -/

/-- R325: checks; the addition is made once every earlier operation has left CP. -/
def execCctrAdd (sa : BitVec 5) (ord : Ordering4) (scope : Scope) (imm : BitVec 16) (s : State) : Out :=
  .next <| runCopy (.cctrAdd sa ord scope imm) (fun e s =>
    (checkSets s [(sa, 5)]).andThen fun _ s =>
      let fr := curFrame s
      let h := setHandle fr sa
      let org := fld (psetWord fr.vec sa.toNat 1) 0 44
      (lookSides s [h]).andThen fun es s =>
        match es with
        | [] => badSet s
        | r :: _ =>
          match checkAccess s s.cur r.1 needRW ((upto 8).map (org + ·))
              (if org % 8 = 0 then none else some org) r.2 with
          | (.stall, _) => .hold (.migrating h)
          | (.far die lines, _) => .hold (.record h die lines)
          | (.err c off gen, s) => .fault c (some { handle := h, off := off, gen := gen }) s
          | (.ok das x, s) =>
            .ok { opOf e (.ctr (das.headD 0) imm) ord scope with
              dst := (das.zip ((upto 8).map (org + ·))).map (fun y => .glob y.1 y.2), got := true,
              handleA := h, genA := recGen x.words, dieA := recHomeDie x.words } s) s

/-! ### Completion (R92, R105, R318, R327) -/

/-- Where an array's elements lie. -/
def crldLocs (first kg : Nat) (org : List Nat) (ws ext : List Word) (b : Nat) : List CLoc :=
  let i := b - first
  let cs := crldUnits org (recRank ws) (if recFmt ws = 11 then 2 else 1) (i % kg) (i / kg) (fmtMx (recFmt ws))
  cs.flatMap fun c => (elemBytes ws ext c).map fun x => CLoc.glob (devAddr ws x) x

/-- What an operation has still to read. -/
def opReads (o : COp) : List CLoc :=
  match o.kind with
  | .crld todo kg first org ws ext => todo.flatMap (crldLocs first kg org ws ext)
  | _ => if o.got then [] else o.src

/-- Object offset of the first of these locations. -/
def headOff : List CLoc → Nat
  | .glob _ x :: _ => x
  | _ => 0

/-- Device addresses among locations. -/
def globOf (ls : List CLoc) : List Nat := ls.filterMap fun l => match l with | .glob a _ => some a | .sram _ => none

/-- What the operations before the k-th have still to read or write, and released add-reduces before issue `n`: an
access of the C path to one of these bytes comes after them (R92). -/
def earlierLocs (f : Frame) (k n : Nat) : List CLoc :=
  (f.cpe.ops.take k).flatMap (fun p => opReads p ++ p.dst) ++ addsBefore f n

/-- What a read of the k-th operation waits for: of an earlier write that awaits the commit it returns the bytes instead, for
the commit waits for the read (R160, R333). A counter's addition, whose value its home alone knows, is waited for. -/
def earlierWrites (f : Frame) (k n : Nat) : List CLoc :=
  let held := awaitOps f
  let known (p : COp) : Bool := (held.any fun q => decide (q.n = p.n)) && match p.kind with | .ctr .. => false | _ => true
  ((f.cpe.ops.take k).filter fun p => !known p).flatMap (fun p => opReads p ++ p.dst) ++ addsBefore f n

/-- Bytes that operations before issue `n` are to write once the commit lets them, in order, and those of them that are
poisoned. -/
def heldWrites (f : Frame) (n : Nat) : List (Nat × Byte) × List Nat :=
  let ops := (awaitOps f).filter fun p => decide (p.n < n)
  (ops.flatMap fun p => (p.dst.zip p.vals).filterMap fun x => match x.1 with | .glob a _ => some (a, x.2) | .sram _ => none,
   ops.flatMap fun p => globOf (p.badv.filterMap fun i => p.dst[i]?))

/-- The storage that an operation's reads of these addresses see, and the state after: storage's bytes, or those before a
generator store that the read may precede (R96), under the thread's own writes that await the commit (R333). -/
def readView (s : State) (o : COp) (das : List Nat) : State × State :=
  let f := curFrame s
  let late := das.filter fun a => lateHit f true o.issue.tag.ser [a]
  let r := lateRead s true o.issue.tag.ser (late.map fun a => (a, memSeen s a))
  let w := heldWrites f o.n
  let own := w.1.filter fun b => das.contains b.1
  if late.isEmpty && own.isEmpty then (s, s)
  else
    let v := gwrite r.2 none (late.zip r.1 ++ own)
    ({ v with poison := (w.2.filter das.contains).foldl (fun l a => insertUniq (a / 32) l) v.poison }, r.2)

/-- Add-reduces stay in the C path's program order (R323). -/
def insertAdd (c : CAdd) : List CAdd → List CAdd
  | [] => [c]
  | a :: r => if c.n < a.n then c :: a :: r else a :: insertAdd c r

/-- The bytes of an array fill its bank, and the checksum is computed; with the last array the operation is over. -/
def crldFill (s : State) (k : Nat) (o : COp) (b : Nat) : State :=
  let f := curFrame s
  match o.kind with
  | .crld todo kg first org ws ext =>
    let i := b - first
    let a := arrOf f b
    let v := readView (wiredPut s o.had) o (globOf (crldLocs first kg org ws ext b))
    let bank := bankChecksum (fillBank v.1 ws ext org (i % kg) (i / kg) (beginBank f o.n (bankOf a (!a.act))))
    let f := setArr (curFrame v.2) b (setBank a (!a.act) { bank with got := true, summed := true })
    let left := todo.filter fun x => decide (x ≠ b)
    let ops := if left.isEmpty then f.cpe.ops.eraseIdx k
      else lset f.cpe.ops k { o with kind := .crld left kg first org ws ext, had := {} }
    setCur { v.2 with freeCtr := v.2.freeCtr + 16384 } { f with cpe := { f.cpe with ops := ops } }
  | _ => s

/-- A CRLD takes an array's bytes, in order with the C path's other accesses of them (R92, R333): it must be one of the
two it fills now. Bytes of another package are asked for, an array at a time (R370). -/
def crldArray (s : State) (k : Nat) (o : COp) (b : Nat) : State :=
  let f := curFrame s
  match o.kind with
  | .crld todo kg first org ws ext =>
    let locs := crldLocs first kg org ws ext b
    let early := earlierWrites f k o.n
    if !(todo.take 2).contains b || (!early.isEmpty && locsMeet f.sram locs early) then s
    else match locFault s o.dieA locs with
      | some (c, off) => setCur s (opFault f k o c (some { handle := o.handleA, off := off, gen := o.genA }))
      | none =>
        if (globOf locs).any isRemote then
          (if todo.head? = some b then
            sendFar s o.n { work := 2, ty := 1, rel := false, die := o.dieA, handle := o.handleA } (fun _ => false)
              ((globOf locs).map fun a => (a, 0))
           else s)
        else crldFill s k o b
  | _ => s

/-- The CRLD that fills an array: its index and itself. -/
def crldOf (f : Frame) (b : Nat) : Option (Nat × COp) :=
  ((upto f.cpe.ops.length).zip f.cpe.ops).find? fun x => match x.2.kind with
    | .crld todo _ _ _ _ _ => todo.contains b | _ => false

/-- R214, R232, R324: the last byte of an array's reload has been written and its checksum is computed. -/
def execReloadLastByte (array : Nat) (s : State) : Out :=
  let f := curFrame s
  let a := arrOf f array
  let bank := bankOf a (!a.act)
  .next <|
    if !bank.filling then s
    else match crldOf f array with
      | some (k, o) => crldArray s k o array
      | none =>
        if bank.got && !bank.summed then
          setCur s (setArr f array (setBank a (!a.act) { bankChecksum bank with summed := true }))
        else s

/-- R214: the bank becomes VALID after its checksum. -/
def execShadowBankValid (array : Nat) (s : State) : Out :=
  let f := curFrame s
  let a := arrOf f array
  let bank := bankOf a (!a.act)
  .next <|
    if bank.filling && bank.summed then
      setCur s (setArr f array (setBank a (!a.act) { bank with filling := false, got := false, summed := false }))
    else s

/-- Frame-SRAM addresses of one view among locations. -/
def viewLocs (swz : Bool) (ls : List CLoc) : List Nat :=
  ls.filterMap fun l => match l with
    | .sram fa => if decide (fa / 2 ^ 22 = 1) = swz then some (fa % 2 ^ 22) else none
    | .glob .. => none

/-- Bytes of locations in order: storage, then the two views' bytes as read. -/
def weave (s : State) : List CLoc → List Byte → List Byte → List Byte
  | [], _, _ => []
  | .glob a _ :: r, x, y => memSeen s a :: weave s r x y
  | .sram fa :: r, x, y =>
    if fa / 2 ^ 22 = 1 then y.headD 0 :: weave s r x y.tail else x.headD 0 :: weave s r x.tail y

/-- Indexes of poisoned source bytes. -/
def badIdx (s : State) (ls : List CLoc) : List Nat :=
  (upto ls.length).filter fun i => match ls[i]? with | some (.glob a _) => poisoned s [a] | _ => false

/-- The add-reduce of an operation whose source has been read. -/
def addOf (o : COp) (vals : List Byte) (bad : List Nat) : CAdd :=
  { n := o.n, handle := if o.handleB = 0 then o.handleA else o.handleB,
    gen := if o.handleB = 0 then o.genA else o.genB, die := if o.handleB = 0 then o.dieA else o.dieB,
    ord := o.ord, scope := o.scope,
    ser := o.issue.tag.ser,
    offs := (upto (o.dst.length / 4)).map fun i => headOff (o.dst.drop (4 * i)),
    elems := (upto (o.dst.length / 4)).map fun i =>
      ((globOf (o.dst.drop (4 * i))).headD 0, BitVec.ofNat 32 (leNat ((vals.drop (4 * i)).take 4))),
    bad := sortUniq (bad.map fun i => (globOf (o.dst.drop (i / 4 * 4))).headD 0) }

/-- The bytes that an operation reads have returned. -/
def readsReturn (s : State) (k : Nat) (o : COp) : State :=
  let s := wiredPut s o.had
  let r := (sramRead s false (viewLocs false o.src)).andThen fun x s =>
    (sramRead s true (viewLocs true o.src)).andThen fun y s => .ok (x, y) s
  match r with
  | .hold _ | .wait _ _ => s
  | .fault c m s => onCur s fun f => opFault f k o c m
  | .ok xy s =>
    let v := readView s o (globOf o.src)
    let vals := weave v.1 o.src xy.1 xy.2
    let bad := badIdx v.1 o.src
    onCur v.2 fun f => match o.kind with
      | .pref => { f with cpe := { f.cpe with ops := f.cpe.ops.eraseIdx k } }
      | .add => { f with cpe := { f.cpe with ops := f.cpe.ops.eraseIdx k },
                         ph := { f.ph with adds := insertAdd (addOf o vals bad) f.ph.adds } }
      | _ => { f with cpe := { f.cpe with ops := lset f.cpe.ops k { o with vals := vals, badv := bad, got := true } } }

/-- The reads of a held operation return, after the earlier accesses of their bytes (R92): HOME_OFFLINE, DEADREAD and SPAD_ECC are raised here (R318). Bytes of
another package are asked for, and their data performs the reads (R370). -/
def copyReads (s : State) (k : Nat) (o : COp) : State :=
  let f := curFrame s
  let early := earlierWrites f k o.n
  if !early.isEmpty && locsMeet f.sram o.src early then s
  else match locFault s o.dieA o.src with
    | some (c, off) => setCur s (opFault f k o c (some { handle := o.handleA, off := off, gen := o.genA }))
    | none =>
      if (globOf o.src).any isRemote then
        sendFar s o.n { work := 2, ty := 1, rel := false, die := o.dieA, handle := o.handleA } (fun _ => false)
          ((globOf o.src).map fun a => (a, 0))
      else readsReturn s k o

/-- Bytes of frame SRAM of one view that an operation writes. -/
def viewBytes (swz : Bool) (ls : List (CLoc × Byte)) : List (Nat × Byte) :=
  ls.filterMap fun x => match x.1 with
    | .sram fa => if decide (fa / 2 ^ 22 = 1) = swz then some (fa % 2 ^ 22, x.2) else none
    | .glob .. => none

/-- Perform writes of an operation: locations with their bytes, and the locations whose bytes are poisoned (R381). A byte
of another partition's is not reached (R374). Where two of one operation's elements name one location, the later in box
order stands: DESIGN CHOICE (assumption 15), for the manual orders them in no way (R88). A generator store that the write may
precede stands over it (R96). -/
def copyBytes (s : State) (ser : BitVec 32) (lb : List (CLoc × Byte)) (bad : List CLoc) : State :=
  let gb := inReach s (lb.filterMap fun x => match x.1 with | .glob a _ => some (a, x.2) | .sram _ => none)
  let r := lateWrite s true ser gb
  let s := if r.1.isEmpty then r.2 else gwrite r.2 (some s.cur) r.1
  let hurt := (globOf bad).filter fun a => reaches s a && r.1.any fun b => decide (b.1 = a)
  let s := { s with poison := hurt.foldl (fun l a => insertUniq (a / 32) l) s.poison }
  onCur s fun f =>
    let m := l1Drop f.sram (gb.map (·.1))
    let w (m : Sram) (swz : Bool) : Sram :=
      let b := viewBytes swz lb
      if b.isEmpty then m else
        sramMark (sramWrite m swz b) (sortUniq ((viewLocs swz bad).map fun a => granOf (sramKey m.split swz a)))
    { f with sram := w (w m false) true }

/-- Bytes of the units `keep` selects. -/
def ofUnits {α : Type} (o : COp) (keep : Nat → Bool) (l : List α) : List α :=
  ((l.zip (upto l.length)).filter fun x => keep (x.2 / max 1 o.unit)).map (·.1)

/-- The locations among the poisoned bytes of some units. -/
def badLocs (o : COp) (keep : Nat → Bool) : List CLoc :=
  (o.badv.filter fun i => keep (i / max 1 o.unit)).filterMap fun i => o.dst[i]?

/-- Perform the writes of an operation that are not made yet. -/
def copyPut (s : State) (o : COp) : State :=
  if o.put.isEmpty then copyBytes s o.issue.tag.ser (o.dst.zip o.vals) (o.badv.filterMap fun i => o.dst[i]?)
  else
    let left (i : Nat) : Bool := !o.put.contains i
    copyBytes s o.issue.tag.ser (ofUnits o left (o.dst.zip o.vals)) (badLocs o left)

/-- Discard lines: each reads from now on as it stands or as zeros, until it is written (R72, R73, R322). A line of another
package keeps its content, of which its home alone decides. -/
def discardLines (s : State) (lines : List Nat) : State :=
  let id := s.freeCtr
  let near := lines.filter fun l => !isRemote (128 * l)
  let s := { s with discarded := near.foldl (fun t x => tset t x (tgetD t x [] ++ [id])) s.discarded, freeCtr := id + 1,
                    frames := s.frames.map (breakResv (some s.cur) (lines.map fun l => (128 * l, 0))) }
  onCur s fun f => { f with sram := l1Drop f.sram (lines.map (128 * ·)) }

/-- The addition of CCTR (R93, R325). -/
def counterAdd (s : State) (ser : BitVec 32) (a : Nat) (imm : BitVec 16) : State :=
  let das := (upto 8).map (a + ·)
  let x := lateAtomic s true ser das fun old => wordBytes (bytesWord old + imm.signExtend 64)
  let s := gwrite x.2.2 (some s.cur) (inReach s x.2.1)
  onCur s fun f => { f with sram := l1Drop f.sram das }

/-- An operation's writes are performed and it leaves its counter. -/
def writesDone (s : State) (k : Nat) (o : COp) : State :=
  let s := match o.kind with
    | .disc lines => discardLines s (lines.filter fun l => reaches s (128 * l))
    | .ctr a imm => counterAdd (wiredPut s o.had) o.issue.tag.ser a imm
    | _ => copyPut s o
  onCur s fun f => { f with cpe := { f.cpe with ops := f.cpe.ops.eraseIdx k } }

/-- The handle an operation writes through, and its generation. -/
def writeHandle (o : COp) : Nat × Nat := if o.handleB = 0 then (o.handleA, o.genA) else (o.handleB, o.genB)

/-- Flit type of an operation's writes: a counter's addition travels as an atomic (R93, R370). -/
def writeFlit (o : COp) : BitVec 4 := match o.kind with | .ctr .. => 5 | _ => 3

/-- Bytes an operation writes to another package; a discard sends none. -/
def remoteBytes (o : COp) : List (Nat × Byte) :=
  match o.kind with
  | .disc _ => []
  | .ctr a imm => ((upto 8).map (a + ·)).zip (wordBytes (imm.signExtend 64))
  | _ => (o.dst.zip o.vals).filterMap fun x => match x.1 with | .glob a _ => some (a, x.2) | .sram _ => none

/-- HOME_DIE of the record an operation writes through (R70, R371). -/
def writeDie (o : COp) : Nat := if o.handleB = 0 then o.dieA else o.dieB

/-- The k-th operation may write these locations now: a location follows the order of issue (R92), a release every
earlier operation and add-reduce (R99), a counter every earlier operation of CP (R325). Withheld add-reduces count too, but
for a counter. -/
def mayWrite (f : Frame) (k : Nat) (o : COp) (locs : List CLoc) : Bool :=
  let before := f.cpe.ops.take k
  let isCtr := match o.kind with | .ctr .. => true | _ => false
  let early := earlierLocs f k o.n
  !behindAdds f o locs && !(decide (o.ord = .rel) && (!before.isEmpty || !(addsBefore f o.n).isEmpty)) && !(isCtr && before.any opInCP) &&
    (early.isEmpty || !locsMeet f.sram locs early)

/-- The writes of a held operation are performed and it leaves its counter. With a home offline the write faults while its
phase is open and waits after (R160). -/
def copyWrites (s : State) (k : Nat) (o : COp) : State :=
  let f := curFrame s
  if !mayWrite f k o o.dst then s
  else match (offlineLoc s o.dst).orElse fun _ => portlessLoc s (writeDie o) o.dst with
    | some off =>
      if f.ph.snap.issueNo ≤ o.n then
        setCur s (opFault f k o .homeOffline (some { handle := (writeHandle o).1, off := off, gen := (writeHandle o).2 }))
      else s
    | none =>
      if (remoteBytes o).any fun b => isRemote b.1 then
        let bad := globOf (o.badv.filterMap fun i => o.dst[i]?)
        sendFar s o.n
          { work := 3, ty := writeFlit o, rel := decide (o.ord = .rel), die := writeDie o, handle := (writeHandle o).1 }
          (fun a => bad.any fun x => decide (x / 128 = a / 128)) (remoteBytes o)
      else writesDone s k o

/-- Granules of frame SRAM that units of an operation outside `made` have yet to write. -/
def unitGrans (m : Sram) (o : COp) (made : List Nat) : List Nat :=
  sortUniq ((ofUnits o (fun j => !made.contains j) o.dst).filterMap fun l => match l with
    | .sram fa => some (granOf (sramKey m.split (decide (fa / 2 ^ 22 = 1)) (fa % 2 ^ 22)))
    | .glob .. => none)

/-- Unit `i` of operation `k` is written before the rest: the elements of one operation are unordered, and a cancelled
operation stops between two of them (R88, R164). A granule becomes full with the last of the operation's bytes in it, for the
setting write releases the whole granule (R104). -/
def copyPart (s : State) (k i : Nat) : State :=
  let f := curFrame s
  match f.cpe.ops[k]? with
  | none => s
  | some o =>
    let mine (j : Nat) : Bool := decide (j = i)
    let locs := ofUnits o mine o.dst
    let plain : Bool := match o.kind with | .box | .fill => true | _ => false
    if !plain || !o.got || o.put.contains i || locs.isEmpty || (offlineLoc s locs).isSome || (globOf locs).any isRemote ||
        !mayWrite f k o locs then s
    else
      let left := unitGrans f.sram o (i :: o.put)
      let s := copyBytes s o.issue.tag.ser (ofUnits o mine (o.dst.zip o.vals)) (badLocs o mine)
      let was := f.sram.full
      let s := onCur s fun f => { f with sram := { f.sram with full := f.sram.full.filter fun g => was.contains g || !left.contains g } }
      onCur s fun f => { f with cpe := { f.cpe with ops := lset f.cpe.ops k { o with put := i :: o.put } } }

/-- R105, R330: the reads of held operation `k` return, or its writes are performed and it leaves. -/
def execCopyOperationComplete (k : Nat) (s : State) : Out :=
  .next <| match (curFrame s).cpe.ops[k]? with
    | none => s
    | some o =>
      match o.kind with
      | .crld .. => s
      | _ => if o.got then copyWrites s k o else copyReads s k o

/-! ### Application of add-reduces (R50, R323) -/

/-- One element: one read and write, rounded to nearest. -/
def addApply (ser : BitVec 32) (s : State) (x : Nat × BitVec 32) : State :=
  let a := lateAtomic s true ser ((upto 4).map (x.1 + ·)) fun old => leOf (addRne (leNat old) x.2.toNat).1 4
  gwrite a.2.2 (some s.cur) (inReach s a.2.1)

/-- The oldest released add-reduce is applied and leaves ST. Two of its elements that name one destination are added in box
order: DESIGN CHOICE (assumption 15), for R88 orders them in no way and R45 asks for a fixed order without naming it. -/
def performAdd (s : State) : State :=
  let f := curFrame s
  match takeFirst relAdd f.ph.released with
  | none => s
  | some (c, rest) =>
    let s := c.elems.foldl (addApply c.ser) (setCur s { f with ph := { f.ph with released := rest } })
    let s := { s with poison := (c.bad.filter (reaches s)).foldl (fun l a => insertUniq (a / 32) l) s.poison }
    onCur s fun f => { f with sram := l1Drop f.sram (c.elems.flatMap fun x => (upto 4).map (x.1 + ·)) }

/-- R98, R323: the oldest released add-reduce is applied, in the C path's program order, and leaves ST; elements
in another package are sent there first (R107). -/
def execAddReduceApply (s : State) : Out :=
  let f := curFrame s
  .next <| match takeFirst relAdd f.ph.released with
    | none => s
    | some (c, _) =>
      let bytes := c.elems.flatMap fun x => ((upto 4).map (x.1 + ·)).zip (leOf x.2.toNat 4)
      let locs := bytes.map fun a => CLoc.glob a.1 0
      let waits := f.cpe.ops.any fun o => decide (o.n < c.n) && (decide (c.ord = .rel) || locsMeet f.sram locs (opReads o ++ o.dst))
      if waits || !homesServe s (bytes.map (·.1)) then s
      else if bytes.any fun b => isRemote b.1 then
        sendFar s c.n { work := 1, ty := 7, rel := decide (c.ord = .rel), die := c.die, handle := c.handle }
          (fun a => c.bad.any fun x => decide (x / 4 = a / 4)) bytes
      else performAdd s

end Sys2Proof.Machine
end

