-- ==== Sys2Proof/Machine/Engines.lean ====
section
/-! DEFINITION. What ends an engine's wait: the scoreboard's release and the retry of a stalled translation
(R71, R97, R151, R270). -/

namespace Sys2Proof.Machine

/-- The reason an issue waits no longer holds. A wait on a MIGRATING record ends only at a retry. -/
def holdGone (f : Frame) (sl : SlotName) (e : SlotIssue) : Hold → Bool
  | .row =>
    match decodeSlot sl e.w with
    | some i =>
      let fwd := match i with | .bstep _ => true | _ => false
      !mustWait f sl e (foot (ngAt f e.n) e.wfmt i) fwd
    | none => true
  | .portEmpty k => !(tgetD f.vec.fifos k []).isEmpty
  | .portFull k => decide ((tgetD f.vec.fifos k []).length < 8)
  | .granules g => allFull f.sram g
  | .counter 0 => decide (cntLD f < 255)
  | .counter 3 => decide (cntBS f < 255)
  | .counter _ => decide (cntCP f < 255)
  | .copyFull => decide (f.cpe.ops.length < 32)
  | .filling arrays => !arrays.any (shadowFilling f)
  | .reloading arrays => !arrays.any (reloading f)
  | .bldpBusy => f.bead.bldp.isNone
  | .fence => !fenceHolds f sl e.n && !orderedHolds f e
  | .migrating _ => false
  | .record _ _ lines => lines.all fun l => (tget f.recGot l).isSome
  | .subIssue => subBegun f e && !popsDue f e
  | .store => !f.ph.released.any fun r => (relStore r).isSome
  | .load => !farPending f e.n
  | .flags => match decodeSlot .vector e.w with | some (.vflags v) => !flagsDue f e v.sel.toNat | _ => true

/-! ### Rollback (R28, R164, R167) -/

/-- The slot can execute no issue up to number `n` any more: it holds none, or its head waits for what has not come. -/
def slotSpent (f : Frame) (n : Nat) (sl : SlotName) : Bool :=
  match headOf f sl, (slotQ f.seq sl).hold with
  | none, _ => true
  | some e, h => decide (n < e.n) || (match h with | some h => !holdGone f sl e h | none => false)

/-- A global load cannot write its row: its port is full. -/
def loadStuck (f : Frame) (l : GLoad) : Bool :=
  l.far.isNone && l.dst.isPort && decide (setKind f.vec l.dst.port = 3) && decide (8 ≤ (tgetD f.vec.fifos l.dst.port []).length)

/-- A streaming BLDP cannot pop: its port has nothing to give. -/
def bldpStuck (f : Frame) (b : BldpStream) : Bool :=
  setValid f.vec b.port &&
  match setKind f.vec b.port with
  | 3 => (tgetD f.vec.fifos b.port []).isEmpty
  | 1 =>
    let w0 := psetWord f.vec b.port 0
    (match spadRun f false (streamAddr f.vec b.port (tgetD f.vec.ports b.port 0)) (fld (psetWord f.vec b.port 4) 0 9) with
     | .inl as => decide (fld w0 58 2 ≠ 0) && !allFull f.sram (sortUniq (as.map fun a => granOf (sramKey f.sram.split (viewOf w0) a)))
     | .inr _ => false)
  | _ => false

/-- The operations of the open phase that come before a fault's issue, and that its engine would have completed first at a
level that splits (R171), have completed or cannot: a load or atomic, a reload or a copy may still raise the earlier
fault. -/
def earlierDone (f : Frame) (x : L2Fault) : Bool :=
  let mine (n : Nat) : Bool := decide (f.ph.snap.issueNo ≤ n) && decide (n < x.n)
  f.vec.loads.all (fun l => !(mine l.n || (decide (l.n = x.n) && decide (1 < x.slot))) || loadStuck f l) &&
    f.cpe.ops.all (fun o => !mine o.n || awaitsCommit f o) && f.bead.bldp.all fun b => !mine b.n || bldpStuck f b

/-- The issues up to the earliest fault have executed as far as they can, so that the fault reported is that of the
earliest issue, in slot order, at every splitting level (R28, R167). -/
def rollbackReady (f : Frame) : Bool :=
  match earliest f.ph.faults with
  | none => false
  | some x =>
    slotSpent f x.n .bead && slotSpent f x.n .vector && slotSpent f x.n .copy && earlierDone f x && !releasing f &&
      f.bead.bwb.all (fun b => decide (x.n < b.n)) &&
      !(decide (f.seq.sub < 3) && subDone f && [SlotName.bead, .vector, .copy].any fun sl =>
        decide ((slotQ f.seq sl).hold = some .subIssue) && (headOf f sl).any fun e => decide (e.n ≤ x.n))

/-- Writes or atomics of the open phase are on their way to another package: a cancelled operation can still write (R164). -/
def writesOut (s : State) : Bool :=
  (s.edge.flitsWait ++ s.edge.parked).any fun o => decide (o.frame = s.cur) && (decide (o.work = 3) || decide (o.work = 8)) &&
    decide ((curFrame s).ph.snap.issueNo ≤ o.n)

/-- R164: cancel what is in flight, wait until no cancelled operation can still write, and restore the phase start. A fault
raised after a pre-emption point has landed is kept for the image instead (R331); one of a frame that an event holds waits
(R362). -/
def execRollback (s : State) : Out :=
  let f := curFrame s
  .next <| match earliest f.ph.faults with
    | some e => if landed f || !f.disp.fetch.isEmpty || !rollbackReady f || writesOut s || decide (f.disp.evHeld ≠ 0) then s else setCur s (rollbackFor f e)
    | none => s

/-- The engine tries its head issue again. -/
def clearHold (f : Frame) (sl : SlotName) : Frame :=
  { f with seq := setSlotQ f.seq sl { slotQ f.seq sl with hold := none } }

/-- R151: the scoreboard releases the head issue of an engine once what it waited for has come. -/
def execScoreboardRelease (slot : SlotName) (s : State) : Out :=
  let f := curFrame s
  .next <| match headOf f slot, (slotQ f.seq slot).hold with
    | some e, some h => if holdGone f slot e h then setCur s (clearHold f slot) else s
    | _, _ => s

/-- R71, R371: a stalled translation reads the handle table again, or what another package holds: the engine's issue, or the generator's
instruction, is made again. -/
def execTranslationRetry (slot : Option SlotName) (s : State) : Out :=
  let f := curFrame s
  .next <| match slot with
    | some sl =>
      match (slotQ f.seq sl).hold with
      | some (.migrating _) | some (.record ..) => setCur s (clearHold f sl)
      | _ => s
    | none =>
      match f.gen.stall with
      | some (.translation _) => onGen s fun g => { g with stall := none }
      | _ => s

end Sys2Proof.Machine
end

