-- ==== Sys2Proof/Machine/Threads.lean ====
section
/-! DEFINITION. Waits, groups and barriers, launch and exit (R19 to R24, R191 to R196, R348 to R352, R354,
R363, R379, R388). -/

namespace Sys2Proof.Machine

/-! ### Thread control blocks (R354) -/

/-- STATE of a control block. -/
def tcbState (s : State) (tcb : Nat) : Nat := fld (tcbGet s tcb 0) 61 3
def setTcbState (s : State) (tcb v : Nat) : State := tcbPut s tcb 0 (fput (tcbGet s tcb 0) 61 3 v)

/-! ### Groups (R22, R23, R363) -/

def groupKey (part g : Nat) : Nat := 4096 * part + g

/-- Membership record j: word 16 + 2j. -/
def memberOf (s : State) (tcb j : Nat) : Word := tcbGet s tcb (16 + 2 * j)
def memberValid (s : State) (tcb j : Nat) : Bool := fbit (memberOf s tcb j) 63

/-- The record by which a thread belongs to a group. -/
def memberIn (s : State) (tcb g : Nat) : Option Nat :=
  (upto 8).find? fun j => memberValid s tcb j && decide (fld (memberOf s tcb j) 0 12 = g)

def joinEpoch (s : State) (tcb j : Nat) : BitVec 32 := (tcbGet s tcb (17 + 2 * j)).extractLsb' 32 32
def arrEpoch (s : State) (tcb j : Nat) : BitVec 32 := (tcbGet s tcb (17 + 2 * j)).extractLsb' 0 32

/-- JEP − EPOCH is positive. A join sets JEP to EPOCH + 1 at most and EPOCH only grows, so a greater difference is that
of a record left more than 2^31 completions behind, which is neither late nor pending (assumption 42). -/
def memberLate (s : State) (tcb j : Nat) (g : Group) : Bool := decide (joinEpoch s tcb j - g.epoch = 1)

/-- ARR is 1 and AEP − EPOCH is not negative; AEP is EPOCH + 1 at most, as for `memberLate`. -/
def memberPending (s : State) (tcb j : Nat) (g : Group) : Bool :=
  fbit (memberOf s tcb j) 62 && decide ((arrEpoch s tcb j - g.epoch).toNat ≤ 1)

/-- check of R363; it repeats itself at most twice. -/
def groupCheck : Nat → Group → Bool → Group
  | 0, g, _ => g
  | n + 1, g, byLeave =>
    if (g.arrived = g.members ∧ 0 < g.arrived) ∨ (byLeave ∧ g.members = 0) then
      groupCheck n { g with epoch := g.epoch + 1, members := g.members + g.lateM, arrived := g.lateA,
                            lateM := 0, lateA := 0 } false
    else g

/-- Write a group entry. -/
def setGroup (s : State) (key : Nat) (g : Group) : State := { s with groups := tset s.groups key g }

/-- leave of R363 for membership record j. -/
def leaveGroup (s : State) (part tcb j : Nat) : State :=
  let w := memberOf s tcb j
  let key := groupKey part (fld w 0 12)
  let s' := tcbPut s tcb (16 + 2 * j) (fput w 63 1 0)
  match tget s.groups key with
  | none => s'
  | some g =>
    let one (b : Bool) : BitVec 24 := if b then 1 else 0
    let p := memberPending s tcb j g
    let g := if memberLate s tcb j g then { g with lateM := g.lateM - 1, lateA := g.lateA - one p }
      else { g with members := g.members - 1, arrived := g.arrived - one p }
    setGroup s' key (groupCheck 3 g true)

/-- Leave every group. -/
def leaveAll (s : State) (part tcb : Nat) : State :=
  (upto 8).foldl (fun s j => if memberValid s tcb j then leaveGroup s part tcb j else s) s

/-- The group a register names, when it is below 4096 and created. -/
def groupOf (s : State) (r : Word) : Option Group :=
  if 4095 < r.toNat then none else tget s.groups (groupKey (curPart s) r.toNat)

/-- R194: join. -/
def execGjoin (rd rs1 : BitVec 5) (s : State) : Out :=
  let r := rx (curFrame s).gen rs1
  let tcb := curTcb s
  .next <| match groupOf s r with
    | none => retireWith s rd 3
    | some g =>
      if (memberIn s tcb r.toNat).isSome then retireWith s rd 1
      else match (upto 8).find? fun j => !memberValid s tcb j with
        | none => retireWith s rd 2
        | some j =>
          let late := decide (g.arrived ≠ 0)
          let jep := if late then g.epoch + 1 else g.epoch
          let g := if late then { g with lateM := g.lateM + 1 } else { g with members := g.members + 1 }
          let s := tcbPut s tcb (16 + 2 * j) (mk64 [(63, 1, 1), (0, 12, r.toNat)])
          let s := tcbPut s tcb (17 + 2 * j) (fput (tcbGet s tcb (17 + 2 * j)) 32 32 jep.toNat)
          retireWith (setGroup s (groupKey (curPart s) r.toNat) g) rd 0

/-- R194: leave. -/
def execGleave (rd rs1 : BitVec 5) (s : State) : Out :=
  let r := rx (curFrame s).gen rs1
  .next <| match groupOf s r with
    | none => retireWith s rd 3
    | some _ =>
      match memberIn s (curTcb s) r.toNat with
      | none => retireWith s rd 1
      | some j => retireWith (leaveGroup s (curPart s) (curTcb s) j) rd 0

/-- R23, R194: arrive. The arrival that completes the barrier also acquires. -/
def execGbar (rd rs1 : BitVec 5) (s : State) : Out :=
  let r := rx (curFrame s).gen rs1
  let tcb := curTcb s
  .next <| match groupOf s r with
    | none => retireWith s rd 4
    | some g =>
      match memberIn s tcb r.toNat with
      | none => retireWith s rd 3
      | some j =>
        if memberPending s tcb j g then retireWith s rd 2
        else
          let late := memberLate s tcb j g
          let aep := if late then joinEpoch s tcb j else g.epoch
          let s := tcbPut s tcb (16 + 2 * j) (fput (memberOf s tcb j) 62 1 1)
          let s := tcbPut s tcb (17 + 2 * j) (fput (tcbGet s tcb (17 + 2 * j)) 0 32 aep.toNat)
          let g := if late then { g with lateA := g.lateA + 1 } else { g with arrived := g.arrived + 1 }
          let g := groupCheck 3 g false
          let s := setGroup s (groupKey (curPart s) r.toNat) g
          if memberPending s tcb j g then retireWith s rd 0 else retireWith (l1Invalidate s) rd 1

/-! ### GWAIT (R191 to R193) -/

/-- Words of entry n. -/
def condWord (blk : List Word) (n i : Nat) : Word := wd blk (4 * n + i)
def condKind (blk : List Word) (n : Nat) : Nat := fld (condWord blk n 0) 56 8

/-- Entry n has a field or bit that makes the block bad (R192). -/
def condBad (blk : List Word) (n : Nat) : Bool :=
  let w := condWord blk n
  let rest := decide (w 1 ≠ 0) || decide (w 2 ≠ 0) || decide (w 3 ≠ 0)
  match condKind blk n with
  | 0 => decide (w 0 ≠ 0) || rest
  | 1 => !onlyBits (w 0) [(56, 8), (52, 4), (50, 2), (48, 2), (46, 2)] || decide (5 < fld (w 0) 52 4) ||
         decide (1 < fld (w 0) 48 2)
  | 2 => !onlyBits (w 0) [(56, 8), (0, 12)] || rest
  | 3 => !onlyBits (w 0) [(56, 8), (0, 10)] || decide (512 < fld (w 0) 0 10) || rest
  | 4 => !onlyBits (w 0) [(56, 8), (0, 32)] || rest
  | _ => true

/-- A bad block: no used entry, or a bad entry. -/
def blockBad (blk : List Word) : Bool :=
  ((upto 4).all fun n => decide (condKind blk n = 0)) || (upto 4).any (condBad blk)

def scopeOfCode : Nat → Scope
  | 0 => .fr | 1 => .die | 2 => .pkg | _ => .sys

/-- The comparison of a MEM entry on `len` loaded bytes (R192). -/
def condCmp (cmp len : Nat) (bs : List Byte) (value mask : Word) : Bool :=
  let u := BitVec.ofNat 64 (leNat bs) &&& mask
  let i := BitVec.ofInt 64 (sgn (8 * len) (leNat bs)) &&& mask
  let v := value &&& mask
  match cmp with
  | 0 => decide (u = v)
  | 1 => decide (u ≠ v)
  | 2 => u.ult v
  | 3 => !u.ult v
  | 4 => i.slt v
  | _ => !i.slt v

/-- One entry: whether it is true, or the fault or wait that a MEM address meets. -/
inductive CondRes
  | val (b : Bool) (s : State)
  | stop (s : State)

/-- Evaluate entry n. -/
def condEval (s : State) (blk : List Word) (n : Nat) : CondRes :=
  let w := condWord blk n
  let f := curFrame s
  let lim (lo : Nat) := fld (w 0) lo 8
  match condKind blk n with
  | 1 =>
    let len := 2 ^ fld (w 0) 50 2
    match genLoad s (w 1) len (if fld (w 0) 48 2 = 1 then .acq else .rlx) (scopeOfCode (fld (w 0) 46 2)) with
    | .stop s => .stop s
    | .ok bs _ s => .val (condCmp (fld (w 0) 52 4) len bs (w 2) (w 3)) s
  | 2 =>
    let pend := match tget s.groups (groupKey (curPart s) (fld (w 0) 0 12)),
        memberIn s (curTcb s) (fld (w 0) 0 12) with
      | some g, some j => memberPending s (curTcb s) j g
      | _, _ => false
    .val (!pend) s
  | 3 => .val (decide (f.seq.queue.length ≤ fld (w 0) 0 10)) s
  | 4 => .val (decide (cntLD f ≤ lim 24) && decide (cntST f ≤ lim 16) && decide (cntCP f ≤ lim 8) &&
      decide (cntBS f ≤ lim 0)) s
  | _ => .val false s

/-- Evaluate the used entries in order: the mask of those that are true. -/
def blockEval (blk : List Word) : List Nat → State → CondRes × Nat
  | [], s => (.val true s, 0)
  | n :: r, s =>
    if condKind blk n = 0 then blockEval blk r s
    else match condEval s blk n with
      | .stop s => (.stop s, 0)
      | .val b s => let x := blockEval blk r s; (x.1, x.2 + if b then 2 ^ n else 0)

/-- Mask of the used entries. -/
def usedMask (blk : List Word) : Nat :=
  (upto 4).foldl (fun m n => if condKind blk n = 0 then m else m + 2 ^ n) 0

/-- The GWAIT ends with this mask and code. -/
def gwaitDone (s : State) (rd : BitVec 5) (mask code : Nat) : State :=
  onGen (retireWith s rd (BitVec.ofNat 64 (256 * mask + code))) fun g =>
    { g with kept := g.kept.filter fun k => decide (k.1 ≠ (curFrame s).gen.pc) }

/-- An evaluation whose MEM entry waits, on a MIGRATING record or for another package, is made again; the block, which step 1
has read, is not (R71, R191). -/
def gwaitAgain (s : State) (all : Bool) (rd : BitVec 5) (blk : List Word) (deadline : Option Nat) : State :=
  let f := curFrame s
  let wait (f : Frame) : State := setCur s { f with gen := { f.gen with stall := some (.gwait all rd blk deadline) } }
  match f.gen.stall with
  | some (.translation h) => wait { f with rem := some { remNow { f with rem := none } with migr := some h } }
  | _ => if remWaits f then wait f else s

/-- One evaluation: the wait is met, times out, or goes on (R191). A true BARRIER entry of a wait that is
met acquires at package scope (R193). -/
def gwaitTry (s : State) (all : Bool) (rd : BitVec 5) (blk : List Word) (deadline : Option Nat) : State :=
  let late := match deadline with | some d => decide (d ≤ s.time) | none => false
  match blockEval blk (upto 4) s with
  | (.stop s, _) => gwaitAgain s all rd blk deadline
  | (.val _ s, mask) =>
    let s := onCur s fun f => { f with rem := none }
    let met := if all then decide (mask = usedMask blk) else decide (mask ≠ 0)
    if met then
      let bar := (upto 4).any fun n => decide (condKind blk n = 2) && Nat.testBit mask n
      gwaitDone (if bar then l1Invalidate s else s) rd mask 0
    else if late then gwaitDone s rd mask 1
    else onGen s fun g => { g with stall := some (.gwait all rd blk deadline) }

/-- Deadline of a timeout from now; an abandoned GWAIT executed again keeps its own (R193). -/
def gwaitDeadline (s : State) (t : Word) : Option Nat :=
  let g := (curFrame s).gen
  match g.kept.find? fun k => decide (k.1 = g.pc) with
  | some k => k.2
  | none => if fld t 0 48 = 2 ^ 48 - 1 then none else some (s.time + fld t 0 48)

/-- Steps 1 to 3 of R191. -/
def gwaitStart (s : State) (all : Bool) (rd rs1 rs2 : BitVec 5) : State :=
  let g := (curFrame s).gen
  let a := rx g rs1
  let t := rx g rs2
  if a.toNat % 32 ≠ 0 then takeL1 s causeLoadAlign a
  else match genLoads s ((upto 16).map fun i => a + BitVec.ofNat 64 (8 * i)) with
    | .stop s => s
    | .ok bs _ s =>
      let blk := wordsOf 16 bs
      if blockBad blk then gwaitDone s rd 0 2
      else gwaitTry s all rd blk (gwaitDeadline s t)

def execGwaitAny (rd rs1 rs2 : BitVec 5) (s : State) : Out := .next (gwaitStart s false rd rs1 rs2)
def execGwaitAll (rd rs1 rs2 : BitVec 5) (s : State) : Out := .next (gwaitStart s true rd rs1 rs2)

/-- R191: the waiting GWAIT evaluates again, unless an event holds its frame (R362). -/
def execGwaitEvaluate (s : State) : Out :=
  .next <| match (curFrame s).gen.stall with
    | some (.gwait all rd blk d) => if (curFrame s).disp.evHeld = 0 then gwaitTry s all rd blk d else s
    | _ => s

/-- R191: the last evaluation, at or after the deadline. -/
def execGwaitDeadline (s : State) : Out :=
  .next <| match (curFrame s).gen.stall with
    | some (.gwait all rd blk (some d)) => if d ≤ s.time ∧ (curFrame s).disp.evHeld = 0 then gwaitTry s all rd blk (some d) else s
    | _ => s

/-! ### Launch (R195, R348 to R352) -/

/-- How the checks of a launch record end. -/
inductive LaunchRes
  | pass (done : List Nat)
  | notNow
  | fail
  | stall (handle : Nat)
  deriving DecidableEq, Repr

/-- Reserved bits and alignments of a record (R348). -/
def launchForm (w : List Word) : Bool :=
  onlyBits (wd w 0) [(16, 20), (8, 4), (6, 2), (0, 6)] && onlyBits (wd w 3) [(0, 32)] &&
    decide (fld (wd w 1) 0 1 = 0) && decide (fld (wd w 2) 0 3 = 0) && decide (fld (wd w 4) 0 3 = 0) &&
    decide (wd w 5 = 0) && decide (wd w 6 = 0) && decide (wd w 7 = 0)

/-- Addresses to try for the bytes from `a` on: the first, the last and every multiple of 256 between, which
are the places where a window, stripe, sub-tile, extent check or handle can change. The extent is a byte count,
so the last byte decides it. -/
def rangeProbes (a : Word) (len : Nat) : List Word :=
  let first := 256 - a.toNat % 256
  [a, a + BitVec.ofNat 64 (len - 1)] ++
    ((upto ((len - first + 255) / 256)).map fun i => a + BitVec.ofNat 64 (first + 256 * i))

/-- The die that holds an address of a record; HOME_DIE where another package does (R371). -/
def holderOf (ws : List Word) (a : Nat) : Nat := if homeOf a = 4 then recHomeDie ws else homeOf a

/-- The die that a translation of a handle which met HOME_OFFLINE at an offset waits for: that of the handle-table entry, of
the extension record, of the residency-map word, or the byte's home. -/
def awayFor (s : State) (fr h off : Nat) : Nat :=
  let die := dieOf s (fr / Config.framesPerDie)
  let base := fld die.useBase 12 36 * 4096
  match (rcLookup s fr h).1 with
  | .found e =>
    let map := recMap e.words + 8 * (off / (64 * recTile e.words))
    if recMapped e.words && decide (ptrWin s die.part e.words map = .offline) then holderOf e.words map
    else holderOf e.words (devAddr e.words off)
  | _ =>
    let ws := (readRecord s base h).1
    if serves s (homeOf (base + 128 * h)) then holderOf ws (recExt ws) else homeOf (base + 128 * h)

/-- What a translation that met HOME_OFFLINE waits for has FAILED for good: it is under no warm reset (R349, R388). -/
def homeFailed (s : State) (fr h off : Nat) : Bool := decide ((dieOf s (awayFor s fr h off)).st = .failed)

/-- Add to a completion word. -/
def doneAdd (s : State) (das : List Nat) (v : Word) : State :=
  gwrite s none (zipBytes das (wordBytes (bytesWord (gread s das) + v)))

/-- An addition to a completion word in another package is on its way; `n` is its key in `Edge.doneRes`. -/
def doneOut (s : State) (n : Nat) : Bool :=
  (s.edge.flitsWait ++ s.edge.parked).any fun o => decide (o.work = 10) && decide (o.n = n)

/-- Ask another package for the addition: an atomic flit with release carries it (R21, R93, R370). -/
def doneSend (s : State) (fr h n : Nat) (das : List Nat) (v : Word) : State :=
  sendRemote s fr n { work := 10, ty := 5, rel := true, die := handleDie s fr h, handle := h } (fun _ => false)
    (zipBytes das (wordBytes v))

/-- An answer to an addition is taken. -/
def dropDone (s : State) (n : Nat) : State := { s with edge := { s.edge with doneRes := terase s.edge.doneRes n } }

/-- Translate each address and join the answers: a failure outweighs a stall, which outweighs HOME_OFFLINE. -/
def tryAll (fr : Nat) (need : Need) : List Word → State → LaunchRes × State
  | [], s => (.pass [], s)
  | a :: r, s =>
    match translate s fr (tagHandle a) need [tagOff a] with
    | (.err .homeOffline off _, s) =>
      if homeFailed s fr (tagHandle a) off then (.fail, s)
      else
      let x := tryAll fr need r s
      (match x.1 with | .pass _ => .notNow | y => y, x.2)
    | (.err .., s) => (.fail, s)
    | (.stall, s) =>
      let x := tryAll fr need r s
      (match x.1 with | .fail => .fail | _ => .stall (tagHandle a), x.2)
    | (.far die lines, s) =>
      let x := tryAll fr need r (askLines s fr (tagHandle a) 11 die lines)
      (match x.1 with | .fail => .fail | _ => .stall (tagHandle a), x.2)
    | (.ok das _, s) =>
      let x := tryAll fr need r s
      (match x.1 with | .pass l => .pass (das ++ l) | y => y, x.2)

/-- Both answers together. -/
def joinRes : LaunchRes → LaunchRes → LaunchRes
  | .fail, _ => .fail
  | _, .fail => .fail
  | .stall h, _ => .stall h
  | _, .stall h => .stall h
  | .notNow, _ => .notNow
  | _, .notNow => .notNow
  | .pass _, .pass l => .pass l

/-- The checks of R349 for a submitter of partition `part`, translated as the frame `fr` does. -/
def launchChecks (s : State) (fr part : Nat) (w : List Word) : LaunchRes × State :=
  let die := fld (wd w 0) 6 2
  let n := fld (wd w 0) 16 20 + 1
  if !(launchForm w && decide ((dieOf s die).st = .admitted) && decide ((dieOf s die).part = part)) then (.fail, s)
  else
    let (a, s) := tryAll fr needX [wd w 1, wd w 1 + 1] s
    let (b, s) := tryAll fr needR (rangeProbes (wd w 2) ((n - 1) * fld (wd w 3) 0 32 + 8)) s
    let (c, s) := tryAll fr needRW ((upto 8).map fun i => wd w 4 + BitVec.ofNat 64 i) s
    (joinRes a (joinRes b c), s)

/-- A live update holds launches back from its step 2 on (R385). -/
def updateHolds (s : State) : Bool := match s.hub.op with | some (.update n) => decide (2 ≤ n) | _ => false

/-- Threads of a record. -/
def launchCount (w : List Word) : Word := BitVec.ofNat 64 (fld (wd w 0) 16 20 + 1)

/-- The record enters its queue (R350); an empty queue posts LAUNCH (R362). -/
def launchEnter (s : State) (part : Nat) (w : List Word) : State :=
  let die := fld (wd w 0) 6 2
  let q := fld (wd w 0) 0 6
  let d := dieOf s die
  let was := tgetD d.queues q []
  let s := setDie s die { d with queues := tset d.queues q (was ++ [{ w := w, taken := 0 }]) }
  if was.isEmpty then
    postEvent s part { kind := 8, die := die, frame := 0, tid := 0, detail := mk64 [(0, 6, q), (6, 2, die)] }
  else s

/-- Add to the word at DONE and enter the queue (R350). -/
def launchAccept (s : State) (part : Nat) (w : List Word) (done : List Nat) : State :=
  launchEnter (doneAdd s done (launchCount w)) part w

/-- Key of a word of an aperture slot; LA_CTL is word 8. Words 16 to 23 keep the record of a submission in progress. -/
def apertKey (part slot i : Nat) : Nat := 512 * part + 32 * slot + i

/-- Key of a slot's addition at DONE in `Edge.doneRes`. -/
def slotKey (part slot : Nat) : Nat := 2 * (4 * part + slot) + 1

/-- Accepted records whose addition at DONE is on its way: of GLAUNCHes and of aperture slots. -/
def launchesOut (s : State) : List (List Word) :=
  (s.frames.filterMap fun e => e.2.rem.map Remote.launch).filter (fun w => !w.isEmpty) ++
    ((upto 16).filter fun k => doneOut s (2 * k + 1) || (tget s.edge.doneRes (2 * k + 1)).isSome).map fun k =>
      (upto 8).map fun i => tgetD s.hub.apert (apertKey (k / 4) (k % 4) (16 + i)) 0

/-- The queue that a record names takes no record now: it holds 256, accepted ones on their way counted, or a live update
holds launches back. -/
def queueFull (s : State) (w : List Word) : Bool :=
  let same (x : List Word) : Bool := decide (fld (wd x 0) 0 8 = fld (wd w 0) 0 8)
  decide (256 ≤ (tgetD (dieOf s (fld (wd w 0) 6 2)).queues (fld (wd w 0) 0 6) []).length + ((launchesOut s).filter same).length) ||
    updateHolds s

/-- A record that passes into a queue with room and counts its threads in another package: DONE's addresses. -/
def farDone (s : State) (fr part : Nat) (w : List Word) : Option (List Nat × State) :=
  match launchChecks s fr part w with
  | (.pass done, s) => if done.any isRemote && !queueFull s w then some (done, s) else none
  | _ => none

/-- Submit a record: its status and the state after, or the handle it stalls on. From step 2 of a live update on every record has
status 1 (R385). -/
def submit (s : State) (fr part : Nat) (w : List Word) : (Nat ⊕ Nat) × State :=
  if updateHolds s then (.inl 1, s)
  else match launchChecks s fr part w with
  | (.fail, s) => (.inl 2, s)
  | (.stall h, s) => (.inr h, s)
  | (.notNow, s) => (.inl 1, s)
  | (.pass done, s) =>
    if queueFull s w then (.inl 1, s) else (.inl 0, launchAccept s part w done)

/-- A GLAUNCH whose completion word lies in another package: the record, read and checked, waits for the addition there, and
enters its queue with the answer. A refused addition is a failed check (R349, R372). -/
def launchFar (s : State) (rd : BitVec 5) (w : List Word) (das : List Nat) : State :=
  match (remNow (curFrame s)).err with
  | some c => retireWith (onCur s fun f => { f with rem := none }) rd (if c = .homeOffline then 1 else 2)
  | none =>
    match genFarWrite s (wd w 4) 6 5 true .add (zipBytes das (wordBytes (launchCount w))) with
    | .stop s => onCur s fun f => { f with rem := f.rem.map fun r => { r with launch := w } }
    | .ok _ _ s => retireWith (launchEnter (onCur s fun f => { f with rem := none }) (curPart s) w) rd 0

/-- Lines of a record or map have been asked for, for the frame. -/
def linesAsked (s : State) (fr : Nat) : Bool :=
  (s.edge.flitsWait ++ s.edge.parked).any fun o => decide (o.frame = fr) && decide (o.work = 11)

/-- R195. -/
def execGlaunch (rd rs1 : BitVec 5) (s : State) : Out :=
  let f := curFrame s
  let a := rx f.gen rs1
  let held := (remNow f).launch
  .next <|
    if !held.isEmpty then launchFar s rd held (((heldXl f (wd held 4) 8 false).map HeldXl.das).getD [])
    else if a.toNat % 64 ≠ 0 then takeL1 s causeLoadAlign a
    else match genLoads s ((upto 8).map fun i => a + BitVec.ofNat 64 (8 * i)) with
      | .stop s => s
      | .ok bs _ s =>
        match farDone s s.cur (curPart s) (wordsOf 8 bs) with
        | some (das, s) => launchFar s rd (wordsOf 8 bs) das
        | none =>
        match submit s s.cur (curPart s) (wordsOf 8 bs) with
        | (.inl st, s) => retireWith s rd (BitVec.ofNat 64 st)
        | (.inr h, s) => if linesAsked s s.cur then genAsk s else genStall s h

/-! ### Exit (R196, R388) -/

/-- What becomes of a completion word's decrement. -/
inductive DecRes
  | made (s : State)
  /-- not made: the class the event reports -/
  | lost (code : Nat) (s : State)
  /-- held until a die returns -/
  | held (die : Nat)
  /-- the record is MIGRATING, or another package has been or is to be asked -/
  | stall
  deriving DecidableEq, Repr

/-- Translate the completion word that a control block names, as frame `fr` does. -/
def doneXl (s : State) (fr tcb : Nat) : Xl × State :=
  let a := tcbGet s tcb 4
  translate s fr (tagHandle a) needRW ((upto 8).map (tagOff a + ·))

/-- Decrement the word that a control block names (R388). A decrement in another package has been asked for and has its
answer in `Edge.doneRes`. -/
def doneDec (s : State) (fr tcb : Nat) : DecRes :=
  let h := tagHandle (tcbGet s tcb 4)
  match tget s.edge.doneRes (2 * tcb) with
  | some 0 => .made (dropDone s (2 * tcb))
  | some c => .lost c (dropDone s (2 * tcb))
  | none =>
    if doneOut s (2 * tcb) then .stall
    else match doneXl s fr tcb with
    | (.ok das _, s) => if das.any isRemote then .stall else .made (doneAdd s das (-1))
    | (.err .homeOffline off _, s') => if homeFailed s fr h off then .lost 8 s' else .held (awayFor s fr h off)
    | (.err c _ _, s) => .lost c.code s
    | (.stall, _) | (.far .., _) => .stall

/-- Detail of an EXIT or KILLED event. -/
def decDetail : Option Nat → Word
  | none => 0
  | some c => mk64 [(63, 1, 1), (0, 8, c)]

/-- The home of a control block is under warm reset: what would end its thread is held (R379). -/
def tcbAway (s : State) (tcb : Nat) : Bool := !serves s (homeOf tcb) && decide ((dieOf s (homeOf tcb)).st ≠ .failed)

/-- Ask another package for what the end of a thread needs: lines of the completion word's record, or the decrement, before
which the thread leaves its groups (R196). -/
def doneAsk (s : State) (fr part tcb : Nat) : State :=
  let h := tagHandle (tcbGet s tcb 4)
  if tcbAway s tcb || doneOut s (2 * tcb) || (tget s.edge.doneRes (2 * tcb)).isSome then s
  else match doneXl s fr tcb with
    | (.ok das _, s') => if das.any isRemote then doneSend (leaveAll s' part tcb) fr h (2 * tcb) das (-1) else s
    | (.far die lines, s') => askLines s' fr h 11 die lines
    | _ => s

/-- The thread of a control block ends: it leaves its groups, the word is decremented, STATE is set and the
event posted. None while the block's or the word's home is under warm reset (R379), the word's record is
MIGRATING, or another package has still to answer: all of it is done later, and the frame that runs the thread is freed last (R196, R361). -/
def endThread (s : State) (fr part tcb : Nat) (killed : Bool) : Option State :=
  let tid := (tcbGet s tcb 0).extractLsb' 0 32
  let finish (s : State) (lost : Option Nat) : State :=
    let s := setTcbState (leaveAll s part tcb) tcb (if killed then 4 else 3)
    let s := { s with counted := s.counted.filter (fun c => decide (c.1 ≠ tcb)),
                      carried := s.carried.filter fun c => !(decide (c.part = part) && decide (c.tid = tid)) }
    postFrameEvent s fr (if killed then 4 else 1) tid (decDetail lost)
  if tcbAway s tcb then none
  else match doneDec s fr tcb with
    | .made s => some (finish s none)
    | .lost c s => some (finish s (some c))
    | .held _ | .stall => none

/-- The die at which the end of a thread that no frame runs is held. -/
def heldAt (s : State) (die fr tcb : Nat) : Nat :=
  if tcbAway s tcb then homeOf tcb
  else match doneDec s fr tcb with | .held d => d | _ => die

/-- The end of a thread is held: for every other command it has ended (R361, R364). -/
def endHeld (s : State) (tcb : Nat) : Bool := (upto 4).any fun d => (dieOf s d).heldExit.any fun h => decide (h.1 = tcb)

/-- End a thread that no frame runs, now or when what holds it back is gone. -/
def endOrHold (s : State) (die fr tcb : Nat) (killed : Bool) : State :=
  let part := (dieOf s die).part
  match endThread s fr part (reachTcb s part tcb) killed with
  | some s => s
  | none =>
    let d := heldAt s die fr tcb
    let s := doneAsk s fr part (reachTcb s part tcb)
    setDie s d { dieOf s d with heldExit := (dieOf s d).heldExit ++ [(tcb, killed, fr)] }

/-- Exits and kills held at a die are made (R379, R388); one that still waits stays. -/
def releaseExits (s : State) (die : Nat) : State :=
  let held := (dieOf s die).heldExit
  held.foldl (fun s h => endOrHold s die h.2.2 h.1 h.2.1) (setDie s die { dieOf s die with heldExit := [] })

/-- Free a frame: its running entry empties and nothing of the thread goes on. -/
def freeFrame (f : Frame) : Frame :=
  { f with gen := { f.gen with stall := none, resv := none, exiting := false, halted := true },
           disp := { f.disp with running := none, req := none, fault := none, fetch := [],
                                 posted := [] } }

/-- Every counter is zero. -/
def countersZero (f : Frame) : Bool :=
  decide (cntLD f = 0) && f.ph.released.isEmpty && decide (cntCP f = 0) && decide (cntBS f = 0)

/-- The steps of a GEXIT before the thread's end are done (R196). -/
def exitReady (f : Frame) : Bool :=
  f.gen.exiting && decide (f.seq.stage = .boundary) && countersZero f && f.ph.faults.isEmpty

/-- R196: the instruction executes again until each of its steps is done. In the handler of a level-2 fault,
which GEXIT never returns from, it first resolves the fault as the return does (R165, R207). -/
def execGexit (s : State) : Out :=
  let f := curFrame s
  .next <|
    if f.ph.pending.isSome && f.gen.h.inH && !f.gen.h.l2pend then setCur s (resolveL2 f false)
    else if !f.gen.exiting then
      if streamDrained f && decide (f.seq.stage = .boundary) && queuesEmpty f && f.ph.faults.isEmpty then
        setCur s { f with seq := { f.seq with stage := .commit }, gen := { f.gen with exiting := true } }
      else s
    else if exitReady f then
      match endThread s s.cur (curPart s) (curTcb s) false with
      | some s => onCur s freeFrame
      | none => doneAsk s s.cur (curPart s) (curTcb s)
    else s

end Sys2Proof.Machine
end

