-- ==== Sys2Proof/Machine/GenCsr.lean ====
section
/-! DEFINITION. The CSRs: status registers of a frame, handler registers, and the return from the handler
(R18, R74, R145, R156, R159, R168, R173, R178, R184, R190, R207 to R209, R226, R234, R263, R273, R276, R308,
R328). -/

namespace Sys2Proof.Machine

/-! ### Status registers -/

def beadCode : BeadFmt → Nat
  | .i8 => 0 | .mx8 => 9 | .mx6 => 10 | .mx4 => 11

/-- CLK_STAT (R18). -/
def clkStat (f : Frame) : Word :=
  let c := f.clk
  mk64 [(48, 16, match c.cool with | some n => ceilDiv n 65536 | none => 0),
        (38, 2, if c.cool.isSome then 2 else if c.grant.isSome then 1 else 0),
        (24, 6, c.gen.toNat), (16, 6, c.exec.toNat), (8, 6, c.copy.toNat)]

/-- FMT (R159). -/
def fmtStat (f : Frame) : Word :=
  let m := f.seq.fmt
  let p := m.pend.find? fun p => decide (p.left ≠ 0)
  mk64 [(16, 3, match p with | some p => p.left | none => 0),
        (12, 4, match p with | some p => beadCode p.afmt | none => 0),
        (8, 4, match p with | some p => beadCode p.wfmt | none => 0),
        (4, 4, beadCode m.afmt), (0, 4, beadCode m.wfmt)]

/-- SEQ_POS (R145). -/
def seqPos (f : Frame) : Word := mk64 [(0, 48, f.seq.pos)]

/-- CNT_STAT (R156). -/
def cntStat (f : Frame) : Word :=
  mk64 [(24, 8, cntLD f), (16, 8, cntST f), (8, 8, cntCP f), (0, 8, cntBS f)]

/-- PHASE_STAT (R168). -/
def phaseStat (f : Frame) : Word :=
  mk64 [(32, 9, min 256 f.ph.undo.length), (16, 10, f.seq.kept), (0, 8, f.ph.replays)]

/-- PWR_STAT (R173). -/
def pwrStat (f : Frame) : Word :=
  mk64 [(62, 2, f.clk.level), (30, 30, f.clk.l1cnt.toNat), (0, 30, f.clk.l2cnt.toNat)]

/-- EMIT_STAT (R190). -/
def emitStat (f : Frame) : Word := mk64 [(32, 32, f.gen.qfull.toNat), (0, 32, f.gen.emitSer.toNat)]

/-- BEAD_STAT (R234). -/
def beadStat (f : Frame) : Word :=
  let b := f.bead
  mk64 [(58, 6, b.chkArray), (56, 2, b.chkSeg), (55, 1, b.chkValid.toNat), (54, 1, f.ph.forced.toNat),
        (53, 1, b.digital.toNat), (16, 16, b.chkCnt)]

/-- A word with bit i set where `p i`. -/
def bitsWord (n : Nat) (p : Nat → Bool) : Word :=
  BitVec.ofNat 64 ((upto n).foldl (fun w i => w + if p i then 2 ^ i else 0) 0)

/-- SLATE_STAT (R263). -/
def slateStat (f : Frame) : Word := mk64 ((upto 16).map fun k => (2 * k, 2, (tgetD f.vec.slates k 2).toNat))

/-- BANK_STAT_LO and BANK_STAT_HI (R276). -/
def bankStat (f : Frame) (hi : Bool) : Word :=
  let m := f.sram
  mk64 ((upto 32).map fun i =>
    let b := if hi then 32 + i else i
    (2 * i, 2, if 4 * m.split ≤ b then 0 else if !fbit m.live b then 2 else if fbit m.retain b then 1 else 0))

/-- PORT_STAT (R273). -/
def portStat (f : Frame) : Word :=
  mk64 ((upto 8).map fun k => (8 * k, 4, if setKind f.vec k = 3 then (tgetD f.vec.fifos k []).length else 0))

/-- COPY_STAT (R328): DES of a set that declares no region reads 0. -/
def copyStat (f : Frame) : Word :=
  mk64 [(32, 32, ((regions f.vec f.sram.split).foldl (fun n r => n + fld f.cpe.des r.1 1 * 2 ^ r.1) 0)), (0, 32, f.cpe.pend.toNat)]

/-- LIVE of slate k (R263). -/
def liveStat (f : Frame) (k : Nat) : Word := bitsWord 64 fun r => (tget f.vec.rows (64 * k + r)).isSome

/-- L1STATUS (R208). -/
def l1Status (h : Handler) : Word := mk64 [(1, 1, h.l2pend.toNat), (0, 1, h.inH.toNat)]

/-! ### CSR access (R178, R184) -/

/-- A CSR's value; none where no CSR has the number. -/
def csrRead (s : State) (n : Nat) : Option Word :=
  let f := curFrame s
  let g := f.gen
  if n = 0x800 then some g.h.tvec
  else if n = 0x801 then some g.h.epc
  else if n = 0x802 then some g.h.cause
  else if n = 0x803 then some g.h.tval
  else if n = 0x804 then some g.h.scratch
  else if n = 0x805 then some (l1Status g.h)
  else if n = 0xC00 then some g.cycle
  else if n = 0xC01 then some (BitVec.ofNat 64 s.time)
  else if n = 0xC02 then some g.instret
  else if 0xC03 ≤ n ∧ n ≤ 0xC1F then some 0
  else if n = 0xCC0 then some (clkStat f)
  else if n = 0xCC1 then some (mk64 [(0, 4, f.sram.split)])
  else if n = 0xCC2 then some (fmtStat f)
  else if n = 0xCC3 then some (seqPos f)
  else if n = 0xCC4 then some (cntStat f)
  else if n = 0xCC5 then some (phaseStat f)
  else if n = 0xCC6 then some (pwrStat f)
  else if n = 0xCC7 then some (emitStat f)
  else if n = 0xCC8 then some g.l2.info
  else if n = 0xCC9 then some g.l2.iterA
  else if n = 0xCCA then some g.l2.iterB
  else if n = 0xCCB then some g.l2.tagPc
  else if n = 0xCCC then some g.l2.tagId
  else if n = 0xCCD then some g.l2.mem0
  else if n = 0xCCE then some g.l2.mem1
  else if n = 0xCCF then some (g.lastGen.zeroExtend 64)
  else if n = 0xCD0 then some (beadStat f)
  else if n = 0xCD1 then some (calStaleWord s f)
  else if n = 0xCD2 then some (slateStat f)
  else if n = 0xCD3 then some (bankStat f false)
  else if n = 0xCD4 then some (bankStat f true)
  else if n = 0xCD5 then some (portStat f)
  else if n = 0xCD6 then some (vcond f.vec)
  else if n = 0xCD7 then some (copyStat f)
  else if 0xCE0 ≤ n ∧ n ≤ 0xCEF then some (liveStat f (n - 0xCE0))
  else if 0xCF0 ≤ n ∧ n ≤ 0xCFF then some (tgetD f.vec.preds (n - 0xCF0) 0)
  else none

/-- The fields of L1CAUSE. -/
def causeFields (v : Word) : Word := mk64 [(63, 1, fld v 63 1), (32, 16, fld v 32 16), (0, 16, fld v 0 16)]

/-- Write a handler CSR other than L1STATUS (R208). -/
def handlerWrite (h : Handler) (n : Nat) (v : Word) : Handler :=
  if n = 0x800 then { h with tvec := if fld v 0 2 = 1 then v else fput v 0 2 0 }
  else if n = 0x801 then { h with epc := fput v 0 1 0 }
  else if n = 0x802 then { h with cause := causeFields v }
  else if n = 0x803 then { h with tval := v }
  else { h with scratch := v }

/-- R207: the handler returns; the level-2 fault it handled, if any, is resolved. -/
def handlerReturn (s : State) (abandon : Bool) : State :=
  let f := curFrame s
  let f' := if f.gen.h.l2pend then f else resolveL2 f abandon
  setCur s { f' with gen := leaveHandler f'.gen }

/-- A write of L1STATUS: RESUME returns, and outside a handler is illegal (R207). `i` is
the CSR instruction. -/
def l1StatusWrite (s : State) (i : Instr) (rd : BitVec 5) (old v : Word) : State :=
  if fbit v 2 then
    if (curFrame s).gen.h.inH then handlerReturn (onGen s fun g => wx g rd old) (fbit v 3)
    else takeIllegal s ((encode i).getD 0)
  else retireWith s rd old

/-- R178, R184, R208. CSRRS and CSRRC with a zero source write nothing. -/
def execCsrAccess (op : CsrOp) (rd : BitVec 5) (src : CsrSrc) (csr : BitVec 12) (s : State) : Out :=
  let i : Instr := .csrAccess op rd src csr
  let n := csr.toNat
  let arg : Word := match src with | .reg r => rx (curFrame s).gen r | .imm u => u.zeroExtend 64
  let zero : Bool := match src with | .reg r => decide (r = 0) | .imm u => decide (u = 0)
  let writes : Bool := match op with | .rw => true | _ => !zero
  .next <| match csrRead s n with
    | none => takeIllegal s ((encode i).getD 0)
    | some old =>
      if writes && decide (0xC00 ≤ n) then takeIllegal s ((encode i).getD 0)
      else if !writes then retireWith s rd old
      else
        let v := match op with | .rw => arg | .rs => old ||| arg | .rc => old &&& ~~~arg
        if n = 0x805 then l1StatusWrite s i rd old v
        else onGen (retireWith s rd old) fun g => { g with h := handlerWrite g.h n v }

/-- R207: CSRRWI x0, L1STATUS, RESUME. -/
def execHandlerResume (s : State) : Out :=
  .next (l1StatusWrite s (.csrAccess .rw 0 (.imm 4) 0x805) 0 (l1Status (curFrame s).gen.h) 4)

/-- R207: CSRRWI x0, L1STATUS, RESUME and ABANDON. -/
def execHandlerAbandon (s : State) : Out :=
  .next (l1StatusWrite s (.csrAccess .rw 0 (.imm 12) 0x805) 0 (l1Status (curFrame s).gen.h) 12)

end Sys2Proof.Machine
end

