-- ==== Sys2Proof/Machine/FrameEv.lean ====
section
/-! DEFINITION. What a frame does on its own: temperature samples, ageing of calibrations, supply states of
slates and banks, power gating (R223 to R225, R261, R274, R357). -/

namespace Sys2Proof.Machine

/-- R224: the sample is taken; an array more than 8 degrees from its calibration point is stale from now on. -/
def execTemperatureSample (temp : Int) (s : State) : Out :=
  let f := curFrame s
  let drift (f : Frame) (b : Nat) : Frame :=
    let a := arrOf f b
    if 8 < (temp - a.calTemp).natAbs then setArr f b { a with calStale := true } else f
  .next (setCur s ((upto 64).foldl drift { f with bead := { f.bead with temp := temp } }))

/-- R224: 50 ms have passed since the array's calibration point. -/
def execCalibrationAgeExpiry (array : Nat) (s : State) : Out :=
  let f := curFrame s
  let a := arrOf f array
  .next <| if array < 64 ∧ calAge ≤ s.time - a.calTime then setCur s (setArr f array { a with calStale := true }) else s

/-- R261: a FULL slate that has idled enters RETAIN; its data stays. -/
def execSlateRetain (slate : Nat) (s : State) : Out :=
  let f := curFrame s
  .next <| if slate < 16 ∧ tgetD f.vec.slates slate 2 = 0 then
      setCur s { f with vec := { f.vec with slates := tset f.vec.slates slate 1 } } else s

/-- R261: a slate whose rows are all dead goes OFF. -/
def execSlateOff (slate : Nat) (s : State) : Out :=
  let f := curFrame s
  .next <| if slate < 16 ∧ (lanes64.all fun r => (tget f.vec.rows (64 * slate + r)).isNone) then
      setCur s { f with vec := { f.vec with slates := tset f.vec.slates slate 2 } } else s

/-- R274: an idle live scratchpad bank enters RETAIN. -/
def execBankRetain (bank : Nat) (s : State) : Out :=
  let f := curFrame s
  .next <| if bank < 4 * f.sram.split ∧ fbit f.sram.live bank then
      setCur s { f with sram := { f.sram with retain := f.sram.retain ||| BitVec.ofNat 64 (2 ^ bank) } } else s

/-- A frame powered up, reset or scrubbed: as at reset, with every array calibrated (R225). A sprint grant and a cool-down
run on, for R17 ends them in no such way, and EXEC_DIV starts at no less than the floor they hold it to (assumption 21). -/
def freshCalibrated (s : State) (old : Clocks) (temp : Int) : Frame × State :=
  let f : Frame := { Frame.fresh with bead := { Bead.fresh with temp := temp },
                                      clk := { Clocks.fresh with
                                        grant := old.grant, cool := old.cool, exec := BitVec.ofNat 6 (divisorFor (execFloor old) 4) } }
  ((upto 64).foldl (fun f b => calibrate s f b s.freeCtr) f, { s with freeCtr := s.freeCtr + 16384 })

/-- R225, R357: a frame with no thread in either entry is gated; powered up again it calibrates its arrays. -/
def execFramePowerGate (frame : Nat) (gate : Bool) (s : State) : Out :=
  let f := frameOf s frame
  .next <|
    if gate then
      if f.disp.running.isNone ∧ f.disp.standby.isNone then
        setFrame s frame { f with disp := { f.disp with gated := true } } else s
    else if f.disp.gated then
      let x := freshCalibrated s f.clk (dieOf s (frame / Config.framesPerDie)).temp
      setFrame x.2 frame x.1
    else s

end Sys2Proof.Machine
end

