-- ==== Sys2Proof/Machine/ImageOut.lean ====
section
/-! DEFINITION. Writing the context image: its sections in bytes (R336 to R343). -/

namespace Sys2Proof.Machine

def wordsBytes (ws : List Word) : List Byte := ws.flatMap wordBytes

/-- Bytes followed by zeros up to a length. -/
def padTo (n : Nat) (bs : List Byte) : List Byte := bs ++ List.replicate (n - bs.length) 0

/-- Words followed by zero words up to a count, as bytes. -/
def padWords (n : Nat) (ws : List Word) : List Byte := padTo (8 * n) (wordsBytes ws)

/-! ### GEN, SEQ, QUEUE -/

/-- Word 82: the deadline of the GWAIT that pc names; all ones when it never expires. -/
def waitWord (g : Gen) : Word :=
  match g.kept.find? fun k => decide (k.1 = g.pc) with
  | some (_, some d) => mk64 [(63, 1, 1), (0, 48, d)]
  | some (_, none) => mk64 [(63, 1, 1), (0, 48, 2 ^ 48 - 1)]
  | none => 0

/-- The report registers in order. -/
def reportWords (r : L2Report) : List Word := [r.info, r.iterA, r.iterB, r.tagPc, r.tagId, r.mem0, r.mem1]

/-- GEN (R340). -/
def genSec (g : Gen) : List Byte :=
  let ks := (upto 8).flatMap fun k => (upto 5).map fun w => imgWord (tgetD g.k k 0) w
  padWords 128 ([g.pc] ++ ((upto 31).map fun i => tgetD g.x (i + 1) 0) ++ ks ++ [g.emitSer.zeroExtend 64] ++
    [g.h.tvec, g.h.epc, g.h.cause, g.h.tval, g.h.scratch, l1Status g.h] ++
    [g.lastGen.zeroExtend 64, g.cycle, g.instret, waitWord g] ++ reportWords g.l2)

/-- A loop entry (R341). -/
def loopWord (l : LoopEnt) : Word := mk64 [(63, 1, 1), (40, 7, l.start), (32, 7, l.len), (16, 16, l.cnt), (0, 16, l.iter)]

/-- The six loop words. -/
def loopWords (loops : List LoopEnt) : List Word := (upto 6).map fun i => match loops[i]? with | some l => loopWord l | none => 0

/-- FMT as the image holds it. -/
def fmtImage (f : Frame) (m : Fmt) : Word := fmtStat { f with seq := { f.seq with fmt := applyFmt m } }

/-- The bundle that is in progress between repetitions. -/
def inProgress (q : Seq) : Option CurBundle := if q.stage = .issuing then q.cur else none

/-- Issues of a queue as words, eight places. -/
def queueWords (q : SlotQ) : List Word := (upto 8).map fun i => match q.q[i]? with | some e => e.w | none => 0

/-- SEQ (R341). -/
def seqSec (f : Frame) : List Byte :=
  let q := f.seq
  let c := inProgress q
  padWords 64 ([mk64 [(0, 48, match c with | some c => c.pos | none => q.pos)],
      mk64 [(0, 12, match c with | some c => c.rep | none => 0), (16, 1, if c.isSome then 1 else 0)]] ++
    loopWords q.loops ++ [q.wb, q.wv, q.wc, fmtImage f q.fmt,
      mk64 [(0, 1, f.ph.forced.toNat), (8, 8, f.ph.replays)],
      mk64 [(0, 4, q.qb.q.length), (8, 4, q.qv.q.length), (16, 4, q.qc.q.length)],
      mk64 [(0, 10, q.kept), (16, 10, q.queue.length - q.kept)], mk64 [(0, 9, min 256 f.ph.undo.length)]] ++
    queueWords q.qb ++ queueWords q.qv ++ queueWords q.qc)

/-- An entry of QUEUE (R342). -/
def entryBytes (e : Entry) : List Byte := wordsBytes ([e.tag.pc, e.tag.ser.zeroExtend 64] ++ packedWords e.bun)

/-! ### STATE and SNAP -/

/-- A FIFO slot. -/
def fifoSlot (v : Option FifoVec) : List Byte :=
  match v with
  | some v => padTo 272 (rowBytes v.row ++ leOf v.scales.toNat 4)
  | none => List.replicate 272 0

/-- Current-origin words of a set. -/
def originWords (f : Frame) (origins : Tbl (List Nat)) (k : Nat) : List Word :=
  let o := (tget origins k).getD (curOrigin { f with cpe := { f.cpe with origins := [] } } k)
  match setKind f.vec k with
  | 8 => (upto 7).map fun i => mk64 [(0, 32, o.getD (2 * i) 0), (32, 32, o.getD (2 * i + 1) 0)]
  | 10 => mk64 [(0, 23, o.getD 0 0)] :: List.replicate 6 0
  | _ => List.replicate 7 0

/-- The first 20,480 bytes of the STATE layout, from a snapshot and a liveness mask. -/
def stateHead (f : Frame) (p : Snap) (live : Nat → Bool) (pend : Nat) : List Byte :=
  padTo 3072 (wordsBytes (
      ((upto 16).map fun s => bitsWord 64 fun r => live (64 * s + r)) ++
      ((upto 16).map fun i => tgetD p.preds i 0)) ++
    ((upto 64).map fun L => (tgetD p.cf L 0).zeroExtend 8) ++
    wordsBytes ([mk64 [(0, 6, p.kg - 1), (6, 6, p.ng - 1), (12, 1, p.digital.toNat)], p.actives, p.staleF, 0] ++
      ((upto 64).map fun b => tgetD p.clip b 0) ++
      ((upto 8).map fun k => mk64 [(0, 48, tgetD p.ports k 0), (48, 4, (tgetD p.fifos k []).length)]) ++
      ((upto 32).flatMap fun k => originWords f p.origins k) ++
      [mk64 [(32, 32, p.des.toNat), (0, 32, pend)]])) ++
  (upto 8).flatMap fun k => (upto 8).flatMap fun v => fifoSlot ((tgetD p.fifos k [])[v]?)

/-- STATE (R341). -/
def stateSec (f : Frame) : List Byte :=
  stateHead f (takeSnap f) (fun r => (tget f.vec.rows r).isSome) f.cpe.pend.toNat ++
  padTo 4096 (wordsBytes (((upto 32).flatMap fun k => (upto 8).map fun w => psetWord f.vec k w) ++
    ((upto 16).map fun s => bitsWord 64 fun r => f.vec.bad.contains (64 * s + r)) ++ [f.sram.live]))

/-- Liveness of a row at the phase start. -/
def liveAtStart (f : Frame) (r : Nat) : Bool :=
  match f.ph.undo.find? fun u => decide (u.1 = r) with
  | some u => u.2.isSome
  | none => (tget f.vec.rows r).isSome

/-- SNAP (R341). -/
def snapSec (f : Frame) : List Byte :=
  let p := f.ph.snap
  padWords 64 ([mk64 [(0, 48, p.pos)], 0] ++ loopWords p.loops ++ [p.wb, p.wv, p.wc, fmtImage f p.fmt]) ++
    stateHead f p (liveAtStart f) 0

/-! ### Variable sections (R342, R343) -/

/-- UNDO: row number, liveness and content. -/
def undoBytes (u : Nat × Option Row) : List Byte :=
  wordBytes (mk64 [(0, 10, u.1), (16, 1, u.2.isSome.toNat)]) ++ rowBytes (u.2.getD 0)

/-- Live scratchpad banks, rising. -/
def liveBanks (m : Sram) : List Nat := (upto (4 * m.split)).filter fun b => fbit m.live b

/-- SPAD: full-empty bits and bytes of a bank. -/
def bankBytes (m : Sram) (b : Nat) : List Byte :=
  (wordsBytes ((upto 64).map fun w => bitsWord 64 fun i => m.full.contains (4096 * b + 64 * w + i))) ++
    memRead m.cells (65536 * b) 65536

/-- A bank's descriptor. -/
def descBytes (b : Bank) : List Byte :=
  let src := match b.src with | .zero => 0 | .object .. => 1 | .ports => 2
  let w0 := mk64 [(0, 2, src), (2, 1, b.swm.toNat), (4, 4, beadCode b.fmt)]
  match b.src with
  | .object h g o =>
    padWords 16 ([w0, mk64 [(0, 20, h), (20, 16, g)]] ++
      (upto 7).map fun i => mk64 [(0, 32, o.getD (2 * i) 0), (32, 32, o.getD (2 * i + 1) 0)])
  | _ => padWords 16 [w0]

/-- A port-loaded bank. -/
def portBank (b : Bank) : List Byte :=
  padTo 17408 (((upto 16384).map fun i => tgetD b.w i 0) ++ ((upto 512).map fun i => tgetD b.scales i 0x7F) ++
    ((upto 256).map fun r => BitVec.ofInt 8 (tgetD b.chk r 0)) ++
    (upto 4).map fun j => BitVec.ofNat 8 (tgetD b.sigma j 0))

/-- A bank as its descriptor tells it. R343 has no field for FILLING. A bank that a reload named and did not write still has its
phase-start source and contents (R216); one that a cancelled reload left FILLING is not reloaded (R347) and is written as
ZERO: the replay reissues its reload before any read (assumption 19). -/
def imageBank (f : Frame) (b : Nat) (one : Bool) : Bank :=
  let k := bankOf (arrOf f b) one
  if !k.filling then k
  else if reloadUnbegun f b one then { k with filling := false, src := startSrc f b one, fmt := startFmt f b one, swm := false }
  else zeroBank

/-- All 128 banks in image order. -/
def allBanks (f : Frame) : List Bank := (upto 64).flatMap fun b => [imageBank f b false, imageBank f b true]

def beadSec (f : Frame) : List Byte :=
  (allBanks f).flatMap descBytes ++
    ((allBanks f).filter fun b => decide (b.src = .ports)).flatMap portBank

def ordCode : Ordering4 → Nat
  | .rlx => 0 | .acq => 1 | .rel => 2 | .ar => 3
def scopeCode : Scope → Nat
  | .fr => 0 | .die => 1 | .pkg => 2 | .sys => 3

/-- Word 0 of WHELD and WADD records. -/
def heldWord (h g : Nat) (o : Ordering4) (c : Scope) : Word :=
  mk64 [(0, 20, h), (20, 16, g), (36, 2, ordCode o), (38, 2, scopeCode c)]

def wheldBytes (v : VStore) : List Byte :=
  wordsBytes [heldWord v.handle v.gen v.ord v.scope, BitVec.ofNat 64 v.off, BitVec.ofNat 64 v.da, BitVec.ofNat 64 v.da2] ++
    leOf v.mask.toNat 32 ++ rowBytes v.data

def waddBytes (c : CAdd) : List Byte :=
  wordsBytes ([heldWord c.handle c.gen c.ord c.scope, BitVec.ofNat 64 c.elems.length, 0, 0] ++
    c.elems.flatMap fun x => [mk64 [(0, 48, x.1)], x.2.zeroExtend 64])

/-- FAULT: a level-2 fault kept by R331, an escalated fault, or the mark of an incomplete image. A section holds one KIND: with
a level-1 fault escalated and a level-2 fault raised after the point has landed, it is KIND 1, and the report of the level-1
fault is lost: DESIGN CHOICE (assumption 51). -/
def faultSec (f : Frame) (cut : Bool) : List Byte :=
  let kind (k : Nat) : Word := mk64 [(0, 4, if cut then 4 else k)]
  match earliest f.ph.faults, f.disp.fault with
  | some e, _ =>
    padWords 32 ([kind 1, 0, 0, 0] ++ reportWords (reportOf e (e.cls.recoverable && !e.final)))
  | none, some (.l1 cause tval epc) => padWords 32 [kind 2, cause, tval, epc]
  | none, some .l2 => padWords 32 ([kind 3, 0, 0, 0] ++ reportWords f.gen.l2)
  | none, none => if cut then padWords 32 [kind 4] else []

/-! ### The whole image -/

/-- The twelve sections; a cut image lacks STATE, VREG, SPAD and BEAD (R337). -/
def imageSecs (f : Frame) (cut : Bool) : List (List Byte) :=
  let big (b : List Byte) : List Byte := if cut then [] else b
  [genSec f.gen, seqSec f, snapSec f, big (stateSec f), f.seq.queue.flatMap entryBytes,
   (f.ph.undo.take 256).flatMap undoBytes, big (f.vec.rows.flatMap fun r => rowBytes r.2),
   big ((liveBanks f.sram).flatMap (bankBytes f.sram)), big (beadSec f),
   f.ph.stores.flatMap wheldBytes, f.ph.adds.flatMap waddBytes, faultSec f cut]

/-- Round up to 256. -/
def up256 (n : Nat) : Nat := (n + 255) / 256 * 256

/-- Start of each section, 0 for an absent one, and the end of the last. -/
def secStarts : List (List Byte) → Nat → Nat → List Nat × Nat
  | [], _, last => ([], last)
  | b :: r, at', last =>
    if b.isEmpty then let x := secStarts r at' last; (0 :: x.1, x.2)
    else let x := secStarts r (at' + up256 b.length) (at' + b.length); (at' :: x.1, x.2)

/-- SIZE of an image. -/
def imageSize (secs : List (List Byte)) : Nat := (secStarts secs 256 256).2

/-- Header of an image (R338). -/
def imageHead (f : Frame) (tid : BitVec 32) (secs : List (List Byte)) : List Byte :=
  let st := secStarts secs 256 256
  let present := ((upto 12).zip secs).foldl (fun w x => if x.2.isEmpty then w else w + 2 ^ x.1) 0
  padWords 32 ([mk64 [(48, 16, 0x5A43), (40, 8, 1), (0, 32, tid.toNat)], mk64 [(0, 48, st.2)],
      mk64 [(0, 4, f.sram.split), (8, 6, f.clk.askGen.toNat), (16, 6, f.clk.askExec.toNat), (24, 6, f.clk.askCopy.toNat)],
      mk64 [(0, 12, present)]] ++
    (st.1.zip secs).map fun x => mk64 [(32, 32, x.1 / 256), (0, 32, x.2.length)])

/-- The bytes of an image. -/
def imageBytes (f : Frame) (tid : BitVec 32) (secs : List (List Byte)) : List Byte :=
  imageHead f tid secs ++ secs.flatMap fun b => padTo (up256 b.length) b

/-- Granules with an uncorrectable error within saved banks, as granules of the image. -/
def savedGrans (f : Frame) (area : Nat) (secs : List (List Byte)) : List Nat :=
  let start := area + ((secStarts secs 256 256).1).getD 7 0
  ((upto 60).zip (liveBanks f.sram)).flatMap fun x =>
    (f.sram.bad.filter fun g => decide (g / 4096 = x.2)).map fun g => (start + 66048 * x.1 + 512) / 16 + g % 4096

/-- Sections by whose bytes the model knows an image it has written: GEN, SEQ, SNAP, QUEUE, UNDO, WHELD and WADD
(assumption 19). -/
def keySecs : List Nat := [1, 2, 3, 5, 6, 10, 11]

/-- Those bytes, of the image that will be written. -/
def imageKey (f : Frame) : List Byte := keySecs.flatMap fun n => (imageSecs f false).getD (n - 1) []

/-- What the layout has no field for is kept beside the image (assumption 19). -/
def carry (l : List Carried) (part : Nat) (f : Frame) (tid : BitVec 32) : List Carried :=
  { part := part, tid := tid, key := imageKey f, frame := f } :: l.filter fun c => !(decide (c.part = part) && decide (c.tid = tid))

/-- Write the image of the moving frame's thread into its area, as far as that lies in the thread's partition (R26, R374,
assumption 48). -/
def putImage (s : State) (f : Frame) (b : BindRec) (cut : Bool) : State :=
  let secs := imageSecs f cut
  let bytes := imageBytes f b.tid secs
  let s := gwrite s none ((zipBytes ((upto bytes.length).map (b.area + ·)) bytes).filter fun x => inPartition s (curPart s) x.1)
  let keep := s.savedBad.filter fun g => !(decide (b.area ≤ 16 * g) && decide (16 * g < b.area + bytes.length))
  { s with carried := if cut then s.carried.filter (fun c => !(decide (c.part = curPart s) && decide (c.tid = b.tid))) else carry s.carried (curPart s) f b.tid,
           savedBad := (if cut then [] else savedGrans f b.area secs).foldl (fun l g => insertUniq g l) keep }

end Sys2Proof.Machine
end

