-- ==== Sys2Proof/Machine/ImageIn.lean ====
section
/-! DEFINITION. Reading the context image: the header check and the state a bind restores (R337 to R345). -/

namespace Sys2Proof.Machine

/-- Words of storage from a device address up. -/
abbrev Words := Nat → Word

/-- Words of the image at `area`. -/
def wordsAt (s : State) (a : Nat) : Words := fun i => gword s (a + 8 * i)

/-- Byte `i` of storage from `a` up. -/
def byteAt (s : State) (a i : Nat) : Byte := memSeen s (a + i)

/-- Section n is present (R338). -/
def secHas (s : State) (area n : Nat) : Bool := fbit (wordsAt s area 3) (n - 1)

/-- Start of section n; its length. -/
def secBase (s : State) (area n : Nat) : Nat := area + 256 * fld (wordsAt s area (n + 3)) 32 32
def secLen (s : State) (area n : Nat) : Nat := if secHas s area n then fld (wordsAt s area (n + 3)) 0 32 else 0

/-- The byte at an image offset is data of a saved row, granule or port-loaded bank, where an uncorrectable error marks what
it reaches (R381). -/
def marksError (s : State) (area o : Nat) : Bool :=
  let within (n : Nat) : Bool := decide (secBase s area n ≤ area + o) && decide (area + o < secBase s area n + secLen s area n)
  within 7 || (within 8 && decide (512 ≤ (area + o - secBase s area 8) % 66048)) ||
    (within 9 && decide (16384 ≤ area + o - secBase s area 9))

/-- An image with an uncorrectable error that no row, granule or bank can bear the mark of: it is not loaded (R381,
assumption 47). -/
def imageHurt (s : State) (area size : Nat) : Bool :=
  s.poison.any fun p => decide (area ≤ 32 * p + 31) && decide (32 * p < area + size) &&
    (decide (32 * p < area + 256) || !marksError s area (32 * p - area))

/-! ### The header check (R345) -/

/-- Present sections ascend without overlap from `lo` on and end within `size`. -/
def secsAscend (s : State) (area size : Nat) : List Nat → Nat → Bool
  | [], _ => true
  | n :: r, lo =>
    if secHas s area n then
      let b := secBase s area n - area
      decide (lo ≤ b) && decide (b + secLen s area n ≤ size) && secsAscend s area size r (b + secLen s area n)
    else secsAscend s area size r lo

/-- Number of set bits in a word. -/
def wordPop (w : Word) : Nat := popNat w.toNat 64

/-- Words of the packed bundle of a header. -/
def bundleLen (h : Word) : Nat :=
  1 + ([SlotName.bead, .vector, .copy, .control].filter fun sl => hdrHas h sl).length

/-- Bytes of `n` QUEUE entries from `a` up. -/
def queueLen (s : State) (a : Nat) : Nat → Nat
  | 0 => 0
  | n + 1 =>
    let l := 16 + 8 * bundleLen (wordsAt s a 2)
    l + queueLen s (a + l) n

/-- WADD records of `len` bytes in all: record lengths add up exactly. -/
def waddFits (s : State) (a : Nat) : Nat → Nat → Bool
  | 0, len => decide (len = 0)
  | k + 1, len =>
    if len = 0 then true
    else
      let l := 32 + 16 * (wordsAt s a 1).toNat
      decide (l ≤ len) && waddFits s (a + l) k (len - l)

/-- SOURCE of descriptor i is PORTS. -/
def descPorts (s : State) (bead i : Nat) : Bool := decide (fld (wordsAt s (bead + 128 * i) 0) 0 2 = 2)

/-- R345: MAGIC, VERSION, SIZE within the area, sections in order within SIZE, lengths as the counts say, and
not incomplete (R337). That an image whose SPLIT is 0, which no bind record can ask for (R355), is rejected too: DESIGN CHOICE
(assumption 51). -/
def imageOk (s : State) (area areaLen : Nat) : Bool :=
  let h := wordsAt s area
  let size := fld (h 1) 0 48
  let len := secLen s area
  let seq := wordsAt s (secBase s area 2)
  let st := wordsAt s (secBase s area 4)
  let live := (upto 16).foldl (fun n i => n + wordPop (st i)) 0
  let ents := fld (seq 14) 0 10 + fld (seq 14) 16 10
  let ports := ((upto 128).filter (descPorts s (secBase s area 9))).length
  !imageHurt s area size && decide (fld (h 0) 48 16 = 0x5A43) && decide (fld (h 0) 40 8 = 1) && decide (size ≤ 4096 * areaLen) &&
    decide (fld (h 2) 0 4 ≠ 0) &&
    secsAscend s area size ((upto 12).map (· + 1)) 256 &&
    decide (len 1 = 1024) && decide (len 2 = 512) && decide (len 3 = 20992) && decide (len 4 = 24576) &&
    decide (ents ≤ 512) && decide (len 5 = queueLen s (secBase s area 5) ents) &&
    decide (len 6 = 264 * fld (seq 15) 0 9) && decide (len 7 = 256 * live) &&
    decide (len 8 = 66048 * wordPop (st 2832)) && decide (len 9 = 16384 + 17408 * ports) &&
    decide (len 10 % 320 = 0) && waddFits s (secBase s area 11) (len 11) (len 11) &&
    (decide (len 12 = 0) || (decide (len 12 = 256) && decide (fld (wordsAt s (secBase s area 12) 0) 0 4 ≠ 4)))

/-! ### Codes -/

def beadFmtCode : Nat → BeadFmt
  | 9 => .mx8 | 10 => .mx6 | 11 => .mx4 | _ => .i8

def ordOfCode : Nat → Ordering4
  | 0 => .rlx | 1 => .acq | 2 => .rel | _ => .ar

/-- Level-2 classes in the order of their codes, from 1 (R209). -/
def l2Classes : List L2Class :=
  [.spadRange, .badHandle, .badRecord, .permission, .retired, .outOfShape, .residency, .homeOffline, .checksum,
   .spadEcc, .illegalBundle, .undoOverflow, .weightLost, .deadRead, .regEcc]

def l2ClassOf (code : Nat) : L2Class := l2Classes.getD (code - 1) .weightLost

/-- A table from the values of the first `n` keys, those equal to the default left out. -/
def tableOf {β : Type} [DecidableEq β] (d : β) (n : Nat) (v : Nat → β) : Tbl β :=
  (upto n).foldl (fun t i => tput d t i (v i)) []

/-! ### GEN (R340) -/

def genIn (rd : Words) : Gen :=
  let h : Handler :=
    { tvec := rd 73, epc := rd 74, cause := rd 75, tval := rd 76, scratch := rd 77,
      inH := fbit (rd 78) 0, l2pend := fbit (rd 78) 1 }
  let kimg (k : Nat) : Image := BitVec.ofNat 320 ((upto 5).foldl (fun n w => n + (rd (32 + 5 * k + w)).toNat * 2 ^ (64 * w)) 0)
  let dl := fld (rd 82) 0 48
  { Gen.fresh with
    pc := rd 0, x := (tableOf 0 32 fun i => if i = 0 then 0 else rd i), k := tableOf 0 8 kimg,
    emitSer := (rd 72).extractLsb' 0 32, h := h, lastGen := (rd 79).extractLsb' 0 16, cycle := rd 80, instret := rd 81,
    kept := if fbit (rd 82) 63 then [(rd 0, if dl = 2 ^ 48 - 1 then none else some dl)] else [],
    l2 := { info := rd 83, iterA := rd 84, iterB := rd 85, tagPc := rd 86, tagId := rd 87, mem0 := rd 88, mem1 := rd 89 } }

/-! ### SEQ, QUEUE (R341, R342) -/

/-- Loop entries of words 2 to 7, outermost first. -/
def loopsIn (rd : Words) : List LoopEnt :=
  (((upto 6).map fun i => rd (2 + i)).takeWhile fun w => fbit w 63).map fun w =>
    { iter := fld w 0 16, cnt := fld w 16 16, len := fld w 32 7, start := fld w 40 7 }

/-- Place in the replay buffer: the entry at POS in a first iteration or between repetitions. The layout does not tell
it in a later iteration; the innermost body's start is taken (assumption 19). -/
def cursorIn (loops : List LoopEnt) (between : Bool) (i : Nat) : Nat :=
  match loops.getLast? with
  | none => 0
  | some l => if between || loops.all fun x => decide (x.iter = 0) then i else l.start

/-- FMT with its pending SETFMT (R159). -/
def fmtIn (w : Word) : Fmt :=
  let left := fld w 16 3
  { afmt := beadFmtCode (fld w 4 4), wfmt := beadFmtCode (fld w 0 4),
    pend := if left = 0 then [] else [{ left := left, afmt := beadFmtCode (fld w 12 4), wfmt := beadFmtCode (fld w 8 4) }] }

/-- An entry of QUEUE. -/
def entryIn (s : State) (a : Nat) (tid : BitVec 32) : Entry :=
  let rd := wordsAt s a
  let h := rd 2
  let take (sl : SlotName) (before : List SlotName) : Option Word :=
    if hdrHas h sl then some (rd (3 + (before.filter fun x => hdrHas h x).length)) else none
  { tag := { pc := rd 0, ser := (rd 1).extractLsb' 0 32, tid := tid },
    bun := { hdr := h, bead := take .bead [], vec := take .vector [.bead], copy := take .copy [.bead, .vector],
             ctl := take .control [.bead, .vector, .copy] },
    fences := [] }

def entriesIn (s : State) (a : Nat) (tid : BitVec 32) : Nat → List Entry
  | 0 => []
  | n + 1 => entryIn s a tid :: entriesIn s (a + 16 + 8 * bundleLen (wordsAt s a 2)) tid n

/-- Index of the first entry of the outermost running body: of the last loop that starts outside a body.
`skip` entries still belong to a body. -/
def bodyStart : List Entry → Nat → Nat → Nat → Nat
  | [], _, _, start => start
  | e :: r, i, skip, start =>
    if skip ≠ 0 then bodyStart r (i + 1) (skip - 1) start
    else match loopLen e.bun with
      | some n => bodyStart r (i + 1) (n + 1) (i + 1)
      | none => bodyStart r (i + 1) 0 start

/-- Position, repetition and entry of the issue `k` places before the issue of repetition `rep` of entry `i`. -/
def issueBack (ents : List Entry) : Nat → Nat → Nat → Nat × Nat
  | 0, i, rep => (i, rep)
  | k + 1, i, rep =>
    if rep ≠ 0 then issueBack ents k i (rep - 1)
    else match ents[i - 1]? with
      | some e => issueBack ents k (i - 1) (hdrRepeat e.bun.hdr)
      | none => (i, rep)

/-- Issues held in a slot queue: the last is of the latest repetition handed out, which is repetition `rep` of
entry `i` at position `first + i`. -/
def queueIn (rd : Words) (base n : Nat) (sl : SlotName) (ents : List Entry) (first i rep : Nat) (loops : List LoopEnt)
    (fmt : Fmt) : SlotQ :=
  { q := (upto n).map fun j =>
      let x := issueBack ents (n - 1 - j) i rep
      let e := ents.getD x.1 { tag := { pc := 0, ser := 0, tid := 0 }, bun := { hdr := 0, bead := none, vec := none, copy := none, ctl := none }, fences := [] }
      let w := rd (base + j)
      let fresh := decide (x.2 = 0) && (e.bun.word sl).isSome
      { n := 15 - (n - 1 - j), w := w, adv := decide (sl = .copy) && !fresh && decide (w ≠ 0),
        pos := first + x.1, rep := x.2, iters := loops.map LoopEnt.iter, tag := e.tag, sub := 0,
        afmt := fmt.afmt, wfmt := fmt.wfmt, rows := [], preds := [] },
    hold := none }

/-- Position of the first retained entry: serials and positions count the same entries (R143, R165, R189). -/
def firstPos (p : Nat) (ents : List Entry) : Nat :=
  match ents with | e :: _ => p - (BitVec.ofNat 32 p - e.tag.ser).toNat | [] => p

/-- SEQ with QUEUE. `snapLoops` are the loops of the phase start, `lvl` gives a bundle's
splitting level. -/
def seqIn (rd : Words) (ents : List Entry) (snapLoops : List LoopEnt) (lvl : Word → Nat) : Seq :=
  let l := loopsIn rd
  let ret := fld (rd 14) 0 10
  let between := fbit (rd 1) 16
  let skip := match snapLoops with | o :: _ => o.len + 1 | [] => 0
  let p := fld (rd 0) 0 48
  let first := firstPos p ents
  let at' := p - first
  let start := bodyStart (ents.take at') 0 skip 0
  let ends := l.map fun e => if e.iter = 0 then 0 else start + e.start + e.len + 1
  let taken := ends.foldl max (if between then at' + 1 else at')
  let pos := first + taken
  let rbuf := if l.isEmpty then [] else (ents.take taken).drop start
  let cursor := cursorIn l between (at' - start)
  let curEnt := ents[at']?
  let rep := fld (rd 1) 0 12
  let fmt := fmtIn (rd 11)
  let last : Nat × Nat :=
    if between && decide (rep ≠ 0) then (at', rep - 1)
    else
      let i := if l.isEmpty then at' - 1 else start + cursor - 1
      (i, match ents[i]? with | some e => hdrRepeat e.bun.hdr | none => 0)
  let q (base lo : Nat) (sl : SlotName) := queueIn rd base (fld (rd 13) lo 4) sl ents first last.1 last.2 l fmt
  { Seq.fresh with
    pos := pos, queue := ents, taken := taken, kept := ret, loops := l, rbuf := rbuf, cursor := cursor,
    cur := match between, curEnt with
      | true, some e => some { ent := e, pos := p, rep := rep, lvl := lvl e.bun.hdr, replayed := false }
      | _, _ => none,
    stage := if between && curEnt.isSome then .issuing else .boundary,
    wb := rd 8, wv := rd 9, wc := rd 10, fmt := fmt, issueNo := 16, sub := 3,
    qb := q 16 0 .bead, qv := q 24 8 .vector, qc := q 32 16 .copy }

/-! ### STATE and SNAP (R341) -/

/-- FIFO slot v of port k. -/
def fifoIn (s : State) (a k v : Nat) : FifoVec :=
  let b := a + 3072 + 2176 * k + 272 * v
  { row := BitVec.ofNat 2048 (leNat (grun s b 256)), scales := BitVec.ofNat 32 (leNat (grun s (b + 256) 4)), bad := false }

/-- Current origin of a set of this kind. -/
def originIn (rd : Words) (set kind : Nat) : Option (List Nat) :=
  let w (i : Nat) := rd (116 + 7 * set + i)
  match kind with
  | 8 => some ((upto 14).map fun i => fld (w (i / 2)) (32 * (i % 2)) 32)
  | 10 => some [fld (w 0) 0 23]
  | _ => none

/-- The first 20,480 bytes of the STATE layout as a snapshot's fields. -/
def headIn (s : State) (a : Nat) (kind : Nat → Nat) : Snap :=
  let rd := wordsAt s a
  { Snap.fresh with
    preds := tableOf 0 16 (fun i => rd (16 + i)),
    cf := tableOf 0 64 (fun L => (byteAt s a (256 + L)).extractLsb' 0 6),
    kg := fld (rd 40) 0 6 + 1, ng := fld (rd 40) 6 6 + 1, digital := fbit (rd 40) 12,
    actives := rd 41, staleF := rd 42, clip := tableOf 0 64 (fun b => rd (44 + b)),
    ports := tableOf 0 8 (fun k => fld (rd (108 + k)) 0 48),
    fifos := tableOf [] 8 (fun k => (upto (min 8 (fld (rd (108 + k)) 48 4))).map (fifoIn s a k)),
    origins := (upto 32).foldl (fun t k => match originIn rd k (kind k) with | some o => tset t k o | none => t) [],
    des := (rd 340).extractLsb' 32 32 }

/-- The liveness mask at the head of a STATE layout. -/
def liveIn (s : State) (a : Nat) (r : Nat) : Bool := fbit (wordsAt s a (r / 64)) (r % 64)

/-- SNAP: SEQ layout, then the head of the STATE layout. `first` is the position of the first retained entry. -/
def snapIn (s : State) (a : Nat) (kind : Nat → Nat) (ents : List Entry) (first : Nat) (arrays : Tbl BArr) : Snap :=
  let rd := wordsAt s a
  let l := loopsIn rd
  let pos := fld (rd 0) 0 48
  { headIn s (a + 512) kind with
    pos := pos, taken := pos - first, loops := l, rbuf := if l.isEmpty then [] else ents.take (pos - first),
    cursor := cursorIn l false (pos - first), wb := rd 8, wv := rd 9, wc := rd 10, fmt := fmtIn (rd 11),
    srcs := arrays.map fun (e : Nat × BArr) => (e.1, (e.2.b0.src, e.2.b1.src)),
    fmts := arrays.map fun (e : Nat × BArr) => (e.1, (e.2.b0.fmt, e.2.b1.fmt)), issueNo := 0 }

/-! ### Variable sections (R342, R343) -/

/-- UNDO records. -/
def undoIn (s : State) (a n : Nat) : List (Nat × Option Row) :=
  (upto n).map fun i =>
    let w := wordsAt s (a + 264 * i) 0
    (fld w 0 10, if fbit w 16 then some (BitVec.ofNat 2048 (leNat (grun s (a + 264 * i + 8) 256))) else none)

/-- VREG: rows of the live mask, ascending. -/
def rowsIn (s : State) (a st : Nat) : Tbl Row :=
  let live := (upto 1024).filter (liveIn s st)
  ((upto live.length).zip live).map fun x => (x.2, BitVec.ofNat 2048 (leNat (grun s (a + 256 * x.1) 256)))

/-- Saved rows with an uncorrectable error in DRAM (R381). -/
def rowsHurt (s : State) (a st : Nat) : List Nat :=
  let live := (upto 1024).filter (liveIn s st)
  (((upto live.length).zip live).filter fun x => poisoned s ((upto 256).map (a + 256 * x.1 + ·))).map (·.2)

/-- SPAD: live banks, ascending. Granules with an uncorrectable error, when saved or in DRAM, are marked (R381). -/
def sramIn (s : State) (a split : Nat) (live : Word) : Sram :=
  let banks := (upto 64).filter fun b => fbit live b
  ((upto banks.length).zip banks).foldl (fun m x =>
    let b := a + 66048 * x.1
    let full := (upto 4096).filter fun k => fbit (wordsAt s b (k / 64)) (k % 64)
    let bad := sortUniq (s.savedBad ++ s.poison.flatMap fun p => [2 * p, 2 * p + 1]) |>.filter fun g =>
      decide ((b + 512) / 16 ≤ g) && decide (g < (b + 512) / 16 + 4096)
    { m with cells := memWrite m.cells (65536 * x.2) (grun s (b + 512) 65536),
             full := m.full ++ full.map (4096 * x.2 + ·),
             bad := m.bad ++ bad.map fun g => 4096 * x.2 + (g - (b + 512) / 16) })
    { Sram.fresh with split := split, live := live }

/-- Segments of a saved PORTS bank that an uncorrectable error in DRAM feeds: those of a cell's row; every one for a scale,
checksum or σ byte (R381). -/
def segsHurt (s : State) (p : Nat) : List Nat :=
  (upto 4).filter fun j => s.poison.any fun x => decide (p ≤ 32 * x) && decide (32 * x < p + 17408) &&
    (decide (p + 16384 ≤ 32 * x) || decide ((32 * x - p) / 4096 = j))

/-- One bank from its descriptor at `d`; a PORTS bank from its bytes at `p`. -/
def bankIn (s : State) (d p : Nat) : Bank :=
  let rd := wordsAt s d
  let w := rd 0
  let b : Bank := { Bank.fresh with swm := fbit w 2, fmt := beadFmtCode (fld w 4 4) }
  match fld w 0 2 with
  | 1 => { b with filling := true,
                  src := .object (fld (rd 1) 0 20) (fld (rd 1) 20 16)
                    ((upto 14).map fun i => fld (rd (2 + i / 2)) (32 * (i % 2)) 32) }
  | 2 => { b with src := .ports, w := tableOf 0 16384 (byteAt s p),
                  scales := tableOf 0x7F 512 (fun i => byteAt s p (16384 + i)),
                  chk := tableOf 0 256 (fun r => (byteAt s p (16896 + r)).toInt),
                  sigma := tableOf 0 4 (fun j => (byteAt s p (17152 + j)).toNat), unmatch := segsHurt s p }
  | _ => b

/-- Bank t of array b. -/
def bankAt (s : State) (a b t : Nat) : Bank :=
  let i := 2 * b + t
  let before := ((upto i).filter (descPorts s a)).length
  bankIn s (a + 128 * i) (a + 16384 + 17408 * before)

/-- WHELD records; HOME_DIE is the record's as it now stands. -/
def wheldIn (s : State) (a n : Nat) : List VStore :=
  (upto n).map fun i =>
    let b := a + 320 * i
    let rd := wordsAt s b
    { n := 0, handle := fld (rd 0) 0 20, die := handleDie s s.cur (fld (rd 0) 0 20), gen := fld (rd 0) 20 16,
      ord := ordOfCode (fld (rd 0) 36 2), scope := scopeOfCode (fld (rd 0) 38 2), off := (rd 1).toNat, da := (rd 2).toNat, da2 := (rd 3).toNat,
      mask := BitVec.ofNat 256 (leNat (grun s (b + 32) 32)), data := BitVec.ofNat 2048 (leNat (grun s (b + 64) 256)) }

/-- WADD records of `len` bytes. Only a fabric address, whose object is not striped, can be refused later: its offset is
taken from the record's base as it now stands (R61, R82). -/
def waddIn (s : State) (a : Nat) : Nat → Nat → List CAdd
  | 0, _ => []
  | k + 1, len =>
    if len = 0 then []
    else
      let rd := wordsAt s a
      let e := (rd 1).toNat
      { n := 0, handle := fld (rd 0) 0 20, die := handleDie s s.cur (fld (rd 0) 0 20), gen := fld (rd 0) 20 16,
        ord := ordOfCode (fld (rd 0) 36 2), scope := scopeOfCode (fld (rd 0) 38 2), bad := [],
        offs := (upto e).map fun i => fld (rd (4 + 2 * i)) 0 48 - handleBase s s.cur (fld (rd 0) 0 20),
        elems := (upto e).map fun i => (fld (rd (4 + 2 * i)) 0 48, (rd (5 + 2 * i)).extractLsb' 0 32) }
      :: waddIn s (a + 32 + 16 * e) k (len - (32 + 16 * e))

/-- The level-2 fault of a report kept by R331. -/
def faultIn (rd : Words) : L2Fault :=
  let info := rd 4
  let cls := l2ClassOf (fld info 56 8)
  let it (w : Word) := (upto 4).map fun i => fld w (16 * i) 16
  { n := 0, slot := fld info 54 2, cls := cls, pos := fld info 0 48, rep := fld (rd 6) 32 12,
    iters := (it (rd 5) ++ (it (rd 6)).take 2).take (fld info 50 3),
    tag := { pc := rd 7, ser := (rd 8).extractLsb' 32 32, tid := (rd 8).extractLsb' 0 32 },
    mem := if cls.code ≤ 8 then some { handle := fld (rd 9) 44 20, off := fld (rd 9) 0 44, gen := fld (rd 10) 0 16 } else none,
    final := !fbit info 53 }

/-! ### The whole thread (R344, R345) -/

/-- Divisors of the header under the floors of the frame; a grant and the cool-down are the frame's (R344). -/
def clocksIn (c : Clocks) (w : Word) : Clocks :=
  let d (floor lo : Nat) : BitVec 6 := BitVec.ofNat 6 (divisorFor floor (fld w lo 6))
  { c with gen := d 3 8, exec := d (execFloor c) 16, copy := d 4 24, reqGen := none, reqExec := none, reqCopy := none,
           askGen := BitVec.ofNat 6 (fld w 8 6), askExec := BitVec.ofNat 6 (fld w 16 6), askCopy := BitVec.ofNat 6 (fld w 24 6) }

/-- Slates that hold a live row are FULL, every other one is OFF. -/
def slatesIn (rows : Tbl Row) : Tbl (BitVec 2) := rows.foldl (fun t r => tset t (r.1 / 64) 0) []

/-- What an escalated level-2 fault's disposition does when its thread is bound again: replay or abandon. -/
def dispose (f : Frame) (abandon : Bool) : Frame := resolveL2 f abandon

/-- The bytes by which the image at `area` is known. -/
def keyAt (s : State) (area : Nat) : List Byte := keySecs.flatMap fun n => grun s (secBase s area n) (secLen s area n)

/-- What the model keeps beside the image at `area`, if the image is the one last written for its thread, in the moving
frame's partition. -/
def carriedOf (s : State) (b : BindRec) : Option Frame :=
  (s.carried.find? fun c => decide (c.part = curPart s) && decide (c.tid = b.tid) && decide (c.key = keyAt s b.area)).map Carried.frame

/-- Marks of a bank that its descriptor has no field for. -/
def bankOver (b c : Bank) : Bank := { b with touched := c.touched, unmatch := if b.src = .ports then sortUniq (b.unmatch ++ c.unmatch) else b.unmatch }

/-- The sequencer as the image was written: its queues with their captures, loops, pending formats and fences; each
engine tries its head again. -/
def seqOver (c : Seq) (stage : Stage) (lvl : Word → Nat) : Seq :=
  let free (q : SlotQ) : SlotQ := { q with hold := none }
  { c with
    qb := free c.qb, qv := free c.qv, qc := free c.qc, sub := 3, stage := stage,
    cur := if stage = .issuing then c.cur.map fun x => { x with lvl := lvl x.ent.bun.hdr } else none }

/-- What the layout has no field for goes back to the frame (R144, R170, R381; assumption 19). -/
def overlay (f c : Frame) (lvl : Word → Nat) : Frame :=
  { f with
    gen := { f.gen with fences := c.gen.fences, imem := c.gen.imem, ibad := c.gen.ibad },
    seq := seqOver c.seq f.seq.stage lvl,
    ph := { f.ph with snap := c.ph.snap, undo := c.ph.undo, stores := c.ph.stores, adds := c.ph.adds, eccSeen := c.ph.eccSeen },
    vec := { f.vec with fifos := c.vec.fifos },
    bead := { f.bead with arrays := f.bead.arrays.map fun (e : Nat × BArr) =>
      let a := arrOf c e.1
      (e.1, { e.2 with b0 := bankOver e.2.b0 a.b0, b1 := bankOver e.2.b1 a.b1, swapped := a.swapped }) },
    codeHad := c.codeHad, codeNew := c.codeNew.map fun e => (e.1, true) }

/-- Restore the thread of the image at `area` on the moving frame; its calibration, CHK_CNT, cool-down, splitting and
record cache stay the frame's. OBJECT banks are left to be fetched. The bind is an acquire, as the point before it was (R108).
That a level-2 fault is being handled is told by IN_H with bit 63 of L1CAUSE, which the handler may have written, for the image
says it nowhere else: DESIGN CHOICE (assumption 51). -/
def restoreFrame (s : State) (f : Frame) (b : BindRec) : Frame :=
  let area := b.area
  let base := secBase s area
  let len := secLen s area
  let st := base 4
  let stw := wordsAt s st
  let sw := wordsAt s (base 2)
  let psets := tableOf 0 256 (fun i => stw (2560 + i))
  let kind (k : Nat) := fld (tgetD psets (8 * k) 0) 60 4
  let now := storageSeen s
  let g := { genIn (wordsAt s (base 1)) with imem := now, ibad := s.poison }
  let ents := entriesIn s (base 5) b.tid (fld (sw 14) 0 10 + fld (sw 14) 16 10)
  let clk := clocksIn f.clk (wordsAt s area 2)
  let lvl (h : Word) : Nat := bundleLevel s { f with clk := clk } h
  let q := seqIn sw ents (loopsIn (wordsAt s (base 3))) lvl
  let p := headIn s st kind
  let rows := rowsIn s (base 7) st
  let arrays := (upto 64).map fun k =>
    (k, { arrOf f k with b0 := bankAt s (base 9) k 0, b1 := bankAt s (base 9) k 1, act := fbit p.actives k,
                         clip := tgetD p.clip k 0, staleF := fbit p.staleF k, swapped := false })
  let fetch := arrays.flatMap fun (e : Nat × BArr) =>
    (if e.2.b0.filling then [(e.1, false)] else []) ++ (if e.2.b1.filling then [(e.1, true)] else [])
  let fw := wordsAt s (base 12)
  let fk := if len 12 = 0 then 0 else fld (fw 0) 0 4
  let recov := fbit g.l2.info 53
  let pend : Bool := g.h.l2pend || (g.h.inH && fbit g.h.cause 63) || decide (fk = 3)
  let f' : Frame :=
    { f with
      gen := g, clk := clk,
      seq := if pend then { q with stage := .faulted } else q,
      ph := { Phase.fresh with
        undo := undoIn s (base 6) (fld (sw 15) 0 9), snap := snapIn s (base 3) kind ents (q.pos - q.taken) arrays,
        replays := fld (sw 12) 8 8, forced := fbit (sw 12) 0,
        stores := wheldIn s (base 10) (len 10 / 320), adds := waddIn s (base 11) (len 11) (len 11),
        faults := if fk = 1 then [faultIn fw] else [], bindFault := decide (fk = 1), pending := if pend then some recov else none, ordered := true },
      vec := { Vec.fresh with
        rows := rows, bad := sortUniq ((upto 1024).filter (liveIn s (st + 22528)) ++ rowsHurt s (base 7) st), preds := p.preds, cf := p.cf,
        slates := slatesIn rows, psets := psets, ports := p.ports, fifos := p.fifos },
      sram := sramIn s (base 8) (fld (wordsAt s area 2) 0 4) (stw 2832),
      bead := { f.bead with arrays := arrays, kg := p.kg, ng := p.ng, digital := p.digital, bldp := none, bwb := [] },
      cpe := { Cpe.fresh with origins := p.origins, des := p.des, pend := (stw 340).extractLsb' 0 32 },
      disp := { Disp.fresh with running := some b, fetch := fetch },
      seen := now, seenBad := s.poison, rem := none, codeHad := [], codeNew := [], late := [] }
  let f' := match carriedOf s b with | some c => overlay f' c lvl | none => f'
  if fk = 3 then dispose f' (fbit (fw 0) 8) else f'

end Sys2Proof.Machine
end

