-- ==== Sys2Proof/Machine/Sched.lean ====
section
/-! DEFINITION. Dispatch: binds, pre-emption, kills, withdrawals, promotion, the launch aperture, the event
ring and the group commands (R169, R331, R336, R345, R351 to R364). -/

namespace Sys2Proof.Machine

/-- A register of a die's block is written: a die that is absent or not admitted ignores it (R8). -/
def dieBlock (s : State) (die : Nat) (g : State → State) : Out := .next (if (dieOf s die).st = .admitted then g s else s)

/-! ### BIND_CTL (R357) -/

def ctlDie (ctl : Word) : Nat := fld ctl 6 2
def ctlFrame (ctl : Word) : Nat := fld ctl 0 6

/-- The command ends with this status. -/
def bindStatus (s : State) (die : Nat) (ctl : Word) (st : Nat) : State :=
  setDie s die { dieOf s die with bindCtl := mk64 [(59, 4, st), (0, 10, fld ctl 0 10)] }

/-- The fields of a bind record (R355). -/
def bindRecOf (r : List Word) : BindRec :=
  { image := decide (fld (wd r 0) 62 2 = 2), prio := BitVec.ofNat 3 (fld (wd r 0) 59 3), split := fld (wd r 0) 55 4,
    tid := (wd r 0).extractLsb' 0 32, tcb := fld (wd r 1) 8 40 * 256, area := fld (wd r 2) 12 36 * 4096,
    areaLen := fld (wd r 3) 0 24 }

/-- `len` bytes from `a` up lie in DRAM of the partition; a retired range or the end of a die's DRAM can only
begin at a multiple of 2 MiB. -/
def dramOf (s : State) (part a len : Nat) : Bool :=
  let one (x : Nat) : Bool := (partDies s part).any fun d => inDram s d x
  one a && one (a + (len - 1)) && (upto (len / 0x200000)).all fun i => one ((a / 0x200000 + i + 1) * 0x200000) || decide (a + len ≤ (a / 0x200000 + i + 1) * 0x200000)

/-- Row 6 of the bind status: the record, or its control block, is bad. -/
def bindBad (s : State) (part : Nat) (r : List Word) : Bool :=
  let b := bindRecOf r
  let kind := fld (wd r 0) 62 2
  let form := onlyBits (wd r 0) [(62, 2), (59, 3), (55, 4), (0, 32)] && onlyBits (wd r 1) [(8, 40)] &&
    onlyBits (wd r 2) [(12, 36)] && onlyBits (wd r 3) [(0, 24)] && (decide (kind = 1) || decide (kind = 2)) &&
    (if b.image then decide (b.split = 0) else decide (b.split ≠ 0)) && dramOf s part b.tcb 256 &&
    ((decide (b.areaLen = 0) && !b.image) || dramOf s part b.area (4096 * max 1 b.areaLen))
  if !form then true
  else
    let st := tcbState s b.tcb
    decide ((tcbGet s b.tcb 0).extractLsb' 0 32 ≠ b.tid) || decide (5 ≤ st) ||
      (!b.image && decide (st = 2)) || (b.image && decide (st = 0))

/-- The die is admitted in the partition and the frame exists. -/
def framePresent (s : State) (part : Nat) (ctl : Word) : Bool :=
  decide (ctlFrame ctl < Config.framesPerDie) && decide ((dieOf s (ctlDie ctl)).st = .admitted) &&
    decide ((dieOf s (ctlDie ctl)).part = part)

/-- R357: the first row that applies. -/
def bindDecide (s : State) (die : Nat) (ctl : Word) : Nat :=
  let v := dieOf s die
  let b := bindRecOf v.bindRec
  let f := frameOf s (frameKey (ctlDie ctl) (ctlFrame ctl))
  if bindBad s v.part v.bindRec then 6
  else if !framePresent s v.part ctl then 2
  else if (dieOf s (ctlDie ctl)).oos.getLsbD (ctlFrame ctl) then 3
  else if f.disp.gated then 4
  else if tcbState s b.tcb = 3 ∨ tcbState s b.tcb = 4 ∨ endHeld s b.tcb = true then 5
  else if tcbState s b.tcb = 1 then 11
  else if f.disp.standby.isSome then 1
  else if b.image && !imageOk s b.area b.areaLen then 7
  else match f.disp.running with
    | some r => if r.prio.toNat < b.prio.toNat then 8 else 0
    | none => 0

/-- The launch record that a control block's thread comes from. -/
def recordFits (s : State) (tcb : Nat) (r : LaunchRec) : Bool :=
  let i := fld (tcbGet s tcb 2) 0 20
  decide (fld (wd r.w 0) 16 20 + 1 = fld (tcbGet s tcb 2) 32 21) && decide (wd r.w 1 = tcbGet s tcb 1) &&
    decide (wd r.w 4 = tcbGet s tcb 4) && decide (r.taken ≤ i) &&
    decide (wd r.w 2 + BitVec.ofNat 64 (i * fld (wd r.w 3) 0 32) = tcbGet s tcb 3)

/-- Mark a thread of a queue's record taken; with its last thread the record leaves (R352). -/
def takeThread (s : State) (tcb : Nat) : List LaunchRec → List LaunchRec
  | [] => []
  | r :: rest =>
    if recordFits s tcb r then
      let i := fld (tcbGet s tcb 2) 0 20
      if i = fld (wd r.w 0) 16 20 then rest else { r with taken := i + 1 } :: rest
    else r :: takeThread s tcb rest

/-- The first accepted bind of a NEW thread takes it from its queue; a thread that was withdrawn and is bound again has
been counted already (R352). A die that the partition does not hold, whatever the control block says, loses nothing (R26). -/
def accountFresh (s : State) (part tcb : Nat) : State :=
  let me := (tcb, (tcbGet s tcb 0).extractLsb' 0 32)
  let d := fld (tcbGet s tcb 5) 6 2
  let q := fld (tcbGet s tcb 5) 0 6
  let v := dieOf s d
  if s.counted.contains me then s
  else
    let s := { s with counted := me :: s.counted }
    if v.part = part then setDie s d { v with queues := tput [] v.queues q (takeThread s tcb (tgetD v.queues q [])) } else s

/-- Raise a request on a frame; a second is absorbed into the first, and a kill takes its place (R358, R361). -/
def raiseStop (f : Frame) (why : StopWhy) : Frame :=
  let req := match f.disp.req, why with
    | none, w => some { why := w, landed := false }
    | some r, .kill => some { r with why := .kill }
    | some r, _ => some r
  { f with disp := { f.disp with req := req } }

/-- R357: decide a BIND; accepted, the record stands by and its thread is BOUND. From step 2 of a live update no Svaken
core binds (R385). -/
def execBind (die : Nat) (ctl : Word) (s : State) : Out :=
  let st := bindDecide s die ctl
  let b := bindRecOf (dieOf s die).bindRec
  let fr := frameKey (ctlDie ctl) (ctlFrame ctl)
  dieBlock s die fun s =>
    if updateHolds s then s
    else if st = 0 ∨ st = 8 then
      let s := if b.image then s else accountFresh s (dieOf s die).part b.tcb
      let s := setTcbState s b.tcb 1
      let f := frameOf s fr
      let f := { f with disp := { f.disp with standby := some b } }
      bindStatus (setFrame s fr (if st = 8 then raiseStop f .preempt else f)) die ctl st
    else bindStatus s die ctl st

/-- R358: a request on a frame that runs a thread. -/
def execPreempt (die : Nat) (ctl : Word) (s : State) : Out :=
  let fr := frameKey (ctlDie ctl) (ctlFrame ctl)
  let f := frameOf s fr
  dieBlock s die fun s =>
    if !framePresent s (dieOf s die).part ctl then bindStatus s die ctl 2
    else if f.disp.running.isNone then bindStatus s die ctl 9
    else bindStatus (setFrame s fr (raiseStop f .preempt)) die ctl 10

/-- Empty a standby entry; its thread is NEW or UNBOUND again (R360). -/
def withdrawFrom (s : State) (fr : Nat) : State :=
  let f := frameOf s fr
  match f.disp.standby with
  | none => s
  | some b =>
    let part := (dieOf s (fr / Config.framesPerDie)).part
    let s := setTcbState s (reachTcb s part b.tcb) (if b.image then 2 else 0)
    setFrame s fr { frameOf s fr with disp := { f.disp with standby := none } }

/-- R360. -/
def execWithdraw (die : Nat) (ctl : Word) (s : State) : Out :=
  let fr := frameKey (ctlDie ctl) (ctlFrame ctl)
  dieBlock s die fun s =>
    if !framePresent s (dieOf s die).part ctl then bindStatus s die ctl 2
    else if (frameOf s fr).disp.standby.isNone then bindStatus s die ctl 9
    else bindStatus (withdrawFrom s fr) die ctl 10

/-! ### Kills (R361) -/

/-- Frames of a partition. -/
def partFrames (s : State) (part : Nat) : List Nat :=
  (partDies s part).flatMap fun d => (upto Config.framesPerDie).map (frameKey d)

/-- The frame whose running or standby entry holds a control block. -/
def runsTcb (s : State) (part tcb : Nat) : Option Nat :=
  (partFrames s part).find? fun k => (frameOf s k).disp.running.any fun b => decide (b.tcb = tcb)
def standsTcb (s : State) (part tcb : Nat) : Option Nat :=
  (partFrames s part).find? fun k => (frameOf s k).disp.standby.any fun b => decide (b.tcb = tcb)

/-- Cancel what a killed thread has in flight, and drop what it withholds (R109, R361). -/
def killCancel (f : Frame) : Frame :=
  { f with
    seq := { f.seq with qb := .fresh, qv := .fresh, qc := .fresh, cur := none, stage := .faulted },
    vec := { f.vec with loads := [] },
    bead := { f.bead with bldp := none, bwb := [] },
    cpe := { f.cpe with ops := [] },
    ph := { f.ph with stores := [], adds := [], faults := [], bindFault := false },
    disp := { f.disp with fetch := [] } }

/-- A kill of a running thread: it is stopped as at a pre-emption point, and finishes with IMAGE_WRITE. -/
def killRunning (s : State) (fr : Nat) : State :=
  let f := raiseStop (frameOf s fr) .kill
  setFrame s fr (if landed f then killCancel f else f)

/-- R361. -/
def execKill (die : Nat) (ctl : Word) (s : State) : Out :=
  let v := dieOf s die
  let b := bindRecOf v.bindRec
  dieBlock s die fun s =>
    if !onlyBits (wd v.bindRec 1) [(8, 40)] || !dramOf s v.part b.tcb 256 then bindStatus s die ctl 6
    else if (tcbGet s b.tcb 0).extractLsb' 0 32 ≠ b.tid ∨ 5 ≤ tcbState s b.tcb then bindStatus s die ctl 6
    else if tcbState s b.tcb = 3 ∨ tcbState s b.tcb = 4 ∨ endHeld s b.tcb = true then bindStatus s die ctl 5
    else match runsTcb s v.part b.tcb with
      | some fr => bindStatus (killRunning s fr) die ctl 10
      | none =>
        let fr := (standsTcb s v.part b.tcb).getD (frameKey die 0)
        let s := match standsTcb s v.part b.tcb with | some k => withdrawFrom s k | none => s
        bindStatus (endOrHold s die fr b.tcb true) die ctl 10

/-! ### Stopping a running thread (R169, R205, R210, R336, R358) -/

/-- A boundary at which a request can land: between two bundles, or between two repetitions, and never inside a split
bundle (R169). -/
def atBoundary (f : Frame) : Bool :=
  match f.seq.stage, f.seq.cur with
  | .boundary, _ => true
  | .faulted, _ => true
  | .issuing, some c => decide (c.rep = 0) || decide (lastSub c.lvl ≤ f.seq.sub)
  | _, _ => false

/-- Writes or atomics of the moving frame's cancelled operations are on their way to another package (R164, R361). -/
def cancelledOut (s : State) : Bool :=
  (s.edge.flitsWait ++ s.edge.parked).any fun o => decide (o.frame = s.cur) && (decide (o.work = 3) || decide (o.work = 8))

/-- R169, R210: the request lands; the generator stops at an instruction boundary. A bundle taken of which nothing has
been handed out is not begun: the point lies before it. A kill cancels at once. A frame that an event holds
stays as it is (R362). -/
def execPreemptionPoint (s : State) : Out :=
  let f := curFrame s
  .next <| match f.disp.req, f.disp.running with
    | some r, some _ =>
      if r.landed || f.bead.bldp.isSome || !atBoundary f || remBusy f || decide (f.disp.evHeld ≠ 0) then s
      else
        let f := { f with
          disp := { f.disp with req := some { r with landed := true } },
          gen := { abandonStall f.gen with exiting := false },
          seq := match f.seq.stage, f.seq.cur with
            | .issuing, some c => if c.rep = 0 then untake f.seq else f.seq
            | _, _ => f.seq }
        setCur s (if r.why = .kill then killCancel f else f)
    | _, _ => s

/-- Why an engine's head issue may be abandoned at the point: an empty granule, a FIFO, a MIGRATING record. -/
def holdAbandons : Hold → Bool
  | .granules _ | .portEmpty _ | .portFull _ | .migrating _ | .record .. => true
  | _ => false

/-- An engine's queue is empty, or its head waits for what will not come while the thread is stopped. -/
def queueRests (f : Frame) (sl : SlotName) : Bool :=
  match headOf f sl, (slotQ f.seq sl).hold with
  | none, _ => true
  | some e, some h => !holdGone f sl e h
  | some _, none => false

/-- The engines have finished their issues, those abandoned apart. -/
def enginesRest (f : Frame) : Bool :=
  let qs := [SlotName.bead, .vector, .copy]
  rollbackReady f ||
    (f.ph.faults.isEmpty && qs.all (queueRests f) && (queuesEmpty f || qs.any fun sl => match (slotQ f.seq sl).hold with
      | some h => holdAbandons h | none => false))

/-- No reload waits for its last byte's checksum. -/
def reloadsRest (f : Frame) : Bool := f.bead.arrays.all fun e => !((e.2.b0.filling && e.2.b0.got) || (e.2.b1.filling && e.2.b1.got))

/-- R336 steps 1 and 2. -/
def imageReady (f : Frame) : Bool :=
  landed f && enginesRest f && f.vec.loads.isEmpty && f.ph.released.isEmpty && f.cpe.ops.isEmpty &&
    f.bead.bldp.isNone && f.bead.bwb.isEmpty && f.disp.fetch.isEmpty && reloadsRest f

/-- Give back a sprint grant (R336 step 3). -/
def giveBack (f : Frame) : Frame := if f.clk.grant.isSome then { f with clk := endSprint f.clk } else f

/-- What the engines' abandoned issues had popped goes back to its ports, the last vector first (R245, R271). -/
def returnPops (f : Frame) : Frame :=
  let all := (f.seq.qb.q ++ f.seq.qv.q ++ f.seq.qc.q).flatMap SlotIssue.got
  let drop (q : SlotQ) : SlotQ := { q with q := q.q.map fun x => { x with got := [] } }
  let f := all.reverse.foldl unpop f
  { f with seq := { f.seq with qb := drop f.seq.qb, qv := drop f.seq.qv, qc := drop f.seq.qc } }

/-- The frame as its image is written (R336): a sprint grant given back, popped vectors back in their ports. -/
def imageFrame (f : Frame) : Frame := returnPops (giveBack f)

/-- The image is written: the thread is UNBOUND, its frame free, and the event tells its length. -/
def unbind (s : State) (b : BindRec) (cut : Bool) (kind : Nat) : State :=
  let f := imageFrame (curFrame s)
  let size := imageSize (imageSecs f cut)
  let s := if size ≤ 4096 * b.areaLen then putImage s f b cut else s
  let s := setTcbState s (curTcb s) 2
  let s := onCur s fun g => freeFrame { g with clk := f.clk }
  postFrameEvent s s.cur kind b.tid (BitVec.ofNat 64 size)

/-- The killed thread's committed work is performed: its frame is freed, and then the thread ends, at once or when what holds
its end back is gone (R361, R379, R388). -/
def killFinish (s : State) (b : BindRec) : State := endOrHold (onCur s freeFrame) (curDie s) s.cur b.tcb true

/-- A point whose pre-emption is refused: the thread goes on, and every access before the point precedes every one after it
(R94, R108, R169). -/
def passPoint (s : State) : State :=
  onCur (l1Invalidate s) fun f => { f with late := [], disp := { f.disp with req := none } }

/-- R336, R337, R358, R361, R376: write the image, refuse the pre-emption, or end the killed thread. A write
to an area whose home does not serve waits, and so does all of it while a cancelled operation can still write in another
package (R361) or an event holds the frame (R362). -/
def execImageWrite (s : State) : Out :=
  let f := curFrame s
  .next <| match f.disp.req, f.disp.running with
    | some r, some b =>
      let size := imageSize (imageSecs (imageFrame f) false)
      let fits := decide (size ≤ 4096 * b.areaLen)
      if cancelledOut s || decide (f.disp.evHeld ≠ 0) then s
      else if r.landed && decide (r.why = .kill) then (if f.ph.released.isEmpty then killFinish s b else s)
      else if !imageReady f || (decide (b.areaLen ≠ 0) && !serves s (homeOf b.area)) then s
      else match r.why with
        | .escalate => unbind s b (!fits) 3
        | .preempt =>
          if fits then unbind s b false 2
          else postFrameEvent (passPoint s) s.cur 5 b.tid (BitVec.ofNat 64 size)
        | _ =>
          if fits then unbind s b false 2
          else setCur s (killCancel { f with disp := { f.disp with req := some { why := .kill, landed := true } } })
    | _, _ => s

/-! ### Promotion and bank fetches (R345, R356, R357) -/

/-- The fresh entry state on the moving frame: calibrations, CHK_CNT, cool-down, splitting and the record cache stay the
frame's (R356). -/
def freshThread (s : State) (f : Frame) (b : BindRec) : Frame :=
  let keep (a : BArr) : BArr :=
    { BArr.fresh with cal := a.cal, meas := a.meas, calTemp := a.calTemp, calTime := a.calTime,
                      calStale := a.calStale, calOut := a.calOut }
  { Frame.fresh with
    gen := { Gen.fresh with pc := tcbGet s (reachTcb s (curPart s) b.tcb) 1, imem := storageSeen s, ibad := s.poison },
    clk := { f.clk with gen := 3, exec := BitVec.ofNat 6 (divisorFor (execFloor f.clk) 4), copy := 4, reqGen := none,
                        reqExec := none, reqCopy := none, askGen := 3, askExec := 4, askCopy := 4 },
    sram := { Sram.fresh with split := b.split },
    bead := { f.bead with arrays := f.bead.arrays.map fun (e : Nat × BArr) => (e.1, keep e.2), kg := 1, ng := 1,
                          digital := false, bldp := none, bwb := [] },
    disp := { Disp.fresh with running := some b },
    rc := f.rc, seen := storageSeen s, seenBad := s.poison }

/-- A fresh thread belongs to no group (R356): the membership records of its control block are not valid. -/
def noMembers (s : State) (tcb : Nat) : State :=
  (upto 8).foldl (fun s j => tcbPut s tcb (16 + 2 * j) (fput (memberOf s tcb j) 63 1 0)) s

/-- An event of the frame waits for ring space: dispatch holds the frame (R362). -/
def frameHeld (s : State) (fr : Nat) : Bool :=
  let d := fr / Config.framesPerDie
  (dieOf s (homeDie s (dieOf s d).part)).evWait.any fun e =>
    decide (e.die = d) && decide (e.frame = fr % Config.framesPerDie) && decide (e.kind ≠ 8)

/-- The image of a bind record can be loaded: its area lies in the partition still, and no error has come since the bind that
it could not bear (R26, R374, R381). -/
def imageStands (s : State) (part : Nat) (b : BindRec) : Bool :=
  dramOf s part b.area (4096 * max 1 b.areaLen) && !imageHurt s b.area (fld (wordsAt s b.area 1) 0 48)

/-- R357: the standby thread runs. One whose image cannot be loaded any more is withdrawn instead (assumptions 47 and 48). -/
def execPromote (frame : Nat) (s : State) : Out :=
  let f := frameOf s frame
  let part := (dieOf s (frame / Config.framesPerDie)).part
  .next <| match f.disp.running, f.disp.standby with
    | none, some b =>
      if frameHeld s frame then s
      else if b.image && !imageStands s part b then withdrawFrom s frame
      else
        let s := if b.image then s else noMembers s (reachTcb s part b.tcb)
        let g := if b.image then restoreFrame { s with cur := frame } f b else freshThread { s with cur := frame } f b
        postFrameEvent (setFrame s frame g) frame 7 b.tid 0
    | _, _ => s

/-- How a bank's fetch ends. -/
inductive FetchRes
  | done (b : Bank)
  | wait (off : Option Nat)
  | lost
  deriving DecidableEq, Repr

/-- A bank whose record has bytes in another package, with their offsets: lines not answered are asked for through HOME_DIE's
ports, and the bank waits; with all of them it is filled. A refusal is PERMISSION, which loses the bank, or HOME_OFFLINE,
which holds it (R345, R371, R372). -/
def fetchFar (s : State) (key : Nat) (ws : List Word) (at' : List (Nat × Nat)) (b : State → Bank) : FetchRes × State :=
  let far := at'.filter fun x => isRemote x.1
  let lines := sortUniq (far.map fun x => x.1 / 128)
  let got := (curFrame s).recGot
  let left := lines.filter fun l => (tget got l).isNone
  if !left.isEmpty then (.wait none, askLines s s.cur key 12 (recHomeDie ws) left)
  else if lines.any fun l => decide (gotCode got l = 4) then (.lost, dropGot s s.cur lines)
  else match far.find? fun x => decide (gotCode got (x.1 / 128) = 8) with
  | some x => (.wait (some x.2), dropGot s s.cur lines)
  | none => (.done (b (gotPut s got lines)), dropGot s s.cur lines)

/-- Fetch an OBJECT bank of the moving frame through its handle's record (R345). -/
def fetchBank (s : State) (key : Nat) (bank : Bank) : FetchRes × State :=
  match bank.src with
  | .object h gen org =>
    match lookSides s [h] with
    | .ok [r] s =>
      let ws := r.1.words
      if recGen ws ≠ gen ∨ beadFmtOf (recFmt ws) ≠ some bank.fmt then (.lost, s)
      else
        let cs := crldUnits org (recRank ws) (if recFmt ws = 11 then 2 else 1) 0 0 (fmtMx (recFmt ws))
        (match checkSides s [{ h := h, ent := r.1, migr := r.2, need := needB, cs := cs, extra := none }] none with
        | .ok us s => fetchFar s key ws us.flatten.flatten fun s =>
            { bankChecksum (fillBank s ws r.1.ext org 0 0 bank) with filling := false, got := false, summed := false }
        | .hold (.record h die lines) => (.wait none, askLines s s.cur h 11 die lines)
        | .hold _ | .wait _ _ => (.wait none, s)
        | .fault .residency m s => (.wait (m.map MemInfo.off), s)
        | .fault .homeOffline m s => (.wait (m.map MemInfo.off), s)
        | .fault _ _ s => (.lost, s))
    | .fault .homeOffline m s => (.wait (m.map MemInfo.off), s)
    | .fault _ _ s => (.lost, s)
    | .hold (.record h die lines) => (.wait none, askLines s s.cur h 11 die lines)
    | _ => (.wait none, s)
  | _ => (.done { bank with filling := false }, s)

/-- WEIGHT_LOST of a fetch: unrecoverable, with slot bead and the POS at hand. -/
def fetchLost (f : Frame) : L2Fault :=
  { n := 0, slot := 0, cls := .weightLost, pos := (match inProgress f.seq with | some c => c.pos | none => f.seq.pos),
    rep := 0, iters := f.seq.loops.map LoopEnt.iter,
    tag := (match f.seq.cur with | some c => c.ent.tag | none => { pc := 0, ser := 0, tid := 0 }), mem := none, final := true }

/-- The handle of a bank's object source; 0 for none. -/
def bankHandle (b : Bank) : Nat := match b.src with | .object h _ _ => h | _ => 0

/-- The fetch of a bank ends with these contents. -/
def fetchPut (s : State) (frame : Nat) (p : Nat × Bool) (b : Bank) : State :=
  let f := frameOf s frame
  let f := setArr f p.1 (setBank (arrOf f p.1) p.2 b)
  let out (l : List (Nat × Bool)) : List (Nat × Bool) := l.filter fun x => decide (x ≠ p)
  setFrame s frame { f with disp := { f.disp with fetch := out f.disp.fetch, posted := out f.disp.posted } }

/-- The fetch of a bank ends in another class: the bank is ZERO and WEIGHT_LOST is raised (R345). It is reported even where the
image kept a fault, for a replay would read the lost bank: DESIGN CHOICE (assumption 51). -/
def fetchLose (s : State) (frame : Nat) (p : Nat × Bool) : State :=
  let s := fetchPut s frame p zeroBank
  let f := frameOf s frame
  setFrame s frame { f with ph := { f.ph with faults := fetchLost f :: f.ph.faults, bindFault := true } }

/-- The fetch of a bank is held, at this offset of its object where RESIDENCY or HOME_OFFLINE holds it: it goes to the end of
the list, and its event is posted once. -/
def fetchHold (s : State) (frame : Nat) (p : Nat × Bool) (off : Option Nat) : State :=
  let f := frameOf s frame
  let known := f.disp.posted.contains p
  let posted := if known || off.isNone then f.disp.posted else p :: f.disp.posted
  let s := setFrame s frame { f with disp := { f.disp with fetch := f.disp.fetch.filter (fun x => decide (x ≠ p)) ++ [p], posted := posted } }
  match off, f.disp.running, known with
  | some o, some run, false =>
    postFrameEvent s frame 6 run.tid (mk64 [(44, 20, bankHandle (bankOf (arrOf f p.1) p.2)), (0, 44, o)])
  | _, _, _ => s

/-- Key of a bank among a frame's requests. -/
def bankKey (p : Nat × Bool) : Nat := 2 * p.1 + p.2.toNat

/-- R345: one attempt on a bank still to fetch. -/
def fetchTry (s : State) (frame : Nat) (p : Nat × Bool) : State :=
  let f := frameOf s frame
  match fetchBank { s with cur := frame } (bankKey p) (bankOf (arrOf f p.1) p.2) with
  | (.done b, s') => fetchPut { s' with cur := s.cur } frame p b
  | (.lost, s') => fetchLose { s' with cur := s.cur } frame p
  | (.wait off, s') => fetchHold { s' with cur := s.cur } frame p off

/-- R345: an attempt on the first bank still to fetch. -/
def execBankFetchRetry (frame : Nat) (s : State) : Out :=
  let f := frameOf s frame
  .next <| match f.disp.fetch, f.disp.running with
    | p :: _, some _ => fetchTry s frame p
    | _, _ => s

/-! ### Event ring (R362) -/

/-- Write waiting events while the ring takes them; each no longer holds its frame. -/
def drainRing : Nat → State → Nat → State
  | 0, s, _ => s
  | n + 1, s, d =>
    let v := dieOf s d
    match v.evWait with
    | e :: r =>
      if !ringReady s v.part v.evqBase then s
      else drainRing n (holdFrame (ringPut (setDie s d { v with evWait := r }) d e) e (· - 1)) d
    | [] => s

def execEventRingSpace (die : Nat) (s : State) : Out := .next (drainRing (dieOf s die).evWait.length s die)

/-! ### Group commands (R363) -/

/-- The command ends: STATUS and data. -/
def grpDone (s : State) (die op : Nat) (group : BitVec 12) (st : Nat) (data : Option (List Word)) : State :=
  let v := dieOf s die
  setDie s die { v with grpCmd := mk64 [(60, 3, st), (12, 2, op), (0, 12, group.toNat)], grpData := data.getD v.grpData }

def grpKey (s : State) (die : Nat) (group : BitVec 12) : Nat := groupKey (dieOf s die).part group.toNat

def execGrpRead (die : Nat) (group : BitVec 12) (s : State) : Out :=
  dieBlock s die fun s => match tget s.groups (grpKey s die group) with
    | some g => grpDone s die 0 group 0 (some [mk64 [(63, 1, 1), (0, 32, g.epoch.toNat)],
        mk64 [(24, 24, g.members.toNat), (0, 24, g.arrived.toNat)], mk64 [(24, 24, g.lateM.toNat), (0, 24, g.lateA.toNat)]])
    | none => grpDone s die 0 group 2 (some [0, 0, 0])

def execGrpCreate (die : Nat) (group : BitVec 12) (s : State) : Out :=
  dieBlock s die fun s => match tget s.groups (grpKey s die group) with
    | some _ => grpDone s die 1 group 1 none
    | none => grpDone (setGroup s (grpKey s die group) { epoch := 0, members := 0, arrived := 0, lateM := 0, lateA := 0 }) die 1 group 0 none

def execGrpDestroy (die : Nat) (group : BitVec 12) (s : State) : Out :=
  dieBlock s die fun s => match tget s.groups (grpKey s die group) with
    | none => grpDone s die 2 group 2 none
    | some g =>
      if g.members ≠ 0 ∨ g.lateM ≠ 0 then grpDone s die 2 group 3 none
      else grpDone { s with groups := terase s.groups (grpKey s die group) } die 2 group 0 none

/-! ### The launch aperture (R351, R369) -/

/-- Some die belongs to the partition. -/
def partExists (s : State) (p : Nat) : Bool := !(partDies s p).isEmpty

/-- A writer may submit on a page: its own partition's (R8, R351). -/
def apertAllowed (s : State) (who : Writer) (part : Nat) : Bool :=
  match who with
  | .host p => decide (p = part) && partExists s part
  | .svaken d => decide ((dieOf s d).part = part) && partExists s part

/-- The writer is the host. -/
def isHost : Writer → Bool
  | .host _ => true | .svaken _ => false

/-- The record of a slot as its submission has it: the staged words, or those kept while it is in progress (R351). -/
def slotWords (s : State) (part slot : Nat) : List Word :=
  let at' := if fbit (tgetD s.hub.apert (apertKey part slot 8) 0) 63 then 16 else 0
  (upto 8).map fun i => tgetD s.hub.apert (apertKey part slot (at' + i)) 0

/-- Submit a slot's record, as the home die's frame 0 translates: its status, or that it waits. A completion word in another
package is asked for its addition, and the record is in with the answer; a refusal is a failed check (R349, R350, R372). -/
def submitSlot (s : State) (fr part slot : Nat) (w : List Word) : (Nat ⊕ Nat) × State :=
  let key := slotKey part slot
  match tget s.edge.doneRes key with
  | some 0 => (.inl 0, launchEnter (dropDone s key) part w)
  | some _ => (.inl 2, dropDone s key)
  | none =>
    if doneOut s key then (.inr 0, s)
    else match farDone s fr part w with
      | some (das, s) => (.inr 0, doneSend s fr (tagHandle (wd w 4)) key das (launchCount w))
      | none => submit s fr part w

/-- Submit with the record caches left as they were. -/
def submitStaged (s : State) (part slot : Nat) (w : List Word) : (Nat ⊕ Nat) × State :=
  let d := homeDie s part
  let fr := frameKey d 0
  let x := submitSlot s fr part slot w
  let s' := setFrame x.2 fr { frameOf x.2 fr with rc := (frameOf s fr).rc, reread := (frameOf s fr).reread }
  (x.1, setDie s' d { dieOf s' d with rc := (dieOf s d).rc })

/-- A submission, or the retry of one in progress: SUBMIT reads 1, and the record is kept, while its checks wait for a record
that is MIGRATING or for another package. -/
def laSubmit (s : State) (part slot : Nat) : State :=
  let w := slotWords s part slot
  let x := submitStaged s part slot w
  let put (t : Tbl Word) (i : Nat) (v : Word) : Tbl Word := tput 0 t (apertKey part slot i) v
  let apert := match x.1 with
    | .inl st => put x.2.hub.apert 8 (mk64 [(60, 3, st)])
    | .inr _ => (upto 8).foldl (fun t i => put t (16 + i) (wd w i)) (put x.2.hub.apert 8 (mk64 [(63, 1, 1)]))
  { x.2 with hub := { x.2.hub with apert := apert } }

/-- Submissions of a partition in progress are tried again. -/
def retrySubmits (s : State) (part : Nat) : State :=
  (upto 4).foldl (fun s slot =>
    if fbit (tgetD s.hub.apert (apertKey part slot 8) 0) 63 then laSubmit s part slot else s) s

/-- What waits for another package outside the frames is tried again: launches of the apertures and ends of threads. -/
def retryEnds (s : State) : State := (upto 4).foldl releaseExits ((upto 4).foldl retrySubmits s)

/-- R349 to R351, R369: the staged record is submitted. -/
def execLaCtlSubmit (who : Writer) (part slot : Nat) (s : State) : Out :=
  .next <|
    if !apertAllowed s who part || decide (4 ≤ slot) then s
    else if isHost who && s.hub.ideNeed && !s.hub.ideRx then
      { s with edge := { s.edge with hostOut := s.edge.hostOut ++ [{ data := [], poison := false, unsup := true }] } }
    else laSubmit s part slot

end Sys2Proof.Machine
end

