-- ==== Sys2Proof/Machine/HostPort.lean ====
section
/-! DEFINITION. The host port: training, host reads and writes of partition memory, accesses held for a die under
reset (R107, R366 to R369, R377, R381, R382). -/

namespace Sys2Proof.Machine

/-- R366: the port trains, or retrains into a width and rate; what it holds is not lost. -/
def execHostLinkRetrain (width rate : Nat) (s : State) : Out :=
  let h := s.hub
  .next <|
    if 3 ≤ width ∨ 3 ≤ rate then s
    else if h.linkUp then { s with hub := { h with retrains := min 65535 (h.retrains + 1), width := width, rate := rate } }
    else { s with hub := { h with linkUp := true, width := width, rate := rate } }

/-- Device address of an offset of a partition's range; none past its end (R367). -/
def hdmAddr (s : State) (part off : Nat) : Option Nat :=
  ((partDies s part)[off / 0x1000000000]?).map fun d => dramBase d + off % 0x1000000000

/-- Device addresses of a host access; none when some byte is past the range. -/
def hdmAddrs (s : State) (part off : Nat) : Nat → Option (List Nat)
  | 0 => some []
  | n + 1 =>
    match hdmAddr s part off, hdmAddrs s part (off + 1) n with
    | some a, some as => some (a :: as)
    | _, _ => none

/-- The byte lies in a retired range of its die. -/
def retiredAt (s : State) (a : Nat) : Bool :=
  (dieOf s (homeOf a)).retired.contains ((a - dramBase (homeOf a)) / 0x200000)

/-- Count a discarded host write in RAS_STAT (R367, R377). -/
def countUe (s : State) (d : Nat) : State :=
  setDie s d { dieOf s d with ueCnt := min 65535 ((dieOf s d).ueCnt + 1) }

/-- The host receives an answer. -/
def hostReply (s : State) (r : HostReply) : State := { s with edge := { s.edge with hostOut := s.edge.hostOut ++ [r] } }

/-- A host read is served: poisoned data carries CXL poison, and a retired range reads as all ones with poison. -/
def hostReadNow (s : State) (as : List Nat) : State :=
  let byte (a : Nat) : Byte := if retiredAt s a then 0xFF else memSeen { s with cur := hostReader } a
  hostReply s { data := as.map byte, poison := poisoned s as || as.any (retiredAt s), unsup := false }

/-- A host write is serialised at its home; a write of a retired range is discarded and counted. -/
def hostWriteNow (s : State) (as : List Nat) (data : List Byte) : State :=
  match as.find? (retiredAt s) with
  | some a => countUe s (homeOf a)
  | none => { gwrite { s with cur := hostReader } none (zipBytes as data) with cur := s.cur }

/-- Serve a host access, or hold it while a die it reaches does not serve. -/
def hostServe (s : State) (x : HostHeld) (as : List Nat) : State :=
  if homesServe s as then
    match x.data with
    | none => hostReadNow s as
    | some b => hostWriteNow s as b
  else { s with edge := { s.edge with hostHeld := s.edge.hostHeld ++ [x] } }

/-- R107, R367: a host read of a partition's range. -/
def execHostMemRead (part off len : Nat) (s : State) : Out :=
  .next <| match hdmAddrs s part off len with
    | some as => hostServe s { part := part, off := off, len := len, data := none } as
    | none => s

/-- R107, R367, R369: a host write of a partition's range; refused while IDE is required and not active. -/
def execHostMemWrite (part off : Nat) (data : List Byte) (s : State) : Out :=
  .next <|
    if s.hub.ideNeed && !s.hub.ideRx then hostReply s { data := [], poison := false, unsup := true }
    else match hdmAddrs s part off data.length with
      | some as => hostServe s { part := part, off := off, len := data.length, data := some data } as
      | none => s

/-- Held accesses whose dies serve again proceed, in order (R377). -/
def hostProceed (s : State) : State :=
  s.edge.hostHeld.foldl (fun s x => match hdmAddrs s x.part x.off x.len with
    | some as => hostServe s x as | none => s) { s with edge := { s.edge with hostHeld := [] } }

/-- R377: the oldest held access has waited 16 ms: a read completes with poison, its data open; a write is
discarded and counted. -/
def execHostHoldTimeout (s : State) : Out :=
  .next <| match s.edge.hostHeld with
    | [] => s
    | x :: rest =>
      let s := { s with edge := { s.edge with hostHeld := rest } }
      match x.data with
      | some _ => countUe s (homeOf ((hdmAddr s x.part x.off).getD 0))
      | none =>
        let data := (upto x.len).map fun i => BitVec.ofNat 8 (Config.freeValue (s.freeCtr + i))
        hostReply { s with freeCtr := s.freeCtr + x.len } { data := data, poison := true, unsup := false }

end Sys2Proof.Machine
end

