-- ==== Sys2Proof/Machine/Fabric.lean ====
section
/-! DEFINITION. Flits received from the fabric ports: requests of peers and replies to our own, credits, replays
and reserved types (R107, R370 to R372, R377, R381). -/

namespace Sys2Proof.Machine

/-- The port is trained: it takes and sends flits. A good flit ends a run of replays. -/
def portUp (s : State) (p : Nat) : Bool := decide (p < 64) && fbit s.hub.trained p

def goodFlit (s : State) (p : Nat) : State := { s with edge := { s.edge with replays := terase s.edge.replays p } }

/-! ### Requests of peers (R370, R372) -/

/-- The bytes fall wholly within one export window of the partition that grants the access. -/
def exported (s : State) (part a len : Nat) (write : Bool) : Bool :=
  (upto 16).any fun w =>
    let w0 := tgetD s.hub.exports (512 * part + 2 * w) 0
    let w1 := tgetD s.hub.exports (512 * part + 2 * w + 1) 0
    fbit w0 63 && fbit w0 (if write then 62 else 61) && decide (fld w0 12 28 * 4096 ≤ a) &&
      decide (a + len ≤ (fld w1 12 28 + 1) * 4096)

/-- The bytes are DRAM of the partition that is not retired. -/
def peerReach (s : State) (part : Nat) (as : List Nat) : Bool := as.all fun a => (partDies s part).any fun d => inDram s d a

/-- Send a reply through the port of its request. -/
def reply (s : State) (f : Flit) (ty : BitVec 4) (poison : Bool) (data : List Byte) : State :=
  let fl : FlitOut := { port := f.port, ty := ty, tag := f.tag, part := f.part, rel := false, poison := poison, addr := 0, data := data }
  emitFlit s fl

/-- Serve a peer's request, as the reader that peers are (R72), or answer with an error: outside the windows, or homed on a die that does not serve. -/
def serveFlit (s : State) (f : Flit) (len : Nat) (write : Bool) (act : State → List Nat → State) : State :=
  if !portUp s f.port then s
  else
    let s := goodFlit s f.port
    let as := (upto len).map (f.addr + ·)
    if !exported s f.part.toNat f.addr len write || !peerReach s f.part.toNat as || !homesServe s as then reply s f 8 false []
    else { act { s with cur := peerReader } as with cur := s.cur }

/-- Bytes written by a peer; poisoned data poisons what it reaches (R381). -/
def peerWrite (s : State) (bytes : List (Nat × Byte)) (poison : Bool) : State :=
  let s := gwrite s none bytes
  if poison then { s with poison := bytes.foldl (fun l b => insertUniq (b.1 / 32) l) s.poison } else s

/-- R370, R372. -/
def execFabricReadRequest (f : Flit) (s : State) : Out :=
  .next (serveFlit s f (min 232 f.len) false fun s as => reply s f 2 (poisoned s as) (gread s as))

/-- R107, R370, R372. -/
def execFabricWrite (f : Flit) (s : State) : Out :=
  .next (serveFlit s f f.data.length true fun s as => reply (peerWrite s (zipBytes as f.data) f.poison) f 4 false [])

/-- New bytes of a word or doubleword under an atomic; FP32 where the request is of a vector atomic on F32 (R93, R297). -/
def peerAmo (op : AmoOp) (fp : Bool) (old arg : List Byte) : List Byte :=
  if fp then
    let code : AmoCode := match op with | .add => .add | .min | .minu => .min | _ => .max
    leOf (vamoNew code .f32 (leNat old) (leNat arg)) 4
  else if arg.length = 8 then leOf (amoNew op (bytesWord old) (bytesWord arg)).toNat 8
  else leOf (amoNew op (BitVec.ofNat 32 (leNat old)) (BitVec.ofNat 32 (leNat arg))).toNat arg.length

/-- R93, R370, R372: one read and write at the home; the old value returns. -/
def execFabricAtomic (f : Flit) (s : State) : Out :=
  .next (serveFlit s f f.data.length true fun s as =>
    let old := gread s as
    reply (peerWrite s (zipBytes as (peerAmo f.amo f.fp old f.data)) f.poison) f 6 (poisoned s as) old)

/-- R323, R370, R372: each FP32 element of the payload is added at its home, and the flit is acknowledged. -/
def execFabricAddReduce (f : Flit) (s : State) : Out :=
  .next (serveFlit s f f.data.length true fun s as =>
    let add (s : State) (i : Nat) : State :=
      let a := f.addr + 4 * i
      let old := leNat (grun s a 4)
      let v := leNat ((f.data.drop (4 * i)).take 4)
      peerWrite s (zipBytes ((upto 4).map (a + ·)) (leOf (addRne old v).1 4)) f.poison
    let _ := as
    reply ((upto (f.data.length / 4)).foldl add s) f 4 false [])

/-! ### Replies to our requests (R370) -/

/-- Take the request with this tag out of those that await a reply. -/
def takeTag (s : State) (tag : BitVec 16) : Option (Outstanding × State) :=
  match s.edge.flitsWait.find? fun o => decide (o.flit.tag = tag) with
  | none => none
  | some o => some (o, { s with edge := { s.edge with flitsWait := s.edge.flitsWait.filter fun x => decide (x.flit.tag ≠ tag) } })

/-- Let frame `fr` move for one operation. -/
def asFrame (s : State) (fr : Nat) (g : State → State) : State := { g { s with cur := fr } with cur := s.cur }

/-- The held copy operation of an issue. -/
def opIndex (f : Frame) (n : Nat) : Option (Nat × COp) :=
  ((upto f.cpe.ops.length).zip f.cpe.ops).find? fun x => decide (x.2.n = n)

/-- The generator's instruction is made again (R370). -/
def wakeGen (f : Frame) : Frame :=
  if f.gen.stall = some .remote then { f with gen := { f.gen with stall := none } } else f

/-- A reply to a request of the generator: what it brings is had, and with the last reply the instruction goes on. -/
def genReply (s : State) (o : Outstanding) (keys : List Nat) (data : List Byte := []) (poison : Bool := false) : State :=
  let f := frameOf s o.frame
  let f := { f with rem := f.rem.map fun r => { r with got := keys ++ r.got, had := r.had.add o.base data poison } }
  setFrame s o.frame (if awaits s o.frame o.work o.n then f else wakeGen f)

/-- A line of code that the fetch view does not hold since the last FENCE.I has come. A byte of it that has been written here
and is not to be fetched yet reads as some earlier value, which only the other package knows: a free value (R110). -/
def codeReply (s : State) (o : Outstanding) (data : List Byte) (poison : Bool) : State :=
  let f := frameOf s o.frame
  let line := o.base / 128
  let old (i : Nat) (b : Byte) : Byte :=
    if f.codeNew.any fun e => decide (e.1 = o.base + i) then BitVec.ofNat 8 (Config.freeValue (s.freeCtr + i)) else b
  let b := ((upto data.length).zip data).map fun x => (o.base + x.1, old x.1 x.2)
  let words (l : List Nat) : List Nat :=
    let l := l.filter fun p => decide (p / 4 ≠ line)
    if poison then (upto 4).foldl (fun l i => insertUniq (4 * line + i) l) l else l
  if f.codeHad.contains line then s
  else setFrame { s with freeCtr := s.freeCtr + data.length } o.frame
    { f with gen := { f.gen with imem := memPut f.gen.imem b, ibad := words f.gen.ibad }, seen := memPut f.seen b,
             seenBad := words f.seenBad, codeHad := insertUniq line f.codeHad }

/-- A line of a record, a residency map or a bank is answered; the generator's instruction that asked goes on with the last
one. -/
def lineReply (s : State) (o : Outstanding) (r : LineRes) : State :=
  let f := frameOf s o.frame
  let f := { f with recGot := tset f.recGot (o.base / 128) r }
  let more := (s.edge.flitsWait ++ s.edge.parked).any fun x => decide (x.frame = o.frame) && decide (x.work = 11)
  retryEnds (setFrame s o.frame (if o.work = 11 ∧ !more ∧ (remNow f).asks then wakeGen f else f))

/-- An addition to a completion word is answered: 0 made, else the class of the refusal (R350, R372, R388). -/
def doneReply (s : State) (o : Outstanding) (code : Nat) : State :=
  retryEnds { s with edge := { s.edge with doneRes := tset s.edge.doneRes o.n code } }

/-- Change the global load or atomic of an issue. -/
def onLoad (s : State) (n : Nat) (g : GLoad → GLoad) : State :=
  onCur s fun f => { f with vec := { f.vec with loads := f.vec.loads.map fun l => if l.n = n then g l else l } }

/-- The last line of a global load has come: it is performed (R290). -/
def farLoad (s : State) (n : Nat) : State :=
  match (curFrame s).vec.loads.find? fun l => decide (l.n = n) with
  | none => s
  | some l =>
    match l.far with
    | none => s
    | some f =>
      let s := wiredPut s f.had
      let bad := loadBad s (curFrame s).sram f.das f.scope
      let r := seeLoad s l.iss.tag.ser f.own f.das f.ord f.scope
      onLoad r.2 n fun l => { l with val := imageRow f.idx r.1, poison := bad, far := none }

/-- A lane's atomic has been performed at its home: the value read goes to the row (R292); with the last lane of an
acquire the L1 is dropped (R94). -/
def farLane (s : State) (n a : Nat) (old : List Byte) (poison : Bool) : State :=
  match (curFrame s).vec.loads.find? fun l => decide (l.n = n) with
  | none => s
  | some l =>
    match l.far, l.far.bind Far.amo with
    | some f, some (op, ty, vals) =>
      let i := f.das.findIdx fun x => decide (x = a)
      let new := vamoNew op ty (leNat old) (vals.getD i 0)
      let f' : Far := { f with das := f.das.eraseIdx i, offs := f.offs.eraseIdx i, idx := f.idx.eraseIdx i, amo := some (op, ty, vals.eraseIdx i) }
      let last := f'.das.isEmpty
      let s := gstore s (zipBytes ((upto 4).map (a + ·)) (leOf new 4))
      let s := if last && acquires f.ord f.scope then vAcquire s else s
      onLoad s n fun l => { l with val := fput l.val (32 * f.idx.getD i 0) 32 (leNat old), poison := l.poison || poison,
                                   far := if last then none else some f' }
    | _, _ => s

/-- What a reply brings is kept with the load or copy operation that asked for it. -/
def keepReply (s : State) (o : Outstanding) (data : List Byte) (poison : Bool) : State :=
  let f := frameOf s o.frame
  let load (l : GLoad) : GLoad :=
    if l.n = o.n then { l with far := l.far.map fun x => { x with had := x.had.add o.base data poison } } else l
  let op (p : COp) : COp := if p.n = o.n then { p with had := p.had.add o.base data poison } else p
  if o.work = 7 then setFrame s o.frame { f with vec := { f.vec with loads := f.vec.loads.map load } }
  else setFrame s o.frame { f with cpe := { f.cpe with ops := f.cpe.ops.map op } }

/-- Every reply of a piece of work has come: it is performed. -/
def workDone (s : State) (o : Outstanding) : State :=
  if awaits s o.frame o.work o.n then s
  else asFrame s o.frame fun s =>
    let f := curFrame s
    match o.work with
    | 0 => (match takeFirst relStore f.ph.released with | some (v, _) => if v.n = o.n then performStore s else s | none => s)
    | 1 => (match takeFirst relAdd f.ph.released with | some (c, _) => if c.n = o.n then performAdd s else s | none => s)
    | 2 => (match opIndex f o.n with
        | some (k, p) => (match p.kind with
          | .crld (b :: _) .. => crldFill s k p b
          | _ => if p.got then s else readsReturn s k p)
        | none => s)
    | 3 => (match opIndex f o.n with | some (k, p) => if p.got then writesDone s k p else s | none => s)
    | 7 => farLoad s o.n
    | _ => s

/-- A reply of one of the given kinds of work completes its request. -/
def takeReply (s : State) (f : Flit) (works : List Nat) : State :=
  if !portUp s f.port then s
  else
    let s := goodFlit s f.port
    match takeTag s f.tag with
    | none => s
    | some (o, s') =>
      if !works.contains o.work then s
      else match o.work with
        | 4 => genReply s' o [o.base] f.data f.poison
        | 9 => genReply (codeReply s' o f.data f.poison) o [o.base]
        | 5 => genReply s' o ((upto o.flit.data.length).map (o.base + ·))
        | 6 => genReply s' o ((upto o.flit.data.length).map (o.base + ·)) f.data f.poison
        | 8 => asFrame s' o.frame fun s => farLane s o.n o.base f.data f.poison
        | 0 => workDone s' o
        | 1 => workDone s' o
        | 10 => doneReply s' o 0
        | 11 | 12 => lineReply s' o { code := 0, data := f.data, bad := f.poison }
        | _ => workDone (keepReply s' o f.data f.poison) o

/-- R370: data of reads: a copy's, the generator's, a global vector load's, code, a record's or map's, or a bank's. -/
def execFabricReadData (f : Flit) (s : State) : Out := .next (takeReply s f [2, 4, 7, 9, 11, 12])
/-- R107, R370: a store, an add-reduce, a copy's write or the generator's store has been made at its home. -/
def execFabricWriteAck (f : Flit) (s : State) : Out := .next (takeReply s { f with data := [] } [0, 1, 3, 5])
/-- R93, R370: a counter's, the generator's, a vector lane's or a completion word's atomic has been made at its home; the
value read comes. -/
def execFabricAtomicReply (f : Flit) (s : State) : Out := .next (takeReply s f [3, 6, 8, 10])

/-- The released work of a frame that a reply fails for good leaves ST unperformed. -/
def dropReleased (f : Frame) (work n : Nat) : Frame :=
  let keep (r : Released) : Bool := match r, work with
    | .store v, 0 => decide (v.n ≠ n)
    | .add c, 1 => decide (c.n ≠ n)
    | _, _ => true
  { f with ph := { f.ph with released := f.ph.released.filter keep } }

/-- The fault of released work that a peer refuses (R372). Its commit has not ended, so that it is raised before OCC falls
(R335); it has the POS at hand and is not recovered, for the work it goes with is released (R160, assumption 43). -/
def refusedFault (f : Frame) (slot : Nat) (m : MemInfo) : L2Fault :=
  { n := f.seq.issueNo, slot := slot, cls := .permission, pos := f.seq.pos, rep := 0, iters := f.seq.loops.map LoopEnt.iter,
    tag := (match f.seq.cur with | some c => c.ent.tag | none => { pc := 0, ser := 0, tid := 0 }), mem := some m, final := true }

/-- Object offset of a device address within a store's image. -/
def storeOff (v : VStore) (a : Nat) : Nat :=
  if v.da ≤ a ∧ a < v.da + 256 then v.off + (a - v.da) else v.off + (0x200000 - v.off % 0x200000) + (a - v.da2)

/-- The released store or add-reduce that a peer refuses. -/
def refusedMem (f : Frame) (work n a : Nat) : Option MemInfo :=
  f.ph.released.findSome? fun r => match r, work with
    | .store v, 0 =>
      if v.n = n then some { handle := v.handle, off := storeOff v a, gen := v.gen } else none
    | .add c, 1 =>
      let i := c.elems.findIdx fun x => decide (x.1 ≤ a) && decide (a < x.1 + 4)
      if c.n = n then some { handle := c.handle, off := c.offs.getD i 0, gen := c.gen } else none
    | _, _ => none

/-- The global load or atomic of an issue ends in a fault, with the first of its bytes that the request carried (R61) and
the generation of the record it was translated by (R66). -/
def loadFault (s : State) (o : Outstanding) (c : L2Class) : State :=
  let f := frameOf s o.frame
  match f.vec.loads.find? fun l => decide (l.n = o.n) with
  | none => s
  | some l =>
    let len := if o.flit.ty = 1 then o.flit.len else o.flit.data.length
    let off := (l.far.bind fun x => x.offs[x.das.findIdx fun a => decide (o.base ≤ a) && decide (a < o.base + len)]?).getD 0
    let m : MemInfo := { handle := l.handle, off := off, gen := l.gen }
    setFrame s o.frame (addFault { f with vec := { f.vec with loads := f.vec.loads.filter fun l => decide (l.n ≠ o.n) } }
      (issueFault l.iss 1 c (some m)))

/-- A generator's request fails: its instruction, made again, takes the fault. -/
def genRefused (f : Frame) (c : L2Class) : Frame := wakeGen { f with rem := f.rem.map fun r => { r with err := some c } }

/-- A request fails (R370, R372): the generator's instruction or an operation of the open phase faults; committed work is
sent again after HOME_OFFLINE (R160), and after PERMISSION it is dropped and the thread takes the fault. -/
def failWork (s : State) (o : Outstanding) (e : ErrReply) : State :=
  let f := frameOf s o.frame
  let again := decide (e = .homeOffline)
  if o.work = 4 ∨ o.work = 5 ∨ o.work = 6 ∨ o.work = 9 then
    setFrame s o.frame (genRefused f (if again then .homeOffline else .permission))
  else if o.work = 10 then (if again then resend s o else doneReply s o 4)
  else if o.work = 11 ∨ o.work = 12 then lineReply s o { code := if again then 8 else 4 }
  else if o.work = 7 ∨ o.work = 8 then loadFault s o (if again then .homeOffline else .permission)
  else if o.work ≤ 1 then
    (if again then resend s o
     else
      let g := dropReleased f o.work o.n
      setFrame s o.frame (match refusedMem f o.work o.n o.base with
        | some m => addFault g (refusedFault f (o.work + 1) m)
        | none => g))
  else match opIndex f o.n with
    | none => s
    | some (k, p) =>
      let c : L2Class := if again then .homeOffline else .permission
      let h := if o.work = 2 then (p.handleA, p.genA) else writeHandle p
      let off := ((opReads p ++ p.src ++ p.dst).findSome? fun l => match l with
        | .glob a x => if a = o.base then some x else none
        | .sram _ => none).getD 0
      if f.ph.snap.issueNo ≤ p.n then
        setFrame s o.frame (opFault f k p c (some { handle := h.1, off := off, gen := h.2 }))
      else if again then resend s o
      else
        let m : MemInfo := { handle := h.1, off := off, gen := h.2 }
        setFrame s o.frame (addFault { f with cpe := { f.cpe with ops := f.cpe.ops.eraseIdx k } } (refusedFault f 2 m))

/-- R370, R372. -/
def execFabricErrorReply (f : Flit) (e : ErrReply) (s : State) : Out :=
  .next <|
    if !portUp s f.port then s
    else match takeTag (goodFlit s f.port) f.tag with
      | none => goodFlit s f.port
      | some (o, s) => failWork s o e

/-! ### Ports (R370) -/

/-- R370: flow-control credit returns. -/
def execFabricCredit (port : Nat) (s : State) : Out :=
  .next <|
    if portUp s port then
      let s := goodFlit s port
      { s with edge := { s.edge with credits := tset s.edge.credits port (tgetD s.edge.credits port 0 + 1) } }
    else s

/-- R370: the flit is discarded and the sender replays it: the last flit of the port's replay buffer leaves again
(assumption 23). -/
def execFlitCrcFailure (port : Nat) (s : State) : Out :=
  .next <|
    if portUp s port then
      let last := (tgetD s.edge.sent port []).getLast?.toList
      let s := { s with edge := { s.edge with flitsOut := s.edge.flitsOut ++ last } }
      { s with edge := { s.edge with replays := tset s.edge.replays port (tgetD s.edge.replays port 0 + 1) } }
    else s

/-- R370: the flit is discarded and counted. -/
def execFlitReservedType (port : Nat) (ty : BitVec 4) (s : State) : Out :=
  .next <|
    if portUp s port && decide (10 ≤ ty.toNat) then
      { s with edge := { s.edge with discarded := s.edge.discarded + 1 } }
    else s

/-- A request moves to the other trained port of its peer entry that its line selects, or fails as HOME_OFFLINE. -/
def moveFlit (s : State) (o : Outstanding) : State := if (o.portNow s).isSome then resend s o else failWork s o .homeOffline

/-- Trained ports of a port's die that reach a peer entry which it reaches too. -/
def siblings (s : State) (port : Nat) : List Nat :=
  let part := (dieOf s (port / 16)).part
  let near (i : Nat) : Bool :=
    fbit (tgetD s.hub.peers (512 * part + 2 * i) 0) 63 && fbit (tgetD s.hub.peers (512 * part + 2 * i + 1) 0) port
  ((upto 16).map (16 * (port / 16) + ·)).filter fun p => decide (p ≠ port) && fbit s.hub.trained p &&
    (upto 64).any fun i => near i && fbit (tgetD s.hub.peers (512 * part + 2 * i + 1) 0) p

/-- An answer that may not have left moves to a sibling, which its tag selects: it has no address whose line would
(assumption 23). With no sibling the peer's request is answered by the peer's own port. -/
def moveReply (ports : List Nat) (s : State) (f : FlitOut) : State :=
  match ports[f.tag.toNat % max 1 ports.length]? with
  | some p => emitFlit s { f with port := p }
  | none => s

/-- A port leaves the trained state: its bit clears and its traffic moves, requests that await an answer and the answers of
its replay buffer. -/
def portDown (s : State) (port : Nat) : State :=
  let mine := s.edge.flitsWait.filter fun o => decide (o.flit.port = port)
  let answers := (tgetD s.edge.sent port []).filter fun f => [2, 4, 6, 8].contains f.ty.toNat
  let s := answers.foldl (moveReply (siblings s port)) s
  let s := { s with hub := { s.hub with trained := fput s.hub.trained port 1 0 },
                    edge := { s.edge with replays := terase s.edge.replays port, sent := terase s.edge.sent port,
                                          flitsWait := s.edge.flitsWait.filter fun o => decide (o.flit.port ≠ port) } }
  mine.foldl moveFlit s

/-- R370: sixteen replays in a row have failed, after the failure that the first of them followed. -/
def execFabricReplayLimit (port : Nat) (s : State) : Out :=
  .next <| if portUp s port && decide (17 ≤ tgetD s.edge.replays port 0) then portDown s port else s

end Sys2Proof.Machine
end

