-- ==== Sys2Proof/Machine/Ras.lean ====
section
/-! DEFINITION. DRAM errors: counts, pins, retired ranges and poison; the configuration record and its pin
extension (R86, R381, R382, R384). -/

namespace Sys2Proof.Machine

/-- Ticks of 24 hours. -/
def dayTicks : Nat := 449280000000000

/-- A sector's set in the board (R83). -/
def sectorSet (sector : Nat) : Nat := sector % 131072

/-- DRAM cells of this byte are in use: not retired, and not behind a pin. -/
def dramCell (v : Die) (byte : Nat) : Bool :=
  decide (byte < 0x1000000000) && !v.retired.contains (byte / 0x200000) && !v.pinned.contains (byte / 128)

/-- Retire an aligned 2 MiB range. A die retires 64; a further failure is marked by an entry that names no range,
and fails the die at its next warm reset. -/
def retireRange (v : Die) (byte : Nat) : Die :=
  if v.retired.length < 64 then { v with retired := v.retired ++ [byte / 0x200000] }
  else if v.retired.length = 64 then { v with retired := v.retired ++ [32768] }
  else v

/-- Pin a sector, or retire its range when its set already holds a pin. -/
def pinSector (v : Die) (byte : Nat) : Die :=
  if v.pinned.any fun p => decide (sectorSet p = sectorSet (byte / 128)) then retireRange v byte
  else { v with pinned := v.pinned ++ [byte / 128] }

/-! ### The configuration record and its pin extension (R382, R384) -/

/-- The least SVN that the record holds for a KIND of image. -/
def minSvn (s : State) (kind : Nat) : Nat := Config.minSvn (s.hub.record.drop 256) kind

/-- The manufacture part of the record. -/
def manufacture (s : State) : List Byte := Config.manufacturePart (s.hub.record.drop 256)

/-- The record is accepted (R384). -/
def recordSigned (s : State) : Bool :=
  ovwenSigned Config.recordKey 3 (s.hub.record.take 256) (s.hub.record.drop 256) && decide (minSvn s 3 ≤ ovwenSvn s.hub.record)

/-- It names the release key by its fingerprint. -/
def recordNames (s : State) : Bool :=
  recordSigned s && decide (Config.keyPrint (manufacture s) = (shake256 Config.releaseKey).flatMap wordBytes)

/-- Body of the pin extension: the device address of every pinned sector, die by die (assumption 45). -/
def pinBytes (s : State) : List Byte :=
  (upto 4).flatMap fun d => (dieOf s d).pinned.flatMap fun p => leOf (dramBase d + 128 * p) 8

/-- The extension as the hub's device key signs it. -/
def pinExtension (s : State) : List Byte := ovwenImage Config.deviceSeed 4 (minSvn s 4) (pinBytes s)

/-- The extension is accepted. -/
def pinsSigned (s : State) : Bool :=
  ovwenSigned (edPublic Config.deviceSeed) 4 (s.hub.pinExt.take 256) (s.hub.pinExt.drop 256) && decide (minSvn s 4 ≤ ovwenSvn s.hub.pinExt)

/-- The sectors that an extension's body pins on a die. -/
def pinsIn (body : List Byte) (d : Nat) : List Nat :=
  (((wordsOf (body.length / 8) body).map BitVec.toNat).filter fun a => decide (homeOf a = d)).map fun a => (a - dramBase d) / 128

/-- The pins of a die that a boot reapplies. -/
def pinsOf (s : State) (d : Nat) : List Nat := if pinsSigned s then pinsIn (s.hub.pinExt.drop 256) d else []

/-- Pin a sector of a die, with the extension written anew, or retire its range. -/
def pinOn (s : State) (d byte : Nat) : State :=
  let t := setDie s d (pinSector (dieOf s d) byte)
  if (dieOf t d).pinned = (dieOf s d).pinned then t else { t with hub := { t.hub with pinExt := pinExtension t } }

/-- R382: a corrected error is counted; with a pin way, the fourth of a sector within 24 hours pins it. -/
def execDramCorrectedError (die : Nat) (byte : Nat) (s : State) : Out :=
  let v := dieOf s die
  .next <|
    if decide (4 ≤ die) || decide (v.st = .absent) || !dramCell v byte then s
    else
      let hist := (v.ceHist.filter fun h => decide (s.time < h.2 + dayTicks)) ++ [(byte / 128, s.time)]
      let four := decide (4 ≤ (hist.filter fun h => decide (h.1 = byte / 128)).length)
      let v := { v with ceCnt := min 65535 (v.ceCnt + 1), ceHist := hist }
      let s := setDie s die v
      if v.pinWay && four then pinOn s die byte else s

/-- R381, R382: an uncorrectable error poisons its 32-byte word; the sector is pinned with its poison, or with no
pin way its range is retired. -/
def execDramUncorrectableError (die : Nat) (byte : Nat) (s : State) : Out :=
  let v := dieOf s die
  .next <|
    if decide (4 ≤ die) || decide (v.st = .absent) || !dramCell v byte then s
    else
      let v := { v with ueCnt := min 65535 (v.ueCnt + 1) }
      let s := setDie s die v
      let s := if v.pinWay then pinOn s die byte else setDie s die (retireRange v byte)
      { s with poison := insertUniq ((dramBase die + byte) / 32) s.poison }

end Sys2Proof.Machine
end

