-- ==== Sys2Proof/Machine/Spdm.lean ====
section
/-! DEFINITION. The hub's SPDM responder and the programming of IDE keys (R5, R369, R384 to R386). Response codes,
their order and the refusal of a request out of order follow SPDM 1.3. -/

namespace Sys2Proof.Machine

/-- How far a session has come. -/
def SpdmState.rank : SpdmState → Nat
  | .none => 0 | .version => 1 | .capabilities => 2 | .negotiated => 3 | .keyExchanged => 4 | .established => 5

/-- Answer with a code and body. -/
def spdmAnswer (s : State) (code : Nat) (body : List Word) : State :=
  { s with hub := { s.hub with spdmOut := s.hub.spdmOut ++ [(code, body)] } }

/-- ERROR: 4 unexpected request, 1 invalid request, 6 decrypt error. -/
def spdmError (s : State) (e : Nat) : State := spdmAnswer s 0x7F [BitVec.ofNat 64 e]

/-- Answer in a session at least this far, else refuse; `next` is the step the session takes, and `keys` its keys then. -/
def spdmReq (s : State) (need : Nat) (code : Nat) (body : List Word) (next : SpdmState → SpdmState)
    (keys : List Word → List Word := id) : State :=
  if s.hub.spdm.rank < need then spdmError s 4
  else
    let s := spdmAnswer s code (body ++ Config.spdmRest code s.freeCtr)
    { s with freeCtr := s.freeCtr + 1, hub := { s.hub with spdm := next s.hub.spdm, spdmKeys := keys s.hub.spdmKeys } }

/-- The flash slot that is active, or the other (R385). -/
def slotMem (s : State) (active : Bool) : Mem := if s.hub.fwActive = active then s.hub.flashB else s.hub.flashA

/-- Bytes of a slot after the header of its image (R385). -/
def slotRoom : Nat := 0x2000000 - 256

/-- Body of an image in flash (R384). -/
def imageBody (m : Mem) : List Byte := memRead m 256 (min slotRoom (leNat (memRead m 8 8)))

/-- The image of a slot is one of this KIND, its digest matches, and its signature verifies under the release key that the record
names (R384). -/
def imageSigned (s : State) (m : Mem) (kind : Nat) : Bool :=
  ovwenSigned Config.releaseKey kind (memRead m 0 256) (imageBody m) && recordNames s

/-- Body of the hub firmware that runs (R385). -/
def hubBody (s : State) : List Byte := s.hub.hubBody.getD Config.hubFirmware

/-- The bytes of a text. -/
def textBytes (t : String) : List Byte := t.toList.map fun c => BitVec.ofNat 8 c.toNat

/-- What a responder signs: SPDM 1.3's prefix with the signing context, and the hash of the session's messages up to and with
the body (assumption 24). -/
def spdmSigned (ctx : List Byte) (s : State) (body : List Word) : List Byte :=
  let lead := textBytes "dmtf-spdm-v1.3.*"
  lead ++ lead ++ lead ++ lead ++ List.replicate (36 - ctx.length) 0 ++ ctx ++
    (shake256 (Config.spdmTranscript s.freeCtr ++ body.flatMap wordBytes)).flatMap wordBytes

/-- The signature of an answer with a slot's key, as words: the identity key's, or the alias key's (R386). -/
def hubSign (slot : Nat) (ctx : List Byte) (s : State) (body : List Word) : List Word :=
  let seed := if slot = 1 then Config.aliasSeed Config.identitySeed ((shake256 (hubBody s)).flatMap wordBytes)
    else Config.identitySeed
  wordsOf 15 (edSign seed (spdmSigned ctx s body) ctx ++ List.replicate 6 0)

/-- Signing contexts of SPDM 1.3. -/
def challengeCtx : List Byte := textBytes "responder-challenge_auth signing"
def exchangeCtx : List Byte := textBytes "responder-key_exchange_rsp signing"

/-- The Svaken image measured as index 2: the new one from step 4 of an update on. -/
def measuredImage (s : State) : List Byte :=
  match s.hub.op with
  | some (.update n) => imageBody (slotMem s (decide (n < 4)))
  | _ => imageBody (slotMem s true)

/-- Dies that are admitted, bit d for Dd. -/
def admittedSet (s : State) : Nat :=
  ((upto 4).filter fun d => decide ((dieOf s d).st = .admitted)).foldl (fun n d => n + 2 ^ d) 0

/-- Measurement by index (R386). -/
def measurement (s : State) (i : Nat) : Option (List Word) :=
  match i with
  | 1 => some (shake256 (hubBody s))
  | 2 => some (shake256 (measuredImage s))
  | 3 => some (shake256 (manufacture s))
  | 4 => some (shake256 (s.hub.pinExt.drop 256))
  | 5 => some (shake256 (leOf (fld s.hub.partCtl 0 4 + 256 * admittedSet s) 8))
  | _ => none

/-- The measurements 1 to 5 in turn, and SPDM's summary hash of them. -/
def measurements (s : State) : List Word := (upto 5).flatMap fun i => (measurement s (i + 1)).getD []
def summaryHash (s : State) : List Word := shake256 ((measurements s).flatMap wordBytes)

/-- A request of the newest protocol version opens every exchange. -/
def execGetVersion (s : State) : Out := .next (spdmReq s 0 0x04 [0x13] (fun _ => .version) fun _ => [])

def execGetCapabilities (s : State) : Out :=
  .next (spdmReq s 1 0x61 [] fun x => if x.rank < 2 then .capabilities else x)

/-- Ed448 (bit 11 of the asymmetric algorithms) and SHAKE256 in raw form are the only ones. -/
def execNegotiateAlgorithms (s : State) : Out :=
  .next (spdmReq s 2 0x63 [0x800] fun x => if x.rank < 3 then .negotiated else x)

/-- Digests of the chains of slots 0 and 1. -/
def execGetDigests (s : State) : Out :=
  .next (spdmReq s 3 0x01 (shake256 (Config.certChain 0) ++ shake256 (Config.certChain 1)) id)

/-- The chain of slot 0 or 1. -/
def execGetCertificate (slot : Nat) (s : State) : Out :=
  .next (if 2 ≤ slot then spdmError s 1 else
    spdmReq s 3 0x02 (wordsOf ((Config.certChain slot).length / 8 + 1) (Config.certChain slot)) id)

/-- The hash of the slot's certificate chain, a nonce, the summary hash of all measurements, and a signature over the session's
messages with the slot's key. -/
def execChallenge (slot : Nat) (s : State) : Out :=
  let body := shake256 (Config.certChain slot) ++ Config.spdmNonce s.freeCtr ++ summaryHash s
  .next (if 2 ≤ slot then spdmError s 1 else
    spdmReq s 3 0x03 (body ++ hubSign slot challengeCtx s body) id)

/-- Index 0 answers the number of measurements, 1 to 5 one of them, 255 all. -/
def execGetMeasurements (index : Nat) (s : State) : Out :=
  .next <|
    if index = 0 then spdmReq s 3 0x60 [5] id
    else if index = 255 then spdmReq s 3 0x60 (measurements s) id
    else match measurement s index with
      | some m => spdmReq s 3 0x60 m id
      | none => spdmError s 1

/-- The responder's share, a signature over the session's messages with the identity key, and a MAC under the keys that the
exchange gives the session (assumption 24). -/
def execKeyExchange (s : State) : Out :=
  let body := Config.spdmNonce s.freeCtr
  let keys := Config.spdmKeys s.freeCtr
  .next (spdmReq s 3 0x64 (body ++ hubSign 0 exchangeCtx s body ++ Config.spdmMac keys s.freeCtr) (fun _ => .keyExchanged) fun _ => keys)

/-- A FINISH whose MAC verifies under the session's keys is answered with a MAC and establishes the session, whose keys change;
one with a wrong MAC is refused, and the session ends (assumption 24). -/
def execFinish (s : State) : Out :=
  .next <|
    if s.hub.spdm ≠ .keyExchanged then spdmError s 4
    else if Config.spdmFinishBad s.hub.spdmKeys s.freeCtr then
      let s := spdmError s 6
      { s with freeCtr := s.freeCtr + 1, hub := { s.hub with spdm := .negotiated, spdmKeys := [] } }
    else spdmReq s 4 0x65 (Config.spdmMac s.hub.spdmKeys s.freeCtr) (fun _ => .established) Config.spdmNextKeys

def execSpdmHeartbeat (s : State) : Out := .next (spdmReq s 5 0x68 [] id)

/-- New keys follow from the old ones. -/
def execKeyUpdate (s : State) : Out := .next (spdmReq s 5 0x69 [] id Config.spdmNextKeys)

def execEndSession (s : State) : Out := .next (spdmReq s 5 0x6C [] (fun _ => .negotiated) fun _ => [])

/-- R369: keys programmed over an established session make IDE active in the directions given. -/
def execIdeKeyProgramming (tx rx : Bool) (s : State) : Out :=
  .next <| if s.hub.spdm = .established then
      { s with hub := { s.hub with ideTx := s.hub.ideTx || tx, ideRx := s.hub.ideRx || rx } } else s

end Sys2Proof.Machine
end

