-- ==== Sys2Proof/Machine/Package.lean ====
section
/-! DEFINITION. The package controller: cold reset, partition changes, warm reset of a die, frames out of service,
live update of the Svaken image (R1, R2, R25, R52, R85, R225, R365, R373 to R379, R383, R385). -/

namespace Sys2Proof.Machine

/-! ### Layouts (R25) -/

/-- The partition of a die in a layout. -/
def partOf (layout d : Nat) : Nat :=
  match layout with
  | 1 => if d < 2 then 0 else 2
  | 2 => if d < 2 then 0 else d
  | 3 | 5 => d
  | _ => 0

/-- The layout is one of the variant's. -/
def layoutOk (variant layout : Nat) : Bool := if variant = 3 then decide (layout = 4) || decide (layout = 5) else decide (layout ≤ 3)

/-- Dies that a variant has. -/
def variantDies (variant : Nat) : Nat := if variant = 3 then 2 else 4

/-! ### Cold reset -/

/-- Every frame of a die powered up and calibrated. -/
def freshFrames (s : State) (d : Nat) : State :=
  (upto Config.framesPerDie).foldl (fun s f =>
    let x := freshCalibrated s (frameOf s (frameKey d f)).clk (dieOf s d).temp
    setFrame x.2 (frameKey d f) x.1) s

/-- R2, R15, R225, R365: every register at its reset value, the configuration record read again, every frame
calibrated, and the pins of a pin extension that verifies reapplied (R382). A hub firmware image laid out for it replaces the running one if it verifies and its SVN suffices (R384, R385).
What stands outside the package stays. -/
def execColdReset (s : State) : Out :=
  let h := s.hub
  let n := variantDies h.variant
  let die (d : Nat) : Nat × Die :=
    let v := dieOf s d
    (d, { Die.fresh with
      st := if d < n then .admitted else .absent, part := partOf h.recLayout d, pinWay := v.pinWay, retired := v.retired,
      pinned := pinsOf s d, temp := v.temp })
  let hub := { Hub.fresh with
    variant := h.variant, stepping := h.stepping, layout := h.recLayout, recLayout := h.recLayout,
    partCtl := mk64 [(0, 4, h.recLayout)], ideNeed := h.ideNeed,
    fwActive := h.fwActive, fwSvn := h.fwSvn, flashA := h.flashA, flashB := h.flashB,
    hubBody := if imageSigned s h.hubNext 1 && decide (minSvn s 1 ≤ leNat (memRead h.hubNext 16 4)) then some (imageBody h.hubNext)
      else h.hubBody,
    record := h.record, pinExt := h.pinExt }
  let s' : State := { State.reset with
    turns := s.turns, cur := s.cur, freeCtr := s.freeCtr, dies := (upto 4).map die, hub := hub,
    edge := { Edge.fresh with iommuDeny := s.edge.iommuDeny, draw := s.edge.draw, sprintW := s.edge.sprintW,
                              partW := s.edge.partW, loadPct := s.edge.loadPct } }
  .next ((upto n).foldl freshFrames s')

/-! ### Partition changes (R373, R374) -/

def partStatus (s : State) (layout : BitVec 4) (st : Nat) : State :=
  { s with hub := { s.hub with partCtl := mk64 [(60, 3, st), (0, 4, layout.toNat)] } }

/-- A frame entry of the die is occupied, or a launch queue of it holds a record. -/
def dieBusy (s : State) (d : Nat) : Bool :=
  ((upto Config.framesPerDie).any fun f =>
    let x := (frameOf s (frameKey d f)).disp
    x.running.isSome || x.standby.isSome) ||
  (dieOf s d).queues.any fun q => !q.2.isEmpty

/-- Dies whose partition the layout changes. -/
def movedDies (s : State) (layout : Nat) : List Nat :=
  (upto 4).filter fun d => decide ((dieOf s d).st ≠ .absent) && decide (partOf layout d ≠ (dieOf s d).part)

/-- A move changes the partitions of FAILED dies at once; they are not scrubbed. -/
def beginMove (layout : Nat) (s : State) (d : Nat) : State :=
  let v := dieOf s d
  setDie s d (if v.st = .failed then { v with part := partOf layout d } else { v with st := .scrubbing })

/-- The change is complete. -/
def partDone (s : State) (layout : Nat) : State :=
  { s with hub := { s.hub with layout := layout, op := none, partCtl := mk64 [(0, 4, layout)] } }

/-- R373: check the layout and start the change. -/
def execPartCfg (layout : BitVec 4) (s : State) : Out :=
  let l := layout.toNat
  let moved := movedDies s l
  let part : Bool := match s.hub.op with | some (.part ..) => true | _ => false
  .next <|
    if part then s
    else if !layoutOk s.hub.variant l then partStatus s layout 1
    else if moved.any (dieBusy s) then partStatus s layout 2
    else if s.hub.op.isSome then partStatus s layout 3
    else
      let todo := moved.filter fun d => decide ((dieOf s d).st ≠ .failed)
      let s := moved.foldl (beginMove l) s
      if todo.isEmpty then partDone s l
      else { s with hub := { s.hub with op := some (.part l todo), partCtl := mk64 [(63, 1, 1), (0, 4, l)] } }

/-- The address lies in the die's DRAM or board window. -/
def dieByte (d a : Nat) : Bool := decide (homeOf a = d)

/-- No copy that a frame has of storage holds a byte of these addresses: its fetch view, what its acquires found, its L1 lines and
the values before its own stores (R374, R376). -/
def forgetBytes (gone : Nat → Bool) (f : Frame) : Frame :=
  { f with
    gen := { f.gen with imem := f.gen.imem.filter (fun c => !gone c.1), ibad := f.gen.ibad.filter (fun p => !gone (32 * p)) },
    seen := f.seen.filter (fun c => !gone c.1), seenBad := f.seenBad.filter (fun p => !gone (32 * p)),
    sram := { f.sram with l1 := f.sram.l1.filter (fun l => !gone (128 * l.line)) },
    late := f.late.filter (fun x => !gone x.addr) }

/-- Every frame, and what is kept of every thread's, forgets them. -/
def forgetAll (gone : Nat → Bool) (s : State) : State :=
  { s with frames := s.frames.map fun e => (e.1, forgetBytes gone e.2),
           carried := s.carried.map fun c => { c with frame := forgetBytes gone c.frame } }

/-- Every byte of a die's DRAM and board, and every frame of it, is as zeroed (R374). -/
def scrubDie (s : State) (d : Nat) : State :=
  let s := { s with
    mem := s.mem.filter (fun c => !dieByte d c.1), poison := s.poison.filter (fun p => !dieByte d (32 * p)),
    discarded := s.discarded.filter (fun l => !dieByte d (128 * l.1)),
    savedBad := s.savedBad.filter (fun g => !dieByte d (16 * g)) }
  freshFrames (forgetAll (dieByte d) s) d

/-- A scrubbed die joins its partition: queues and caches empty, the partition's handle table written to it. -/
def joinPart (s : State) (d part : Nat) : State :=
  let v := dieOf s d
  let peer := ((upto 4).find? fun k => decide (k ≠ d) && decide ((dieOf s k).part = part) && decide ((dieOf s k).st = .admitted)).map (dieOf s)
  let t := peer.getD { Die.fresh with part := part }
  setDie s d { v with
    st := .admitted, part := part, htabBase := t.htabBase, htabLen := t.htabLen, useBase := t.useBase, useLen := t.useLen,
    rcInval := 0, rc := [], bindRec := [0, 0, 0, 0], bindCtl := 0, evqBase := 0, evWait := [], grpCmd := 0,
    grpData := [0, 0, 0], queues := [], lockNew := none, heldExit := [], handover := none }

/-- Tables of a partition whose lowest die has moved are dropped: groups, peers, export windows, staged records. -/
def dropTables (s : State) (p : Nat) : State :=
  let keep {β : Type} (t : Tbl β) : Tbl β := t.filter fun e => decide (e.1 / 512 ≠ p)
  { s with groups := s.groups.filter fun e => decide (e.1 / 4096 ≠ p),
           hub := { s.hub with peers := keep s.hub.peers, exports := keep s.hub.exports, apert := keep s.hub.apert } }

/-- R374: the scrub of a moved die ends. -/
def execScrubComplete (die : Nat) (s : State) : Out :=
  .next <| match s.hub.op with
    | some (.part layout todo) =>
      if !todo.contains die then s
      else
        let s := dropTables (joinPart (scrubDie s die) die (partOf layout die)) die
        let rest := todo.filter fun d => decide (d ≠ die)
        if rest.isEmpty then partDone s layout
        else { s with hub := { s.hub with op := some (.part layout rest) } }
    | _ => s

/-! ### Warm reset (R375 to R379) -/

def resetWord (die : Nat) (drop go : Bool) (st step : Nat) : Word :=
  mk64 [(63, 1, go.toNat), (60, 3, st), (56, 4, step), (8, 1, drop.toNat), (0, 2, die)]

def resetStep (s : State) (die : Nat) (drop : Bool) (step ports : Nat) : State :=
  { s with hub := { s.hub with op := some (.reset die drop step ports), dreset := resetWord die drop true 0 step } }

/-- Copy a partition's event ring, 64 KiB, from one address to another: what the partition owns of both (R26), and a poisoned
word as poison (R381). -/
def copyRing (s : State) (part a b : Nat) : State :=
  if a = b then s
  else
    let own (i : Nat) : Bool := inPartition s part (a + i) && inPartition s part (b + i)
    let t := gwrite s none ((zipBytes ((upto 65536).map (b + ·)) (grun s a 65536)).filter fun x => own (x.1 - b))
    let bad := (upto 2048).filter fun k => s.poison.contains (a / 32 + k) && own (32 * k)
    { t with poison := bad.foldl (fun l k => insertUniq (b / 32 + k) l) t.poison }

/-- The partition's event ring moves with its group table to another die (R379). A ring in the DRAM of the die under reset
is copied to the same offset of the other die's (assumption 44). The die under reset keeps the address. -/
def moveRing (s : State) (src dst : Nat) : State :=
  let w := (dieOf s src).evqBase
  let base := if ringDie w = src then ringBase w - dramBase src + dramBase dst else ringBase w
  let s := copyRing s (dieOf s src).part (ringBase w) base
  let s := setDie s dst { dieOf s dst with evqBase := fput w 12 36 (base / 4096), evWait := (dieOf s src).evWait }
  setDie s src { dieOf s src with evWait := [] }

/-- The event ring comes back with its HEAD and TAIL (R379). -/
def ringBack (s : State) (src dst : Nat) : State :=
  let w := (dieOf s src).evqBase
  let base := ringBase (dieOf s dst).evqBase
  let s := copyRing s (dieOf s src).part (ringBase w) base
  let s := setDie s dst { dieOf s dst with evqBase := fput w 12 36 (base / 4096), evWait := (dieOf s src).evWait }
  setDie s src { dieOf s src with evqBase := 0, evWait := [] }

/-- Step 1 on one frame: SAVE withdraws and pre-empts, DROP kills; a thread whose area is homed on the die is
killed. -/
def quiesceFrame (die : Nat) (drop : Bool) (s : State) (f : Nat) : State :=
  let fr := frameKey die f
  let s := match (frameOf s fr).disp.standby with
    | none => s
    | some b =>
      let s := withdrawFrom s fr
      if drop then endOrHold s die fr b.tcb true else s
  match (frameOf s fr).disp.running with
  | none => s
  | some b =>
    if drop ∨ homeOf b.area = die then killRunning s fr
    else
      let x := raiseStop (frameOf s fr) .resetSave
      let req := x.disp.req.map fun r => if r.why = .preempt then { r with why := .resetSave } else r
      setFrame s fr { x with disp := { x.disp with req := req } }

/-- R375, R376: the request is refused, or step 1 begins. -/
def startReset (s : State) (die : Nat) (drop : Bool) : State :=
  let v := dieOf s die
  let refuse (st : Nat) : State :=
    let w := if fbit s.hub.dreset 63 then fput s.hub.dreset 60 3 st else resetWord die drop false st 0
    { s with hub := { s.hub with dreset := w } }
  if v.st ≠ .admitted then refuse 1
  else if s.hub.op.isSome then refuse 2
  else
    let home := homeDie s v.part
    let s := setDie s die { v with st := .quiescing }
    let s := if home = die ∧ homeDie s v.part ≠ die then moveRing s die (homeDie s v.part) else s
    let s := (upto Config.framesPerDie).foldl (quiesceFrame die drop) s
    resetStep s die drop 1 0

/-- No thread is left on the die. -/
def dieIdle (s : State) (die : Nat) : Bool :=
  (upto Config.framesPerDie).all fun f =>
    let x := (frameOf s (frameKey die f)).disp
    x.running.isNone && x.standby.isNone

/-- Step 2: the fabric ports of the die leave the trained state. -/
def dropPorts (s : State) (die : Nat) : State :=
  ((upto 16).filter fun k => fbit s.hub.trained (16 * die + k)).foldl (fun s k => portDown s (16 * die + k)) s

/-- The end of step 1: Svaken writes its queues, resume list and thread control state into the die's DRAM; the manual gives
neither the place nor the form, and what it reads back in step 6 stands in `Die` meanwhile (assumption 44). -/
def writeSvaken (s : State) (die : Nat) : State :=
  let bs := Config.svakenState die s.freeCtr
  let at' := (upto bs.length).map (dramBase die + Config.svakenAt die + ·)
  { gwrite s none ((zipBytes at' bs).filter fun b => inDram s die b.1) with freeCtr := s.freeCtr + 1 }

/-- Step 3: other dies drop their copies of lines homed on the die. -/
def dropLines (s : State) (die : Nat) : State :=
  { s with frames := s.frames.map fun e =>
      (e.1, { e.2 with sram := { e.2.sram with l1 := e.2.sram.l1.filter fun l => !dieByte die (128 * l.line) } }) }

/-- The address lies in the board window of the die. -/
def boardByte (die a : Nat) : Bool := decide (boardBase die ≤ a) && decide (a < boardBase die + 0x100000000)

/-- Step 4: the die is reset; its board region and record caches are lost, its DRAM stays. -/
def resetDie (s : State) (die : Nat) : State :=
  let s := { s with mem := s.mem.filter (fun c => !boardByte die c.1), poison := s.poison.filter fun p => !boardByte die (32 * p) }
  let s := forgetAll (boardByte die) s
  setDie s die { dieOf s die with st := .offline, rc := [], lockWays := 0, lockNew := none }

/-- The next step of the sequence, when the step in progress is done. -/
def advanceReset (s : State) (die : Nat) (drop : Bool) (step ports : Nat) : State :=
  match step with
  | 1 => if dieIdle s die then resetStep (dropPorts (writeSvaken s die) die) die drop 2 ports else s
  | 2 => resetStep (dropLines s die) die drop 3 ports
  | 3 => resetStep (resetDie s die) die drop 4 ports
  | 4 => resetStep (setDie s die { dieOf s die with st := .retraining }) die drop 5 ports
  | 5 => resetStep s die drop 6 ports
  | _ => s

/-- The sequence goes on by one step; any other request is judged as R375 says. -/
def warmReset (s : State) (die : Nat) (drop : Bool) : State :=
  match s.hub.op with
  | some (.reset d m step ports) => if d = die ∧ m = drop then advanceReset s die drop step ports else startReset s die drop
  | _ => startReset s die drop

def execWarmResetSave (die : Nat) (s : State) : Out := .next (if die < 4 then warmReset s die false else s)
def execWarmResetDrop (die : Nat) (s : State) : Out := .next (if die < 4 then warmReset s die true else s)

/-- The die is FAILED; what waits for it ends. Committed requests that waited for one of its ports are answered as a request
through a port that no translation takes any more, with PERMISSION (R371, assumption 43). -/
def failDie (s : State) (die : Nat) (drop : Bool) : State :=
  let s := setDie s die { dieOf s die with st := .failed }
  let gone := s.edge.parked.filter fun o => decide (o.flit.port / 16 = die)
  let s := { s with edge := { s.edge with parked := s.edge.parked.filter fun o => decide (o.flit.port / 16 ≠ die) } }
  let s := gone.foldl (fun s o => failWork s o .permission) s
  releaseExits { s with hub := { s.hub with op := none, dreset := resetWord die drop false 3 0 } } die

/-- The die is admitted: frames calibrated, the ports that have retrained in use, the event ring back, held work done. -/
def admitDie (s : State) (die : Nat) (drop : Bool) (ports : Nat) : State :=
  let part := (dieOf s die).part
  let home := homeDie s part
  let s := freshFrames s die
  let s := setDie s die { dieOf s die with st := .admitted, rc := [] }
  let s := if die < home then ringBack s home die else s
  let s := { s with hub := { s.hub with
    op := none, dreset := resetWord die drop false 0 0,
    trained := s.hub.trained ||| BitVec.ofNat 64 (ports * 2 ^ (16 * die)) } }
  hostProceed (unpark (releaseExits s die))

/-- R376, R382: the end of step 6, or the failure of step 4 or 5; a die that has lost more than 64 ranges fails. -/
def execDieAdmitted (die : Nat) (good : Bool) (s : State) : Out :=
  .next <| match s.hub.op with
    | some (.reset d drop step ports) =>
      if d ≠ die then s
      else if !good then (if step = 4 ∨ step = 5 then failDie s die drop else s)
      else if step ≠ 6 then s
      else if 64 < (dieOf s die).retired.length then failDie s die drop
      else admitDie s die drop ports
    | _ => s

/-! ### Frames out of service (R383) -/

/-- R383: a bit is not set for a frame with an occupied entry. -/
def execFrameOosWrite (die : Nat) (val : Word) (s : State) : Out :=
  let v := dieOf s die
  let bit (f : Nat) : Bool :=
    let x := (frameOf s (frameKey die f)).disp
    if fbit val f then v.oos.getLsbD f || (x.running.isNone && x.standby.isNone) else false
  dieBlock s die fun s =>
    setDie s die { v with oos := BitVec.ofNat 48 ((upto 48).foldl (fun n f => n + if bit f then 2 ^ f else 0) 0) }

/-! ### Live update (R385) -/

def fwEnd (s : State) (st : Nat) : State := { s with hub := { s.hub with fwStatus := st, op := none, fwWait := [] } }

/-- The handover structure that a die's Svaken core writes. What the running image puts into the body is free. -/
def handoverOf (s : State) (d : Nat) : Handover :=
  let body := Config.handoverBody d s.freeCtr
  { version := Config.handoverVersion, length := body.length, digest := (shake256 body).flatMap wordBytes, body := body }

/-- Its bytes: the 64-byte header, little-endian and in the manual's order of its fields, of which it gives no places: MAGIC in
2 bytes, VERSION in 2, LENGTH in 4, and the first 56 of the digest's 64 bytes (assumption 45); and the body. -/
def handoverBytes (h : Handover) : List Byte :=
  leOf h.magic 2 ++ leOf h.version 2 ++ leOf h.length 4 ++ h.digest.take 56 ++ h.body

/-- Step 3 on one die: its Svaken core writes the handover structure in the die's DRAM, at a place that the manual leaves open
(assumption 45). -/
def writeHandover (s : State) (d : Nat) : State :=
  let h := handoverOf s d
  let bs := handoverBytes h
  let at' := (upto bs.length).map (dramBase d + Config.handoverAt d + ·)
  let s := gwrite s none ((zipBytes at' bs).filter fun b => inDram s d b.1)
  { setDie s d { dieOf s d with handover := some h } with freeCtr := s.freeCtr + 1 }

/-- The image in a slot accepts the handover structure that it reads in a die's DRAM: its MAGIC, a VERSION from HV_MIN to HV_MAX,
and the digest of the body (R385). -/
def handoverFits (s : State) (m : Mem) (d : Nat) : Bool :=
  let a := dramBase d + Config.handoverAt d
  let field (i n : Nat) : Nat := leNat (grun s (a + i) n)
  let body := (upto (field 4 4)).map (a + 64 + ·)
  let all := (upto 64).map (a + ·) ++ body
  all.all (inDram s d) && !poisoned s all &&
    decide (field 0 2 = 0x4856) && decide (leNat (memRead m 20 2) ≤ field 2 2) && decide (field 2 2 ≤ leNat (memRead m 22 2)) &&
    decide (grun s (a + 8) 56 = ((shake256 (gread s body)).flatMap wordBytes).take 56)

/-- Dies whose Svaken cores take part. -/
def fwCores (s : State) : List Nat := (upto 4).filter fun d => decide ((dieOf s d).st = .admitted)

/-- Step 3: every core writes its structure. -/
def handOver (s : State) : State := (fwCores s).foldl writeHandover s

/-- How the verification of the inactive slot ends (R384, R385): its signature and digest, its SVN, and whether its image
accepts every handover structure as the cores write them. -/
def verdict (s : State) : VerifyResult :=
  let m := slotMem s false
  if !imageSigned s m 2 then .badSignature
  else if leNat (memRead m 16 4) < minSvn s 2 then .svnTooLow
  else if (fwCores s).all (handoverFits (handOver s) m) then .good
  else .handoverRejected

/-- Steps 1 to 4: verify, stop binding, hand over, start the new image; every core's heartbeat is awaited. A new image
that rejects the structure is started and ends the update (assumption 45). The operand says how the verification ends; one
that the slot's contents do not give is no update, and nothing happens. -/
def execLiveUpdate (v : VerifyResult) (s : State) : Out :=
  .next <| match s.hub.op with
    | some (.update _) => s
    | some _ => { s with hub := { s.hub with fwStatus := 5 } }
    | none =>
      if v ≠ verdict s then s
      else match v with
      | .badSignature => { s with hub := { s.hub with fwStatus := 1 } }
      | .svnTooLow => { s with hub := { s.hub with fwStatus := 2 } }
      | .handoverRejected => fwEnd (handOver s) 3
      | .good =>
        let t := handOver s
        { t with hub := { s.hub with fwStatus := 0, op := some (.update 4), fwWait := fwCores s } }

/-- Step 6: the new slot becomes active. -/
def slotSwitch (s : State) : State :=
  let svn := BitVec.ofNat 32 (leNat (memRead (slotMem s false) 16 4))
  fwEnd { s with hub := { s.hub with fwActive := !s.hub.fwActive, fwSvn := svn } } 0

/-- The heartbeat of a die's core, which follows its image's acceptance of the structure as it stands then: one that is no longer
as it was written ends the update. With the last heartbeat binding resumes. -/
def heartbeat (core : Nat) (s : State) : State :=
  match s.hub.op with
  | some (.update _) =>
      if !s.hub.fwWait.contains core then s
      else if !handoverFits s (slotMem s false) core then fwEnd s 3
      else
        let rest := s.hub.fwWait.filter fun d => decide (d ≠ core)
        if rest.isEmpty then slotSwitch s else { s with hub := { s.hub with fwWait := rest } }
  | _ => s

/-- The heartbeat of the Svaken core of the die that the step concerns. -/
def execFwHeartbeat (s : State) : Out := .next (heartbeat (curDie s) s)

/-- A core has missed its heartbeat: the old image runs on. -/
def execHeartbeatTimeout (s : State) : Out :=
  .next <| match s.hub.op with
    | some (.update _) => fwEnd s 4
    | _ => s

end Sys2Proof.Machine
end

