-- ==== Sys2Proof/Machine/Mgmt.lean ====
section
/-! DEFINITION. The management registers: who reaches which block, each register's writes and reads, record-cache
invalidation and board locking (R2, R7, R8, R52, R63 to R65, R71, R84, R351, R357, R362, R363, R365, R371, R372,
R382, R385). -/

namespace Sys2Proof.Machine

/-! ### Handle table (R52) -/

/-- Change every die of a die's partition. -/
def onPart (s : State) (die : Nat) (g : Die → Die) : State :=
  (partDies s (dieOf s die).part).foldl (fun s d => setDie s d (g (dieOf s d))) s

/-- A table of `len` entries at `base` lies wholly in the partition's DRAM. -/
def tableFits (s : State) (die base len : Nat) : Bool := decide (len = 0) || dramOf s (dieOf s die).part base (128 * len)

/-- R52. -/
def execHtabBaseWrite (die : Nat) (val : Word) (s : State) : Out :=
  let v := dieOf s die
  dieBlock s die fun s =>
    if tableFits s die (fld val 12 36 * 4096) v.htabLen.toNat then
      onPart s die fun d => { d with htabBase := mk64 [(12, 36, fld val 12 36), (0, 1, fld val 0 1)] }
    else s

/-- R52: a length above 2^20 is written as 2^20. -/
def execHtabLenWrite (die : Nat) (val : Word) (s : State) : Out :=
  let len := min (2 ^ 20) (fld val 0 21)
  dieBlock s die fun s =>
    if tableFits s die (fld (dieOf s die).htabBase 12 36 * 4096) len then
      onPart s die fun d => { d with htabLen := BitVec.ofNat 64 len }
    else s

/-! ### Record-cache invalidation (R63 to R65, R71) -/

/-- The handles an RC_INVAL names. -/
def invalCovers (w : Word) (h : Nat) : Bool := fbit w 40 || (decide (fld w 0 20 ≤ h) && decide (h ≤ fld w 20 20))

/-- Drop the handles' entries from every record cache of the partition; lines of records and maps that have come from other
packages are asked for again. -/
def rcDrop (s : State) (die : Nat) (w : Word) : State :=
  let keep (l : List RcEnt) : List RcEnt := l.filter fun e => !invalCovers w e.handle
  let s := onPart s die fun d => { d with rc := keep d.rc }
  (partFrames s (dieOf s die).part).foldl (fun s k =>
    match tget s.frames k with
    | some f => setFrame s k { f with rc := keep f.rc, reread := keep f.reread, recGot := [] }
    | none => s) s

/-- R65: a write with BUSY starts an invalidation; while BUSY reads 1 a write changes nothing. -/
def execRcInval (die : Nat) (val : Word) (s : State) : Out :=
  let v := dieOf s die
  let set (w : Word) : State := setDie s die { v with rcInval := w }
  let fields : Word := mk64 [(40, 1, fld val 40 1), (20, 20, fld val 20 20), (0, 20, fld val 0 20)]
  dieBlock s die fun s =>
    if fbit v.rcInval 63 then s
    else if !fbit val 63 then set (fput fields 60 3 (fld v.rcInval 60 3))
    else if !fbit val 40 && (decide (fld val 20 20 < fld val 0 20) || decide (fld val 0 20 = 0)) then
      set (fput fields 60 3 2)
    else rcDrop (set (fput fields 63 1 1)) die val

/-- Handles of accesses in flight of the thread that a frame runs (R63): those of the engines, and of a generator instruction
that awaits another package or goes on with what has come from it. -/
def inFlight (f : Frame) : List Nat :=
  if f.disp.running.isNone then [] else
  (if remBusy f then (remNow f).held.map fun x => tagHandle x.addr else []) ++
  f.ph.stores.map VStore.handle ++ f.ph.adds.map CAdd.handle ++
    (f.ph.released.map fun r => match r with | .store v => v.handle | .add c => c.handle) ++
    f.vec.loads.map GLoad.handle ++ f.cpe.ops.flatMap fun o => [o.handleA, o.handleB]

/-- A frame's requests to other packages that an invalidation waits for, whatever thread made them: accesses through covered
handles, lines of covered records and maps, and of banks that are fetched through covered handles (R63, R65, R371). -/
def fetchesOut (s : State) (fr : Nat) (w : Word) : Bool :=
  let f := frameOf s fr
  (s.edge.flitsWait ++ s.edge.parked).any fun o => decide (o.frame = fr) &&
    invalCovers w (if o.work = 12 then bankHandle (bankOf (arrOf f (o.n / 2)) (decide (o.n % 2 = 1))) else o.handle)

/-- Handles of the stores and add-reduces that a partition's unbound threads withhold, in their images (R63, R70). -/
def heldUnbound (s : State) (part : Nat) : List Nat :=
  let bound (tid : BitVec 32) : Bool := (partFrames s part).any fun k => (frameOf s k).disp.running.any fun b => decide (b.tid = tid)
  (s.carried.filter fun c => decide (c.part = part) && !bound c.tid).flatMap fun c =>
    c.frame.ph.stores.map VStore.handle ++ c.frame.ph.adds.map CAdd.handle

/-- The handle whose record an engine's head issue waits for. -/
def Hold.record? : Hold → Option Nat
  | .migrating h | .record h _ _ => some h
  | _ => none

/-- Handles that translations of a frame stall on (R71): of the generator, of a GWAIT's evaluation, of a GEXIT's completion word
and of the engines. -/
def stalledOn (s : State) (fr : Nat) : List Nat :=
  let f := frameOf s fr
  (match f.gen.stall with | some (.translation h) => [h] | some (.gwait ..) => (remNow f).migr.toList | _ => []) ++
    (match f.disp.running with | some b => if exitReady f then [tagHandle (tcbGet s b.tcb 4)] else [] | none => []) ++
    [f.seq.qb, f.seq.qv, f.seq.qc].filterMap fun q => q.hold.bind Hold.record?

/-- The frame's translations that stall on these handles go on. -/
def clearStalls (w : Word) (f : Frame) : Frame :=
  let hit (q : SlotQ) : SlotQ := if (q.hold.bind Hold.record?).any (invalCovers w) then { q with hold := none } else q
  let gen := match f.gen.stall with
    | some (.translation h) => if invalCovers w h then { f.gen with stall := none } else f.gen
    | _ => f.gen
  { f with gen := gen, seq := { f.seq with qb := hit f.seq.qb, qv := hit f.seq.qv, qc := hit f.seq.qc } }

/-- A frame's translations that stall on these handles read the handle table, and go on with what they read (R65,
R71). A record that still reads MIGRATING is read again when the translation is retried. -/
def retryStalls (s : State) (fr : Nat) (w : Word) : State :=
  let f := frameOf s fr
  let found := ((sortUniq (stalledOn s fr)).filter (invalCovers w)).filterMap fun h =>
    match rcRead { s with cur := fr } (fr / Config.framesPerDie) [] h with | .found e => some e | _ => none
  setFrame s fr (clearStalls w { f with reread := found ++ f.reread.filter fun e => found.all fun x => decide (x.handle ≠ e.handle) })

/-- Bank fetches of a frame through these handles are tried again (R71, R345). -/
def retryFetches (s : State) (fr : Nat) (w : Word) : State :=
  let f := frameOf s fr
  (f.disp.fetch.filter fun p => invalCovers w (bankHandle (bankOf (arrOf f p.1) p.2))).foldl (fun s p => fetchTry s fr p) s

/-- The handle table in use is the one the registers describe (R52). -/
def useTable (d : Die) : Die := { d with useBase := d.htabBase, useLen := d.htabLen }

/-- R65: the invalidation completes once nothing it covers is in flight; every translation that a MIGRATING record held is
tried again: of engines and generators, bank fetches (R345), launches (R351) and ends of threads (R388). -/
def execRcInvalComplete (die : Nat) (s : State) : Out :=
  let v := dieOf s die
  let w := v.rcInval
  let frames := (partFrames s v.part).filter fun k => (tget s.frames k).isSome
  .next <|
    if !fbit w 63 || (heldUnbound s v.part).any (invalCovers w) ||
        frames.any (fun k => (inFlight (frameOf s k)).any (invalCovers w) || fetchesOut s k w) then s
    else
      let s := rcDrop s die w
      let s := if fbit w 40 then onPart s die useTable else s
      let s := frames.foldl (fun s k => retryFetches (retryStalls s k w) k w) s
      let s := retrySubmits s v.part
      let s := setDie s die { dieOf s die with rcInval := fput (fput w 63 1 0) 60 3 0 }
      ((partDies s v.part).filter fun d => decide ((dieOf s d).st = .admitted)).foldl releaseExits s

/-! ### Board locking (R84) -/

/-- A thread of the partition is bound. -/
def partBound (s : State) (part : Nat) : Bool :=
  (partFrames s part).any fun k => let x := (frameOf s k).disp; x.running.isSome || x.standby.isSome

/-- R84. -/
def execBoardCfgWrite (die : Nat) (val : Word) (s : State) : Out :=
  let v := dieOf s die
  dieBlock s die fun s =>
    if 12 < fld val 0 4 ∨ v.lockNew.isSome ∨ partBound s v.part then s
    else setDie s die { v with lockNew := some (fld val 0 4) }

/-- R84: the change completes; new bytes read as zero, bytes of unlocked ways are lost. -/
def execBoardLockComplete (die : Nat) (s : State) : Out :=
  let v := dieOf s die
  .next <| match v.lockNew with
    | none => s
    | some n =>
      let lo := boardBase die + 0x1000000 * min n v.lockWays
      let len := 0x1000000 * (max n v.lockWays - min n v.lockWays)
      let out (a : Nat) : Bool := !(decide (lo ≤ a) && decide (a < lo + len))
      setDie { s with mem := memDrop s.mem lo len, poison := s.poison.filter (fun p => out (32 * p)),
                      discarded := s.discarded.filter (fun l => out (128 * l.1)) } die
        { v with lockWays := n, lockNew := none }

/-! ### Register values -/

/-- Codes of STATE in DIE_STAT (R365). -/
def DieState.code : DieState → Nat
  | .absent => 0 | .admitted => 1 | .quiescing => 2 | .offline => 3 | .retraining => 4 | .scrubbing => 5 | .failed => 6

/-- PKG_ID (R1, R2). -/
def pkgId (s : State) : Word :=
  let v := s.hub.variant
  mk64 [(56, 8, v), (52, 4, if v = 3 then 3 else 15), (40, 8, 0x30), (32, 8, if v = 1 then 64 else if v = 2 then 0 else 32),
        (24, 8, s.hub.stepping.toNat)]

/-- DIE_STAT (R365). -/
def dieStat (s : State) : Word :=
  mk64 ((upto 4).flatMap fun d =>
    let v := dieOf s d
    [(8 * d + 5, 3, v.st.code), (8 * d + 3, 2, if v.st = .absent then 0 else v.part)])

/-- HOST_LINK (R366). -/
def hostLink (s : State) : Word :=
  let h := s.hub
  mk64 [(16, 16, h.retrains), (5, 3, h.width), (3, 2, h.rate), (2, 1, h.linkUp.toNat), (1, 1, h.ideTx.toNat), (0, 1, h.ideRx.toNat)]

/-- FW_CTL (R385). -/
def fwCtl (s : State) : Word :=
  let go : Bool := match s.hub.op with | some (.update _) => true | _ => false
  mk64 [(63, 1, go.toNat), (60, 3, s.hub.fwStatus), (58, 1, s.hub.fwActive.toNat), (0, 32, s.hub.fwSvn.toNat)]

/-- BOARD_CFG (R84). While BUSY reads 1 LOCK_WAYS reads, and the region has, the ways before the change: DESIGN CHOICE
(assumption 46). -/
def boardCfg (v : Die) : Word := mk64 [(63, 1, v.lockNew.isSome.toNat), (16, 1, v.pinWay.toNat), (0, 4, v.lockWays)]

/-- RAS_STAT and RAS_RETi (R382). -/
def rasStat (v : Die) : Word :=
  mk64 [(56, 8, min 64 v.retired.length), (38, 18, v.pinned.length), (16, 16, v.ceCnt), (0, 16, v.ueCnt)]
def rasRet (v : Die) (i : Nat) : Word :=
  match v.retired[i]? with | some r => mk64 [(63, 1, 1), (0, 15, r)] | none => 0

/-! ### Blocks (R8) -/

/-- Where an offset of the layout lies. -/
inductive MBlock
  | hub (off : Nat)
  | die (d off : Nat)
  | frame (d f off : Nat)
  /-- beyond the last die block, or a frame slot above F47 -/
  | nowhere
  deriving DecidableEq, Repr

/-- Where an offset lies. A die's frame slots fill its block from 0x10_0000 to the block's end, those above F47 among them, which
no frame has and which read all ones: how far the slots reach is a DESIGN CHOICE (assumption 26). -/
def blockOf (off : Nat) : MBlock :=
  if off < 0x4000000 then .hub off
  else if 0x5000000 ≤ off then .nowhere
  else
    let d := (off - 0x4000000) / 0x400000
    let o := off % 0x400000
    if 0x100000 ≤ o then
      (if (o - 0x100000) / 0x1000 < Config.framesPerDie then .frame d ((o - 0x100000) / 0x1000) (o % 0x1000) else .nowhere)
    else .die d o

/-- A die's block answers this writer: the die is admitted, and in the partition of a Svaken core. -/
def dieReached (s : State) (who : Writer) (d : Nat) : Bool :=
  decide ((dieOf s d).st = .admitted) &&
    (match who with | .host _ => true | .svaken c => decide ((dieOf s c).part = (dieOf s d).part))

/-- All ones. -/
def ones : Word := BitVec.allOnes 64

/-- A hub register's value. -/
def hubRead (s : State) (off : Nat) : Word :=
  if off = 0x00 then pkgId s
  else if off = 0x08 then dieStat s
  else if off = 0x10 then s.hub.partCtl
  else if off = 0x18 then hostLink s
  else if off = 0x20 then s.hub.trained
  else if off = 0x28 then s.hub.dreset
  else if off = 0x30 then fwCtl s
  else if 0x10000 ≤ off ∧ off < 0x14000 then
    (if off % 0x1000 < 0x400 ∧ off % 0x100 ≤ 0x40 then
       tgetD s.hub.apert (apertKey ((off - 0x10000) / 0x1000) (off % 0x1000 / 0x100) (off % 0x100 / 8)) 0 else 0)
  else if 0x20000 ≤ off ∧ off < 0x24000 then
    (if off % 0x1000 < 0x400 then tgetD s.hub.peers (512 * ((off - 0x20000) / 0x1000) + off % 0x1000 / 8) 0 else 0)
  else if 0x30000 ≤ off ∧ off < 0x34000 then
    (if off % 0x1000 < 0x100 then tgetD s.hub.exports (512 * ((off - 0x30000) / 0x1000) + off % 0x1000 / 8) 0 else 0)
  else if 0x1000000 ≤ off ∧ off < 0x3000000 then bytesWord (memRead (slotMem s false) (off - 0x1000000) 8)
  else 0

/-- A die register's value. -/
def dieRead (s : State) (d off : Nat) : Word :=
  let v := dieOf s d
  if off = 0x200 then v.htabBase
  else if off = 0x208 then v.htabLen
  else if off = 0x210 then v.rcInval
  else if off = 0x280 then boardCfg v
  else if 0x300 ≤ off ∧ off < 0x320 then wd v.bindRec ((off - 0x300) / 8)
  else if off = 0x320 then v.bindCtl
  else if off = 0x330 then v.evqBase
  else if off = 0x340 then v.grpCmd
  else if 0x348 ≤ off ∧ off < 0x360 then wd v.grpData ((off - 0x348) / 8)
  else if off = 0x400 then rasStat v
  else if off = 0x410 then v.oos.zeroExtend 64
  else if 0x500 ≤ off ∧ off < 0x700 then rasRet v ((off - 0x500) / 8)
  else 0

/-- CSR number of a frame register; none where no register map names the offset. -/
def frameCsr (off : Nat) : Option Nat :=
  match off with
  | 0x40 => some 0xCC0 | 0x48 => some 0xCC2 | 0x50 => some 0xCC3 | 0x58 => some 0xCC4 | 0x60 => some 0xCC5
  | 0x68 => some 0xCC6 | 0x70 => some 0xCD0 | 0x78 => some 0xCD1 | 0x80 => some 0xCD2 | 0x88 => some 0xCD3
  | 0x90 => some 0xCD4 | 0x98 => some 0xCD5 | 0xA0 => some 0xCD6 | 0xA8 => some 0xCD7
  | _ =>
    if 0x100 ≤ off ∧ off < 0x180 then some (0xCE0 + (off - 0x100) / 8)
    else if 0x180 ≤ off ∧ off < 0x200 then some (0xCF0 + (off - 0x180) / 8)
    else none

/-- What a read of `size` bytes at an offset of the layout returns (R7, R8). -/
def mgmtRead (s : State) (who : Writer) (off size : Nat) : Word :=
  if size ≠ 8 ∨ off % 8 ≠ 0 then ones
  else match blockOf off with
    | .hub o => hubRead s o
    | .die d o => if dieReached s who d then dieRead s d o else ones
    | .frame d f o =>
      if dieReached s who d then
        (match frameCsr o with | some n => (csrRead { s with cur := frameKey d f } n).getD 0 | none => 0)
      else ones
    | .nowhere => ones

/-! ### Writes (R8) -/

/-- The state of a step that always goes on. -/
def outState (s : State) : Out → State
  | .next t => t
  | _ => s

/-- A write of a launch-aperture word (R351, R369). -/
def apertWrite (s : State) (who : Writer) (off : Nat) (val : Word) : State :=
  let p := (off - 0x10000) / 0x1000
  let slot := off % 0x1000 / 0x100
  let i := off % 0x100 / 8
  if !apertAllowed s who p || decide (4 ≤ slot) || decide (8 < i) then s
  else if isHost who && s.hub.ideNeed && !s.hub.ideRx then hostReply s { data := [], poison := false, unsup := true }
  else if i < 8 then { s with hub := { s.hub with apert := tput 0 s.hub.apert (apertKey p slot i) val } }
  else if fbit val 63 && !fbit (tgetD s.hub.apert (apertKey p slot 8) 0) 63 then outState s (execLaCtlSubmit who p slot s)
  else s

/-- A Svaken core writes tables of its own partition only. -/
def ownPage (s : State) (who : Writer) (p : Nat) : Bool :=
  match who with | .host _ => true | .svaken d => decide ((dieOf s d).part = p)

/-- A write of a peer entry (R371). -/
def peerTableWrite (s : State) (who : Writer) (off : Nat) (val : Word) : State :=
  let p := (off - 0x20000) / 0x1000
  let i := off % 0x1000 / 8
  if !ownPage s who p || decide (128 ≤ i) then s
  else
    let v : Word := if i % 2 = 0 then mk64 [(63, 1, fld val 63 1), (32, 2, fld val 32 2)] else val
    { s with hub := { s.hub with peers := tput 0 s.hub.peers (512 * p + i) v } }

/-- A write of an export window (R372). -/
def exportWrite (s : State) (who : Writer) (off : Nat) (val : Word) : State :=
  let p := (off - 0x30000) / 0x1000
  let i := off % 0x1000 / 8
  if !ownPage s who p || decide (32 ≤ i) then s
  else
    let v : Word := if i % 2 = 0 then mk64 [(61, 3, fld val 61 3), (12, 28, fld val 12 28)] else mk64 [(12, 28, fld val 12 28)]
    { s with hub := { s.hub with exports := tput 0 s.hub.exports (512 * p + i) v } }

/-- A write of the flash window reaches the inactive slot (R385). -/
def flashWrite (s : State) (off : Nat) (val : Word) : State :=
  let m := memWrite (slotMem s false) off (wordBytes val)
  { s with hub := if s.hub.fwActive then { s.hub with flashA := m } else { s.hub with flashB := m } }

/-- A write of DRESET_CTL (R375). While a reset is in progress a request is refused with its status, and the
fields go on naming the die under reset. -/
def dresetWrite (s : State) (val : Word) : State :=
  if fbit val 63 then startReset s (fld val 0 2) (fbit val 8)
  else if fbit s.hub.dreset 63 then s
  else { s with hub := { s.hub with dreset := fput (fput s.hub.dreset 8 1 (fld val 8 1)) 0 2 (fld val 0 2) } }

/-- A hub register's write. A Svaken core writes its partition's tables (R8), and its HEARTBEAT (R385). -/
def hubWrite (s : State) (who : Writer) (off : Nat) (val : Word) : State :=
  if 0x10000 ≤ off ∧ off < 0x14000 then apertWrite s who off val
  else if 0x20000 ≤ off ∧ off < 0x24000 then peerTableWrite s who off val
  else if 0x30000 ≤ off ∧ off < 0x34000 then exportWrite s who off val
  else match who with
  | .svaken d => if off = 0x30 ∧ fbit val 59 then heartbeat d s else s
  | .host _ =>
  if 0x1000000 ≤ off ∧ off < 0x3000000 then flashWrite s (off - 0x1000000) val
  else if off = 0x10 then
    (if fbit val 63 then outState s (execPartCfg (val.extractLsb' 0 4) s)
     else { s with hub := { s.hub with partCtl := fput s.hub.partCtl 0 4 (fld val 0 4) } })
  else if off = 0x28 then dresetWrite s val
  else if off = 0x30 then (if fbit val 63 then outState s (execLiveUpdate (verdict s) s) else s)
  else s

/-- A write of BIND_CTL (R357); while GO reads 1 a write of it changes nothing. -/
def bindCtlWrite (s : State) (d : Nat) (val : Word) : State :=
  let v := dieOf s d
  if fbit v.bindCtl 63 then s
  else if !fbit val 63 then setDie s d { v with bindCtl := fput v.bindCtl 0 10 (fld val 0 10) }
  else match fld val 8 2 with
    | 0 => outState s (execBind d val s)
    | 1 => outState s (execPreempt d val s)
    | 2 => outState s (execKill d val s)
    | _ => outState s (execWithdraw d val s)

/-- A write of GRP_CMD (R363); OP 3 is refused with status 2. -/
def grpCmdWrite (s : State) (d : Nat) (val : Word) : State :=
  let g : BitVec 12 := val.extractLsb' 0 12
  if !fbit val 63 then setDie s d { dieOf s d with grpCmd := fput (dieOf s d).grpCmd 0 14 (fld val 0 14) }
  else match fld val 12 2 with
    | 0 => outState s (execGrpRead d g s)
    | 1 => outState s (execGrpCreate d g s)
    | 2 => outState s (execGrpDestroy d g s)
    | _ => grpDone s d 3 g 2 none

/-- A die register's write. -/
def dieWrite (s : State) (d off : Nat) (val : Word) : State :=
  let v := dieOf s d
  if off = 0x200 then outState s (execHtabBaseWrite d val s)
  else if off = 0x208 then outState s (execHtabLenWrite d val s)
  else if off = 0x210 then outState s (execRcInval d val s)
  else if off = 0x280 then outState s (execBoardCfgWrite d val s)
  else if 0x300 ≤ off ∧ off < 0x320 then setDie s d { v with bindRec := lset v.bindRec ((off - 0x300) / 8) val }
  else if off = 0x320 then bindCtlWrite s d val
  else if off = 0x330 then setDie s d { v with evqBase := fput (fput v.evqBase 12 36 (fld val 12 36)) 0 12 (fld val 0 12) }
  else if off = 0x340 then grpCmdWrite s d val
  else if off = 0x410 then outState s (execFrameOosWrite d val s)
  else s

/-- R7, R8: an aligned doubleword reaches its register; anything else is ignored, and so is a write of a block
that does not answer, of a register that is read-only, or of an offset that no register map names. -/
def execMgmtRegisterWrite (w : MWrite) (s : State) : Out :=
  .next <|
    if w.size ≠ 8 ∨ w.off % 8 ≠ 0 then s
    else match blockOf w.off with
      | .hub o => hubWrite s w.who o w.val
      | .die d o => if dieReached s w.who d then dieWrite s d o w.val else s
      | _ => s

end Sys2Proof.Machine
end

