-- ==== Sys2Proof/Machine/Arbiter.lean ====
section
/-! DEFINITION. The agenda: which steps are events, which operands they admit, and what a frame left to itself may
do next. The manual fixes no order among agents beyond its rules; the choice is a free value. -/

namespace Sys2Proof.Machine

/-! ### Operands an event admits -/

def dieOk (d : Nat) : Bool := decide (d < 4)
def frameOk (k : Nat) : Bool := decide (k < 192)
def portOk (p : Nat) : Bool := decide (p < 64)
def writerOk : Writer → Bool
  | .host p => dieOk p | .svaken d => dieOk d

/-- An engine's slot. -/
def engineSlot : SlotName → Bool
  | .control => false | _ => true

/-- The step is an event and its operands name things that exist. Generator instructions run only when fetched, slot
operations only from their queue, control words only from their bundle. -/
def eventOk : Instr → Bool
  | .coldReset | .bundleDecode | .issueRepetition | .subIssueStart | .splitLevelRaise | .splitLevelLower
  | .phaseCommit | .fmtApply | .rollback | .l2FaultDelivery | .divisorApply | .sprintExpiry | .cooldownEnd
  | .temperatureSample _ | .bstepWriteback | .bldpStreamVector | .vldgDataReturn | .storePerformed | .addReduceApply
  | .copyOperationComplete _ | .preemptionPoint | .imageWrite | .emitQueueSpace | .gwaitEvaluate | .gwaitDeadline
  | .liveUpdate _ | .fwHeartbeat | .heartbeatTimeout | .hostLinkRetrain .. | .hostHoldTimeout | .getVersion
  | .getCapabilities | .negotiateAlgorithms | .getDigests | .getCertificate _ | .challenge _ | .getMeasurements _
  | .keyExchange | .finish | .spdmHeartbeat | .keyUpdate | .endSession | .ideKeyProgramming .. | .partCfg _ => true
  | .mgmtRegisterWrite w => writerOk w.who && decide (w.off < 0x8000000)
  | .htabBaseWrite d _ | .htabLenWrite d _ | .rcInval d _ | .rcInvalComplete d | .boardCfgWrite d _ | .boardLockComplete d
  | .bind d _ | .preempt d _ | .kill d _ | .withdraw d _ | .eventRingSpace d | .grpRead d _ | .grpCreate d _
  | .grpDestroy d _ | .scrubComplete d | .warmResetSave d | .warmResetDrop d | .dieAdmitted d _ | .frameOosWrite d _ => dieOk d
  | .dramCorrectedError d b | .dramUncorrectableError d b => dieOk d && decide (b < 0x1000000000)
  | .promote k | .bankFetchRetry k | .framePowerGate k _ => frameOk k
  | .laCtlSubmit who p _ => dieOk p && writerOk who
  | .hostMemRead p _ _ | .hostMemWrite p _ _ => dieOk p
  | .translationRetry none => true
  | .translationRetry (some sl) | .scoreboardRelease sl => engineSlot sl
  | .calibrationAgeExpiry a | .reloadLastByte a | .shadowBankValid a => decide (a < 64)
  | .slateRetain k | .slateOff k => decide (k < 16)
  | .bankRetain b => decide (b < 64)
  | .fabricReadRequest f | .fabricReadData f | .fabricWrite f | .fabricWriteAck f | .fabricAtomic f | .fabricAtomicReply f
  | .fabricAddReduce f | .fabricErrorReply f _ => portOk f.port && decide (f.len ≤ 232) && decide (f.data.length ≤ 232) && decide (f.addr < 2 ^ 40)
  | .fabricCredit p | .fabricReplayLimit p | .flitCrcFailure p | .flitReservedType p _ => portOk p
  | _ => false

/-! ### What a frame can do next -/

/-- A move of a frame. -/
inductive Move
  | event (i : Instr)
  | slot (sl : SlotName)
  | gen
  /-- one unit of a held copy operation's writes -/
  | part (k i : Nat)
  deriving DecidableEq, Repr

def when (c : Bool) (m : Move) : List Move := if c then [m] else []
def onEvent (c : Bool) (i : Instr) : List Move := when c (.event i)

/-- Moves of the sequencer. -/
def seqMoves (f : Frame) : List Move :=
  let run := seqRuns f
  onEvent (rollbackReady f && !landed f && f.disp.fetch.isEmpty) .rollback ++
  onEvent (run && decide (f.seq.stage = .boundary) && (nextBundle f.seq).isSome && (!f.ph.ordered || allPerformed f)) .bundleDecode ++
  onEvent (run && decide (f.seq.stage = .issuing) && roomForIssue f.seq && f.seq.cur.any fun c =>
    orderedReady f c && (decide (c.rep = 0) || decide (lastSub c.lvl ≤ f.seq.sub))) .issueRepetition ++
  onEvent (decide (f.seq.sub < 3) && subDone f) .subIssueStart ++
  when (controlDue f) (.slot .control) ++
  onEvent (decide (f.seq.stage = .boundary) && (f.clk.reqGen.isSome || f.clk.reqExec.isSome || f.clk.reqCopy.isSome)) .divisorApply ++
  onEvent (decide (f.seq.stage = .boundary) && f.seq.fmt.pend.any fun p => decide (p.left = 0)) .fmtApply ++
  onEvent ((run || releasing f) && decide (f.seq.stage = .commit) && commitReady f) .phaseCommit

/-- Moves of one engine. -/
def engineMoves (f : Frame) (sl : SlotName) : List Move :=
  match headOf f sl, (slotQ f.seq sl).hold with
  | some e, none => when (issueRuns f e) (.slot sl)
  | some _, some (.migrating _) | some _, some (.record ..) => [.event (.translationRetry (some sl))]
  | some e, some h => onEvent (holdGone f sl e h) (.scoreboardRelease sl)
  | none, _ => []

/-- Work that goes on in the background. -/
def backMoves (f : Frame) : List Move :=
  onEvent (!f.bead.bwb.isEmpty) .bstepWriteback ++ onEvent f.bead.bldp.isSome .bldpStreamVector ++
  onEvent (f.vec.loads.head?.any fun l => l.far.isNone) .vldgDataReturn ++ onEvent ((takeFirst relStore f.ph.released).isSome) .storePerformed ++
  onEvent ((takeFirst relAdd f.ph.released).isSome) .addReduceApply ++
  ((upto f.cpe.ops.length).map fun k => .event (.copyOperationComplete k)) ++
  ((upto f.cpe.ops.length).flatMap fun k => (f.cpe.ops[k]?.toList).flatMap fun o =>
    (upto (o.dst.length / max 1 o.unit)).map fun i => .part k i) ++
  f.bead.arrays.flatMap fun e =>
    onEvent (shadowFilling f e.1 && (crldOf f e.1).isSome || (bankOf e.2 (!e.2.act)).got) (.reloadLastByte e.1) ++
    onEvent (shadowFilling f e.1 && (bankOf e.2 (!e.2.act)).summed) (.shadowBankValid e.1)

/-- Moves of the generator core and of its waits. -/
def genMoves (s : State) (f : Frame) : List Move :=
  when (genRuns f) .gen ++
  onEvent (l2Due f) .l2FaultDelivery ++
  (match f.gen.stall with
   | some (.emit _ _) => [.event .emitQueueSpace]
   | some (.gwait _ _ _ (some d)) => [.event (if d ≤ s.time then .gwaitDeadline else .gwaitEvaluate)]
   | some (.gwait _ _ _ none) => [.event .gwaitEvaluate]
   | some (.translation _) => [.event (.translationRetry none)]
   | some .remote => []
   | none => [])

/-- Moves of dispatch, of the clocks and of the current controller. -/
def dispMoves (s : State) (f : Frame) : List Move :=
  let pct := tgetD s.edge.loadPct s.cur 0
  onEvent (decide (f.seq.stage = .boundary) && decide (100 < pct) && decide (f.clk.level < 2)) .splitLevelRaise ++
  onEvent (decide (f.seq.stage = .boundary) && decide (pct < 90) && decide (0 < f.clk.level)) .splitLevelLower ++
  onEvent (f.disp.req.isSome && !landed f && atBoundary f) .preemptionPoint ++
  onEvent (landed f) .imageWrite ++
  onEvent (f.disp.running.isNone && f.disp.standby.isSome) (.promote s.cur) ++
  onEvent (!f.disp.fetch.isEmpty) (.bankFetchRetry s.cur) ++
  onEvent (match f.clk.grant with | some e => decide (e ≤ s.time) | none => false) .sprintExpiry ++
  onEvent (decide (f.clk.cool = some 0)) .cooldownEnd

/-- Slates, banks and the temperature of the frame: supply states may change once idle (R261, R274), the die's
temperature is sampled, and calibrations age (R224). -/
def supplyMoves (s : State) (f : Frame) : List Move :=
  let t := (dieOf s (curDie s)).temp
  ((upto 16).flatMap fun k =>
    onEvent (decide (tgetD f.vec.slates k 2 = 0)) (.slateRetain k) ++
    onEvent (decide (tgetD f.vec.slates k 2 ≠ 2) && f.vec.rows.all fun r => decide (r.1 / 64 ≠ k)) (.slateOff k)) ++
  ((upto 64).flatMap fun b => onEvent (fbit f.sram.live b && !fbit f.sram.retain b) (.bankRetain b)) ++
  onEvent (decide (f.bead.temp ≠ t)) (.temperatureSample t) ++
  f.bead.arrays.flatMap fun e => onEvent (!e.2.calStale && decide (calAge ≤ s.time - e.2.calTime)) (.calibrationAgeExpiry e.1)

/-- Moves of the frame's die and of the hub. -/
def hubMoves (s : State) : List Move :=
  let d := curDie s
  let v := dieOf s d
  onEvent (!v.evWait.isEmpty && ringReady s v.part v.evqBase) (.eventRingSpace d) ++ onEvent (fbit v.rcInval 63) (.rcInvalComplete d) ++
  onEvent v.lockNew.isSome (.boardLockComplete d) ++
  (match s.hub.op with
   | some (.part _ (x :: _)) => [.event (.scrubComplete x)]
   | some (.reset x drop step _) => [.event (if step = 6 then .dieAdmitted x true else if drop then .warmResetDrop x else .warmResetSave x)]
   | _ => [])

/-- Everything the moving frame can do next. -/
def moves (s : State) : List Move :=
  let f := curFrame s
  seqMoves f ++ engineMoves f .bead ++ engineMoves f .vector ++ engineMoves f .copy ++ backMoves f ++ genMoves s f ++
    dispMoves s f ++ supplyMoves s f ++ hubMoves s

end Sys2Proof.Machine
end

