-- ==== Sys2Proof/Machine/Dispatch.lean ====
section
/-! DEFINITION. One arm per constructor of `Instr`: the meaning of every step of spec/opcode_table.json. -/

namespace Sys2Proof.Machine

def exec (i : Instr) (s : State) : Host.Outcome State Fault Refusal :=
  match i with
  | .coldReset => Sys2Proof.Machine.execColdReset s
  | .mgmtRegisterWrite w => Sys2Proof.Machine.execMgmtRegisterWrite w s
  | .htabBaseWrite die val => Sys2Proof.Machine.execHtabBaseWrite die val s
  | .htabLenWrite die val => Sys2Proof.Machine.execHtabLenWrite die val s
  | .rcInval die val => Sys2Proof.Machine.execRcInval die val s
  | .rcInvalComplete die => Sys2Proof.Machine.execRcInvalComplete die s
  | .translationRetry slot => Sys2Proof.Machine.execTranslationRetry slot s
  | .boardCfgWrite die val => Sys2Proof.Machine.execBoardCfgWrite die val s
  | .boardLockComplete die => Sys2Proof.Machine.execBoardLockComplete die s
  | .bundleDecode => Sys2Proof.Machine.execBundleDecode s
  | .issueRepetition => Sys2Proof.Machine.execIssueRepetition s
  | .subIssueStart => Sys2Proof.Machine.execSubIssueStart s
  | .splitLevelRaise => Sys2Proof.Machine.execSplitLevelRaise s
  | .splitLevelLower => Sys2Proof.Machine.execSplitLevelLower s
  | .scoreboardRelease slot => Sys2Proof.Machine.execScoreboardRelease slot s
  | .idle slot => Sys2Proof.Machine.execIdle slot s
  | .loop len cnt => Sys2Proof.Machine.execLoop len cnt s
  | .phase => Sys2Proof.Machine.execPhase s
  | .phaseCommit => Sys2Proof.Machine.execPhaseCommit s
  | .waitc ld st cp bs => Sys2Proof.Machine.execWaitc ld st cp bs s
  | .vjoin => Sys2Proof.Machine.execVjoin s
  | .setfmt a w => Sys2Proof.Machine.execSetfmt a w s
  | .fmtApply => Sys2Proof.Machine.execFmtApply s
  | .rollback => Sys2Proof.Machine.execRollback s
  | .l2FaultDelivery => Sys2Proof.Machine.execL2FaultDelivery s
  | .divisorApply => Sys2Proof.Machine.execDivisorApply s
  | .sprintExpiry => Sys2Proof.Machine.execSprintExpiry s
  | .cooldownEnd => Sys2Proof.Machine.execCooldownEnd s
  | .temperatureSample temp => Sys2Proof.Machine.execTemperatureSample temp s
  | .calibrationAgeExpiry array => Sys2Proof.Machine.execCalibrationAgeExpiry array s
  | .slateRetain slate => Sys2Proof.Machine.execSlateRetain slate s
  | .slateOff slate => Sys2Proof.Machine.execSlateOff slate s
  | .bankRetain bank => Sys2Proof.Machine.execBankRetain bank s
  | .bgrid kgm1 ngm1 => Sys2Proof.Machine.execBgrid kgm1 ngm1 s
  | .bstep f => Sys2Proof.Machine.execBstep f s
  | .bstepWriteback => Sys2Proof.Machine.execBstepWriteback s
  | .bldp f => Sys2Proof.Machine.execBldp f s
  | .bldpStreamVector => Sys2Proof.Machine.execBldpStreamVector s
  | .reloadLastByte array => Sys2Proof.Machine.execReloadLastByte array s
  | .shadowBankValid array => Sys2Proof.Machine.execShadowBankValid array s
  | .bswap r => Sys2Proof.Machine.execBswap r s
  | .bcal r => Sys2Proof.Machine.execBcal r s
  | .bcalr d array step => Sys2Proof.Machine.execBcalr d array step s
  | .bcalw a array step => Sys2Proof.Machine.execBcalw a array step s
  | .bflagStale p clr => Sys2Proof.Machine.execBflagStale p clr s
  | .bflagClip p array clr => Sys2Proof.Machine.execBflagClip p array clr s
  | .bmodeDigital => Sys2Proof.Machine.execBmodeDigital s
  | .bmodeAnalog => Sys2Proof.Machine.execBmodeAnalog s
  | .vadd f => Sys2Proof.Machine.execVadd f s
  | .vsub f => Sys2Proof.Machine.execVsub f s
  | .vmul f => Sys2Proof.Machine.execVmul f s
  | .vmulh f => Sys2Proof.Machine.execVmulh f s
  | .vmin f => Sys2Proof.Machine.execVmin f s
  | .vmax f => Sys2Proof.Machine.execVmax f s
  | .vfma f => Sys2Proof.Machine.execVfma f s
  | .vand f => Sys2Proof.Machine.execVand f s
  | .vor f => Sys2Proof.Machine.execVor f s
  | .vxor f => Sys2Proof.Machine.execVxor f s
  | .vandn f => Sys2Proof.Machine.execVandn f s
  | .vshl f => Sys2Proof.Machine.execVshl f s
  | .vshr f => Sys2Proof.Machine.execVshr f s
  | .vfshl f => Sys2Proof.Machine.execVfshl f s
  | .vfshr f => Sys2Proof.Machine.execVfshr f s
  | .vclz f => Sys2Proof.Machine.execVclz f s
  | .vpopc f => Sys2Proof.Machine.execVpopc f s
  | .vcmp f => Sys2Proof.Machine.execVcmp f s
  | .vsel f => Sys2Proof.Machine.execVsel f s
  | .plog f => Sys2Proof.Machine.execPlog f s
  | .vperm f => Sys2Proof.Machine.execVperm f s
  | .vgath f => Sys2Proof.Machine.execVgath f s
  | .vrsum f => Sys2Proof.Machine.execVrsum f s
  | .vrmax f => Sys2Proof.Machine.execVrmax f s
  | .vrmin f => Sys2Proof.Machine.execVrmin f s
  | .vrcp f => Sys2Proof.Machine.execVrcp f s
  | .vrsq f => Sys2Proof.Machine.execVrsq f s
  | .vcvt f => Sys2Proof.Machine.execVcvt f s
  | .vqnt f => Sys2Proof.Machine.execVqnt f s
  | .vdqt f => Sys2Proof.Machine.execVdqt f s
  | .vflags f => Sys2Proof.Machine.execVflags f s
  | .vld f => Sys2Proof.Machine.execVld f s
  | .vst f => Sys2Proof.Machine.execVst f s
  | .vldu f => Sys2Proof.Machine.execVldu f s
  | .vstu f => Sys2Proof.Machine.execVstu f s
  | .vldg f => Sys2Proof.Machine.execVldg f s
  | .vldgDataReturn => Sys2Proof.Machine.execVldgDataReturn s
  | .vstg f => Sys2Proof.Machine.execVstg f s
  | .storePerformed => Sys2Proof.Machine.execStorePerformed s
  | .vamo f => Sys2Proof.Machine.execVamo f s
  | .vfec f => Sys2Proof.Machine.execVfec f s
  | .vbrelRet f => Sys2Proof.Machine.execVbrelRet f s
  | .vbrelOff f => Sys2Proof.Machine.execVbrelOff f s
  | .cboxOs f => Sys2Proof.Machine.execCboxOs f s
  | .cboxSo f => Sys2Proof.Machine.execCboxSo f s
  | .cboxOo f => Sys2Proof.Machine.execCboxOo f s
  | .cfillO f => Sys2Proof.Machine.execCfillO f s
  | .cfillS sb se => Sys2Proof.Machine.execCfillS sb se s
  | .cpref sa se => Sys2Proof.Machine.execCpref sa se s
  | .cdisc f => Sys2Proof.Machine.execCdisc f s
  | .caddSo f => Sys2Proof.Machine.execCaddSo f s
  | .caddOo f => Sys2Proof.Machine.execCaddOo f s
  | .addReduceApply => Sys2Proof.Machine.execAddReduceApply s
  | .crld f => Sys2Proof.Machine.execCrld f s
  | .cctrAdd sa ord scope imm => Sys2Proof.Machine.execCctrAdd sa ord scope imm s
  | .copyOperationComplete k => Sys2Proof.Machine.execCopyOperationComplete k s
  | .preemptionPoint => Sys2Proof.Machine.execPreemptionPoint s
  | .imageWrite => Sys2Proof.Machine.execImageWrite s
  | .kload kd rs1 => Sys2Proof.Machine.execKload kd rs1 s
  | .kclr kd => Sys2Proof.Machine.execKclr kd s
  | .kmov kd ks => Sys2Proof.Machine.execKmov kd ks s
  | .kmerge kd ks m => Sys2Proof.Machine.execKmerge kd ks m s
  | .krd rd ks w => Sys2Proof.Machine.execKrd rd ks w s
  | .gemit ks rs1 => Sys2Proof.Machine.execGemit ks rs1 s
  | .gemitNb rd ks rs1 => Sys2Proof.Machine.execGemitNb rd ks rs1 s
  | .emitQueueSpace => Sys2Proof.Machine.execEmitQueueSpace s
  | .geq rd => Sys2Proof.Machine.execGeq rd s
  | .kins kd rs1 pos wm1 => Sys2Proof.Machine.execKins kd rs1 pos wm1 s
  | .kinsi kd imm pos wm1 => Sys2Proof.Machine.execKinsi kd imm pos wm1 s
  | .gwaitAny rd rs1 rs2 => Sys2Proof.Machine.execGwaitAny rd rs1 rs2 s
  | .gwaitAll rd rs1 rs2 => Sys2Proof.Machine.execGwaitAll rd rs1 rs2 s
  | .gwaitEvaluate => Sys2Proof.Machine.execGwaitEvaluate s
  | .gwaitDeadline => Sys2Proof.Machine.execGwaitDeadline s
  | .gjoin rd rs1 => Sys2Proof.Machine.execGjoin rd rs1 s
  | .gleave rd rs1 => Sys2Proof.Machine.execGleave rd rs1 s
  | .gbar rd rs1 => Sys2Proof.Machine.execGbar rd rs1 s
  | .glaunch rd rs1 => Sys2Proof.Machine.execGlaunch rd rs1 s
  | .gexit => Sys2Proof.Machine.execGexit s
  | .gself rd sel => Sys2Proof.Machine.execGself rd sel s
  | .grec rd rs1 w => Sys2Proof.Machine.execGrec rd rs1 w s
  | .psetw rs2 ps w => Sys2Proof.Machine.execPsetw rs2 ps w s
  | .psetr rd ps w => Sys2Proof.Machine.execPsetr rd ps w s
  | .gfenceX p s1 => Sys2Proof.Machine.execGfenceX p s1 s
  | .gfence k c => Sys2Proof.Machine.execGfence k c s
  | .gld z o c rd rs1 => Sys2Proof.Machine.execGld z o c rd rs1 s
  | .gst z o c rs2 rs1 => Sys2Proof.Machine.execGst z o c rs2 rs1 s
  | .gdiv rd rs1 dom => Sys2Proof.Machine.execGdiv rd rs1 dom s
  | .sprint rd rs1 => Sys2Proof.Machine.execSprint rd rs1 s
  | .standardLoad op rd rs1 imm => Sys2Proof.Machine.execStandardLoad op rd rs1 imm s
  | .standardStore op rs2 rs1 imm => Sys2Proof.Machine.execStandardStore op rs2 rs1 imm s
  | .amo op dbl aq rl rd rs1 rs2 => Sys2Proof.Machine.execAmo op dbl aq rl rd rs1 rs2 s
  | .lr dbl aq rl rd rs1 => Sys2Proof.Machine.execLr dbl aq rl rd rs1 s
  | .sc dbl aq rl rd rs1 rs2 => Sys2Proof.Machine.execSc dbl aq rl rd rs1 rs2 s
  | .fence fm pred succ => Sys2Proof.Machine.execFence fm pred succ s
  | .fenceI => Sys2Proof.Machine.execFenceI s
  | .ecall => Sys2Proof.Machine.execEcall s
  | .ebreak => Sys2Proof.Machine.execEbreak s
  | .csrAccess op rd src csr => Sys2Proof.Machine.execCsrAccess op rd src csr s
  | .integerInstruction op => Sys2Proof.Machine.execIntegerInstruction op s
  | .handlerResume => Sys2Proof.Machine.execHandlerResume s
  | .handlerAbandon => Sys2Proof.Machine.execHandlerAbandon s
  | .laCtlSubmit who part slot => Sys2Proof.Machine.execLaCtlSubmit who part slot s
  | .bind die ctl => Sys2Proof.Machine.execBind die ctl s
  | .preempt die ctl => Sys2Proof.Machine.execPreempt die ctl s
  | .kill die ctl => Sys2Proof.Machine.execKill die ctl s
  | .withdraw die ctl => Sys2Proof.Machine.execWithdraw die ctl s
  | .promote frame => Sys2Proof.Machine.execPromote frame s
  | .bankFetchRetry frame => Sys2Proof.Machine.execBankFetchRetry frame s
  | .eventRingSpace die => Sys2Proof.Machine.execEventRingSpace die s
  | .grpRead die group => Sys2Proof.Machine.execGrpRead die group s
  | .grpCreate die group => Sys2Proof.Machine.execGrpCreate die group s
  | .grpDestroy die group => Sys2Proof.Machine.execGrpDestroy die group s
  | .partCfg layout => Sys2Proof.Machine.execPartCfg layout s
  | .scrubComplete die => Sys2Proof.Machine.execScrubComplete die s
  | .warmResetSave die => Sys2Proof.Machine.execWarmResetSave die s
  | .warmResetDrop die => Sys2Proof.Machine.execWarmResetDrop die s
  | .dieAdmitted die good => Sys2Proof.Machine.execDieAdmitted die good s
  | .frameOosWrite die val => Sys2Proof.Machine.execFrameOosWrite die val s
  | .liveUpdate v => Sys2Proof.Machine.execLiveUpdate v s
  | .fwHeartbeat => Sys2Proof.Machine.execFwHeartbeat s
  | .heartbeatTimeout => Sys2Proof.Machine.execHeartbeatTimeout s
  | .hostLinkRetrain width rate => Sys2Proof.Machine.execHostLinkRetrain width rate s
  | .hostMemRead part off len => Sys2Proof.Machine.execHostMemRead part off len s
  | .hostMemWrite part off data => Sys2Proof.Machine.execHostMemWrite part off data s
  | .hostHoldTimeout => Sys2Proof.Machine.execHostHoldTimeout s
  | .fabricReadRequest f => Sys2Proof.Machine.execFabricReadRequest f s
  | .fabricReadData f => Sys2Proof.Machine.execFabricReadData f s
  | .fabricWrite f => Sys2Proof.Machine.execFabricWrite f s
  | .fabricWriteAck f => Sys2Proof.Machine.execFabricWriteAck f s
  | .fabricAtomic f => Sys2Proof.Machine.execFabricAtomic f s
  | .fabricAtomicReply f => Sys2Proof.Machine.execFabricAtomicReply f s
  | .fabricAddReduce f => Sys2Proof.Machine.execFabricAddReduce f s
  | .fabricErrorReply f e => Sys2Proof.Machine.execFabricErrorReply f e s
  | .fabricCredit port => Sys2Proof.Machine.execFabricCredit port s
  | .fabricReplayLimit port => Sys2Proof.Machine.execFabricReplayLimit port s
  | .dramCorrectedError die byte => Sys2Proof.Machine.execDramCorrectedError die byte s
  | .dramUncorrectableError die byte => Sys2Proof.Machine.execDramUncorrectableError die byte s
  | .getVersion => Sys2Proof.Machine.execGetVersion s
  | .getCapabilities => Sys2Proof.Machine.execGetCapabilities s
  | .negotiateAlgorithms => Sys2Proof.Machine.execNegotiateAlgorithms s
  | .getDigests => Sys2Proof.Machine.execGetDigests s
  | .getCertificate slot => Sys2Proof.Machine.execGetCertificate slot s
  | .challenge slot => Sys2Proof.Machine.execChallenge slot s
  | .getMeasurements index => Sys2Proof.Machine.execGetMeasurements index s
  | .keyExchange => Sys2Proof.Machine.execKeyExchange s
  | .finish => Sys2Proof.Machine.execFinish s
  | .spdmHeartbeat => Sys2Proof.Machine.execSpdmHeartbeat s
  | .keyUpdate => Sys2Proof.Machine.execKeyUpdate s
  | .endSession => Sys2Proof.Machine.execEndSession s
  | .illegalInstruction w => Sys2Proof.Machine.execIllegalInstruction w s
  | .framePowerGate frame gate => Sys2Proof.Machine.execFramePowerGate frame gate s
  | .ideKeyProgramming tx rx => Sys2Proof.Machine.execIdeKeyProgramming tx rx s
  | .flitCrcFailure port => Sys2Proof.Machine.execFlitCrcFailure port s
  | .flitReservedType port ty => Sys2Proof.Machine.execFlitReservedType port ty s

end Sys2Proof.Machine
end

