-- ==== Sys2Proof/Machine/Step.lean ====
section
/-! DEFINITION. One step of the package: the agenda names who moves; time passes; the move is made. -/

namespace Sys2Proof.Machine

/-- The generator core of the moving frame fetches, decodes and executes one instruction (R176, R204). A core that
may not fetch does nothing. -/
def genTurn (s : State) : Out :=
  if !genRuns (curFrame s) then .next s
  else match fetchInstr s with
    | (.instr i len, s) => exec i (onGen s fun g => { g with npc := g.pc + BitVec.ofNat 64 len })
    | (.fault code addr gen, s) => .next (takeL1 s code addr gen)
    | (.stall h, s) => .next (genStall s h)
    | (.ask, s) => .next (genAsk s)
    | (.far a das, s) => .next (match genFarRead s a 2 9 das .pkg with | .stop s => s | .ok _ _ s => s)

/-- The step that a slot of the moving frame holds next: the head of its engine's queue unless it waits, or the
control word of the bundle in progress. -/
def slotStep (f : Frame) (sl : SlotName) : Option Instr :=
  match sl with
  | .control => (match f.seq.cur with | some c => c.ent.bun.ctl.bind (decodeSlot .control) | none => none)
  | _ =>
    match headOf f sl, (slotQ f.seq sl).hold with
    | some e, none => decodeSlot sl e.w
    | _, _ => none

/-- The slot executes what it holds; with nothing to execute nothing happens. -/
def slotTurn (sl : SlotName) (s : State) : Out :=
  match slotStep (curFrame s) sl with
  | some i => exec i s
  | none => .next s

/-- A move of the frame. -/
def makeMove (m : Move) (s : State) : Out :=
  match m with
  | .event i => exec i s
  | .slot sl => slotTurn sl s
  | .gen => genTurn s
  | .part k i => .next (copyPart s k i)

/-- The frame is left to itself: one of the things it can do is done, which one is open. -/
def autoTurn (s : State) : Out :=
  match moves s with
  | [] => .next s
  | m :: r =>
    let x := draw s
    makeMove ((m :: r).getD (x.1 % (r.length + 1)) m) x.2

/-- Change a frame. -/
def onFrame (s : State) (fr : Nat) (g : Frame → Frame) : State := setFrame s fr (g (frameOf s fr))

/-- A row or granule of the frame takes an uncorrectable error (R260, R381). -/
def rowHit (row : Nat) (f : Frame) : Frame :=
  if (tget f.vec.rows row).isSome then { f with vec := { f.vec with bad := insertUniq row f.vec.bad } } else f
def granHit (gran : Nat) (f : Frame) : Frame := { f with sram := sramMark f.sram [gran] }

/-- A bit of a weight cell changes; only the checksum rod can tell (R215). -/
def cellHit (array : Nat) (one : Bool) (cell bit : Nat) (f : Frame) : Frame :=
  let a := arrOf f array
  let b := bankOf a one
  setArr f array (setBank a one { b with w := tput 0 b.w cell (tgetD b.w cell 0 ^^^ BitVec.ofNat 8 (2 ^ bit)) })

/-- A fabric port trains: it carries traffic if its die is admitted, and from the die's admission on if the die is
retraining (R365, R376). Committed requests that waited for a port leave (R160). -/
def portTrained (s : State) (p : Nat) : State :=
  let d := p / 16
  if (dieOf s d).st = .admitted then unpark { s with hub := { s.hub with trained := fput s.hub.trained p 1 1 } }
  else match s.hub.op with
    | some (.reset x drop step ports) =>
      if x = d ∧ 5 ≤ step then
        { s with hub := { s.hub with op := some (.reset x drop step (if ports.testBit (p % 16) then ports else ports + 2 ^ (p % 16))) } }
      else s
    | _ => s

/-- A fabric port drops; a die that retrains loses what it had trained. -/
def portDrops (s : State) (p : Nat) : State :=
  match s.hub.op with
  | some (.reset x drop step ports) =>
    if x = p / 16 ∧ ports.testBit (p % 16) then { s with hub := { s.hub with op := some (.reset x drop step (ports - 2 ^ (p % 16))) } }
    else portDown s p
  | _ => portDown s p

/-- What an entry of the agenda does. An entry whose operands nothing admits stops the run. -/
def runTurn (t : Turn) (s : State) : Out :=
  let hub (h : Hub) : Out := .next { s with hub := h }
  let edge (e : Edge) : Out := .next { s with edge := e }
  match t with
  | .auto fr => if frameOk fr then autoTurn { s with cur := fr } else .fault .illFormedTurn
  | .gen fr => if frameOk fr then genTurn { s with cur := fr } else .fault .illFormedTurn
  | .event fr i => if frameOk fr && eventOk i then exec i { s with cur := fr } else .fault .illFormedTurn
  | .slot fr sl => if frameOk fr then slotTurn sl { s with cur := fr } else .fault .illFormedTurn
  | .l1Evict fr line =>
    if frameOk fr then .next (onFrame s fr fun f => { f with sram := l1Drop f.sram [128 * line] }) else .fault .illFormedTurn
  | .rcEvict fr h =>
    if frameOk fr then .next (onFrame s fr fun f => { f with rc := f.rc.filter fun e => decide (e.handle ≠ h) }) else .fault .illFormedTurn
  | .rcEvictDie d h =>
    if dieOk d then .next (setDie s d { dieOf s d with rc := (dieOf s d).rc.filter fun e => decide (e.handle ≠ h) })
    else .fault .illFormedTurn
  | .rowError fr row =>
    if frameOk fr && decide (row < 1024) then .next (onFrame s fr (rowHit row)) else .fault .illFormedTurn
  | .granError fr gran =>
    if frameOk fr && decide (gran < 4 * (frameOf s fr).sram.split * 4096) then .next (onFrame s fr (granHit gran))
    else .fault .illFormedTurn
  | .cellError fr array one cell bit =>
    if frameOk fr && decide (array < 64) && decide (cell < 16384) && decide (bit < 8) then
      .next (onFrame s fr (cellHit array one cell bit)) else .fault .illFormedTurn
  | .copyPart fr k i => if frameOk fr then .next (copyPart { s with cur := fr } k i) else .fault .illFormedTurn
  | .draws draw sprintW partW => edge { s.edge with draw := draw, sprintW := sprintW, partW := partW }
  | .load fr pct => edge { s.edge with loadPct := tset s.edge.loadPct fr pct }
  | .temperature d t => if dieOk d then .next (setDie s d { dieOf s d with temp := t }) else .fault .illFormedTurn
  | .port p up =>
    if !portOk p || decide (s.hub.variant = 2) || (decide (s.hub.variant = 3) && decide (32 ≤ p)) then .fault .illFormedTurn
    else if up then .next (portTrained s p)
    else .next (portDrops s p)
  | .hostUp => hub { s.hub with linkUp := true }
  | .hubImage m => hub { s.hub with hubNext := m }
  | .iommu deny => edge { s.edge with iommuDeny := deny }

/-- The next entry of the agenda; with none, the frame that moved last is left to itself. -/
def nextTurn (s : State) : Turn × State :=
  match s.turns with
  | [] => (.auto s.cur, s)
  | t :: r => (t, { s with turns := r })

/-- The frame an entry concerns, for the passing of its cycles. -/
def turnFrame (s : State) : Turn → Nat
  | .auto fr | .gen fr | .event fr _ | .slot fr _ | .copyPart fr _ _ => fr
  | _ => s.cur

/-- One step: take an entry of the agenda, let time pass, make the move. -/
def step (s : State) : Host.Outcome State Fault Refusal :=
  let x := nextTurn s
  runTurn x.1 (tick { x.2 with cur := turnFrame x.2 x.1 })

/-- The state with an instruction stored where the generator core of the moving frame fetches next. -/
def State.withFetchWord (s : State) (nbits w : Nat) : State := placeCode s (natBytes (w % 2 ^ nbits) 16)

end Sys2Proof.Machine
end

