-- ==== Sys2Proof/Laws/Tbl.lean ====
section
/-! SUPPORT. Tables and byte storage: what a read finds after a write, and the canonical form that every
operation on storage keeps. -/

namespace Sys2Proof.Machine

/-! ### Reads after writes -/

@[simp] theorem tget_nil {β : Type} (k : Nat) : tget ([] : Tbl β) k = Option.none := rfl

@[simp] theorem tget_tset_self {β : Type} (t : Tbl β) (k : Nat) (v : β) : tget (tset t k v) k = some v := by
  induction t with
  | nil => simp [tset, tget]
  | cons e r ih =>
    obtain ⟨i, w⟩ := e
    simp only [tset]
    split
    · simp [tget]
    · split
      · simp [tget]
      · simp [tget, *]

theorem tget_tset_other {β : Type} (t : Tbl β) {k j : Nat} (v : β) (h : j ≠ k) : tget (tset t k v) j = tget t j := by
  induction t with
  | nil => simp [tset, tget, h.symm]
  | cons e r ih =>
    obtain ⟨i, w⟩ := e
    simp only [tset]
    split
    · simp [tget, h.symm]
    · split
      · next hi => subst hi; simp [tget, h.symm]
      · simp only [tget, ih]

theorem tget_tset {β : Type} (t : Tbl β) (k j : Nat) (v : β) :
    tget (tset t k v) j = if j = k then some v else tget t j := by
  split
  · next h => subst h; simp
  · next h => exact tget_tset_other t v h

theorem tget_terase_other {β : Type} (t : Tbl β) {k j : Nat} (h : j ≠ k) : tget (terase t k) j = tget t j := by
  induction t with
  | nil => rfl
  | cons e r ih =>
    obtain ⟨i, w⟩ := e
    simp only [terase]
    split
    · next hi => subst hi; simp [tget, h.symm]
    · simp only [tget, ih]

/-- No key below `lo` is listed. -/
theorem tget_below {β : Type} (t : Tbl β) {lo k : Nat} (h : tblFrom lo t = true) (hk : k < lo) : tget t k = Option.none := by
  induction t generalizing lo with
  | nil => rfl
  | cons e r ih =>
    obtain ⟨i, w⟩ := e
    simp only [tblFrom, Bool.and_eq_true, decide_eq_true_eq] at h
    have hi : i ≠ k := by omega
    simp only [tget, if_neg hi]
    exact ih h.2 (by omega)

theorem tget_terase_self {β : Type} (t : Tbl β) {lo k : Nat} (h : tblFrom lo t = true) :
    tget (terase t k) k = Option.none := by
  induction t generalizing lo with
  | nil => rfl
  | cons e r ih =>
    obtain ⟨i, w⟩ := e
    simp only [tblFrom, Bool.and_eq_true, decide_eq_true_eq] at h
    simp only [terase]
    split
    · next hi => subst hi; exact tget_below r h.2 (by omega)
    · next hi => simp only [tget, if_neg hi]; exact ih h.2

/-! ### The canonical form -/

theorem tblFrom_mono {β : Type} (t : Tbl β) {a b : Nat} (hab : a ≤ b) (h : tblFrom b t = true) : tblFrom a t = true := by
  cases t with
  | nil => rfl
  | cons e r =>
    obtain ⟨i, w⟩ := e
    simp only [tblFrom, Bool.and_eq_true, decide_eq_true_eq] at h ⊢
    exact ⟨by omega, h.2⟩

theorem tblFrom_tset {β : Type} (t : Tbl β) {lo k : Nat} (v : β) (h : tblFrom lo t = true) (hk : lo ≤ k) :
    tblFrom lo (tset t k v) = true := by
  induction t generalizing lo with
  | nil => simp [tset, tblFrom, hk]
  | cons e r ih =>
    obtain ⟨i, w⟩ := e
    simp only [tblFrom, Bool.and_eq_true, decide_eq_true_eq] at h
    simp only [tset]
    split
    · simp only [tblFrom, Bool.and_eq_true, decide_eq_true_eq]
      exact ⟨hk, by omega, h.2⟩
    · split
      · next hi => subst hi; simp only [tblFrom, Bool.and_eq_true, decide_eq_true_eq]; exact h
      · simp only [tblFrom, Bool.and_eq_true, decide_eq_true_eq]
        exact ⟨h.1, ih h.2 (by omega)⟩

theorem tblFrom_terase {β : Type} (t : Tbl β) {lo : Nat} (k : Nat) (h : tblFrom lo t = true) :
    tblFrom lo (terase t k) = true := by
  induction t generalizing lo with
  | nil => rfl
  | cons e r ih =>
    obtain ⟨i, w⟩ := e
    simp only [tblFrom, Bool.and_eq_true, decide_eq_true_eq] at h
    simp only [terase]
    split
    · exact tblFrom_mono r (by omega) h.2
    · simp only [tblFrom, Bool.and_eq_true, decide_eq_true_eq]
      exact ⟨h.1, ih h.2⟩

theorem tblFrom_filter {β : Type} (t : Tbl β) (p : Nat × β → Bool) {lo : Nat} (h : tblFrom lo t = true) :
    tblFrom lo (t.filter p) = true := by
  induction t generalizing lo with
  | nil => rfl
  | cons e r ih =>
    obtain ⟨i, w⟩ := e
    simp only [tblFrom, Bool.and_eq_true, decide_eq_true_eq] at h
    rw [List.filter_cons]
    split
    · simp only [tblFrom, Bool.and_eq_true, decide_eq_true_eq]
      exact ⟨h.1, ih h.2⟩
    · exact tblFrom_mono _ (by omega) (ih h.2)

theorem mem_tset {β : Type} {t : Tbl β} {k : Nat} {v : β} {e : Nat × β} (h : e ∈ tset t k v) : e = (k, v) ∨ e ∈ t := by
  induction t with
  | nil => simpa [tset] using h
  | cons d r ih =>
    obtain ⟨i, w⟩ := d
    simp only [tset] at h
    split at h
    · simpa using h
    · split at h
      · simp only [List.mem_cons] at h ⊢; tauto
      · simp only [List.mem_cons] at h ⊢
        rcases h with h | h
        · tauto
        · rcases ih h with h | h <;> tauto

theorem mem_terase {β : Type} {t : Tbl β} {k : Nat} {e : Nat × β} (h : e ∈ terase t k) : e ∈ t := by
  induction t with
  | nil => simp [terase] at h
  | cons d r ih =>
    obtain ⟨i, w⟩ := d
    simp only [terase] at h
    split at h
    · exact List.mem_cons_of_mem _ h
    · simp only [List.mem_cons] at h ⊢
      rcases h with h | h
      · exact .inl h
      · exact .inr (ih h)

theorem wf_parts {m : Mem} : Memory.wf m = true ↔ tblFrom 0 m = true ∧ ∀ c ∈ m, c.2 ≠ 0 := by
  simp [Memory.wf, List.all_eq_true]

@[simp] theorem wf_nil : Memory.wf [] = true := rfl

theorem wf_memSet {m : Mem} (a : Nat) (b : Byte) (h : Memory.wf m = true) : Memory.wf (memSet m a b) = true := by
  rw [wf_parts] at h ⊢
  unfold memSet tput
  split
  · exact ⟨tblFrom_terase m a h.1, fun c hc => h.2 c (mem_terase hc)⟩
  · next hb =>
    refine ⟨tblFrom_tset m b h.1 (Nat.zero_le a), fun c hc => ?_⟩
    rcases mem_tset hc with rfl | hc
    · exact hb
    · exact h.2 c hc

theorem wf_memWrite {m : Mem} (a : Nat) (bs : List Byte) (h : Memory.wf m = true) : Memory.wf (memWrite m a bs) = true := by
  induction bs generalizing m a with
  | nil => exact h
  | cons b r ih => exact ih _ (wf_memSet a b h)

theorem wf_memPut {m : Mem} (l : List (Nat × Byte)) (h : Memory.wf m = true) : Memory.wf (memPut m l) = true := by
  induction l generalizing m with
  | nil => exact h
  | cons e r ih => exact ih (wf_memSet e.1 e.2 h)

theorem wf_memDrop {m : Mem} (lo n : Nat) (h : Memory.wf m = true) : Memory.wf (memDrop m lo n) = true := by
  rw [wf_parts] at h ⊢
  exact ⟨tblFrom_filter m _ h.1, fun c hc => h.2 c (List.mem_filter.mp hc).1⟩

theorem wf_filter {m : Mem} (p : Nat × Byte → Bool) (h : Memory.wf m = true) : Memory.wf (m.filter p) = true := by
  rw [wf_parts] at h ⊢
  exact ⟨tblFrom_filter m _ h.1, fun c hc => h.2 c (List.mem_filter.mp hc).1⟩

theorem wf_settle {s : State} (lines : List Nat) (h : Memory.wf s.mem = true) : Memory.wf (settle s lines) = true := by
  unfold settle
  generalize s.mem = m at h
  induction lines generalizing m with
  | nil => exact h
  | cons l r ih =>
    simp only [List.foldl_cons]
    split
    · exact ih _ (wf_memDrop _ _ h)
    · exact ih _ h

/-- Every write through the homes keeps the canonical form. -/
theorem wf_gwrite {s : State} (who : Option Nat) (bytes : List (Nat × Byte)) (h : Memory.wf s.mem = true) :
    Memory.wf (gwrite s who bytes).mem = true := wf_memPut _ (wf_settle _ h)

/-- The byte written is the byte read. -/
theorem memGet_memSet_self {m : Mem} (a : Nat) (b : Byte) (h : Memory.wf m = true) : memGet (memSet m a b) a = b := by
  unfold memGet memSet tput tgetD
  split
  · next hb => rw [tget_terase_self m (wf_parts.mp h).1]; simpa using hb.symm
  · simp

/-- Every other byte is as it was. -/
theorem memGet_memSet_other (m : Mem) {a x : Nat} (b : Byte) (h : x ≠ a) : memGet (memSet m a b) x = memGet m x := by
  unfold memGet memSet tput tgetD
  split
  · rw [tget_terase_other m h]
  · rw [tget_tset_other m b h]

/-- Runs of bytes: how many, the later ones, the first ones. -/
@[simp] theorem length_memRead (m : Mem) (a n : Nat) : (memRead m a n).length = n := by
  induction n generalizing a with
  | zero => rfl
  | succ n ih => simp [memRead, ih]

theorem drop_memRead (m : Mem) (a n i : Nat) : (memRead m a n).drop i = memRead m (a + i) (n - i) := by
  induction i generalizing a n with
  | zero => simp
  | succ i ih =>
    cases n with
    | zero => simp [memRead]
    | succ n => rw [memRead, List.drop_succ_cons, ih, show a + 1 + i = a + (i + 1) by omega, Nat.add_sub_add_right]

theorem take_memRead (m : Mem) (a n k : Nat) : (memRead m a n).take k = memRead m a (min k n) := by
  induction n generalizing a k with
  | zero => simp [memRead]
  | succ n ih =>
    cases k with
    | zero => simp [memRead]
    | succ k => rw [memRead, List.take_succ_cons, ih, Nat.add_min_add_right, memRead]

/-- A byte no write of the list names is as it was. -/
theorem memGet_memPut_other (l : List (Nat × Byte)) (m : Mem) {x : Nat} (h : ∀ c ∈ l, c.1 ≠ x) :
    memGet (memPut m l) x = memGet m x := by
  induction l generalizing m with
  | nil => rfl
  | cons e r ih =>
    obtain ⟨a, b⟩ := e
    simp only [memPut]
    rw [ih _ fun c hc => h c (List.mem_cons_of_mem _ hc), memGet_memSet_other m b (h (a, b) (by simp)).symm]

/-- A byte before a run that is written is as it was. -/
theorem memGet_memWrite_before (bs : List Byte) (m : Mem) {a x : Nat} (h : x < a) : memGet (memWrite m a bs) x = memGet m x := by
  induction bs generalizing m a with
  | nil => rfl
  | cons b r ih => rw [memWrite, ih _ (by omega), memGet_memSet_other m b (by omega)]

/-- A run that is written is the run that is read. -/
theorem memGet_memWrite (bs : List Byte) {m : Mem} (a : Nat) (hm : Memory.wf m = true) {i : Nat} (h : i < bs.length) :
    memGet (memWrite m a bs) (a + i) = bs.getD i 0 := by
  induction bs generalizing m a i with
  | nil => simp at h
  | cons b r ih =>
    cases i with
    | zero => simp [memWrite, memGet_memWrite_before, memGet_memSet_self a b hm]
    | succ i =>
      rw [memWrite, show a + (i + 1) = a + 1 + i by omega, ih (a + 1) (wf_memSet a b hm) (by simpa using h)]
      simp

end Sys2Proof.Machine
end

