-- ==== Sys2Proof/Laws/State.lean ====
section
/-! SUPPORT. One lemma per field for each named update of the state, and what reading back finds. -/

namespace Sys2Proof.Machine

/-! ### Frames -/

@[simp] theorem setFrame_turns (s : State) (k : Nat) (f : Frame) : (setFrame s k f).turns = s.turns := rfl
@[simp] theorem setFrame_cur (s : State) (k : Nat) (f : Frame) : (setFrame s k f).cur = s.cur := rfl
@[simp] theorem setFrame_freeCtr (s : State) (k : Nat) (f : Frame) : (setFrame s k f).freeCtr = s.freeCtr := rfl
@[simp] theorem setFrame_time (s : State) (k : Nat) (f : Frame) : (setFrame s k f).time = s.time := rfl
@[simp] theorem setFrame_mem (s : State) (k : Nat) (f : Frame) : (setFrame s k f).mem = s.mem := rfl
@[simp] theorem setFrame_poison (s : State) (k : Nat) (f : Frame) : (setFrame s k f).poison = s.poison := rfl
@[simp] theorem setFrame_discarded (s : State) (k : Nat) (f : Frame) : (setFrame s k f).discarded = s.discarded := rfl
@[simp] theorem setFrame_savedBad (s : State) (k : Nat) (f : Frame) : (setFrame s k f).savedBad = s.savedBad := rfl
@[simp] theorem setFrame_carried (s : State) (k : Nat) (f : Frame) : (setFrame s k f).carried = s.carried := rfl
@[simp] theorem setFrame_counted (s : State) (k : Nat) (f : Frame) : (setFrame s k f).counted = s.counted := rfl
@[simp] theorem setFrame_dies (s : State) (k : Nat) (f : Frame) : (setFrame s k f).dies = s.dies := rfl
@[simp] theorem setFrame_groups (s : State) (k : Nat) (f : Frame) : (setFrame s k f).groups = s.groups := rfl
@[simp] theorem setFrame_hub (s : State) (k : Nat) (f : Frame) : (setFrame s k f).hub = s.hub := rfl
@[simp] theorem setFrame_edge (s : State) (k : Nat) (f : Frame) : (setFrame s k f).edge = s.edge := rfl
@[simp] theorem setCur_turns (s : State) (f : Frame) : (setCur s f).turns = s.turns := rfl
@[simp] theorem setCur_cur (s : State) (f : Frame) : (setCur s f).cur = s.cur := rfl
@[simp] theorem setCur_freeCtr (s : State) (f : Frame) : (setCur s f).freeCtr = s.freeCtr := rfl
@[simp] theorem setCur_time (s : State) (f : Frame) : (setCur s f).time = s.time := rfl
@[simp] theorem setCur_mem (s : State) (f : Frame) : (setCur s f).mem = s.mem := rfl
@[simp] theorem setCur_poison (s : State) (f : Frame) : (setCur s f).poison = s.poison := rfl
@[simp] theorem setCur_discarded (s : State) (f : Frame) : (setCur s f).discarded = s.discarded := rfl
@[simp] theorem setCur_savedBad (s : State) (f : Frame) : (setCur s f).savedBad = s.savedBad := rfl
@[simp] theorem setCur_carried (s : State) (f : Frame) : (setCur s f).carried = s.carried := rfl
@[simp] theorem setCur_counted (s : State) (f : Frame) : (setCur s f).counted = s.counted := rfl
@[simp] theorem setCur_dies (s : State) (f : Frame) : (setCur s f).dies = s.dies := rfl
@[simp] theorem setCur_groups (s : State) (f : Frame) : (setCur s f).groups = s.groups := rfl
@[simp] theorem setCur_hub (s : State) (f : Frame) : (setCur s f).hub = s.hub := rfl
@[simp] theorem setCur_edge (s : State) (f : Frame) : (setCur s f).edge = s.edge := rfl
@[simp] theorem onGen_turns (s : State) (g : Gen → Gen) : (onGen s g).turns = s.turns := rfl
@[simp] theorem onGen_cur (s : State) (g : Gen → Gen) : (onGen s g).cur = s.cur := rfl
@[simp] theorem onGen_freeCtr (s : State) (g : Gen → Gen) : (onGen s g).freeCtr = s.freeCtr := rfl
@[simp] theorem onGen_time (s : State) (g : Gen → Gen) : (onGen s g).time = s.time := rfl
@[simp] theorem onGen_mem (s : State) (g : Gen → Gen) : (onGen s g).mem = s.mem := rfl
@[simp] theorem onGen_poison (s : State) (g : Gen → Gen) : (onGen s g).poison = s.poison := rfl
@[simp] theorem onGen_discarded (s : State) (g : Gen → Gen) : (onGen s g).discarded = s.discarded := rfl
@[simp] theorem onGen_savedBad (s : State) (g : Gen → Gen) : (onGen s g).savedBad = s.savedBad := rfl
@[simp] theorem onGen_carried (s : State) (g : Gen → Gen) : (onGen s g).carried = s.carried := rfl
@[simp] theorem onGen_counted (s : State) (g : Gen → Gen) : (onGen s g).counted = s.counted := rfl
@[simp] theorem onGen_dies (s : State) (g : Gen → Gen) : (onGen s g).dies = s.dies := rfl
@[simp] theorem onGen_groups (s : State) (g : Gen → Gen) : (onGen s g).groups = s.groups := rfl
@[simp] theorem onGen_hub (s : State) (g : Gen → Gen) : (onGen s g).hub = s.hub := rfl
@[simp] theorem onGen_edge (s : State) (g : Gen → Gen) : (onGen s g).edge = s.edge := rfl
@[simp] theorem onCur_turns (s : State) (g : Frame → Frame) : (onCur s g).turns = s.turns := rfl
@[simp] theorem onCur_cur (s : State) (g : Frame → Frame) : (onCur s g).cur = s.cur := rfl
@[simp] theorem onCur_freeCtr (s : State) (g : Frame → Frame) : (onCur s g).freeCtr = s.freeCtr := rfl
@[simp] theorem onCur_time (s : State) (g : Frame → Frame) : (onCur s g).time = s.time := rfl
@[simp] theorem onCur_mem (s : State) (g : Frame → Frame) : (onCur s g).mem = s.mem := rfl
@[simp] theorem onCur_poison (s : State) (g : Frame → Frame) : (onCur s g).poison = s.poison := rfl
@[simp] theorem onCur_discarded (s : State) (g : Frame → Frame) : (onCur s g).discarded = s.discarded := rfl
@[simp] theorem onCur_savedBad (s : State) (g : Frame → Frame) : (onCur s g).savedBad = s.savedBad := rfl
@[simp] theorem onCur_carried (s : State) (g : Frame → Frame) : (onCur s g).carried = s.carried := rfl
@[simp] theorem onCur_counted (s : State) (g : Frame → Frame) : (onCur s g).counted = s.counted := rfl
@[simp] theorem onCur_dies (s : State) (g : Frame → Frame) : (onCur s g).dies = s.dies := rfl
@[simp] theorem onCur_groups (s : State) (g : Frame → Frame) : (onCur s g).groups = s.groups := rfl
@[simp] theorem onCur_hub (s : State) (g : Frame → Frame) : (onCur s g).hub = s.hub := rfl
@[simp] theorem onCur_edge (s : State) (g : Frame → Frame) : (onCur s g).edge = s.edge := rfl
@[simp] theorem retireWith_turns (s : State) (rd : BitVec 5) (v : Word) : (retireWith s rd v).turns = s.turns := rfl
@[simp] theorem retireWith_cur (s : State) (rd : BitVec 5) (v : Word) : (retireWith s rd v).cur = s.cur := rfl
@[simp] theorem retireWith_freeCtr (s : State) (rd : BitVec 5) (v : Word) : (retireWith s rd v).freeCtr = s.freeCtr := rfl
@[simp] theorem retireWith_time (s : State) (rd : BitVec 5) (v : Word) : (retireWith s rd v).time = s.time := rfl
@[simp] theorem retireWith_mem (s : State) (rd : BitVec 5) (v : Word) : (retireWith s rd v).mem = s.mem := rfl
@[simp] theorem retireWith_poison (s : State) (rd : BitVec 5) (v : Word) : (retireWith s rd v).poison = s.poison := rfl
@[simp] theorem retireWith_discarded (s : State) (rd : BitVec 5) (v : Word) : (retireWith s rd v).discarded = s.discarded := rfl
@[simp] theorem retireWith_savedBad (s : State) (rd : BitVec 5) (v : Word) : (retireWith s rd v).savedBad = s.savedBad := rfl
@[simp] theorem retireWith_carried (s : State) (rd : BitVec 5) (v : Word) : (retireWith s rd v).carried = s.carried := rfl
@[simp] theorem retireWith_counted (s : State) (rd : BitVec 5) (v : Word) : (retireWith s rd v).counted = s.counted := rfl
@[simp] theorem retireWith_dies (s : State) (rd : BitVec 5) (v : Word) : (retireWith s rd v).dies = s.dies := rfl
@[simp] theorem retireWith_groups (s : State) (rd : BitVec 5) (v : Word) : (retireWith s rd v).groups = s.groups := rfl
@[simp] theorem retireWith_hub (s : State) (rd : BitVec 5) (v : Word) : (retireWith s rd v).hub = s.hub := rfl
@[simp] theorem retireWith_edge (s : State) (rd : BitVec 5) (v : Word) : (retireWith s rd v).edge = s.edge := rfl
@[simp] theorem retireNop_turns (s : State) : (retireNop s).turns = s.turns := rfl
@[simp] theorem retireNop_cur (s : State) : (retireNop s).cur = s.cur := rfl
@[simp] theorem retireNop_freeCtr (s : State) : (retireNop s).freeCtr = s.freeCtr := rfl
@[simp] theorem retireNop_time (s : State) : (retireNop s).time = s.time := rfl
@[simp] theorem retireNop_mem (s : State) : (retireNop s).mem = s.mem := rfl
@[simp] theorem retireNop_poison (s : State) : (retireNop s).poison = s.poison := rfl
@[simp] theorem retireNop_discarded (s : State) : (retireNop s).discarded = s.discarded := rfl
@[simp] theorem retireNop_savedBad (s : State) : (retireNop s).savedBad = s.savedBad := rfl
@[simp] theorem retireNop_carried (s : State) : (retireNop s).carried = s.carried := rfl
@[simp] theorem retireNop_counted (s : State) : (retireNop s).counted = s.counted := rfl
@[simp] theorem retireNop_dies (s : State) : (retireNop s).dies = s.dies := rfl
@[simp] theorem retireNop_groups (s : State) : (retireNop s).groups = s.groups := rfl
@[simp] theorem retireNop_hub (s : State) : (retireNop s).hub = s.hub := rfl
@[simp] theorem retireNop_edge (s : State) : (retireNop s).edge = s.edge := rfl

/-! ### Dies, groups, free values and storage -/

@[simp] theorem setDie_turns (s : State) (d : Nat) (v : Die) : (setDie s d v).turns = s.turns := rfl
@[simp] theorem setDie_cur (s : State) (d : Nat) (v : Die) : (setDie s d v).cur = s.cur := rfl
@[simp] theorem setDie_freeCtr (s : State) (d : Nat) (v : Die) : (setDie s d v).freeCtr = s.freeCtr := rfl
@[simp] theorem setDie_time (s : State) (d : Nat) (v : Die) : (setDie s d v).time = s.time := rfl
@[simp] theorem setDie_mem (s : State) (d : Nat) (v : Die) : (setDie s d v).mem = s.mem := rfl
@[simp] theorem setDie_poison (s : State) (d : Nat) (v : Die) : (setDie s d v).poison = s.poison := rfl
@[simp] theorem setDie_discarded (s : State) (d : Nat) (v : Die) : (setDie s d v).discarded = s.discarded := rfl
@[simp] theorem setDie_savedBad (s : State) (d : Nat) (v : Die) : (setDie s d v).savedBad = s.savedBad := rfl
@[simp] theorem setDie_carried (s : State) (d : Nat) (v : Die) : (setDie s d v).carried = s.carried := rfl
@[simp] theorem setDie_counted (s : State) (d : Nat) (v : Die) : (setDie s d v).counted = s.counted := rfl
@[simp] theorem setDie_frames (s : State) (d : Nat) (v : Die) : (setDie s d v).frames = s.frames := rfl
@[simp] theorem setDie_groups (s : State) (d : Nat) (v : Die) : (setDie s d v).groups = s.groups := rfl
@[simp] theorem setDie_hub (s : State) (d : Nat) (v : Die) : (setDie s d v).hub = s.hub := rfl
@[simp] theorem setDie_edge (s : State) (d : Nat) (v : Die) : (setDie s d v).edge = s.edge := rfl
@[simp] theorem setGroup_turns (s : State) (key : Nat) (g : Group) : (setGroup s key g).turns = s.turns := rfl
@[simp] theorem setGroup_cur (s : State) (key : Nat) (g : Group) : (setGroup s key g).cur = s.cur := rfl
@[simp] theorem setGroup_freeCtr (s : State) (key : Nat) (g : Group) : (setGroup s key g).freeCtr = s.freeCtr := rfl
@[simp] theorem setGroup_time (s : State) (key : Nat) (g : Group) : (setGroup s key g).time = s.time := rfl
@[simp] theorem setGroup_mem (s : State) (key : Nat) (g : Group) : (setGroup s key g).mem = s.mem := rfl
@[simp] theorem setGroup_poison (s : State) (key : Nat) (g : Group) : (setGroup s key g).poison = s.poison := rfl
@[simp] theorem setGroup_discarded (s : State) (key : Nat) (g : Group) : (setGroup s key g).discarded = s.discarded := rfl
@[simp] theorem setGroup_savedBad (s : State) (key : Nat) (g : Group) : (setGroup s key g).savedBad = s.savedBad := rfl
@[simp] theorem setGroup_carried (s : State) (key : Nat) (g : Group) : (setGroup s key g).carried = s.carried := rfl
@[simp] theorem setGroup_counted (s : State) (key : Nat) (g : Group) : (setGroup s key g).counted = s.counted := rfl
@[simp] theorem setGroup_frames (s : State) (key : Nat) (g : Group) : (setGroup s key g).frames = s.frames := rfl
@[simp] theorem setGroup_dies (s : State) (key : Nat) (g : Group) : (setGroup s key g).dies = s.dies := rfl
@[simp] theorem setGroup_hub (s : State) (key : Nat) (g : Group) : (setGroup s key g).hub = s.hub := rfl
@[simp] theorem setGroup_edge (s : State) (key : Nat) (g : Group) : (setGroup s key g).edge = s.edge := rfl
@[simp] theorem draw_turns (s : State) : ((draw s).2).turns = s.turns := rfl
@[simp] theorem draw_cur (s : State) : ((draw s).2).cur = s.cur := rfl
@[simp] theorem draw_time (s : State) : ((draw s).2).time = s.time := rfl
@[simp] theorem draw_mem (s : State) : ((draw s).2).mem = s.mem := rfl
@[simp] theorem draw_poison (s : State) : ((draw s).2).poison = s.poison := rfl
@[simp] theorem draw_discarded (s : State) : ((draw s).2).discarded = s.discarded := rfl
@[simp] theorem draw_savedBad (s : State) : ((draw s).2).savedBad = s.savedBad := rfl
@[simp] theorem draw_carried (s : State) : ((draw s).2).carried = s.carried := rfl
@[simp] theorem draw_counted (s : State) : ((draw s).2).counted = s.counted := rfl
@[simp] theorem draw_frames (s : State) : ((draw s).2).frames = s.frames := rfl
@[simp] theorem draw_dies (s : State) : ((draw s).2).dies = s.dies := rfl
@[simp] theorem draw_groups (s : State) : ((draw s).2).groups = s.groups := rfl
@[simp] theorem draw_hub (s : State) : ((draw s).2).hub = s.hub := rfl
@[simp] theorem draw_edge (s : State) : ((draw s).2).edge = s.edge := rfl
@[simp] theorem gwrite_turns (s : State) (who : Option Nat) (b : List (Nat × Byte)) : (gwrite s who b).turns = s.turns := rfl
@[simp] theorem gwrite_cur (s : State) (who : Option Nat) (b : List (Nat × Byte)) : (gwrite s who b).cur = s.cur := rfl
@[simp] theorem gwrite_freeCtr (s : State) (who : Option Nat) (b : List (Nat × Byte)) : (gwrite s who b).freeCtr = s.freeCtr := rfl
@[simp] theorem gwrite_time (s : State) (who : Option Nat) (b : List (Nat × Byte)) : (gwrite s who b).time = s.time := rfl
@[simp] theorem gwrite_savedBad (s : State) (who : Option Nat) (b : List (Nat × Byte)) : (gwrite s who b).savedBad = s.savedBad := rfl
@[simp] theorem gwrite_counted (s : State) (who : Option Nat) (b : List (Nat × Byte)) : (gwrite s who b).counted = s.counted := rfl
@[simp] theorem gwrite_dies (s : State) (who : Option Nat) (b : List (Nat × Byte)) : (gwrite s who b).dies = s.dies := rfl
@[simp] theorem gwrite_groups (s : State) (who : Option Nat) (b : List (Nat × Byte)) : (gwrite s who b).groups = s.groups := rfl
@[simp] theorem gwrite_hub (s : State) (who : Option Nat) (b : List (Nat × Byte)) : (gwrite s who b).hub = s.hub := rfl
@[simp] theorem gwrite_edge (s : State) (who : Option Nat) (b : List (Nat × Byte)) : (gwrite s who b).edge = s.edge := rfl

/-! ### The generator core -/

@[simp] theorem retire_npc (g : Gen) : (retire g).npc = g.npc := rfl
@[simp] theorem retire_x (g : Gen) : (retire g).x = g.x := rfl
@[simp] theorem retire_k (g : Gen) : (retire g).k = g.k := rfl
@[simp] theorem retire_emitSer (g : Gen) : (retire g).emitSer = g.emitSer := rfl
@[simp] theorem retire_qfull (g : Gen) : (retire g).qfull = g.qfull := rfl
@[simp] theorem retire_h (g : Gen) : (retire g).h = g.h := rfl
@[simp] theorem retire_l2 (g : Gen) : (retire g).l2 = g.l2 := rfl
@[simp] theorem retire_lastGen (g : Gen) : (retire g).lastGen = g.lastGen := rfl
@[simp] theorem retire_cycle (g : Gen) : (retire g).cycle = g.cycle := rfl
@[simp] theorem retire_resv (g : Gen) : (retire g).resv = g.resv := rfl
@[simp] theorem retire_kept (g : Gen) : (retire g).kept = g.kept := rfl
@[simp] theorem retire_imem (g : Gen) : (retire g).imem = g.imem := rfl
@[simp] theorem retire_ibad (g : Gen) : (retire g).ibad = g.ibad := rfl
@[simp] theorem retire_fences (g : Gen) : (retire g).fences = g.fences := rfl
@[simp] theorem retire_exiting (g : Gen) : (retire g).exiting = g.exiting := rfl
@[simp] theorem retire_halted (g : Gen) : (retire g).halted = g.halted := rfl
@[simp] theorem retire_pc (g : Gen) : (retire g).pc = g.npc := rfl
@[simp] theorem retire_instret (g : Gen) : (retire g).instret = g.instret + 1 := rfl
@[simp] theorem retire_stall (g : Gen) : (retire g).stall = Option.none := rfl
@[simp] theorem kput_pc (g : Gen) (k : BitVec 3) (v : Image) : (kput g k v).pc = g.pc := rfl
@[simp] theorem kput_npc (g : Gen) (k : BitVec 3) (v : Image) : (kput g k v).npc = g.npc := rfl
@[simp] theorem kput_x (g : Gen) (k : BitVec 3) (v : Image) : (kput g k v).x = g.x := rfl
@[simp] theorem kput_emitSer (g : Gen) (k : BitVec 3) (v : Image) : (kput g k v).emitSer = g.emitSer := rfl
@[simp] theorem kput_qfull (g : Gen) (k : BitVec 3) (v : Image) : (kput g k v).qfull = g.qfull := rfl
@[simp] theorem kput_h (g : Gen) (k : BitVec 3) (v : Image) : (kput g k v).h = g.h := rfl
@[simp] theorem kput_l2 (g : Gen) (k : BitVec 3) (v : Image) : (kput g k v).l2 = g.l2 := rfl
@[simp] theorem kput_lastGen (g : Gen) (k : BitVec 3) (v : Image) : (kput g k v).lastGen = g.lastGen := rfl
@[simp] theorem kput_cycle (g : Gen) (k : BitVec 3) (v : Image) : (kput g k v).cycle = g.cycle := rfl
@[simp] theorem kput_instret (g : Gen) (k : BitVec 3) (v : Image) : (kput g k v).instret = g.instret := rfl
@[simp] theorem kput_resv (g : Gen) (k : BitVec 3) (v : Image) : (kput g k v).resv = g.resv := rfl
@[simp] theorem kput_stall (g : Gen) (k : BitVec 3) (v : Image) : (kput g k v).stall = g.stall := rfl
@[simp] theorem kput_kept (g : Gen) (k : BitVec 3) (v : Image) : (kput g k v).kept = g.kept := rfl
@[simp] theorem kput_imem (g : Gen) (k : BitVec 3) (v : Image) : (kput g k v).imem = g.imem := rfl
@[simp] theorem kput_ibad (g : Gen) (k : BitVec 3) (v : Image) : (kput g k v).ibad = g.ibad := rfl
@[simp] theorem kput_fences (g : Gen) (k : BitVec 3) (v : Image) : (kput g k v).fences = g.fences := rfl
@[simp] theorem kput_exiting (g : Gen) (k : BitVec 3) (v : Image) : (kput g k v).exiting = g.exiting := rfl
@[simp] theorem kput_halted (g : Gen) (k : BitVec 3) (v : Image) : (kput g k v).halted = g.halted := rfl
@[simp] theorem enterHandler_npc (g : Gen) (c v : Word) : (enterHandler g c v).npc = g.npc := rfl
@[simp] theorem enterHandler_x (g : Gen) (c v : Word) : (enterHandler g c v).x = g.x := rfl
@[simp] theorem enterHandler_k (g : Gen) (c v : Word) : (enterHandler g c v).k = g.k := rfl
@[simp] theorem enterHandler_emitSer (g : Gen) (c v : Word) : (enterHandler g c v).emitSer = g.emitSer := rfl
@[simp] theorem enterHandler_qfull (g : Gen) (c v : Word) : (enterHandler g c v).qfull = g.qfull := rfl
@[simp] theorem enterHandler_l2 (g : Gen) (c v : Word) : (enterHandler g c v).l2 = g.l2 := rfl
@[simp] theorem enterHandler_lastGen (g : Gen) (c v : Word) : (enterHandler g c v).lastGen = g.lastGen := rfl
@[simp] theorem enterHandler_cycle (g : Gen) (c v : Word) : (enterHandler g c v).cycle = g.cycle := rfl
@[simp] theorem enterHandler_instret (g : Gen) (c v : Word) : (enterHandler g c v).instret = g.instret := rfl
@[simp] theorem enterHandler_kept (g : Gen) (c v : Word) : (enterHandler g c v).kept = g.kept := rfl
@[simp] theorem enterHandler_imem (g : Gen) (c v : Word) : (enterHandler g c v).imem = g.imem := rfl
@[simp] theorem enterHandler_ibad (g : Gen) (c v : Word) : (enterHandler g c v).ibad = g.ibad := rfl
@[simp] theorem enterHandler_fences (g : Gen) (c v : Word) : (enterHandler g c v).fences = g.fences := rfl
@[simp] theorem enterHandler_exiting (g : Gen) (c v : Word) : (enterHandler g c v).exiting = g.exiting := rfl
@[simp] theorem enterHandler_halted (g : Gen) (c v : Word) : (enterHandler g c v).halted = g.halted := rfl
@[simp] theorem leaveHandler_npc (g : Gen) : (leaveHandler g).npc = g.npc := rfl
@[simp] theorem leaveHandler_x (g : Gen) : (leaveHandler g).x = g.x := rfl
@[simp] theorem leaveHandler_k (g : Gen) : (leaveHandler g).k = g.k := rfl
@[simp] theorem leaveHandler_emitSer (g : Gen) : (leaveHandler g).emitSer = g.emitSer := rfl
@[simp] theorem leaveHandler_qfull (g : Gen) : (leaveHandler g).qfull = g.qfull := rfl
@[simp] theorem leaveHandler_l2 (g : Gen) : (leaveHandler g).l2 = g.l2 := rfl
@[simp] theorem leaveHandler_lastGen (g : Gen) : (leaveHandler g).lastGen = g.lastGen := rfl
@[simp] theorem leaveHandler_cycle (g : Gen) : (leaveHandler g).cycle = g.cycle := rfl
@[simp] theorem leaveHandler_resv (g : Gen) : (leaveHandler g).resv = g.resv := rfl
@[simp] theorem leaveHandler_imem (g : Gen) : (leaveHandler g).imem = g.imem := rfl
@[simp] theorem leaveHandler_ibad (g : Gen) : (leaveHandler g).ibad = g.ibad := rfl
@[simp] theorem leaveHandler_fences (g : Gen) : (leaveHandler g).fences = g.fences := rfl
@[simp] theorem leaveHandler_exiting (g : Gen) : (leaveHandler g).exiting = g.exiting := rfl
@[simp] theorem leaveHandler_halted (g : Gen) : (leaveHandler g).halted = g.halted := rfl
@[simp] theorem wx_pc (g : Gen) (r : BitVec 5) (v : Word) : (wx g r v).pc = g.pc := by unfold wx; split <;> rfl
@[simp] theorem wx_npc (g : Gen) (r : BitVec 5) (v : Word) : (wx g r v).npc = g.npc := by unfold wx; split <;> rfl
@[simp] theorem wx_k (g : Gen) (r : BitVec 5) (v : Word) : (wx g r v).k = g.k := by unfold wx; split <;> rfl
@[simp] theorem wx_emitSer (g : Gen) (r : BitVec 5) (v : Word) : (wx g r v).emitSer = g.emitSer := by unfold wx; split <;> rfl
@[simp] theorem wx_qfull (g : Gen) (r : BitVec 5) (v : Word) : (wx g r v).qfull = g.qfull := by unfold wx; split <;> rfl
@[simp] theorem wx_h (g : Gen) (r : BitVec 5) (v : Word) : (wx g r v).h = g.h := by unfold wx; split <;> rfl
@[simp] theorem wx_l2 (g : Gen) (r : BitVec 5) (v : Word) : (wx g r v).l2 = g.l2 := by unfold wx; split <;> rfl
@[simp] theorem wx_lastGen (g : Gen) (r : BitVec 5) (v : Word) : (wx g r v).lastGen = g.lastGen := by unfold wx; split <;> rfl
@[simp] theorem wx_cycle (g : Gen) (r : BitVec 5) (v : Word) : (wx g r v).cycle = g.cycle := by unfold wx; split <;> rfl
@[simp] theorem wx_instret (g : Gen) (r : BitVec 5) (v : Word) : (wx g r v).instret = g.instret := by unfold wx; split <;> rfl
@[simp] theorem wx_resv (g : Gen) (r : BitVec 5) (v : Word) : (wx g r v).resv = g.resv := by unfold wx; split <;> rfl
@[simp] theorem wx_stall (g : Gen) (r : BitVec 5) (v : Word) : (wx g r v).stall = g.stall := by unfold wx; split <;> rfl
@[simp] theorem wx_kept (g : Gen) (r : BitVec 5) (v : Word) : (wx g r v).kept = g.kept := by unfold wx; split <;> rfl
@[simp] theorem wx_imem (g : Gen) (r : BitVec 5) (v : Word) : (wx g r v).imem = g.imem := by unfold wx; split <;> rfl
@[simp] theorem wx_ibad (g : Gen) (r : BitVec 5) (v : Word) : (wx g r v).ibad = g.ibad := by unfold wx; split <;> rfl
@[simp] theorem wx_fences (g : Gen) (r : BitVec 5) (v : Word) : (wx g r v).fences = g.fences := by unfold wx; split <;> rfl
@[simp] theorem wx_exiting (g : Gen) (r : BitVec 5) (v : Word) : (wx g r v).exiting = g.exiting := by unfold wx; split <;> rfl
@[simp] theorem wx_halted (g : Gen) (r : BitVec 5) (v : Word) : (wx g r v).halted = g.halted := by unfold wx; split <;> rfl

/-! ### Frames of the engines and the sequencer -/

@[simp] theorem popHead_gen (f : Frame) (sl : SlotName) : (popHead f sl).gen = f.gen := rfl
@[simp] theorem popHead_clk (f : Frame) (sl : SlotName) : (popHead f sl).clk = f.clk := rfl
@[simp] theorem popHead_ph (f : Frame) (sl : SlotName) : (popHead f sl).ph = f.ph := rfl
@[simp] theorem popHead_vec (f : Frame) (sl : SlotName) : (popHead f sl).vec = f.vec := rfl
@[simp] theorem popHead_sram (f : Frame) (sl : SlotName) : (popHead f sl).sram = f.sram := rfl
@[simp] theorem popHead_bead (f : Frame) (sl : SlotName) : (popHead f sl).bead = f.bead := rfl
@[simp] theorem popHead_cpe (f : Frame) (sl : SlotName) : (popHead f sl).cpe = f.cpe := rfl
@[simp] theorem popHead_disp (f : Frame) (sl : SlotName) : (popHead f sl).disp = f.disp := rfl
@[simp] theorem popHead_rc (f : Frame) (sl : SlotName) : (popHead f sl).rc = f.rc := rfl
@[simp] theorem popHead_seen (f : Frame) (sl : SlotName) : (popHead f sl).seen = f.seen := rfl
@[simp] theorem popHead_seenBad (f : Frame) (sl : SlotName) : (popHead f sl).seenBad = f.seenBad := rfl
@[simp] theorem popHead_reread (f : Frame) (sl : SlotName) : (popHead f sl).reread = f.reread := rfl
@[simp] theorem popHead_rem (f : Frame) (sl : SlotName) : (popHead f sl).rem = f.rem := rfl
@[simp] theorem popHead_recGot (f : Frame) (sl : SlotName) : (popHead f sl).recGot = f.recGot := rfl
@[simp] theorem popHead_codeHad (f : Frame) (sl : SlotName) : (popHead f sl).codeHad = f.codeHad := rfl
@[simp] theorem popHead_codeNew (f : Frame) (sl : SlotName) : (popHead f sl).codeNew = f.codeNew := rfl
@[simp] theorem popHead_late (f : Frame) (sl : SlotName) : (popHead f sl).late = f.late := rfl
@[simp] theorem holdHead_gen (f : Frame) (sl : SlotName) (h : Hold) : (holdHead f sl h).gen = f.gen := rfl
@[simp] theorem holdHead_clk (f : Frame) (sl : SlotName) (h : Hold) : (holdHead f sl h).clk = f.clk := rfl
@[simp] theorem holdHead_ph (f : Frame) (sl : SlotName) (h : Hold) : (holdHead f sl h).ph = f.ph := rfl
@[simp] theorem holdHead_vec (f : Frame) (sl : SlotName) (h : Hold) : (holdHead f sl h).vec = f.vec := rfl
@[simp] theorem holdHead_sram (f : Frame) (sl : SlotName) (h : Hold) : (holdHead f sl h).sram = f.sram := rfl
@[simp] theorem holdHead_bead (f : Frame) (sl : SlotName) (h : Hold) : (holdHead f sl h).bead = f.bead := rfl
@[simp] theorem holdHead_cpe (f : Frame) (sl : SlotName) (h : Hold) : (holdHead f sl h).cpe = f.cpe := rfl
@[simp] theorem holdHead_disp (f : Frame) (sl : SlotName) (h : Hold) : (holdHead f sl h).disp = f.disp := rfl
@[simp] theorem holdHead_rc (f : Frame) (sl : SlotName) (h : Hold) : (holdHead f sl h).rc = f.rc := rfl
@[simp] theorem holdHead_seen (f : Frame) (sl : SlotName) (h : Hold) : (holdHead f sl h).seen = f.seen := rfl
@[simp] theorem holdHead_seenBad (f : Frame) (sl : SlotName) (h : Hold) : (holdHead f sl h).seenBad = f.seenBad := rfl
@[simp] theorem holdHead_reread (f : Frame) (sl : SlotName) (h : Hold) : (holdHead f sl h).reread = f.reread := rfl
@[simp] theorem holdHead_rem (f : Frame) (sl : SlotName) (h : Hold) : (holdHead f sl h).rem = f.rem := rfl
@[simp] theorem holdHead_recGot (f : Frame) (sl : SlotName) (h : Hold) : (holdHead f sl h).recGot = f.recGot := rfl
@[simp] theorem holdHead_codeHad (f : Frame) (sl : SlotName) (h : Hold) : (holdHead f sl h).codeHad = f.codeHad := rfl
@[simp] theorem holdHead_codeNew (f : Frame) (sl : SlotName) (h : Hold) : (holdHead f sl h).codeNew = f.codeNew := rfl
@[simp] theorem holdHead_late (f : Frame) (sl : SlotName) (h : Hold) : (holdHead f sl h).late = f.late := rfl
@[simp] theorem startPhase_gen (f : Frame) : (startPhase f).gen = f.gen := rfl
@[simp] theorem startPhase_clk (f : Frame) : (startPhase f).clk = f.clk := rfl
@[simp] theorem startPhase_seq (f : Frame) : (startPhase f).seq = f.seq := rfl
@[simp] theorem startPhase_vec (f : Frame) : (startPhase f).vec = f.vec := rfl
@[simp] theorem startPhase_sram (f : Frame) : (startPhase f).sram = f.sram := rfl
@[simp] theorem startPhase_cpe (f : Frame) : (startPhase f).cpe = f.cpe := rfl
@[simp] theorem startPhase_disp (f : Frame) : (startPhase f).disp = f.disp := rfl
@[simp] theorem startPhase_rc (f : Frame) : (startPhase f).rc = f.rc := rfl
@[simp] theorem startPhase_seen (f : Frame) : (startPhase f).seen = f.seen := rfl
@[simp] theorem startPhase_seenBad (f : Frame) : (startPhase f).seenBad = f.seenBad := rfl
@[simp] theorem startPhase_reread (f : Frame) : (startPhase f).reread = f.reread := rfl
@[simp] theorem startPhase_rem (f : Frame) : (startPhase f).rem = f.rem := rfl
@[simp] theorem startPhase_recGot (f : Frame) : (startPhase f).recGot = f.recGot := rfl
@[simp] theorem startPhase_codeHad (f : Frame) : (startPhase f).codeHad = f.codeHad := rfl
@[simp] theorem startPhase_codeNew (f : Frame) : (startPhase f).codeNew = f.codeNew := rfl
@[simp] theorem startPhase_late (f : Frame) : (startPhase f).late = f.late := rfl
@[simp] theorem setArr_gen (f : Frame) (b : Nat) (a : BArr) : (setArr f b a).gen = f.gen := rfl
@[simp] theorem setArr_clk (f : Frame) (b : Nat) (a : BArr) : (setArr f b a).clk = f.clk := rfl
@[simp] theorem setArr_seq (f : Frame) (b : Nat) (a : BArr) : (setArr f b a).seq = f.seq := rfl
@[simp] theorem setArr_ph (f : Frame) (b : Nat) (a : BArr) : (setArr f b a).ph = f.ph := rfl
@[simp] theorem setArr_vec (f : Frame) (b : Nat) (a : BArr) : (setArr f b a).vec = f.vec := rfl
@[simp] theorem setArr_sram (f : Frame) (b : Nat) (a : BArr) : (setArr f b a).sram = f.sram := rfl
@[simp] theorem setArr_cpe (f : Frame) (b : Nat) (a : BArr) : (setArr f b a).cpe = f.cpe := rfl
@[simp] theorem setArr_disp (f : Frame) (b : Nat) (a : BArr) : (setArr f b a).disp = f.disp := rfl
@[simp] theorem setArr_rc (f : Frame) (b : Nat) (a : BArr) : (setArr f b a).rc = f.rc := rfl
@[simp] theorem setArr_seen (f : Frame) (b : Nat) (a : BArr) : (setArr f b a).seen = f.seen := rfl
@[simp] theorem setArr_seenBad (f : Frame) (b : Nat) (a : BArr) : (setArr f b a).seenBad = f.seenBad := rfl
@[simp] theorem setArr_reread (f : Frame) (b : Nat) (a : BArr) : (setArr f b a).reread = f.reread := rfl
@[simp] theorem setArr_rem (f : Frame) (b : Nat) (a : BArr) : (setArr f b a).rem = f.rem := rfl
@[simp] theorem setArr_recGot (f : Frame) (b : Nat) (a : BArr) : (setArr f b a).recGot = f.recGot := rfl
@[simp] theorem setArr_codeHad (f : Frame) (b : Nat) (a : BArr) : (setArr f b a).codeHad = f.codeHad := rfl
@[simp] theorem setArr_codeNew (f : Frame) (b : Nat) (a : BArr) : (setArr f b a).codeNew = f.codeNew := rfl
@[simp] theorem setArr_late (f : Frame) (b : Nat) (a : BArr) : (setArr f b a).late = f.late := rfl
@[simp] theorem startReplay_gen (f : Frame) : (startReplay f).gen = f.gen := rfl
@[simp] theorem startReplay_clk (f : Frame) : (startReplay f).clk = f.clk := rfl
@[simp] theorem startReplay_vec (f : Frame) : (startReplay f).vec = f.vec := rfl
@[simp] theorem startReplay_sram (f : Frame) : (startReplay f).sram = f.sram := rfl
@[simp] theorem startReplay_bead (f : Frame) : (startReplay f).bead = f.bead := rfl
@[simp] theorem startReplay_cpe (f : Frame) : (startReplay f).cpe = f.cpe := rfl
@[simp] theorem startReplay_disp (f : Frame) : (startReplay f).disp = f.disp := rfl
@[simp] theorem startReplay_rc (f : Frame) : (startReplay f).rc = f.rc := rfl
@[simp] theorem startReplay_seen (f : Frame) : (startReplay f).seen = f.seen := rfl
@[simp] theorem startReplay_seenBad (f : Frame) : (startReplay f).seenBad = f.seenBad := rfl
@[simp] theorem startReplay_reread (f : Frame) : (startReplay f).reread = f.reread := rfl
@[simp] theorem startReplay_rem (f : Frame) : (startReplay f).rem = f.rem := rfl
@[simp] theorem startReplay_recGot (f : Frame) : (startReplay f).recGot = f.recGot := rfl
@[simp] theorem startReplay_codeHad (f : Frame) : (startReplay f).codeHad = f.codeHad := rfl
@[simp] theorem startReplay_codeNew (f : Frame) : (startReplay f).codeNew = f.codeNew := rfl
@[simp] theorem startReplay_late (f : Frame) : (startReplay f).late = f.late := rfl
@[simp] theorem abandonPhase_clk (f : Frame) : (abandonPhase f).clk = f.clk := rfl
@[simp] theorem abandonPhase_vec (f : Frame) : (abandonPhase f).vec = f.vec := rfl
@[simp] theorem abandonPhase_sram (f : Frame) : (abandonPhase f).sram = f.sram := rfl
@[simp] theorem abandonPhase_cpe (f : Frame) : (abandonPhase f).cpe = f.cpe := rfl
@[simp] theorem abandonPhase_disp (f : Frame) : (abandonPhase f).disp = f.disp := rfl
@[simp] theorem abandonPhase_rc (f : Frame) : (abandonPhase f).rc = f.rc := rfl
@[simp] theorem abandonPhase_seen (f : Frame) : (abandonPhase f).seen = f.seen := rfl
@[simp] theorem abandonPhase_seenBad (f : Frame) : (abandonPhase f).seenBad = f.seenBad := rfl
@[simp] theorem abandonPhase_reread (f : Frame) : (abandonPhase f).reread = f.reread := rfl
@[simp] theorem abandonPhase_rem (f : Frame) : (abandonPhase f).rem = f.rem := rfl
@[simp] theorem abandonPhase_recGot (f : Frame) : (abandonPhase f).recGot = f.recGot := rfl
@[simp] theorem abandonPhase_codeHad (f : Frame) : (abandonPhase f).codeHad = f.codeHad := rfl
@[simp] theorem abandonPhase_codeNew (f : Frame) : (abandonPhase f).codeNew = f.codeNew := rfl
@[simp] theorem abandonPhase_late (f : Frame) : (abandonPhase f).late = f.late := rfl
@[simp] theorem emptyBacks_gen (f : Frame) : (emptyBacks f).gen = f.gen := rfl
@[simp] theorem emptyBacks_clk (f : Frame) : (emptyBacks f).clk = f.clk := rfl
@[simp] theorem emptyBacks_seq (f : Frame) : (emptyBacks f).seq = f.seq := rfl
@[simp] theorem emptyBacks_ph (f : Frame) : (emptyBacks f).ph = f.ph := rfl
@[simp] theorem emptyBacks_vec (f : Frame) : (emptyBacks f).vec = f.vec := rfl
@[simp] theorem emptyBacks_bead (f : Frame) : (emptyBacks f).bead = f.bead := rfl
@[simp] theorem emptyBacks_cpe (f : Frame) : (emptyBacks f).cpe = f.cpe := rfl
@[simp] theorem emptyBacks_disp (f : Frame) : (emptyBacks f).disp = f.disp := rfl
@[simp] theorem emptyBacks_rc (f : Frame) : (emptyBacks f).rc = f.rc := rfl
@[simp] theorem emptyBacks_seen (f : Frame) : (emptyBacks f).seen = f.seen := rfl
@[simp] theorem emptyBacks_seenBad (f : Frame) : (emptyBacks f).seenBad = f.seenBad := rfl
@[simp] theorem emptyBacks_reread (f : Frame) : (emptyBacks f).reread = f.reread := rfl
@[simp] theorem emptyBacks_rem (f : Frame) : (emptyBacks f).rem = f.rem := rfl
@[simp] theorem emptyBacks_recGot (f : Frame) : (emptyBacks f).recGot = f.recGot := rfl
@[simp] theorem emptyBacks_codeHad (f : Frame) : (emptyBacks f).codeHad = f.codeHad := rfl
@[simp] theorem emptyBacks_codeNew (f : Frame) : (emptyBacks f).codeNew = f.codeNew := rfl
@[simp] theorem emptyBacks_late (f : Frame) : (emptyBacks f).late = f.late := rfl
@[simp] theorem appendEntry_clk (f : Frame) (img : Image) : (appendEntry f img).clk = f.clk := rfl
@[simp] theorem appendEntry_ph (f : Frame) (img : Image) : (appendEntry f img).ph = f.ph := rfl
@[simp] theorem appendEntry_vec (f : Frame) (img : Image) : (appendEntry f img).vec = f.vec := rfl
@[simp] theorem appendEntry_sram (f : Frame) (img : Image) : (appendEntry f img).sram = f.sram := rfl
@[simp] theorem appendEntry_bead (f : Frame) (img : Image) : (appendEntry f img).bead = f.bead := rfl
@[simp] theorem appendEntry_cpe (f : Frame) (img : Image) : (appendEntry f img).cpe = f.cpe := rfl
@[simp] theorem appendEntry_disp (f : Frame) (img : Image) : (appendEntry f img).disp = f.disp := rfl
@[simp] theorem appendEntry_rc (f : Frame) (img : Image) : (appendEntry f img).rc = f.rc := rfl
@[simp] theorem appendEntry_seen (f : Frame) (img : Image) : (appendEntry f img).seen = f.seen := rfl
@[simp] theorem appendEntry_seenBad (f : Frame) (img : Image) : (appendEntry f img).seenBad = f.seenBad := rfl
@[simp] theorem appendEntry_reread (f : Frame) (img : Image) : (appendEntry f img).reread = f.reread := rfl
@[simp] theorem appendEntry_rem (f : Frame) (img : Image) : (appendEntry f img).rem = f.rem := rfl
@[simp] theorem appendEntry_recGot (f : Frame) (img : Image) : (appendEntry f img).recGot = f.recGot := rfl
@[simp] theorem appendEntry_codeHad (f : Frame) (img : Image) : (appendEntry f img).codeHad = f.codeHad := rfl
@[simp] theorem appendEntry_codeNew (f : Frame) (img : Image) : (appendEntry f img).codeNew = f.codeNew := rfl
@[simp] theorem appendEntry_late (f : Frame) (img : Image) : (appendEntry f img).late = f.late := rfl

/-! ### Reading back -/

@[simp] theorem tset_tset {β : Type} (t : Tbl β) (k : Nat) (a b : β) : tset (tset t k a) k b = tset t k b := by
  induction t with
  | nil => simp [tset]
  | cons e r ih =>
    obtain ⟨i, w⟩ := e
    simp only [tset]
    split
    · simp [tset]
    · split
      · simp [tset]
      · simp [tset, *]

theorem tgetD_tset {β : Type} (t : Tbl β) (k j : Nat) (v d : β) :
    tgetD (tset t k v) j d = if j = k then v else tgetD t j d := by
  unfold tgetD; rw [tget_tset]; split <;> rfl

@[simp] theorem tgetD_tset_self {β : Type} (t : Tbl β) (k : Nat) (v d : β) : tgetD (tset t k v) k d = v := by
  simp [tgetD_tset]

/-- What a listed or dropped value reads as. -/
theorem tgetD_tput {β : Type} [DecidableEq β] (d : β) (t : Tbl β) (k j : Nat) (v : β) (h : tblFrom 0 t = true) :
    tgetD (tput d t k v) j d = if j = k then v else tgetD t j d := by
  unfold tput
  split
  · next hv =>
    subst hv
    unfold tgetD
    split
    · next hj => subst hj; rw [tget_terase_self t h]; rfl
    · next hj => rw [tget_terase_other t hj]
  · exact tgetD_tset t k j v d

theorem tgetD_tput_other {β : Type} [DecidableEq β] (d : β) (t : Tbl β) {k j : Nat} (v : β) (h : j ≠ k) :
    tgetD (tput d t k v) j d = tgetD t j d := by
  unfold tput tgetD
  split
  · rw [tget_terase_other t h]
  · rw [tget_tset_other t v h]

@[simp] theorem frameOf_setFrame_self (s : State) (k : Nat) (f : Frame) : frameOf (setFrame s k f) k = f := by
  simp [frameOf, setFrame]

theorem frameOf_setFrame_other (s : State) {k j : Nat} (f : Frame) (h : j ≠ k) :
    frameOf (setFrame s k f) j = frameOf s j := by
  simp [frameOf, setFrame, tgetD_tset, h]

@[simp] theorem curFrame_setCur (s : State) (f : Frame) : curFrame (setCur s f) = f := by
  simp [curFrame, setCur]

@[simp] theorem setCur_setCur (s : State) (f g : Frame) : setCur (setCur s f) g = setCur s g := by
  simp [setCur, setFrame]

@[simp] theorem curFrame_onCur (s : State) (g : Frame → Frame) : curFrame (onCur s g) = g (curFrame s) := by
  simp [onCur]

@[simp] theorem curFrame_onGen (s : State) (g : Gen → Gen) :
    curFrame (onGen s g) = { curFrame s with gen := g (curFrame s).gen } := by simp [onGen]

@[simp] theorem onGen_onGen (s : State) (g h : Gen → Gen) : onGen (onGen s g) h = onGen s fun x => h (g x) := by
  simp [onGen]

@[simp] theorem onGen_setCur (s : State) (f : Frame) (g : Gen → Gen) :
    onGen (setCur s f) g = setCur s { f with gen := g f.gen } := by simp [onGen]

@[simp] theorem onCur_setCur (s : State) (f : Frame) (g : Frame → Frame) : onCur (setCur s f) g = setCur s (g f) := by
  simp [onCur]

@[simp] theorem dieOf_setDie_self (s : State) (d : Nat) (v : Die) : dieOf (setDie s d v) d = v := by
  simp [dieOf, setDie]

theorem dieOf_setDie_other (s : State) {d e : Nat} (v : Die) (h : e ≠ d) : dieOf (setDie s d v) e = dieOf s e := by
  simp [dieOf, setDie, tgetD_tset, h]

@[simp] theorem dieOf_setFrame (s : State) (k d : Nat) (f : Frame) : dieOf (setFrame s k f) d = dieOf s d := rfl
@[simp] theorem dieOf_setCur (s : State) (d : Nat) (f : Frame) : dieOf (setCur s f) d = dieOf s d := rfl
@[simp] theorem frameOf_setDie (s : State) (d k : Nat) (v : Die) : frameOf (setDie s d v) k = frameOf s k := rfl
@[simp] theorem curFrame_setDie (s : State) (d : Nat) (v : Die) : curFrame (setDie s d v) = curFrame s := rfl

/-! ### Registers -/

@[simp] theorem rx_zero (g : Gen) : rx g 0 = 0 := rfl

/-- A read after a write: rd holds the value, every other register what it held, x0 zero. -/
theorem rx_wx (g : Gen) (rd r : BitVec 5) (v : Word) (h : tblFrom 0 g.x = true) :
    rx (wx g rd v) r = if r = rd ∧ rd ≠ 0 then v else rx g r := by
  unfold wx rx
  by_cases hd : rd = 0
  · simp [hd]
  · by_cases hr : r = 0
    · have h0 : ¬ (0#5 = rd) := fun e => hd e.symm
      simp [hr, h0]
    · have hd' : ¬ (rd = 0#5) := hd
      simp only [hd, hr, if_false, tgetD_tput 0 g.x _ _ _ h]
      by_cases e : r = rd
      · simp [e, hd']
      · have : r.toNat ≠ rd.toNat := fun q => e (BitVec.eq_of_toNat_eq q)
        simp [e, this]

theorem rx_wx_other (g : Gen) {rd r : BitVec 5} (v : Word) (h : r ≠ rd) : rx (wx g rd v) r = rx g r := by
  unfold wx rx
  have : r.toNat ≠ rd.toNat := fun q => h (BitVec.eq_of_toNat_eq q)
  split
  · rfl
  · split
    · rfl
    · exact tgetD_tput_other 0 g.x v this

end Sys2Proof.Machine
end

