-- ==== Sys2Proof/Safety.lean ====
section
/-! DEFINITION. What a safe run is, and the words the claims are stated in: runs, the agenda, storage after
writes, an engine that is ready, and the parts of the state a step leaves alone. -/

namespace Sys2Proof.Machine

/-! ### Runs -/

/-- One step leads from `s` to `t`. -/
def StepsTo (s t : State) : Prop := step s = .next t

/-- Some number of steps leads from one state to another. -/
inductive Reaches : State → State → Prop
  | here (s : State) : Reaches s s
  | more {s t u : State} (a : Reaches s t) (b : StepsTo t u) : Reaches s u

/-- What an entry of the agenda names exists: frames, dies, rows, granules and ports of this package, and an event's
operands are ones it admits. -/
def TurnOk (s : State) : Turn → Prop
  | .auto fr | .gen fr | .slot fr _ | .l1Evict fr _ | .rcEvict fr _ => fr < 192
  | .event fr i => fr < 192 ∧ eventOk i = true
  | .rcEvictDie d _ | .temperature d _ => d < 4
  | .rowError fr row => fr < 192 ∧ row < 1024
  | .granError fr gran => fr < 192 ∧ gran < 4 * (frameOf s fr).sram.split * 4096
  | .cellError fr array _ cell bit => fr < 192 ∧ array < 64 ∧ cell < 16384 ∧ bit < 8
  | .copyPart fr _ _ => fr < 192
  | .port p _ => p < 64 ∧ s.hub.variant ≠ 2 ∧ (s.hub.variant = 3 → p < 32)
  | .draws .. | .load .. | .hostUp | .hubImage _ | .iommu _ => True

/-- A run from `s` is safe: no state it reaches stops, as long as the agenda names what exists. -/
def SafeRun (s : State) : Prop :=
  ∀ t, Reaches s t → TurnOk t (nextTurn t).1 → ∃ u, StepsTo t u

/-! ### Storage -/

/-- The byte that a list of writes leaves at an address: that of the last entry naming it; none when no entry
does. -/
def written : List (Nat × Byte) → Nat → Option Byte
  | [], _ => none
  | (a, b) :: r, x => (written r x).orElse fun _ => if a = x then some b else none

/-- Storage stands as before but for these writes: every address they do not name reads as it did. -/
def Stored (s t : State) (bytes : List (Nat × Byte)) : Prop :=
  ∀ a, memSeen t a = (written bytes a).getD (memSeen s a)

/-- No byte of storage reads otherwise than before. -/
def StorageKept (s t : State) : Prop := ∀ a, memSeen t a = memSeen s a

/-! ### Frames -/

/-- Every frame but the one that moves is as before, reservations (R181) and the note of another package's bytes that fetches may
not return yet (R110) apart. -/
def OthersKept (s t : State) : Prop :=
  ∀ k, k ≠ s.cur → { frameOf t k with gen := { (frameOf t k).gen with resv := none }, codeNew := [] } =
    { frameOf s k with gen := { (frameOf s k).gen with resv := none }, codeNew := [] }

/-- The frame without the copies that it has of storage's bytes at these addresses: what its fetches and acquires found, its L1
lines, and what its stores wrote over (R374, R376). -/
def Forgotten (gone : Nat → Prop) (f g : Frame) : Prop :=
  g = { f with gen := { f.gen with imem := g.gen.imem, ibad := g.gen.ibad }, seen := g.seen, seenBad := g.seenBad,
               sram := { f.sram with l1 := g.sram.l1 }, late := g.late } ∧
  (∀ c, (c ∈ g.gen.imem ↔ c ∈ f.gen.imem ∧ ¬ gone c.1) ∧ (c ∈ g.seen ↔ c ∈ f.seen ∧ ¬ gone c.1)) ∧
  (∀ p, (p ∈ g.gen.ibad ↔ p ∈ f.gen.ibad ∧ ¬ gone (32 * p)) ∧ (p ∈ g.seenBad ↔ p ∈ f.seenBad ∧ ¬ gone (32 * p))) ∧
  (∀ l, l ∈ g.sram.l1 ↔ l ∈ f.sram.l1 ∧ ¬ gone (128 * l.line)) ∧ ∀ x, x ∈ g.late ↔ x ∈ f.late ∧ ¬ gone x.addr

/-- Of the package only the moving frame and the record caches of dies may differ. -/
def OnlyCaches (s t : State) : Prop :=
  t = { s with frames := t.frames, dies := t.dies } ∧ (∀ k, k ≠ s.cur → frameOf t k = frameOf s k) ∧
    ∀ d, dieOf t d = { dieOf s d with rc := (dieOf t d).rc }

/-- No byte lies in another package (R371). -/
abbrev Near (das : List Nat) : Prop := das.all (fun a => !isRemote a) = true

/-- Every line that a load of the instruction at pc reads from another package has come (R370). -/
abbrev ReadsHad (s : State) (das : List Nat) (scope : Scope) : Prop :=
  ∀ l ∈ farLines (curFrame s) das scope, 128 * l ∈ (remNow (curFrame s)).got

/-- The bytes that the instruction at pc writes lie in this package, or have been made at their home (R370). -/
abbrev WritesHad (s : State) (das : List Nat) : Prop := Near das ∨ ∀ a ∈ das, a ∈ (remNow (curFrame s)).got

/-- The package with what has come from another one for the instruction at pc standing where it reads it, if it reads there
(R370). -/
def heard (s : State) (far : Prop) [Decidable far] : State := if far then remPut s else s

/-- Every byte of another package that a load of these bytes reads there, or a write writes. -/
abbrev heardRead (s : State) (das : List Nat) (scope : Scope) : State := heard s (farLines (curFrame s) das scope ≠ [])
abbrev heardWrite (s : State) (das : List Nat) : State := heard s (¬ Near das)

/-- The lines of an L1 as writes leave them: the same lines, each byte the last that was written to it (R94). -/
def LinesFollow (a b : List L1Line) (bytes : List (Nat × Byte)) : Prop :=
  b.map L1Line.line = a.map L1Line.line ∧ ∀ (i : Nat) (x y : L1Line), a[i]? = some x → b[i]? = some y →
    y.data.length = x.data.length ∧ ∀ k, k < 128 → k < x.data.length →
      y.data.getD k 0 = (written bytes (128 * x.line + k)).getD (x.data.getD k 0)

/-- The stores of bytes of this package that accesses of the V and C paths may still precede, after one of the generator's: what
was there, in the order of the stores (R96). -/
def lateAfter (s : State) (bytes : List (Nat × Byte)) : List Late :=
  lateTrim ((curFrame s).late ++ (bytes.filter fun b => !isRemote b.1).map fun b =>
    { addr := b.1, old := memSeen s b.1, v := .behind, c := .behind })

/-- The byte that a frame-scope load finds: an L1 line's where the L1 holds the line, else storage's (R94). -/
def frameByte (s : State) (a : Nat) : Byte :=
  match (curFrame s).sram.l1.find? fun l => decide (l.line = a / 128) with
  | some l => l.data.getD (a % 128) 0
  | none => memSeen s a

/-- The frame after an access of its generator that leaves its registers as `g`: beside them only the L1, the record
cache with what has come for it, what later fetches may see, and what its stores have written over (R96) differ. -/
def accessed (f t : Frame) (g : Gen) : Prop :=
  t = { f with gen := g, rc := t.rc, reread := t.reread, recGot := t.recGot, seen := t.seen, seenBad := t.seenBad,
               codeNew := t.codeNew, late := t.late, sram := { f.sram with l1 := t.sram.l1 } }

/-- The head issue `e` of an engine's queue can execute operation `i` now: a thread runs, no fault waits, and
nothing that R97, R151 or R171 names holds the issue. -/
abbrev Ready (s : State) (sl : SlotName) (e : SlotIssue) (i : Instr) : Prop :=
  headOf (curFrame s) sl = some e ∧ engineRuns (curFrame s) = true ∧ startHold (curFrame s) sl e i = none

/-- The engine's head issue has executed and left its queue. -/
def finished (s : State) (sl : SlotName) : State := onCur s fun f => popHead f sl

/-- Lanes that the guard of an issue enables, ascending (R123, R265). -/
def enabled (s : State) (e : SlotIssue) (g : Guard) : List Nat := lanesOf (guardMask (curFrame s) e g)

/-- The code of a bead format (R53, R159). -/
def fmtCode : BeadFmt → Nat
  | .i8 => 0 | .mx8 => 9 | .mx6 => 10 | .mx4 => 11

/-- The offset of a frame's register in the layout of R8. -/
def frameOffset (d f reg : Nat) : Nat := 0x4000000 + 0x400000 * d + 0x100000 + 0x1000 * f + reg

/-! ### The words that mean something (R120 to R137, R146, R236, R317) -/

/-- A field of zeros. -/
abbrev Zero {n : Nat} (w : BitVec n) (lo len : Nat) : Prop := fld w lo len = 0

/-- The operand field from bit `lo` up: DIR, and whether it names a port or is special (R120). -/
abbrev dirAt (w : Word) (lo : Nat) : Nat := fld w (lo + 10) 2
abbrev PortAt (w : Word) (lo : Nat) : Prop := dirAt w lo = 3 ∧ fld w lo 10 < 8
abbrev SpecialAt (w : Word) (lo : Nat) : Prop := fld w lo 10 < 8 ∨ fld w lo 10 = 0x100

/-- An operand field that may stand for a source, or for a destination (R120, R121). -/
abbrev SrcAt (w : Word) (lo : Nat) : Prop :=
  (fbit w (lo + 12) = true → dirAt w lo = 0) ∧ (dirAt w lo = 3 → SpecialAt w lo ∨ 0x200 ≤ fld w lo 10)
abbrev DstAt (w : Word) (lo : Nat) : Prop := fbit w (lo + 12) = false ∧ (dirAt w lo = 3 → SpecialAt w lo)

/-- DATA and ADDR of a VM word (R287). -/
abbrev DataAt (w : Word) : Prop := dirAt w 37 = 0 ∨ PortAt w 37 ∨ (dirAt w 37 = 3 ∧ fld w 37 10 = 0x100)
abbrev AddrAt (w : Word) : Prop := SrcAt w 24 ∧ ¬ PortAt w 24

/-- A vector word whose guard is legal and whose other fields the table of its opcode allows (R124, R128). -/
def VectorWord (w : Word) : Prop :=
  let ty := fld w 2 4
  let mod := fld w 0 2
  let noMod := mod = 0
  let noRound := Zero w 9 2
  let int := ty ≤ 5
  let float := ty = 6 ∨ ty = 7
  let vr := DstAt w 37 ∧ SrcAt w 24 ∧ SrcAt w 11
  let vu := DstAt w 37 ∧ SrcAt w 24 ∧ Zero w 11 13 ∧ noMod
  let vk := DstAt w 37 ∧ SrcAt w 24 ∧ Zero w 14 10 ∧ fld w 11 3 ≤ 6 ∧ ty ≤ 7 ∧ noMod
  let cvt := DstAt w 37 ∧ SrcAt w 24 ∧ Zero w 15 9 ∧ noMod
  let vm := AddrAt w ∧ Zero w 9 4 ∧ noMod ∧ ty ≤ 8
  let load := vm ∧ DataAt w ∧ DstAt w 37 ∧ fld w 17 2 ≤ 1
  let store := vm ∧ DataAt w ∧ SrcAt w 37 ∧ (fld w 17 2 = 0 ∨ fld w 17 2 = 2) ∧ Zero w 13 2
  (fbit w 55 = false → Zero w 50 5) ∧
  match fld w 56 8 with
  | 0x01 | 0x02 => vr ∧ ty ≤ 7 ∧ (int → noRound) ∧ (mod = 0 ∨ mod = 1 ∧ int)
  | 0x03 => vr ∧ ty ≤ 7 ∧ (int → noRound) ∧ noMod
  | 0x04 | 0x10 | 0x11 => vr ∧ int ∧ noRound ∧ noMod
  | 0x05 | 0x06 => vr ∧ ty ≤ 7 ∧ noRound ∧ noMod
  | 0x07 => vr ∧ float ∧ dirAt w 37 ≠ 3 ∧ mod ≤ 1
  | 0x08 | 0x09 | 0x0A | 0x0B | 0x20 => vr ∧ ty = 5 ∧ noRound ∧ noMod
  | 0x12 | 0x13 => vr ∧ ty = 5 ∧ dirAt w 37 ≠ 3 ∧ noRound ∧ noMod
  | 0x14 | 0x15 => vu ∧ int ∧ noRound
  | 0x18 => Zero w 41 9 ∧ SrcAt w 24 ∧ SrcAt w 11 ∧ ty ≤ 7 ∧ noRound
  | 0x19 => vr ∧ fbit w 55 = true ∧ ty ≤ 7 ∧ noRound ∧ noMod
  | 0x1A => Zero w 41 9 ∧ Zero w 28 9 ∧ Zero w 15 9 ∧ Zero w 2 9
  | 0x21 => vr ∧ dirAt w 24 = 0 ∧ fbit w 36 = false ∧ ty = 5 ∧ noRound ∧ noMod
  | 0x28 => vk ∧ (int → noRound)
  | 0x29 | 0x2A => vk ∧ noRound
  | 0x30 | 0x31 => vu ∧ float ∧ noRound
  | 0x38 => cvt ∧ fld w 11 4 ≤ 8 ∧ ty ≤ 8 ∧ (dirAt w 24 = 3 → Zero w 6 3)
  | 0x39 => vu ∧ 9 ≤ ty ∧ ty ≤ 11
  | 0x3A => cvt ∧ 9 ≤ fld w 11 4 ∧ fld w 11 4 ≤ 11 ∧ float ∧ noRound ∧ (dirAt w 24 = 0 ∨ PortAt w 24)
  | 0x3C => DstAt w 37 ∧ ¬ PortAt w 37 ∧ Zero w 28 9 ∧ fld w 24 4 ≤ 4 ∧ Zero w 6 18 ∧ ty = 5 ∧ noMod
  | 0xC0 | 0xC2 => load ∧ fld w 13 2 ≤ 2
  | 0xC4 => load ∧ Zero w 13 2
  | 0xC1 | 0xC3 | 0xC5 => store
  | 0xC6 =>
    let op := 4 * fld w 11 2 + mod
    AddrAt w ∧ dirAt w 37 = 0 ∧ fbit w 49 = false ∧ Zero w 9 2 ∧ Zero w 13 2 ∧ op ≤ 6 ∧ 4 ≤ ty ∧ ty ≤ 6 ∧
      (op = 2 ∨ op = 3 ∨ op = 4 → ty = 5)
  | 0xC7 => AddrAt w ∧ Zero w 37 13 ∧ Zero w 9 10 ∧ Zero w 0 6
  | 0xC8 => fbit w 55 = true ∧ Zero w 20 30 ∧ Zero w 9 10 ∧ Zero w 0 6
  | _ => False

/-- A bead word (R127, R236 to R253). -/
def BeadWord (w : Word) : Prop :=
  let range := fld w 50 6 + fld w 44 6 < 64
  let zero (lo : Nat) : Prop := dirAt w lo = 3 ∧ fld w lo 10 = 0x100
  match fld w 56 8 with
  | 0x01 => Zero w 0 44 ∧ (fld w 50 6 + 1) * (fld w 44 6 + 1) ≤ 64
  | 0x02 => Zero w 0 5 ∧ dirAt w 43 ≤ 1 ∧ (dirAt w 30 ≤ 1 ∨ zero 30) ∧ fbit w 55 = false ∧ fbit w 42 = false ∧
      PortAt w 17 ∧ fbit w 29 = false ∧ fld w 14 3 ≤ 4 ∧ fld w 9 5 ≤ 20 ∧ (zero 30 ∨ fld w 30 6 = fld w 43 6)
  | 0x03 => Zero w 30 14 ∧ Zero w 0 12 ∧ range ∧ PortAt w 17 ∧ fbit w 29 = false ∧ fld w 12 4 ∈ [0, 9, 10, 11]
  | 0x04 | 0x05 => Zero w 0 44 ∧ range
  | 0x06 => Zero w 9 28 ∧ Zero w 0 6 ∧ dirAt w 43 = 0 ∧ fbit w 55 = false
  | 0x07 => Zero w 43 13 ∧ Zero w 30 7 ∧ Zero w 9 8 ∧ Zero w 0 6 ∧ (dirAt w 17 = 0 ∨ (zero 17 ∧ fbit w 29 = false))
  | 0x08 => Zero w 0 44 ∧ (fbit w 51 = false → Zero w 45 6)
  | 0x09 => Zero w 0 55
  | _ => False

/-- A copy word (R129, R317 to R325). -/
def CopyWord (w : Word) : Prop :=
  let mode := fld w 54 2
  let ordered := (fld w 37 2 = 0 ∨ fld w 37 2 = 2) ∧ Zero w 0 35
  match fld w 56 8 with
  | 0x01 => mode ≤ 2 ∧ ordered
  | 0x02 => mode = 0 ∧ Zero w 35 14 ∧ Zero w 0 16 ∧ fld w 29 6 + fld w 23 6 < 64
  | 0x03 => (mode = 0 ∧ ordered ∧ Zero w 39 5) ∨ (mode = 1 ∧ Zero w 49 5 ∧ Zero w 0 39)
  | 0x04 => mode = 0 ∧ Zero w 0 44
  | 0x05 => mode = 0 ∧ ordered ∧ Zero w 39 5
  | 0x06 => (mode = 1 ∨ mode = 2) ∧ ordered
  | 0x07 => mode = 0 ∧ Zero w 39 10 ∧ (fld w 37 2 = 0 ∨ fld w 37 2 = 2) ∧ Zero w 16 19
  | _ => False

/-- A control word (R130, R146). -/
def ControlWord (w : Word) : Prop :=
  match fld w 56 8 with
  | 0x01 => Zero w 0 33
  | 0x02 | 0x04 => Zero w 0 56
  | 0x03 => Zero w 0 24
  | 0x05 => Zero w 0 48 ∧ fld w 52 4 ∈ [0, 9, 10, 11] ∧ fld w 48 4 ∈ [0, 9, 10, 11]
  | _ => False

/-- A word that its slot may hold: IDLE (R126), or one of an assigned opcode with legal fields. -/
def SlotWord (sl : SlotName) (w : Word) : Prop :=
  w = 0 ∨ match sl with
    | .bead => BeadWord w
    | .vector => VectorWord w
    | .copy => CopyWord w
    | .control => ControlWord w

/-- A word that the tables of the custom spaces assign (R133 to R137, R197). -/
def CustomWord (w : BitVec 32) : Prop :=
  let f7 := fld w 25 7
  let rs2 := fld w 20 5
  let rs1 := fld w 15 5
  let rd := fld w 7 5
  match fld w 0 7, fld w 12 3 with
  | 0x0B, 0 => f7 = 0 ∧ rs2 = 0 ∧ rd < 8
  | 0x0B, 1 => f7 = 0 ∧ rs2 = 0 ∧ rs1 = 0 ∧ rd < 8
  | 0x0B, 2 => f7 = 0 ∧ rs2 < 8 ∧ rs1 = 0 ∧ rd < 8
  | 0x0B, 3 => 1 ≤ f7 ∧ f7 ≤ 15 ∧ rs2 < 8 ∧ rs1 = 0 ∧ rd < 8
  | 0x0B, 4 => f7 ≤ 4 ∧ rs2 < 8 ∧ rs1 = 0
  | 0x0B, 5 => f7 = 0 ∧ rs2 < 8 ∧ rd = 0
  | 0x0B, 6 => f7 = 0 ∧ rs2 < 8
  | 0x0B, _ => f7 = 0 ∧ rs2 = 0 ∧ rs1 = 0
  | 0x2B, _ => fld w 12 2 ≤ 1 ∧ fld w 23 9 + (32 * fld w 14 1 + rd + 1) ≤ 320
  | 0x5B, 0 => f7 ≤ 1
  | 0x5B, 5 => f7 = 0 ∧ rs2 = 0 ∧ rs1 = 0 ∧ rd = 0
  | 0x5B, 6 => f7 = 0 ∧ rs1 = 0 ∧ rs2 ≤ 8
  | 0x5B, 7 => False
  | 0x5B, _ => f7 = 0 ∧ rs2 = 0
  | 0x7B, 0 => f7 = 0
  | 0x7B, 1 => f7 ≤ 7 ∧ rs1 = 0
  | 0x7B, 2 => f7 ≤ 7 ∧ rs2 = 0
  | 0x7B, 3 => f7 ≤ 7 ∧ rs1 = 0 ∧ rd = 0
  | 0x7B, 4 => f7 = 0 ∧ 1 ≤ fld w 22 3 ∧ fld w 22 3 ≤ 4 ∧ rs1 = 0 ∧ rd = 0
  | 0x7B, 5 => fld w 27 2 ≤ 1 ∧ Zero w 31 1 ∧ rs2 = 0
  | 0x7B, 6 => (fld w 27 2 = 0 ∨ fld w 27 2 = 2) ∧ Zero w 31 1 ∧ rd = 0
  | 0x7B, _ => (f7 = 0 ∧ rs2 ≤ 2) ∨ (f7 = 1 ∧ rs2 = 0)
  | _, _ => False

/-- What a halfword that is an instruction by itself stands for, where it is legal (R176: the C extension at 64 bits, with F and
D absent). -/
def compressed (h : BitVec 16) : Instr :=
  let f (lo len : Nat) : Nat := fld h lo len
  let c (lo : Nat) : BitVec 5 := BitVec.ofNat 5 (8 + f lo 3)
  let r (lo : Nat) : BitVec 5 := BitVec.ofNat 5 (f lo 5)
  let u (n : Nat) : BitVec 12 := BitVec.ofNat 12 n
  let s (n : Int) : BitVec 12 := BitVec.ofInt 12 n
  let i6 : Int := f 2 5 - 32 * f 12 1
  let sh : BitVec 6 := BitVec.ofNat 6 (f 2 5 + 32 * f 12 1)
  let w : BitVec 12 := u (4 * f 6 1 + 8 * f 10 3 + 64 * f 5 1)
  let d : BitVec 12 := u (8 * f 10 3 + 64 * f 5 2)
  let br : BitVec 12 := s (f 3 2 + 4 * f 10 2 + 16 * f 2 1 + 32 * f 5 2 - 128 * f 12 1)
  let int (i : IntOp) : Instr := .integerInstruction i
  match f 0 2, f 13 3 with
  | 0, 0 => int (.imm .addi (c 2) 2 (u (4 * f 6 1 + 8 * f 5 1 + 16 * f 11 2 + 64 * f 7 4)))
  | 0, 2 => .standardLoad .lw (c 2) (c 7) w
  | 0, 3 => .standardLoad .ld (c 2) (c 7) d
  | 0, 6 => .standardStore .sw (c 2) (c 7) w
  | 0, _ => .standardStore .sd (c 2) (c 7) d
  | 1, 0 => int (.imm .addi (r 7) (r 7) (s i6))
  | 1, 1 => int (.imm .addiw (r 7) (r 7) (s i6))
  | 1, 2 => int (.imm .addi (r 7) 0 (s i6))
  | 1, 3 =>
    if r 7 = 2 then int (.imm .addi 2 2 (s (16 * f 6 1 + 32 * f 2 1 + 64 * f 5 1 + 128 * f 3 2 - 512 * f 12 1)))
    else int (.lui (r 7) (BitVec.ofInt 20 i6))
  | 1, 4 =>
    (match f 10 2, f 12 1, f 5 2 with
     | 0, _, _ => int (.shift .srli (c 7) (c 7) sh)
     | 1, _, _ => int (.shift .srai (c 7) (c 7) sh)
     | 2, _, _ => int (.imm .andi (c 7) (c 7) (s i6))
     | _, 0, 0 => int (.alu .sub (c 7) (c 7) (c 2))
     | _, 0, 1 => int (.alu .xor (c 7) (c 7) (c 2))
     | _, 0, 2 => int (.alu .or (c 7) (c 7) (c 2))
     | _, 0, _ => int (.alu .and (c 7) (c 7) (c 2))
     | _, _, 0 => int (.aluW .subw (c 7) (c 7) (c 2))
     | _, _, _ => int (.aluW .addw (c 7) (c 7) (c 2)))
  | 1, 5 => int (.jal 0 (BitVec.ofInt 20
      (f 3 3 + 8 * f 11 1 + 16 * f 2 1 + 32 * f 7 1 + 64 * f 6 1 + 128 * f 9 2 + 512 * f 8 1 - 1024 * f 12 1)))
  | 1, 6 => int (.branch .beq (c 7) 0 br)
  | 1, _ => int (.branch .bne (c 7) 0 br)
  | _, 0 => int (.shift .slli (r 7) (r 7) sh)
  | _, 2 => .standardLoad .lw (r 7) 2 (u (4 * f 4 3 + 32 * f 12 1 + 64 * f 2 2))
  | _, 3 => .standardLoad .ld (r 7) 2 (u (8 * f 5 2 + 32 * f 12 1 + 64 * f 2 3))
  | _, 4 =>
    if r 2 ≠ 0 then int (.alu .add (r 7) (if f 12 1 = 0 then 0 else r 7) (r 2))
    else if f 12 1 = 0 then int (.jalr 0 (r 7) 0)
    else if r 7 = 0 then .ebreak
    else int (.jalr 1 (r 7) 0)
  | _, 6 => .standardStore .sw (r 2) 2 (u (4 * f 9 4 + 64 * f 7 2))
  | _, _ => .standardStore .sd (r 2) 2 (u (8 * f 10 3 + 64 * f 7 3))

/-! ### Exact values -/

/-- m·2^e is less than k·2^i. -/
abbrev Below (m : Nat) (e : Int) (k : Nat) (i : Int) : Prop :=
  m * 2 ^ (e - min e i).toNat < k * 2 ^ (i - min e i).toNat

/-- m·2^e is k·2^i. -/
abbrev Alike (m : Nat) (e : Int) (k : Nat) (i : Int) : Prop := ¬ Below m e k i ∧ ¬ Below k i m e

/-- `z` is ±m·2^e rounded to an integer by the mode (R33). -/
def RoundsTo (rm : RoundMode) (neg : Bool) (m : Nat) (e z : Int) : Prop :=
  ∃ k : Nat, ¬ Below m e k 0 ∧ Below m e (k + 1) 0 ∧
    let up := Below k 0 m e ∧ match rm with
      | .rne => Below (2 * k + 1) (-1) m e ∨ (Alike (2 * k + 1) (-1) m e ∧ k % 2 = 1)
      | .rtz => False
      | .rup => neg = false
      | .rdn => neg = true
    let size (j : Nat) : Int := if neg then -j else j
    (up → z = size (k + 1)) ∧ (¬ up → z = size k)

/-! ### Vector element operations -/

/-- The operations that compute each enabled lane from the same lane of their sources: guard, destination, element
type, sources in field order, and the result and conditions of one element from the sources' elements. -/
def laneOp : Instr → Option (Guard × Opd × ElemType × List Opd × (List Nat → Nat × Cond))
  | .vadd f => some (f.g, f.d, f.ty, [f.a, f.b], fun x => addElem f.ty f.rm (fbit f.mod 0) (arg x 0) (arg x 1))
  | .vsub f => some (f.g, f.d, f.ty, [f.a, f.b], fun x => subElem f.ty f.rm (fbit f.mod 0) (arg x 0) (arg x 1))
  | .vmul f => some (f.g, f.d, f.ty, [f.a, f.b], fun x => mulElem f.ty f.rm (arg x 0) (arg x 1))
  | .vmulh f => some (f.g, f.d, f.ty, [f.a, f.b], fun x => mulhElem f.ty (arg x 0) (arg x 1))
  | .vmin f => some (f.g, f.d, f.ty, [f.a, f.b], fun x => (minElem f.ty (arg x 0) (arg x 1), 0))
  | .vmax f => some (f.g, f.d, f.ty, [f.a, f.b], fun x => (maxElem f.ty (arg x 0) (arg x 1), 0))
  | .vfma f => some (f.g, f.d, f.ty, [f.d, f.a, f.b], fun x => fmaElem f.ty f.rm (fbit f.mod 0) (arg x 0) (arg x 1) (arg x 2))
  | .vand f => some (f.g, f.d, f.ty, [f.a, f.b], fun x => (Nat.land (arg x 0) (arg x 1), 0))
  | .vor f => some (f.g, f.d, f.ty, [f.a, f.b], fun x => (Nat.lor (arg x 0) (arg x 1), 0))
  | .vxor f => some (f.g, f.d, f.ty, [f.a, f.b], fun x => (Nat.xor (arg x 0) (arg x 1), 0))
  | .vandn f => some (f.g, f.d, f.ty, [f.a, f.b], fun x => (Nat.land (arg x 0) (2 ^ (8 * f.ty.esz) - 1 - arg x 1), 0))
  | .vshl f => some (f.g, f.d, f.ty, [f.a, f.b], fun x => (shlElem f.ty (arg x 0) (arg x 1), 0))
  | .vshr f => some (f.g, f.d, f.ty, [f.a, f.b], fun x => (shrElem f.ty (arg x 0) (arg x 1), 0))
  | .vfshl f => some (f.g, f.d, f.ty, [f.d, f.a, f.b], fun x => (fshlElem (arg x 0) (arg x 1) (arg x 2), 0))
  | .vfshr f => some (f.g, f.d, f.ty, [f.d, f.a, f.b], fun x => (fshrElem (arg x 0) (arg x 1) (arg x 2), 0))
  | .vclz f => some (f.g, f.d, f.ty, [f.a], fun x => (clzElem (8 * f.ty.esz) (arg x 0), 0))
  | .vpopc f => some (f.g, f.d, f.ty, [f.a], fun x => (popNat (arg x 0) (8 * f.ty.esz), 0))
  | .vrcp f => some (f.g, f.d, f.ty, [f.a], fun x => frcp f.ty.ffmt (fdec f.ty.ffmt (arg x 0)))
  | .vrsq f => some (f.g, f.d, f.ty, [f.a], fun x => frsq f.ty.ffmt (fdec f.ty.ffmt (arg x 0)))
  | _ => none

/-- The balanced tree of R45 over the 2^k leaves of group `i`: values and the conditions of every node. -/
def treeOf (op : Nat → Nat → Nat × Cond) (leaf : Nat → Nat) : Nat → Nat → Nat × Cond
  | 0, i => (leaf i, 0)
  | k + 1, i =>
    let a := treeOf op leaf k (2 * i)
    let b := treeOf op leaf k (2 * i + 1)
    ((op a.1 b.1).1, a.2 ||| b.2 ||| (op a.1 b.1).2)

/-- The conditions of the elements of a lane together. -/
def laneConds (n : Nat) (c : Nat → Cond) : Cond := (upto n).foldl (fun acc j => acc ||| c j) 0

/-- The engine's issue is over, and every enabled lane's conditions are recorded: the conditions it had and those of
`c` (R307). Nothing else of the state differs from `s`. -/
def Recorded (s : State) (sl : SlotName) (en : List Nat) (c : Nat → Cond) (t : State) : Prop :=
  (∃ cf, t = finished (onCur s fun f => { f with vec := { f.vec with cf := cf } }) sl) ∧
  ∀ L, cfOf (curFrame t).vec L = if L ∈ en then cfOf (curFrame s).vec L ||| c L else cfOf (curFrame s).vec L

end Sys2Proof.Machine
end

