-- ==== Sys2Proof/Certificates/Slice0/Obligations.lean ====
section
/-! DEFINITION. The statements for the provers. Each names the rules of spec/ it comes from. -/

open Sys2Proof Sys2Proof.Machine

/-! ### Encodings -/

/-- R133 to R137, R176: the four bytes of a well-formed generator instruction decode to it, every operand at every
value its encoding admits, and its length is four. Every other word of four bytes is an illegal instruction: one that is none
decodes to the well-formed instruction whose encoding it is, the fields of FENCE and FENCE.I that are ignored apart, and
of the custom spaces just the words that the tables assign, their zero fields zero, are instructions. A halfword that is an
instruction by itself is illegal where the C extension reserves it, or keeps it for the absent F and D extensions, and any other
decodes to the instruction that `compressed` says it stands for. -/
def Obligations.GeneratorEncodeDecode : Prop :=
  (∀ (i : Instr) (w : BitVec 32), WellFormed i → (∀ x, i ≠ .illegalInstruction x) → encode i = some w →
    decodeBytes (natBytes w.toNat 4) = (i, 4)) ∧
  (∀ (w : BitVec 32) (i : Instr), fld w 0 2 = 3 → decodeBytes (natBytes w.toNat 4) = (i, 4) → i ≠ .illegalInstruction w →
    WellFormed i ∧ (encode i = some w ∨ (fld w 0 7 = 0x0F ∧ (i = .fenceI ∨ ∃ fm, i = .fence fm (bits w 24 4) (bits w 20 4))))) ∧
  (∀ w : BitVec 32, fld w 0 7 ∈ [0x0B, 0x2B, 0x5B, 0x7B] →
    (decodeBytes (natBytes w.toNat 4) = (.illegalInstruction w, 4) ↔ ¬ CustomWord w)) ∧
  ∀ h : BitVec 16, fld h 0 2 ≠ 3 → (decodeBytes (natBytes h.toNat 2) = (.illegalInstruction (h.zeroExtend 32), 2) ↔
    let f3 := fld h 13 3
    let rd := fld h 7 5
    let imm6 := fld h 12 1 + fld h 2 5
    match fld h 0 2 with
    | 0 => f3 = 1 ∨ f3 = 4 ∨ f3 = 5 ∨ (f3 = 0 ∧ fld h 5 8 = 0)
    | 1 => (f3 = 1 ∧ rd = 0) ∨ (f3 = 3 ∧ imm6 = 0) ∨ (f3 = 4 ∧ fld h 10 3 = 7 ∧ 2 ≤ fld h 5 2)
    | _ => f3 = 1 ∨ f3 = 5 ∨ ((f3 = 2 ∨ f3 = 3) ∧ rd = 0) ∨ (f3 = 4 ∧ fld h 12 1 = 0 ∧ fld h 2 5 = 0 ∧ rd = 0)) ∧
    (decodeBytes (natBytes h.toNat 2) = (.illegalInstruction (h.zeroExtend 32), 2) ∨ decodeBytes (natBytes h.toNat 2) = (compressed h, 2))

/-- R120 to R130, R146, R236, R317: the slot word of a well-formed slot operation decodes, in its slot, to it, and a word that
decodes is the word of a well-formed operation of its slot.
R120, R121, R123 to R131, R242: the words that decode are those whose opcode the slot assigns, whose zero fields are zero, and
whose guard, operands, TYPE, MOD, RM, ORD, FE, AOP and k the tables allow; `SlotWord` says that of the fields. -/
def Obligations.SlotEncodeDecode : Prop :=
  (∀ (i : Instr) (sl : SlotName) (w : Word), WellFormed i → encodeSlot i = some (sl, w) → decodeSlot sl w = some i) ∧
  (∀ (i : Instr) (sl : SlotName) (w : Word), decodeSlot sl w = some i → WellFormed i ∧ encodeSlot i = some (sl, w)) ∧
  ∀ (sl : SlotName) (w : Word), (decodeSlot sl w).isSome = true ↔ SlotWord sl w

/-- Words that the manual writes out (R121, R133 to R136, R186, R190, R197, R203, R238 to R240) decode as it says. -/
def Obligations.ManualWords : Prop :=
  decodeTableWord 32 0x0010500B = some (.gemit 1 0) ∧ decodeTableWord 32 0x0010630B = some (.gemitNb 6 1 0) ∧
  decodeTableWord 32 0x0000730B = some (.geq 6) ∧ decodeTableWord 32 0x0010655B = some (.gself 10 1) ∧
  decodeTableWord 32 0x00A0407B = some (.gfence .rel .pkg) ∧ decodeTableWord 32 0x0120407B = some (.gfence .sc .pkg) ∧
  decodeTableWord 32 0x0015F57B = some (.gdiv 10 11 .exec) ∧
  decodeSlot .bead 0x0400000000000000 = some (.bswap ⟨0, 0⟩) ∧
  decodeSlot .bead 0x0520700000000000 = some (.bcal ⟨8, 7⟩) ∧
  decodeSlot .bead 0x017C100000000000 = some (.bgrid 31 1) ∧
  decodeSlot .bead 0x0980000000000000 = some .bmodeDigital ∧ decodeSlot .bead 0x0900000000000000 = some .bmodeAnalog ∧
  decodeTableWord 32 0x0025500B = some (.gemit 2 10) ∧ decodeTableWord 32 0x5292862B = some (.kins 1 5 165 12) ∧
  decodeTableWord 32 0x0200100B = some (.illegalInstruction 0x0200100B) ∧
  decodeTableWord 32 0x0090655B = some (.illegalInstruction 0x0090655B)

/-! ### Steps and storage -/

/-- R111, R144, R176: a step whose turn is the generator core's runs the instruction that the bytes at pc decode to,
with the address past it as the next in sequence; a fetch that faults takes that fault. A step whose turn is a
slot's runs the operation that the head of the slot's queue, or the control word of the bundle in progress, decodes to.
A step that the agenda names is that step. A fault or a MIGRATING record met at the second half of an instruction is
taken as at the first, as are lines of a record in another package, which are asked for (R371), and an engine whose head issue
waits does nothing.
The agenda, and that a step lets time pass first, are the model's own (assumptions 4 and 5). -/
def Obligations.StepRunsDecoded : Prop :=
  (∀ (s s1 : State) (fr : Nat) (rest : List Turn) (b0 : List Byte), s.turns = .gen fr :: rest → fr < 192 →
    let s0 := tick { s with turns := rest, cur := fr }
    let pc := (curFrame s0).gen.pc
    genRuns (curFrame s0) = true → fetchHalf s0 pc = (.inl b0, s1) →
    (isShort (BitVec.ofNat 16 (leBytes b0)) = true →
      step s = exec (decodeBytes b0).1 (onGen s1 fun g => { g with npc := g.pc + 2 })) ∧
    (isShort (BitVec.ofNat 16 (leBytes b0)) = false → ∀ s2 b1, fetchHalf s1 (pc + 2) = (.inl b1, s2) →
      step s = exec (decodeBytes (b0 ++ b1)).1 (onGen s2 fun g => { g with npc := g.pc + 4 }))) ∧
  (∀ (s s1 : State) (fr code gen : Nat) (rest : List Turn) (addr : Word), s.turns = .gen fr :: rest → fr < 192 →
    let s0 := tick { s with turns := rest, cur := fr }
    genRuns (curFrame s0) = true → fetchHalf s0 (curFrame s0).gen.pc = (.inr (.fault code addr gen), s1) →
    step s = .next (takeL1 s1 code addr gen)) ∧
  (∀ (s s1 : State) (fr : Nat) (rest : List Turn), s.turns = .gen fr :: rest → fr < 192 →
    let s0 := tick { s with turns := rest, cur := fr }
    genRuns (curFrame s0) = true →
    (∀ h, fetchHalf s0 (curFrame s0).gen.pc = (.inr (.stall h), s1) → step s = .next (genStall s1 h)) ∧
    (fetchHalf s0 (curFrame s0).gen.pc = (.inr .ask, s1) → step s = .next (genAsk s1))) ∧
  (∀ (s s1 s2 : State) (fr : Nat) (rest : List Turn) (b0 : List Byte), s.turns = .gen fr :: rest → fr < 192 →
    let s0 := tick { s with turns := rest, cur := fr }
    let pc := (curFrame s0).gen.pc
    genRuns (curFrame s0) = true → fetchHalf s0 pc = (.inl b0, s1) → isShort (BitVec.ofNat 16 (leBytes b0)) = false →
    (∀ code addr gen, fetchHalf s1 (pc + 2) = (.inr (.fault code addr gen), s2) → step s = .next (takeL1 s2 code addr gen)) ∧
    (∀ h, fetchHalf s1 (pc + 2) = (.inr (.stall h), s2) → step s = .next (genStall s2 h)) ∧
    (fetchHalf s1 (pc + 2) = (.inr .ask, s2) → step s = .next (genAsk s2))) ∧
  (∀ (s : State) (fr : Nat) (sl : SlotName) (rest : List Turn), s.turns = .slot fr sl :: rest → fr < 192 → sl ≠ .control →
    let s0 := tick { s with turns := rest, cur := fr }
    (slotQ (curFrame s0).seq sl).hold ≠ none → step s = .next s0) ∧
  (∀ (s : State) (fr : Nat) (sl : SlotName) (rest : List Turn) (e : SlotIssue) (i : Instr),
    s.turns = .slot fr sl :: rest → fr < 192 → sl ≠ .control →
    let s0 := tick { s with turns := rest, cur := fr }
    headOf (curFrame s0) sl = some e → (slotQ (curFrame s0).seq sl).hold = none → decodeSlot sl e.w = some i →
    step s = exec i s0) ∧
  (∀ (s : State) (fr : Nat) (rest : List Turn) (c : CurBundle) (w : Word) (i : Instr), s.turns = .slot fr .control :: rest → fr < 192 →
    let s0 := tick { s with turns := rest, cur := fr }
    (curFrame s0).seq.cur = some c → c.ent.bun.ctl = some w → decodeSlot .control w = some i → step s = exec i s0) ∧
  (∀ (s : State) (fr : Nat) (rest : List Turn) (i : Instr), s.turns = .event fr i :: rest → fr < 192 → eventOk i = true →
    step s = exec i (tick { s with turns := rest, cur := fr }))

/-- The model's own order of agents (assumption 5) stops a run only where the agenda names what does not exist:
every other step goes on, whatever the state. -/
def Obligations.EveryStepGoesOn : Prop :=
  ∀ s : State, (TurnOk s (nextTurn s).1 → ∃ t, step s = .next t) ∧
    (¬ TurnOk s (nextTurn s).1 → step s = .fault .illFormedTurn)

/-- Storage keeps its canonical form through every step: addresses strictly rising, no byte equal to what an unlisted
address reads as. -/
def Obligations.StorageCanonicalStep : Prop :=
  ∀ s t : State, Memory.wf s.mem = true → step s = .next t → Memory.wf t.mem = true

/-- Storage has that form at reset. -/
def Obligations.StorageCanonicalReset : Prop :=
 Memory.wf State.reset.mem = true

/-- R38, R91: after writes at their homes every byte named reads as last written and every other byte of storage reads
as before, discarded lines (R72) included; the canonical form is kept.
R181: writes of one frame's thread, or of no frame's, end the reservation of every other frame that holds a line
they touch, and change nothing else in any frame but the note, in each, that fetches may not return bytes of another package
written here yet (R110).
That one step performs a write for every frame is the model's (assumption 5). -/
def Obligations.WritesAtHomes : Prop :=
  (
  ∀ (s : State) (who : Option Nat) (bytes : List (Nat × Byte)), Memory.wf s.mem = true →
    Stored s (gwrite s who bytes) bytes ∧ Memory.wf (gwrite s who bytes).mem = true) ∧
  (
  ∀ (s : State) (who : Option Nat) (bytes : List (Nat × Byte)) (k : Nat),
    let f := frameOf s k
    let hit := who ≠ some k ∧ ∃ b ∈ bytes, f.gen.resv = some (b.1 / 128)
    let new := (frameOf (gwrite s who bytes) k).codeNew
    (hit → frameOf (gwrite s who bytes) k = { f with gen := { f.gen with resv := none }, codeNew := new }) ∧
    (¬ hit → frameOf (gwrite s who bytes) k = { f with codeNew := new }) ∧
    new = (if (tget s.frames k).isSome then (bytes.filter fun b => isRemote b.1).map fun b => (b.1, false) else []) ++ f.codeNew)

/-- R63, R65, R71: a translation, whatever it answers, changes nothing but the record caches of its frame and of that
frame's die, the records that the frame's stalled translations have read again, and what has come for records from other packages.
How entries are replaced is the model's (assumption 20). -/
def Obligations.TranslationChangesCachesOnly : Prop :=
  ∀ (s : State) (fr h : Nat) (need : Need) (offs : List Nat),
    let t := (translate s fr h need offs).2
    t = { s with frames := t.frames, dies := t.dies } ∧
    (∀ k, frameOf t k = { frameOf s k with rc := (frameOf t k).rc, reread := (frameOf t k).reread, recGot := (frameOf t k).recGot } ∧
      (k ≠ fr → frameOf t k = frameOf s k)) ∧
    ∀ d, dieOf t d = { dieOf s d with rc := (dieOf t d).rc } ∧ (d ≠ fr / 48 → dieOf t d = dieOf s d)

/-! ### Generator core: registers and integer instructions -/

/-- R176: x0 reads zero and discards writes; a write reaches its register and no other. `tblFrom 0 g.x` is the
canonical form of the register table.
R176: every base instruction completes, with its result in rd and the next instruction in sequence or at its
target; nothing else of the package changes. -/
def Obligations.RegistersAndIntegers : Prop :=
  (
  ∀ (g : Gen) (rd r : BitVec 5) (v : Word), rx g 0 = 0 ∧ wx g 0 v = g ∧
    (tblFrom 0 g.x = true → rx (wx g rd v) r = (if r = rd ∧ rd ≠ 0 then v else rx g r) ∧ tblFrom 0 (wx g rd v).x = true)) ∧
  (
  ∀ s : State, let g := (curFrame s).gen
    let ends (r : Gen) (pc : Word) : Out :=
      .next (setCur s { curFrame s with gen := { g with x := r.x, pc := pc, instret := g.instret + 1, stall := none } })
    ∀ rd rs1 rs2 : BitVec 5,
    (∀ imm, exec (.integerInstruction (.lui rd imm)) s = ends (wx g rd ((imm ++ 0#12).signExtend 64)) g.npc) ∧
    (∀ imm, exec (.integerInstruction (.auipc rd imm)) s = ends (wx g rd (g.pc + (imm ++ 0#12).signExtend 64)) g.npc) ∧
    (∀ off, exec (.integerInstruction (.jal rd off)) s = ends (wx g rd g.npc) (g.pc + (off ++ 0#1).signExtend 64)) ∧
    (∀ imm, exec (.integerInstruction (.jalr rd rs1 imm)) s =
      ends (wx g rd g.npc) ((rx g rs1 + imm.signExtend 64) &&& ~~~1#64)) ∧
    (∀ c off, exec (.integerInstruction (.branch c rs1 rs2 off)) s =
      ends g (if brTaken c (rx g rs1) (rx g rs2) then g.pc + (off ++ 0#1).signExtend 64 else g.npc)) ∧
    (∀ op imm, exec (.integerInstruction (.imm op rd rs1 imm)) s = ends (wx g rd (immOp op (rx g rs1) imm)) g.npc) ∧
    (∀ op sh, exec (.integerInstruction (.shift op rd rs1 sh)) s = ends (wx g rd (shiftOp op (rx g rs1) sh)) g.npc) ∧
    (∀ op, exec (.integerInstruction (.alu op rd rs1 rs2)) s = ends (wx g rd (aluOp op (rx g rs1) (rx g rs2))) g.npc) ∧
    (∀ op, exec (.integerInstruction (.aluW op rd rs1 rs2)) s = ends (wx g rd (aluWOp op (rx g rs1) (rx g rs2))) g.npc) ∧
    (∀ op, exec (.integerInstruction (.un op rd rs1)) s = ends (wx g rd (unOp op (rx g rs1))) g.npc))

/-- R176: what the 64-bit register operations compute, as numbers: sums, differences and products modulo 2^64, high halves
of exact products, signed and unsigned comparisons, bitwise operations, shifts and rotations by the low six bits; and when each
branch is taken.
R176: the word operations compute from the low 32 bits of their operands, and their result is the sign extension of a
32-bit one: `bmod` folds a number into the signed 32-bit range; those of Zba that zero-extend take the low 32 bits of their first
operand as a number.
R176: operations with an immediate or a shift amount.
R176: CLZ, CTZ and CPOP count what their names say, in 64 bits and in the low 32; the extensions, the byte reversal and
ORC.B, byte by byte. -/
def Obligations.AluValues : Prop :=
  (∀ a b : Word, let n := b.toNat % 64
    (aluOp .add a b).toNat = (a.toNat + b.toNat) % 2 ^ 64 ∧
    (aluOp .sub a b).toNat = (a.toNat + (2 ^ 64 - b.toNat)) % 2 ^ 64 ∧
    (aluOp .mul a b).toNat = a.toNat * b.toNat % 2 ^ 64 ∧
    (aluOp .mulh a b).toInt = a.toInt * b.toInt / 2 ^ 64 ∧
    (aluOp .mulhsu a b).toInt = a.toInt * b.toNat / 2 ^ 64 ∧
    (aluOp .mulhu a b).toNat = a.toNat * b.toNat / 2 ^ 64 ∧
    (aluOp .sll a b).toNat = a.toNat * 2 ^ n % 2 ^ 64 ∧
    (aluOp .srl a b).toNat = a.toNat / 2 ^ n ∧
    (aluOp .sra a b).toInt = a.toInt / 2 ^ n ∧
    (aluOp .rol a b).toNat = (a.toNat * 2 ^ n + a.toNat / 2 ^ (64 - n)) % 2 ^ 64 ∧
    (aluOp .ror a b).toNat = (a.toNat / 2 ^ n + a.toNat * 2 ^ (64 - n)) % 2 ^ 64 ∧
    aluOp .slt a b = (if a.toInt < b.toInt then 1 else 0) ∧
    aluOp .sltu a b = (if a.toNat < b.toNat then 1 else 0) ∧
    (aluOp .min a b).toInt = min a.toInt b.toInt ∧ (aluOp .max a b).toInt = max a.toInt b.toInt ∧
    (aluOp .minu a b).toNat = min a.toNat b.toNat ∧ (aluOp .maxu a b).toNat = max a.toNat b.toNat ∧
    (aluOp .sh1add a b).toNat = (2 * a.toNat + b.toNat) % 2 ^ 64 ∧
    (aluOp .sh2add a b).toNat = (4 * a.toNat + b.toNat) % 2 ^ 64 ∧
    (aluOp .sh3add a b).toNat = (8 * a.toNat + b.toNat) % 2 ^ 64 ∧
    (∀ i, (aluOp .and a b).getLsbD i = (a.getLsbD i && b.getLsbD i) ∧ (aluOp .or a b).getLsbD i = (a.getLsbD i || b.getLsbD i) ∧
      (aluOp .xor a b).getLsbD i = (a.getLsbD i != b.getLsbD i) ∧
      (i < 64 → (aluOp .andn a b).getLsbD i = (a.getLsbD i && !b.getLsbD i) ∧
        (aluOp .orn a b).getLsbD i = (a.getLsbD i || !b.getLsbD i) ∧ (aluOp .xnor a b).getLsbD i = (a.getLsbD i == b.getLsbD i))) ∧
    brTaken .beq a b = decide (a = b) ∧ brTaken .bne a b = decide (a ≠ b) ∧
    brTaken .blt a b = decide (a.toInt < b.toInt) ∧ brTaken .bge a b = decide (b.toInt ≤ a.toInt) ∧
    brTaken .bltu a b = decide (a.toNat < b.toNat) ∧ brTaken .bgeu a b = decide (b.toNat ≤ a.toNat)) ∧
  (∀ (op : AluWOp) (a b : Word),
    let x : Nat := a.toNat % 2 ^ 32
    let y : Nat := b.toNat % 2 ^ 32
    let xs : Int := (x : Int).bmod (2 ^ 32)
    let ys : Int := (y : Int).bmod (2 ^ 32)
    let m : Nat := b.toNat % 32
    (op ∉ [AluWOp.adduw, .sh1adduw, .sh2adduw, .sh3adduw] →
      aluWOp op a b = aluWOp op (sext32 a) (sext32 b) ∧ aluWOp op a b = sext32 (aluWOp op a b)) ∧
    (op ∈ [AluWOp.adduw, .sh1adduw, .sh2adduw, .sh3adduw] → aluWOp op a b = aluWOp op (zext32 a) b) ∧
    (aluWOp .addw a b).toInt = (a.toInt + b.toInt).bmod (2 ^ 32) ∧ (aluWOp .subw a b).toInt = (a.toInt - b.toInt).bmod (2 ^ 32) ∧
    (aluWOp .mulw a b).toInt = (a.toInt * b.toInt).bmod (2 ^ 32) ∧
    (aluWOp .sllw a b).toInt = ((x * 2 ^ m : Nat) : Int).bmod (2 ^ 32) ∧
    (aluWOp .srlw a b).toInt = ((x / 2 ^ m : Nat) : Int).bmod (2 ^ 32) ∧ (aluWOp .sraw a b).toInt = xs / 2 ^ m ∧
    (aluWOp .rolw a b).toInt = ((x * 2 ^ m + x / 2 ^ (32 - m) : Nat) : Int).bmod (2 ^ 32) ∧
    (aluWOp .rorw a b).toInt = ((x / 2 ^ m + x * 2 ^ (32 - m) : Nat) : Int).bmod (2 ^ 32) ∧
    (y = 0 → aluWOp .divw a b = -1 ∧ aluWOp .divuw a b = -1 ∧ aluWOp .remw a b = sext32 a ∧ aluWOp .remuw a b = sext32 a) ∧
    (y ≠ 0 → (aluWOp .divw a b).toInt = (xs.tdiv ys).bmod (2 ^ 32) ∧ (aluWOp .remw a b).toInt = xs.tmod ys ∧
      (aluWOp .divuw a b).toInt = ((x / y : Nat) : Int).bmod (2 ^ 32) ∧
      (aluWOp .remuw a b).toInt = ((x % y : Nat) : Int).bmod (2 ^ 32)) ∧
    (aluWOp .adduw a b).toNat = (x + b.toNat) % 2 ^ 64 ∧ (aluWOp .sh1adduw a b).toNat = (2 * x + b.toNat) % 2 ^ 64 ∧
    (aluWOp .sh2adduw a b).toNat = (4 * x + b.toNat) % 2 ^ 64 ∧ (aluWOp .sh3adduw a b).toNat = (8 * x + b.toNat) % 2 ^ 64) ∧
  (∀ (a : Word) (i : BitVec 12), let v : Word := i.signExtend 64
    immOp .addi a i = aluOp .add a v ∧ immOp .slti a i = aluOp .slt a v ∧ immOp .sltiu a i = aluOp .sltu a v ∧
    immOp .xori a i = aluOp .xor a v ∧ immOp .ori a i = aluOp .or a v ∧ immOp .andi a i = aluOp .and a v ∧
    immOp .addiw a i = aluWOp .addw a v) ∧
  (∀ (a : Word) (sh : BitVec 6), let v : Word := sh.zeroExtend 64
    shiftOp .slli a sh = aluOp .sll a v ∧ shiftOp .srli a sh = aluOp .srl a v ∧ shiftOp .srai a sh = aluOp .sra a v ∧
    shiftOp .rori a sh = aluOp .ror a v ∧ shiftOp .slliw a sh = aluWOp .sllw a v ∧ shiftOp .srliw a sh = aluWOp .srlw a v ∧
    shiftOp .sraiw a sh = aluWOp .sraw a v ∧ shiftOp .roriw a sh = aluWOp .rorw a v ∧
    (shiftOp .slliuw a sh).toNat = a.toNat % 2 ^ 32 * 2 ^ sh.toNat % 2 ^ 64) ∧
  (∀ a : Word,
    let x : Nat := a.toNat % 2 ^ 32
    (a = 0 → unOp .clz a = 64 ∧ unOp .ctz a = 64) ∧
    (a ≠ 0 → 2 ^ (63 - (unOp .clz a).toNat) ≤ a.toNat ∧ a.toNat < 2 ^ (64 - (unOp .clz a).toNat) ∧
      2 ^ (unOp .ctz a).toNat ∣ a.toNat ∧ ¬ 2 ^ ((unOp .ctz a).toNat + 1) ∣ a.toNat) ∧
    (x = 0 → unOp .clzw a = 32 ∧ unOp .ctzw a = 32) ∧
    (x ≠ 0 → (unOp .clzw a).toNat < 32 ∧ 2 ^ (31 - (unOp .clzw a).toNat) ≤ x ∧ x < 2 ^ (32 - (unOp .clzw a).toNat) ∧
      2 ^ (unOp .ctzw a).toNat ∣ x ∧ ¬ 2 ^ ((unOp .ctzw a).toNat + 1) ∣ x) ∧
    (unOp .cpop a).toNat = ((List.range 64).filter fun i => a.getLsbD i).length ∧
    (unOp .cpopw a).toNat = ((List.range 32).filter fun i => a.getLsbD i).length ∧
    unOp .sextb a = (a.extractLsb' 0 8).signExtend 64 ∧ unOp .sexth a = (a.extractLsb' 0 16).signExtend 64 ∧
    (unOp .zexth a).toNat = a.toNat % 2 ^ 16 ∧
    ∀ i, i < 8 → (unOp .rev8 a).extractLsb' (8 * i) 8 = a.extractLsb' (8 * (7 - i)) 8 ∧
      (unOp .orcb a).extractLsb' (8 * i) 8 = if a.extractLsb' (8 * i) 8 = 0 then 0 else 0xFF)

/-- R179: integer division by zero and overflow give what the M extension defines, every other division truncates
toward zero, and none of them traps: the instruction retires with its result.
R179, R185, R191, R195, R202: a misaligned load, LR, GLD or KLOAD takes cause 4 and a misaligned store, SC, AMO or
GST cause 6, each with the address in L1TVAL; GWAIT asks for 32-byte and GLAUNCH for 64-byte alignment. -/
def Obligations.AlignmentAndDivision : Prop :=
  (
  (∀ a b : Word,
    (b = 0 → aluOp .div a b = -1 ∧ aluOp .divu a b = -1 ∧ aluOp .rem a b = a ∧ aluOp .remu a b = a) ∧
    (a.toInt = -2 ^ 63 → b.toInt = -1 → aluOp .div a b = a ∧ aluOp .rem a b = 0) ∧
    (b ≠ 0 → ¬ (a.toInt = -2 ^ 63 ∧ b.toInt = -1) →
      (aluOp .div a b).toInt = a.toInt.tdiv b.toInt ∧ (aluOp .rem a b).toInt = a.toInt.tmod b.toInt) ∧
    (b ≠ 0 → (aluOp .divu a b).toNat = a.toNat / b.toNat ∧ (aluOp .remu a b).toNat = a.toNat % b.toNat)) ∧
  ∀ (s : State) (op : AluOp) (rd rs1 rs2 : BitVec 5), op ∈ [AluOp.div, .divu, .rem, .remu] →
    exec (.integerInstruction (.alu op rd rs1 rs2)) s =
      .next (retireWith s rd (aluOp op (rx (curFrame s).gen rs1) (rx (curFrame s).gen rs2)))) ∧
  (
  ∀ (s : State) (rd rs1 rs2 : BitVec 5),
    let g := (curFrame s).gen
    let a := rx g rs1
    (∀ op imm, (effAddr g rs1 imm).toNat % loadLen op ≠ 0 →
      exec (.standardLoad op rd rs1 imm) s = .next (takeL1 s 4 (effAddr g rs1 imm))) ∧
    (∀ op imm, (effAddr g rs1 imm).toNat % storeLen op ≠ 0 →
      exec (.standardStore op rs2 rs1 imm) s = .next (takeL1 s 6 (effAddr g rs1 imm))) ∧
    (∀ z o c, a.toNat % accLen z ≠ 0 → exec (.gld z o c rd rs1) s = .next (takeL1 s 4 a) ∧
      exec (.gst z o c rs2 rs1) s = .next (takeL1 s 6 a)) ∧
    (∀ op dbl aq rl, a.toNat % (if dbl then 8 else 4) ≠ 0 →
      exec (.lr dbl aq rl rd rs1) s = .next (takeL1 s 4 a) ∧
      exec (.sc dbl aq rl rd rs1 rs2) s = .next (takeL1 s 6 a) ∧
      exec (.amo op dbl aq rl rd rs1 rs2) s = .next (takeL1 s 6 a)) ∧
    (∀ kd, a.toNat % 8 ≠ 0 → exec (.kload kd rs1) s = .next (takeL1 s 4 a)) ∧
    (a.toNat % 32 ≠ 0 → exec (.gwaitAny rd rs1 rs2) s = .next (takeL1 s 4 a) ∧
      exec (.gwaitAll rd rs1 rs2) s = .next (takeL1 s 4 a)) ∧
    (a.toNat % 64 ≠ 0 → exec (.glaunch rd rs1) s = .next (takeL1 s 4 a)))

/-! ### Generator core: memory -/

/-- R94, R179, R180, R202, R204, R381: a load whose address translates and whose data is sound, its lines of another package
having come and standing as they came (`heardRead`), retires with the value in rd; LR reserves its 128-byte line (R181). At frame scope each byte is that of the L1 where the L1 holds
its line, else storage's; at a wider scope the bytes are storage's. No byte of storage changes, of the frame only rd, the L1, the
record cache and the instruction's own bookkeeping, and of the rest of the package only the die's record cache. After an acquire
wider than the frame the L1 holds the lines that the load read, as storage has them, and no other.
R38, R180: the value of a standard load is its bytes, the first the lowest, sign-extended or zero-extended by the
operation. -/
def Obligations.LoadEffect : Prop :=
  (
  ∀ (s s1 : State) (a : Word) (n : Nat) (ord : Ordering4) (scope : Scope) (das : List Nat) (rd rs1 : BitVec 5),
    let s' := heardRead s das scope
    genXlate s a n causeLoadAlign needR = .ok [] das s1 → loadBad s' (curFrame s).sram das scope = false → ReadsHad s das scope →
    let g := (curFrame s).gen
    let bs := das.map (if scope = .fr then frameByte s' else memSeen s')
    let done (o : Out) (v : Word) (r : Option Nat) : Prop :=
      ∃ t, o = .next t ∧ StorageKept s' t ∧ OnlyCaches s' t ∧ (curFrame t).late = (curFrame s).late ∧
        accessed (curFrame s) (curFrame t)
          { wx g rd v with pc := g.npc, instret := g.instret + 1, stall := none, resv := r } ∧
        (scope ≠ .fr → ord = .acq ∨ ord = .ar → ∀ l ∈ (curFrame t).sram.l1,
          l.line ∈ das.map (· / 128) ∧ ∀ k, k < 128 → l.data.getD k 0 = memSeen s' (128 * l.line + k))
    (∀ op imm, a = effAddr g rs1 imm → n = loadLen op → ord = .rlx → scope = .fr →
      done (exec (.standardLoad op rd rs1 imm) s) (loadVal op bs) g.resv) ∧
    (∀ z, a = rx g rs1 → n = accLen z →
      done (exec (.gld z ord scope rd rs1) s) (BitVec.ofInt 64 (sgn (8 * accLen z) (leNat bs))) g.resv) ∧
    (∀ dbl aq rl, a = rx g rs1 → n = (if dbl then 8 else 4) → ord = (if aq then .acq else .rlx) → scope = .pkg →
      done (exec (.lr dbl aq rl rd rs1) s) (loadVal (if dbl then .ld else .lw) bs) (das.head?.map (· / 128)))) ∧
  (
  ∀ b0 b1 b2 b3 b4 b5 b6 b7 : Byte,
    loadVal .lb [b0] = b0.signExtend 64 ∧ loadVal .lbu [b0] = b0.zeroExtend 64 ∧
    loadVal .lh [b0, b1] = (b1 ++ b0).signExtend 64 ∧ loadVal .lhu [b0, b1] = (b1 ++ b0).zeroExtend 64 ∧
    loadVal .lw [b0, b1, b2, b3] = (b3 ++ b2 ++ b1 ++ b0).signExtend 64 ∧
    loadVal .lwu [b0, b1, b2, b3] = (b3 ++ b2 ++ b1 ++ b0).zeroExtend 64 ∧
    loadVal .ld [b0, b1, b2, b3, b4, b5, b6, b7] = b7 ++ b6 ++ b5 ++ b4 ++ b3 ++ b2 ++ b1 ++ b0)

/-- R94, R180, R202: a store whose address translates, its bytes in another package having been made there, retires, and the
low bytes of its source, the first the lowest, stand at the translated addresses; every other byte of storage reads as before. No register changes. The lines that the
frame's L1 holds have the stored bytes (R94). What the store wrote over may still be found by accesses of the V and C paths (R96).
R181: an SC to the reserved line writes and returns 0; any other returns 1 and writes nothing; either way no
reservation is left. One whose write another package has been asked for has succeeded; before that, whether the agents of that
package have ended the reservation is free (assumption 23). -/
def Obligations.StoreEffect : Prop :=
  (
  ∀ (s s1 : State) (a : Word) (n : Nat) (das : List Nat) (rs1 rs2 : BitVec 5), Memory.wf s.mem = true →
    genXlate s a n causeStoreAlign needW = .ok [] das s1 → das.length = n → WritesHad s das →
    let g := (curFrame s).gen
    let bytes := zipBytes das (leOf (rx g rs2).toNat n)
    let s' := heardWrite s das
    let done (o : Out) : Prop := ∃ t, o = .next t ∧ Stored s' t bytes ∧ LinesFollow (curFrame s).sram.l1 (curFrame t).sram.l1 bytes ∧
      (curFrame t).late = lateAfter s' bytes ∧
      accessed (curFrame s) (curFrame t) { g with pc := g.npc, instret := g.instret + 1, stall := none } ∧ OthersKept s t
    (∀ op imm, a = effAddr g rs1 imm → n = storeLen op → done (exec (.standardStore op rs2 rs1 imm) s)) ∧
    (∀ z o c, a = rx g rs1 → n = accLen z → done (exec (.gst z o c rs2 rs1) s))) ∧
  (
  ∀ (s s1 : State) (dbl aq rl : Bool) (rd rs1 rs2 : BitVec 5) (das : List Nat), Memory.wf s.mem = true →
    let g := (curFrame s).gen
    let n := if dbl then 8 else 4
    let asked := (heldXl (curFrame s) (rx g rs1) n false).isSome = true
    let hit := asked ∨ (g.resv.isSome ∧ g.resv = das.head?.map (· / 128) ∧ (peerBroke s1 das).1 = false)
    genXlate s (rx g rs1) n causeStoreAlign needW = .ok [] das s1 → das.length = n → (hit → WritesHad s das) →
    (Near das → (peerBroke s1 das).1 = false) ∧
    let ended (v : Word) : Gen := { wx g rd v with pc := g.npc, instret := g.instret + 1, stall := none, resv := none }
    ∃ t, exec (.sc dbl aq rl rd rs1 rs2) s = .next t ∧ OthersKept s t ∧
      (hit → let bytes := zipBytes das (leOf (rx g rs2).toNat n)
        Stored (heardWrite s das) t bytes ∧ LinesFollow (curFrame s).sram.l1 (curFrame t).sram.l1 bytes ∧
        accessed (curFrame s) (curFrame t) (ended 0)) ∧
      (¬ hit → StorageKept s t ∧ accessed (curFrame s) (curFrame t) (ended 1)))

/-- R93, R180: an atomic whose address translates and whose word is sound, the reply of another package having come with the old
value, writes the new value in place of the old, and rd takes the old value, sign-extended from a word; no other byte of storage
changes. The frame's L1 follows, and with aq it is left empty (R94).
R93: the new value of each standard atomic, at both widths. -/
def Obligations.AtomicEffect : Prop :=
  (
  ∀ (s s1 : State) (op : AmoOp) (dbl aq rl : Bool) (rd rs1 rs2 : BitVec 5) (das : List Nat), Memory.wf s.mem = true →
    let g := (curFrame s).gen
    let a := rx g rs1
    let n := if dbl then 8 else 4
    let s' := heardWrite s das
    genXlate s a n causeStoreAlign needRW = .ok [] das s1 → poisoned s' das = false → das.length = n → WritesHad s das →
    let old := das.map (memSeen s')
    let new := if dbl then (amoNew op (bytesWord old) (rx g rs2)).toNat
      else (amoNew op (BitVec.ofNat 32 (leNat old)) ((rx g rs2).extractLsb' 0 32)).toNat
    ∃ t, exec (.amo op dbl aq rl rd rs1 rs2) s = .next t ∧ Stored s' t (zipBytes das (leOf new n)) ∧ OthersKept s t ∧
      (aq = true → (curFrame t).sram.l1 = []) ∧
      (aq = false → LinesFollow (curFrame s).sram.l1 (curFrame t).sram.l1 (zipBytes das (leOf new n))) ∧
      accessed (curFrame s) (curFrame t) { wx g rd (loadVal (if dbl then .ld else .lw) old) with
        pc := g.npc, instret := g.instret + 1, stall := none }) ∧
  (
  ∀ (n : Nat) (old v : BitVec n),
    amoNew .swap old v = v ∧ (amoNew .add old v).toNat = (old.toNat + v.toNat) % 2 ^ n ∧
    amoNew .xor old v = old ^^^ v ∧ amoNew .and old v = old &&& v ∧ amoNew .or old v = old ||| v ∧
    (amoNew .min old v).toInt = min old.toInt v.toInt ∧ (amoNew .max old v).toInt = max old.toInt v.toInt ∧
    (amoNew .minu old v).toNat = min old.toNat v.toNat ∧ (amoNew .maxu old v).toNat = max old.toNat v.toNat)

/-- R94, R110, R182, R201: FENCE and GFENCE retire; one that acquires at a scope wider than the frame leaves the L1
empty and lets a later FENCE.I show every write made before; nothing else changes. A FENCE acts at package scope: with R alone
before it as ACQ, with W before it and W alone after it as REL, with W before it and R after it as SC, FENCE.TSO as AR, and one
with neither R nor W on a side as none. FENCE.I makes later fetches see what the thread's own stores and its acquires had let it
see, code of another package then being asked for anew, and changes nothing else.
R97, R200: a GFENCE.X that is void, or that no accesses of the stream hold back, retires; one that names an engine
path in its second set joins the fences of the next entry. With G in its first set, accesses of that path by entries emitted from
then on come after the generator's stores so far. With G in its second set it waits until the stream has drained
and the named paths' accesses are performed.
What a FENCE.I takes in is the model's reading of R110 (assumption 30). -/
def Obligations.FenceEffect : Prop :=
  (
  ∀ s : State,
    let f := curFrame s
    let ends (o : Out) (drop : Bool) : Prop := ∃ seen,
      o = .next (setCur s { f with
        gen := retire f.gen, seen := seen, seenBad := if drop then s.poison else f.seenBad,
        codeNew := if drop then f.codeNew.map (fun e => (e.1, true)) else f.codeNew,
        sram := { f.sram with l1 := if drop then [] else f.sram.l1 } }) ∧
      (if drop then ∀ a, memGet seen a = memSeen s a else seen = f.seen)
    (∀ k c, ends (exec (.gfence k c) s) (decide (c ≠ .fr) && decide (k ≠ .rel))) ∧
    (∀ fm pred succ, ends (exec (.fence fm pred succ) s) (match fenceKind fm pred succ with
      | some .acq | some .ar | some .sc => true | some .rel | Option.none => false)) ∧
    (∀ pred succ : BitVec 4, fbit pred 0 = true ∨ fbit pred 1 = true → fbit succ 0 = true ∨ fbit succ 1 = true →
      ∀ fm, ¬ (fm = 8 ∧ fld pred 0 2 = 3 ∧ fld succ 0 2 = 3) → fenceKind fm pred succ =
        some (if fbit pred 0 = false then .acq else if fbit succ 1 = false then .rel else .sc)) ∧
    (∀ fm pred succ : BitVec 4, fld pred 0 2 = 0 ∨ fld succ 0 2 = 0 → fenceKind fm pred succ = none) ∧
    (∀ pred succ : BitVec 4, fld pred 0 2 = 3 → fld succ 0 2 = 3 → fenceKind 8 pred succ = some .ar) ∧
    exec .fenceI s = .next (setCur s { f with
      gen := { retire f.gen with imem := f.seen, ibad := f.seenBad }, codeHad := [],
      codeNew := f.codeNew.filter fun e => !e.2 })) ∧
  (
  ∀ (s : State) (p q : BitVec 4),
    let f := curFrame s
    let held := fbit q 0 ∧ p &&& 0xE ≠ 0 ∧ ¬ (streamDrained f ∧ pathDone f p (f.seq.issueNo + 1))
    (fenceVoid p q = true → exec (.gfenceX p q) s = .next (retireNop s)) ∧
    (fenceVoid p q = false → held → exec (.gfenceX p q) s = .next s) ∧
    (fenceVoid p q = false → ¬ held → q &&& 0xE = 0 → exec (.gfenceX p q) s = .next (retireNop s)) ∧
    (fenceVoid p q = false → ¬ held → q &&& 0xE ≠ 0 → ∃ t, exec (.gfenceX p q) s = .next t ∧
      t = setCur s { f with gen := { retire f.gen with fences := f.gen.fences ++ [{ p := p, s := q }] }, late := (curFrame t).late } ∧
      (fbit p 0 = false → (curFrame t).late = f.late) ∧
      (fbit p 0 = true →
        (fbit q 1 = true → ∀ a ser, (ser - f.gen.emitSer).toNat < 2 ^ 31 → (lateAt f false ser a).all (fun x => decide (x.v = .behind)) = true →
          lateAt (curFrame t) false ser a = []) ∧
        (fbit q 3 = true → ∀ a ser, (ser - f.gen.emitSer).toNat < 2 ^ 31 → (lateAt f true ser a).all (fun x => decide (x.c = .behind)) = true →
          lateAt (curFrame t) true ser a = []))))

/-! ### Generator core: faults, handlers, status registers -/

/-- R204, R205, R208: a level-1 fault that the thread's handler takes saves the pc of the faulting instruction, the
cause with its GEN and the value, sets IN_H and goes to the handler's address; a reservation ends with it, and what the
instruction had asked of other packages is forgotten. Nothing else of the package changes.
R137, R176, R204: ECALL raises cause 8 with value 0, EBREAK cause 3 with the pc, an illegal instruction cause 2 with
its bits zero-extended: that is all they do. -/
def Obligations.HandlerEntry : Prop :=
  (
  ∀ (s : State) (code gen : Nat) (tval : Word),
    let g := (curFrame s).gen
    fld g.h.tvec 0 2 = 1 → g.h.inH = false → code ∉ [8, 29, 30] →
    ∃ cause : Word, fld cause 0 16 = code % 2 ^ 16 ∧ fld cause 16 16 = 0 ∧ fld cause 32 16 = gen % 2 ^ 16 ∧
      fld cause 48 16 = 0 ∧
      takeL1 s code tval gen = setCur s { curFrame s with rem := none, gen := { g with
        h := { g.h with epc := g.pc &&& ~~~1#64, cause := cause, tval := tval, inH := true },
        pc := g.h.tvec &&& ~~~3#64, stall := none, resv := none } }) ∧
  (
  ∀ s : State, exec .ecall s = .next (takeL1 s 8 0) ∧ exec .ebreak s = .next (takeL1 s 3 (curFrame s).gen.pc) ∧
    ∀ w : BitVec 32, exec (.illegalInstruction w) s = .next (takeL1 s 2 (w.zeroExtend 64)))

/-- R205: with no handler, in a handler, or for causes 8, 29 and 30 the fault escalates: the generator stops at the
faulting instruction, after ECALL at the next one, no register or handler register changes, and dispatch is asked to
unbind the thread with the fault's report. R378: that of HOME_OFFLINE leaves the L1 empty and lets a later FENCE.I show every
write made before. -/
def Obligations.Escalation : Prop :=
  ∀ (s : State) (code gen : Nat) (tval : Word),
    let g := (curFrame s).gen
    let t := takeL1 s code tval gen
    let g' := (curFrame t).gen
    fld g.h.tvec 0 2 ≠ 1 ∨ g.h.inH = true ∨ code ∈ [8, 29, 30] →
    t = setCur s (curFrame t) ∧
    g' = { g with halted := true, stall := none, resv := none, pc := if code = 8 then g.npc else g.pc } ∧
    (curFrame t).disp.fault = some (.l1 (causeWord false gen code) tval g.pc) ∧
    (∃ r, (curFrame t).disp.req = some r ∧ (r.why = .kill ∨ r.why = .escalate)) ∧
    curFrame t = { curFrame s with
      rem := none, gen := g', disp := { (curFrame s).disp with fault := (curFrame t).disp.fault, req := (curFrame t).disp.req },
      seen := (curFrame t).seen, seenBad := if code = 30 then s.poison else (curFrame s).seenBad,
      codeNew := if code = 30 then (curFrame s).codeNew.map (fun e => (e.1, true)) else (curFrame s).codeNew,
      sram := { (curFrame s).sram with l1 := if code = 30 then [] else (curFrame s).sram.l1 } } ∧
    if code = 30 then ∀ a, memGet (curFrame t).seen a = memSeen s a else (curFrame t).seen = (curFrame s).seen

/-- R193, R207: in a handler RESUME retires, clears IN_H and goes on at L1EPC; of the deadlines kept for abandoned
GWAITs only that of the instruction at L1EPC stays. After a recoverable level-2 fault the replay begins, with ABANDON
the phase is abandoned and the sequencer goes on, and after an unrecoverable one it goes on; after a level-1 fault, or
with a level-2 fault still to deliver, the sequencer is as it was. With IN_H 0 both forms are illegal instructions. Any other
write of L1STATUS with RESUME set does the same, after rd has taken the old value.
R178, R184, R208: a CSR instruction that writes nothing retires with the CSR's value in rd; a write of a read-only
CSR and any access to a number that no CSR has are illegal instructions; a write of a handler register retires with the
old value in rd and the new one stored as its map says.
The two forms as rows of their own, and keeping deadlines by address, are the model's readings (assumptions 11 and 27). -/
def Obligations.HandlerReturn : Prop :=
  let returned (s : State) (abandon : Bool) : State :=
    let f := curFrame s
    let f' : Frame :=
      if f.gen.h.l2pend then f
      else match f.ph.pending with
        | none => f
        | some true =>
          if abandon then
            let a := abandonPhase f
            { a with seq := { a.seq with stage := .boundary }, ph := { a.ph with pending := none } }
          else { f with seq := { f.seq with stage := .boundary },
                        ph := { f.ph with replays := min 255 (f.ph.replays + 1), ordered := true, pending := none } }
        | some false => { f with seq := { f.seq with stage := .boundary }, ph := { f.ph with pending := none } }
    let pc := f.gen.h.epc &&& ~~~1#64
    setCur s { f' with gen := { f'.gen with
      h := { f'.gen.h with inH := false }, pc := pc, instret := f'.gen.instret + 1, stall := none,
      kept := f'.gen.kept.filter fun k => decide (k.1 = pc) } };
  (∀ (s : State) (abandon : Bool),
    let i : Instr := if abandon then .handlerAbandon else .handlerResume
    ((curFrame s).gen.h.inH = true → exec i s = .next (returned s abandon)) ∧
    ((curFrame s).gen.h.inH = false → exec i s = .next (takeIllegal s (if abandon then 0x80565073 else 0x80525073)))) ∧
  (
  ∀ (s : State) (op : CsrOp) (rd : BitVec 5) (src : CsrSrc) (csr : BitVec 12) (w : BitVec 32),
    encode (.csrAccess op rd src csr) = some w →
    let g := (curFrame s).gen
    let n := csr.toNat
    let idle := op ≠ .rw ∧ (src = .reg 0 ∨ src = .imm 0)
    let arg : Word := match src with | .reg r => rx g r | .imm u => u.zeroExtend 64
    let new (old : Word) : Word := match op with | .rw => arg | .rs => old ||| arg | .rc => old &&& ~~~arg
    let ends (h : Handler) (old : Word) : Out :=
      .next (setCur s { curFrame s with gen := { wx g rd old with
        h := h, pc := g.npc, instret := g.instret + 1, stall := none } })
    (csrRead s n = none → exec (.csrAccess op rd src csr) s = .next (takeIllegal s w)) ∧
    (∀ old, csrRead s n = some old →
      (idle → exec (.csrAccess op rd src csr) s = ends g.h old) ∧
      (¬ idle → 0xC00 ≤ n → exec (.csrAccess op rd src csr) s = .next (takeIllegal s w)) ∧
      (¬ idle → n = 0x800 → exec (.csrAccess op rd src csr) s =
        ends { g.h with tvec := if fld (new old) 0 2 = 1 then new old else new old &&& ~~~3#64 } old) ∧
      (¬ idle → n = 0x801 → exec (.csrAccess op rd src csr) s = ends { g.h with epc := new old &&& ~~~1#64 } old) ∧
      (¬ idle → n = 0x802 → exec (.csrAccess op rd src csr) s =
        ends { g.h with cause := new old &&& 0x8000FFFF0000FFFF#64 } old) ∧
      (¬ idle → n = 0x803 → exec (.csrAccess op rd src csr) s = ends { g.h with tval := new old } old) ∧
      (¬ idle → n = 0x804 → exec (.csrAccess op rd src csr) s = ends { g.h with scratch := new old } old) ∧
      (¬ idle → n = 0x805 →
        (fbit (new old) 2 = false → exec (.csrAccess op rd src csr) s = ends g.h old) ∧
        (fbit (new old) 2 = true → g.h.inH = true → exec (.csrAccess op rd src csr) s =
          .next (returned (setCur s { curFrame s with gen := wx g rd old }) (fbit (new old) 3))) ∧
        (fbit (new old) 2 = true → g.h.inH = false → exec (.csrAccess op rd src csr) s = .next (takeIllegal s w)))))

/-- R145, R173, R263, R273: SEQ_POS, PWR_STAT, SLATE_STAT, LIVE0 to LIVE15 and PORT_STAT hold what their maps say, are
the same at the frame's management block as at their CSR numbers, and have their reset values.
R18, R74, R156, R159, R168, R178, R184, R190, R226, R234, R264, R276, R308, R328: so do CLK_STAT, FSR_CFG, FMT, CNT_STAT, PHASE_STAT,
EMIT_STAT, BEAD_STAT, CAL_STALE, BANK_STAT, VCOND, COPY_STAT, P0 to P15, cycle, time, instret and the performance counters;
those that the blocks hold are the same there.
R204, R207 to R209: the handler CSRs 0x800 to 0x805 and the level-2 report CSRs 0xCC8 to 0xCCE read as the registers they are,
L1STATUS with IN_H, the undelivered level-2 fault and RESUME and ABANDON as 0; and a number has no CSR just when it is none of
these. -/
def Obligations.StatusRegisters : Prop :=
  (∀ (s : State) (d f p : Nat), d < 4 → f < 48 → (dieOf s d).st = .admitted →
    let k := 48 * d + f
    let fr := frameOf s k
    let reg (csr off : Nat) (v : Word) : Prop :=
      csrRead { s with cur := k } csr = some v ∧ mgmtRead s (.host p) (frameOffset d f off) 8 = v
    (∃ v, reg 0xCC3 0x50 v ∧ fld v 0 48 = fr.seq.pos % 2 ^ 48 ∧ fld v 48 16 = 0) ∧
    (∃ v, reg 0xCC6 0x68 v ∧ fld v 62 2 = fr.clk.level % 4 ∧ fld v 60 2 = 0 ∧
      fld v 30 30 = fr.clk.l1cnt.toNat ∧ fld v 0 30 = fr.clk.l2cnt.toNat) ∧
    (∃ v, reg 0xCD2 0x80 v ∧ fld v 32 32 = 0 ∧ ∀ k, k < 16 → fld v (2 * k) 2 = (tgetD fr.vec.slates k 2).toNat) ∧
    (∀ k, k < 16 → ∃ v, reg (0xCE0 + k) (0x100 + 8 * k) v ∧
      ∀ r, r < 64 → (fbit v r = true ↔ (tget fr.vec.rows (64 * k + r)).isSome = true)) ∧
    (∃ v, reg 0xCD5 0x98 v ∧ ∀ k, k < 8 → fld v (8 * k + 4) 4 = 0 ∧
      fld v (8 * k) 4 = (if setKind fr.vec k = 3 then (tgetD fr.vec.fifos k []).length else 0) % 16) ∧
    (∃ v, reg 0xCC0 0x40 v ∧ fld v 0 8 = 0 ∧ fld v 8 6 = fr.clk.copy.toNat ∧ fld v 14 2 = 0 ∧ fld v 16 6 = fr.clk.exec.toNat ∧ fld v 22 2 = 0 ∧
      fld v 24 6 = fr.clk.gen.toNat ∧ fld v 30 8 = 0 ∧ fld v 40 8 = 0 ∧
      (∀ n, fr.clk.cool = some n → fld v 38 2 = 2 ∧ fld v 48 16 = (n + 65535) / 65536 % 65536) ∧
      (fr.clk.cool = none → fld v 38 2 = (if fr.clk.grant.isSome then 1 else 0) ∧ fld v 48 16 = 0)) ∧
    (∃ v, reg 0xCC2 0x48 v ∧ fld v 0 4 = fmtCode fr.seq.fmt.wfmt ∧ fld v 4 4 = fmtCode fr.seq.fmt.afmt ∧ fld v 19 45 = 0 ∧
      match fr.seq.fmt.pend.filter fun p => decide (p.left ≠ 0) with
      | [] => fld v 8 11 = 0
      | p :: _ => fld v 8 4 = fmtCode p.wfmt ∧ fld v 12 4 = fmtCode p.afmt ∧ fld v 16 3 = p.left % 8) ∧
    (∃ v, reg 0xCC4 0x58 v ∧ fld v 0 8 = cntBS fr % 256 ∧ fld v 8 8 = cntCP fr % 256 ∧ fld v 16 8 = min 255 fr.ph.released.length ∧
      fld v 24 8 = fr.vec.loads.length % 256 ∧ fld v 32 32 = 0) ∧
    (∃ v, reg 0xCC5 0x60 v ∧ fld v 0 8 = fr.ph.replays % 256 ∧ fld v 8 8 = 0 ∧ fld v 16 10 = fr.seq.kept % 1024 ∧ fld v 26 6 = 0 ∧
      fld v 32 9 = min 256 fr.ph.undo.length ∧ fld v 41 23 = 0) ∧
    (∃ v, reg 0xCD0 0x70 v ∧ fld v 0 16 = 0 ∧ fld v 16 16 = fr.bead.chkCnt % 65536 ∧ fld v 32 21 = 0 ∧ fbit v 53 = fr.bead.digital ∧
      fbit v 54 = fr.ph.forced ∧ fbit v 55 = fr.bead.chkValid ∧ fld v 56 2 = fr.bead.chkSeg % 4 ∧ fld v 58 6 = fr.bead.chkArray % 64) ∧
    (∃ v, reg 0xCD1 0x78 v ∧ ∀ b, b < 64 → fbit v b = staleNow s (arrOf fr b)) ∧
    (∃ lo hi, reg 0xCD3 0x88 lo ∧ reg 0xCD4 0x90 hi ∧ ∀ b, b < 64 → fld (if b < 32 then lo else hi) (2 * (b % 32)) 2 =
      if 4 * fr.sram.split ≤ b then 0 else if fbit fr.sram.live b = false then 2 else if fbit fr.sram.retain b = true then 1 else 0) ∧
    (tblFrom 0 fr.vec.cf = true → ∃ v, reg 0xCD6 0xA0 v ∧ fld v 6 58 = 0 ∧
      ∀ c, c < 6 → (fbit v c = true ↔ ∃ L, fbit (tgetD fr.vec.cf L 0) c = true)) ∧
    (∃ v, reg 0xCD7 0xA8 v ∧ fld v 0 32 = fr.cpe.pend.toNat ∧ ∀ k, k < 32 →
      (fbit v (32 + k) = true ↔ fbit fr.cpe.des k = true ∧ k ∈ (regions fr.vec fr.sram.split).map (·.1))) ∧
    (∀ k, k < 16 → reg (0xCF0 + k) (0x180 + 8 * k) (tgetD fr.vec.preds k 0)) ∧
    (let own (n : Nat) (v : Word) : Prop := csrRead { s with cur := k } n = some v
     own 0xCC1 (BitVec.ofNat 64 (fr.sram.split % 16)) ∧ own 0xC00 fr.gen.cycle ∧ own 0xC01 (BitVec.ofNat 64 s.time) ∧
     own 0xC02 fr.gen.instret ∧ (∀ n, 0xC03 ≤ n → n ≤ 0xC1F → own n 0) ∧ own 0xCCF (fr.gen.lastGen.zeroExtend 64) ∧
     ∃ v, own 0xCC7 v ∧ fld v 0 32 = fr.gen.emitSer.toNat ∧ fld v 32 32 = fr.gen.qfull.toNat)) ∧
  (∀ s : State, let g := (curFrame s).gen
    csrRead s 0x800 = some g.h.tvec ∧ csrRead s 0x801 = some g.h.epc ∧ csrRead s 0x802 = some g.h.cause ∧ csrRead s 0x803 = some g.h.tval ∧
    csrRead s 0x804 = some g.h.scratch ∧ (∃ v, csrRead s 0x805 = some v ∧ fbit v 0 = g.h.inH ∧ fbit v 1 = g.h.l2pend ∧ fld v 2 62 = 0) ∧
    csrRead s 0xCC8 = some g.l2.info ∧ csrRead s 0xCC9 = some g.l2.iterA ∧ csrRead s 0xCCA = some g.l2.iterB ∧
    csrRead s 0xCCB = some g.l2.tagPc ∧ csrRead s 0xCCC = some g.l2.tagId ∧ csrRead s 0xCCD = some g.l2.mem0 ∧
    csrRead s 0xCCE = some g.l2.mem1 ∧
    ∀ n, csrRead s n = none ↔ ¬ ((0x800 ≤ n ∧ n ≤ 0x805) ∨ (0xC00 ≤ n ∧ n ≤ 0xC1F) ∨ (0xCC0 ≤ n ∧ n ≤ 0xCD7) ∨ (0xCE0 ≤ n ∧ n ≤ 0xCFF))) ∧
  csrRead State.reset 0xCC0 = some 0x0000000003040400 ∧ (∀ n, n ∈ [0xCC2, 0xCC4, 0xCC5, 0xCC7, 0xCD0, 0xCD1, 0xCD6, 0xCD7] →
    csrRead State.reset n = some 0) ∧ (∀ k, k < 16 → csrRead State.reset (0xCF0 + k) = some 0) ∧
  csrRead State.reset 0xCD3 = some 0xAAAAAAAAAAAAAAAA ∧ csrRead State.reset 0xCD4 = some 0x00000000AAAAAAAA ∧
  csrRead State.reset 0xCC3 = some 0 ∧ csrRead State.reset 0xCC6 = some 0 ∧ csrRead State.reset 0xCD2 = some 0xAAAAAAAA ∧
  (∀ k, k < 16 → csrRead State.reset (0xCE0 + k) = some 0) ∧ csrRead State.reset 0xCD5 = some 0

/-! ### Generator extension: compose buffers, emitting, parameter sets, clocks -/

/-- R112, R134, R185: the compose-buffer instructions that touch no memory retire with the named buffer bits written:
KCLR none set, KMOV a copy, KMERGE the words and header mask bits that m names, KINS and KINSI the low WIDTH bits of
their value at POS. Every other bit, buffer and register stays, and so does the rest of the package.
R185: KRD retires with word w of the buffer in rd; KLOAD, once its five doublewords are read, with them in the
buffer, the first the lowest. Every other buffer, register and part of the frame stays, but for what loads change (R94), and so does
every byte of storage but those that replies of another package brought for the instruction. -/
def Obligations.ComposeBuffers : Prop :=
  (
  ∀ (s : State) (d k : BitVec 3),
    let g := (curFrame s).gen
    let ends (o : Out) (bit : Nat → Bool) : Prop := ∃ K : Tbl Image,
      o = .next (setCur s { curFrame s with gen := { g with
        k := K, pc := g.npc, instret := g.instret + 1, stall := none } }) ∧
      ∀ x : BitVec 3, ∀ b, b < 320 → (tgetD K x.toNat 0).getLsbD b = if x = d then bit b else (kget g x).getLsbD b
    tblFrom 0 g.k = true →
    ends (exec (.kclr d) s) (fun _ => false) ∧
    ends (exec (.kmov d k) s) (fun b => (kget g k).getLsbD b) ∧
    (∀ m, ends (exec (.kmerge d k m) s) fun b =>
      let e := if b < 64 then b - 60 else b / 64 - 1
      if 60 ≤ b ∧ fbit m e then (kget g k).getLsbD b else (kget g d).getLsbD b) ∧
    (∀ rs1 pos wm1, ends (exec (.kins d rs1 pos wm1) s) fun b =>
      if pos.toNat ≤ b ∧ b < pos.toNat + (wm1.toNat + 1) then (rx g rs1).getLsbD (b - pos.toNat)
      else (kget g d).getLsbD b) ∧
    (∀ imm pos wm1, ends (exec (.kinsi d imm pos wm1) s) fun b =>
      if pos.toNat ≤ b ∧ b < pos.toNat + (wm1.toNat + 1) then imm.getLsbD (b - pos.toNat)
      else (kget g d).getLsbD b)) ∧
  (
  ∀ (s : State) (k : BitVec 3) (rd rs1 : BitVec 5),
    let g := (curFrame s).gen
    (∀ w : BitVec 3, exec (.krd rd k w) s = .next (retireWith s rd ((kget g k).extractLsb' (64 * w.toNat) 64))) ∧
    (∀ bs das s1, tblFrom 0 g.k = true → genLoads s ((upto 5).map fun i => rx g rs1 + BitVec.ofNat 64 (8 * i)) = .ok bs das s1 →
      ∃ t, exec (.kload k rs1) s = .next t ∧ bs.length = 40 ∧
        (∀ b, b < 320 → (kget (curFrame t).gen k).getLsbD b = (bs.getD (b / 8) 0).getLsbD (b % 8)) ∧
        (∀ x, x ≠ k → ∀ b, b < 320 → (kget (curFrame t).gen x).getLsbD b = (kget g x).getLsbD b) ∧
        accessed (curFrame s) (curFrame t) { g with k := (curFrame t).gen.k, pc := g.npc, instret := g.instret + 1, stall := none } ∧
        OnlyCaches { s with mem := t.mem, poison := t.poison } t ∧ (Near das → StorageKept s t) ∧
        (Memory.wf s.mem = true → ∀ a, a ∉ (remNow (curFrame s)).had.bytes.map Prod.fst → memSeen t a = memSeen s a)))

/-- R111, R112, R186, R189: with a repeat override from 1 to 4096, or none, an open span that the queue can hold and
room in the queue, GEMIT and GEMIT.NB append one entry: the packed image with REPEAT overridden, tagged with pc, serial
and thread, and carrying the fences emitted since the entry before. EMIT_SER rises by one and GEMIT.NB returns 0.
R186, R187: an override of 0 or above 4096 takes cause 49 with the value; an open span of 512 takes cause 48 with
the pc; on a full queue GEMIT waits and has no effect, and GEMIT.NB returns 1.
R186, R188: a GEMIT that waits on the queue keeps its image, REPEAT overridden, and appends its entry once an entry has left and no
event waiting for room holds the frame (R362), and has then retired; until then it has no effect.
R190: GEQ retires with OCC, UNTAKEN and OPEN in rd and every other bit zero.
OCC counts what was taken in the phase before a rollback too: the model's reading (assumption 17). -/
def Obligations.EmitQueue : Prop :=
  (
  ∀ (s : State) (ks : BitVec 3) (rd rs1 : BitVec 5),
    let f := curFrame s
    let n := (rx f.gen rs1).toNat
    let img := if rs1 = 0 then kget f.gen ks else fput (kget f.gen ks) 48 12 (n - 1)
    let e : Entry := { tag := { pc := f.gen.pc, ser := f.gen.emitSer, tid := curTid f }, bun := pack img,
                       fences := f.gen.fences }
    let g := { f.gen with emitSer := f.gen.emitSer + 1, fences := [] }
    let ends (x : Gen) : Out := .next (setCur s { f with
      seq := { f.seq with queue := f.seq.queue ++ [e] },
      gen := { x with pc := f.gen.npc, instret := f.gen.instret + 1, stall := none } })
    rs1 = 0 ∨ (1 ≤ n ∧ n ≤ 4096) → openSpan f.seq f.ph < 512 → f.seq.queue.length ≠ 512 →
      exec (.gemit ks rs1) s = ends g ∧ exec (.gemitNb rd ks rs1) s = ends (wx g rd 0)) ∧
  (
  ∀ (s : State) (ks : BitVec 3) (rd rs1 : BitVec 5),
    let f := curFrame s
    let v := rx f.gen rs1
    let bad := rs1 ≠ 0 ∧ (v.toNat = 0 ∨ 4096 < v.toNat)
    (bad → exec (.gemit ks rs1) s = .next (takeL1 s 49 v) ∧ exec (.gemitNb rd ks rs1) s = .next (takeL1 s 49 v)) ∧
    (¬ bad → 512 ≤ openSpan f.seq f.ph →
      exec (.gemit ks rs1) s = .next (takeL1 s 48 f.gen.pc) ∧ exec (.gemitNb rd ks rs1) s = .next (takeL1 s 48 f.gen.pc)) ∧
    (¬ bad → openSpan f.seq f.ph < 512 → f.seq.queue.length = 512 →
      exec (.gemitNb rd ks rs1) s = .next (retireWith s rd 1) ∧
      let img := if rs1 = 0 then kget f.gen ks else fput (kget f.gen ks) 48 12 (v.toNat - 1)
      exec (.gemit ks rs1) s = .next (setCur s { f with gen := { f.gen with stall := some (.emit ks img) } }))) ∧
  (
  ∀ (s : State) (ks : BitVec 3) (img : Image),
    let f := curFrame s
    let e : Entry := { tag := { pc := f.gen.pc, ser := f.gen.emitSer, tid := curTid f }, bun := pack img, fences := f.gen.fences }
    f.gen.stall = some (.emit ks img) →
    (f.seq.queue.length < 512 → f.disp.evHeld = 0 → exec .emitQueueSpace s = .next (setCur s { f with
      seq := { f.seq with queue := f.seq.queue ++ [e] },
      gen := { f.gen with emitSer := f.gen.emitSer + 1, fences := [], pc := f.gen.npc,
                          instret := f.gen.instret + 1, stall := none } })) ∧
    (512 ≤ f.seq.queue.length ∨ f.disp.evHeld ≠ 0 → exec .emitQueueSpace s = .next s)) ∧
  (
  ∀ (s : State) (rd : BitVec 5),
    let q := (curFrame s).seq
    ∃ v : Word, exec (.geq rd) s = .next (retireWith s rd v) ∧ fld v 0 10 = q.queue.length % 1024 ∧ fld v 10 6 = 0 ∧
      fld v 16 10 = (q.queue.length - q.kept) % 1024 ∧ fld v 26 6 = 0 ∧
      fld v 32 10 = openSpan q (curFrame s).ph % 1024 ∧ fld v 42 22 = 0)

/-- R199, R267, R314, R326: PSETW retires with the word written; the set's current origin is then the one it holds, a
write of word 0 of a port's set returns the port to position 0 with its FIFO empty, both also in the start snapshot of the open
phase, and a write of word 0 or 1 that a kind-11 set holds before or after clears its designation and pending swap. PSETR retires
with the word in rd. -/
def Obligations.ParameterSets : Prop :=
  ∀ (s : State) (k r : BitVec 5) (w : BitVec 3), let f := curFrame s
    exec (.psetr r k w) s = .next (retireWith s r (tgetD f.vec.psets (8 * k.toNat + w.toNat) 0)) ∧
    (tblFrom 0 f.vec.psets = true → tblFrom 0 f.cpe.origins = true → tblFrom 0 f.vec.ports = true →
      tblFrom 0 f.vec.fifos = true → tblFrom 0 f.ph.snap.origins = true → tblFrom 0 f.ph.snap.ports = true →
      tblFrom 0 f.ph.snap.fifos = true → ∃ t, exec (.psetw r k w) s = .next t ∧
      let f' := curFrame t
      let v := rx f.gen r
      t = setCur s f' ∧ f'.gen = retire f.gen ∧
      (∀ j, tgetD f'.vec.psets j 0 = if j = 8 * k.toNat + w.toNat then v else tgetD f.vec.psets j 0) ∧
      (∀ j, tget f'.cpe.origins j = if j = k.toNat then none else tget f.cpe.origins j) ∧
      (∀ j, tget f'.vec.ports j = if j = k.toNat ∧ j < 8 ∧ w = 0 then none else tget f.vec.ports j) ∧
      (∀ j, tget f'.vec.fifos j = if j = k.toNat ∧ j < 8 ∧ w = 0 then none else tget f.vec.fifos j) ∧
      f'.ph = { f.ph with snap := { f.ph.snap with
        origins := f'.ph.snap.origins, ports := f'.ph.snap.ports, fifos := f'.ph.snap.fifos } } ∧
      (∀ j, tget f'.ph.snap.origins j = if j = k.toNat then none else tget f.ph.snap.origins j) ∧
      (∀ j, tget f'.ph.snap.ports j = if j = k.toNat ∧ j < 8 ∧ w = 0 then none else tget f.ph.snap.ports j) ∧
      (∀ j, tget f'.ph.snap.fifos j = if j = k.toNat ∧ j < 8 ∧ w = 0 then none else tget f.ph.snap.fifos j) ∧
      let region := w.toNat ≤ 1 ∧ (setKind f.vec k.toNat = 11 ∨ setKind f'.vec k.toNat = 11)
      (∀ j, j < 32 → f'.cpe.des.getLsbD j = (f.cpe.des.getLsbD j && !decide (j = k.toNat ∧ region)) ∧
        f'.cpe.pend.getLsbD j = (f.cpe.pend.getLsbD j && !decide (j = k.toNat ∧ region))) ∧
      f'.seq = f.seq ∧ f'.vec.rows = f.vec.rows ∧ f'.vec.preds = f.vec.preds ∧ f'.sram = f.sram ∧ f'.bead = f.bead ∧
      f'.cpe.ops = f.cpe.ops)

/-- R15, R203: GDIV retires with the divisor that will apply and how it was reached in rd, and leaves the divisors as
they are: the request waits for a bundle boundary.
R15, R16, R174: at a bundle boundary the last request of each domain applies, held between its floor of that
moment and 32; a domain with no request keeps its divisor. Between boundaries nothing applies. -/
def Obligations.ClockDivisors : Prop :=
  (
  ∀ (s : State) (rd rs1 : BitVec 5) (dom : Domain),
    let f := curFrame s
    let v := (rx f.gen rs1).toNat
    let floor := match dom with | .gen => 3 | .exec => execFloor f.clk | .copy => 4
    let d := max floor (min 32 v)
    ∃ t x, exec (.gdiv rd rs1 dom) s = .next t ∧ t = setCur s { f with clk := x, gen := retire (wx f.gen rd
        (BitVec.ofNat 64 (d + 256 * (if v < floor then 1 else if 32 < v then 2 else 0)))) } ∧
      x = { f.clk with reqGen := x.reqGen, reqExec := x.reqExec, reqCopy := x.reqCopy,
                       askGen := x.askGen, askExec := x.askExec, askCopy := x.askCopy } ∧
      x.reqGen = (if dom = .gen then some (BitVec.ofNat 6 d) else f.clk.reqGen) ∧
      x.reqExec = (if dom = .exec then some (BitVec.ofNat 6 d) else f.clk.reqExec) ∧
      x.reqCopy = (if dom = .copy then some (BitVec.ofNat 6 d) else f.clk.reqCopy)) ∧
  (
  ∀ s : State,
    let f := curFrame s
    let pick (cur : BitVec 6) (req : Option (BitVec 6)) (floor : Nat) : BitVec 6 :=
      match req with | some v => BitVec.ofNat 6 (max floor (min 32 v.toNat)) | none => cur
    (f.seq.stage = .boundary → exec .divisorApply s = .next (setCur s { f with clk := { f.clk with
      gen := pick f.clk.gen f.clk.reqGen 3, exec := pick f.clk.exec f.clk.reqExec (execFloor f.clk),
      copy := pick f.clk.copy f.clk.reqCopy 4, reqGen := none, reqExec := none, reqCopy := none } })) ∧
    (f.seq.stage ≠ .boundary → exec .divisorApply s = .next s))

/-- R17, R175: SPRINT retires with its status. A grant is given to a frame with none and no cool-down while the
package's sprint draw and the partition's draw allow it, and lasts 25 ms; it ends on request or at its limit, and a
cool-down follows, the floor of EXEC being 5 in it and the divisor asked for at the next boundary at least 5. Before the limit, or
with time of the cool-down left, neither end comes. With no qualifying time of the cool-down left the floor falls to 4 again, and
EXEC runs at 4, or at the 5 or more that the program asked for. -/
def Obligations.SprintLife : Prop :=
  ∀ (s : State) (rd rs1 : BitVec 5),
    let f := curFrame s
    let q := fld (rx f.gen rs1) 0 2
    let ends (st : Nat) (c : Clocks) : Prop := exec (.sprint rd rs1) s =
      .next (setCur s { f with clk := c, gen := retire (wx f.gen rd (BitVec.ofNat 64 st)) })
    let part := tgetD s.edge.partW (curPart s) 0
    let share := 650 * (partDies s (curPart s)).length
    (q = 1 → f.clk.grant.isSome → ends 1 f.clk) ∧
    (q = 1 → f.clk.grant = none → f.clk.cool.isSome → ends 2 f.clk) ∧
    (q = 1 → f.clk.grant = none → f.clk.cool = none → 2600 ≤ s.edge.sprintW → ends 3 f.clk) ∧
    (q = 1 → f.clk.grant = none → f.clk.cool = none → s.edge.sprintW < 2600 → share ≤ part → ends 4 f.clk) ∧
    (q = 1 → f.clk.grant = none → f.clk.cool = none → s.edge.sprintW < 2600 → part < share →
      ends 0 { f.clk with grant := some (s.time + 130000000) }) ∧
    (q = 0 → f.clk.grant = none → ends 6 f.clk) ∧ (2 ≤ q → ends 7 f.clk) ∧
    (let asked := match f.clk.reqExec with | some v => v | none => f.clk.exec
     ∀ c : Clocks, c = { f.clk with grant := none, cool := some 520000000, reqExec := some (if asked.toNat < 5 then 5 else asked) } →
      execFloor c = 5 ∧ (q = 0 → f.clk.grant.isSome → ends 5 c) ∧
      (∀ e, f.clk.grant = some e → (e ≤ s.time → exec .sprintExpiry s = .next (setCur s { f with clk := c })) ∧
        (s.time < e → exec .sprintExpiry s = .next s))) ∧
    (f.clk.grant = none → exec .sprintExpiry s = .next s) ∧ (f.clk.cool ≠ some 0 → exec .cooldownEnd s = .next s) ∧
    (f.clk.cool = some 0 → ∃ c, exec .cooldownEnd s = .next (setCur s { f with clk := c }) ∧ c.cool = none ∧
      c.reqExec = some (if 5 ≤ f.clk.askExec.toNat then f.clk.askExec else 4) ∧
      c = { f.clk with cool := none, reqExec := c.reqExec } ∧ (f.clk.grant = none → execFloor c = 4))

/-! ### Generator extension: identity, waits, groups, launch and exit -/

/-- R197, R198, R354: GSELF retires with the identity value of its selector, and a selector above 8 is an illegal instruction.
GREC retires with word w of the record, or from 16 on of the extension record, whatever the record's STATE, and LAST_GEN takes its
GEN; a bad handle takes cause 24 and a bad record cause 25, the latter with its GEN.
The address these faults report, the handle with offset 0, and that a record whose table entry or extension record lies outside
the windows (R81), or whose home is away, is a bad record, since R198 admits no other class, are the model's choices (assumption
32); so are the zeros read of a control block that its partition does not hold (assumption 48), GEN_ECC for an uncorrectable word
of one (R381, assumption 47), and that an extension record of another package is asked for first (assumption 23). -/
def Obligations.IdentityAndRecords : Prop :=
  ∀ (s : State) (rd rs1 sel w : BitVec 5),
    let g := (curFrame s).gen
    let base := curTcb s
    let tcb (i : Nat) : Word := if homeOf base = 4 then 0 else gword s (base + 8 * i)
    let bad (i : Nat) : Prop := ∃ j, j < 8 ∧ (base + 8 * i + j) / 32 ∈ s.poison
    let own : List (Option Nat × Word) := [(some 0, (tcb 0).extractLsb' 0 32 |>.zeroExtend 64), (some 2, (tcb 2).extractLsb' 0 20 |>.zeroExtend 64),
      (some 2, (tcb 2).extractLsb' 32 21 |>.zeroExtend 64), (some 3, tcb 3), (some 4, tcb 4), (none, BitVec.ofNat 64 (s.cur % 48)),
      (none, BitVec.ofNat 64 (s.cur / 48)), (none, BitVec.ofNat 64 (dieOf s (s.cur / 48)).part), (some 0, (tcb 0).extractLsb' 56 3 |>.zeroExtend 64)]
    let h := fld (rx g rs1) 0 20
    let tag : Word := BitVec.ofNat 64 (h * 2 ^ 44)
    (∀ i v, own[sel.toNat]? = some (i, v) →
      ((∀ k, i = some k → ¬ bad k) → exec (.gself rd sel) s = .next (retireWith s rd v)) ∧
      ∀ k, i = some k → bad k → exec (.gself rd sel) s = .next (takeL1 s 31 (BitVec.ofNat 64 (base + 8 * k)))) ∧
    (own[sel.toNat]? = none → ∀ x, encode (.gself rd sel) = some x → exec (.gself rd sel) s = .next (takeIllegal s x)) ∧
    (∀ e s1, rcLookup s s.cur h = (.found e, s1) ∨ rcLookup s s.cur h = (.migrating e, s1) →
      exec (.grec rd rs1 w) s = .next (setCur s1 { curFrame s1 with gen :=
        { wx g rd (if w.toNat < 16 then wd e.words w.toNat else wd e.ext (w.toNat - 16)) with
          pc := g.npc, instret := g.instret + 1, stall := none, lastGen := (wd e.words 0).extractLsb' 46 16 } })) ∧
    (∀ s1, rcLookup s s.cur h = (.badHandle, s1) → exec (.grec rd rs1 w) s = .next (takeL1 s1 24 tag)) ∧
    (∀ s1 gen, rcLookup s s.cur h = (.badRecord gen, s1) ∨ rcLookup s s.cur h = (.denied gen, s1) ∨ rcLookup s s.cur h = (.offline gen, s1) →
      exec (.grec rd rs1 w) s = .next (takeL1 s1 25 tag gen)) ∧
    (∀ e lines s1, rcLookup s s.cur h = (.far e lines, s1) → ∃ edge, exec (.grec rd rs1 w) s = .next { setCur s1 { curFrame s1 with
      rem := some { remNow (curFrame s1) with asks := true }, gen := { (curFrame s1).gen with stall := some .remote } } with edge := edge })

/-- R191, R192, R193: GWAIT reads its block; a bad one ends it with mask 0 and code 2. The used entries are evaluated
in order. The wait is met when one entry, or with GWAIT.ALL every used one, is true: rd takes the mask and code 0, and a
true BARRIER entry empties the L1. Not met, it ends at the deadline with code 1, and before it waits on. Each later
evaluation does the same, unless an event waiting for room holds the frame (R362), and a GWAIT that has ended keeps no deadline.
An evaluation that a MEM entry's load stops takes that load's fault, or is made again, of the same block and deadline, when what the
load waits for has come.
R192: which blocks are bad: one with no used entry, one with a kind above 4, a comparison, ordering or limit above its last value, or
a bit set that its kind leaves 0. A used entry that is true sets its bit of the mask.
R192: what the entries of a GWAIT block compare. An EMITQ, a COUNT and a BARRIER entry look at the frame and its
group and change nothing; a MEM entry compares the masked bytes it loads with the masked value.
The mask 0 of a bad block is the model's reading (assumption 16), as is that a kept deadline is found by the GWAIT's address and
dropped with the GWAIT that ends (assumption 11). -/
def Obligations.GroupWaits : Prop :=
  (
  ∀ (all : Bool) (rd rs1 rs2 : BitVec 5),
    let start : Instr := if all then .gwaitAll rd rs1 rs2 else .gwaitAny rd rs1 rs2
    let fin (s : State) (v : Nat) : Out := .next (onGen s fun g => { wx g rd (BitVec.ofNat 64 v) with
      pc := g.npc, instret := g.instret + 1, stall := none, kept := g.kept.filter fun k => decide (k.1 ≠ g.pc) })
    let ends (o : Out) (s1 : State) (blk : List Word) (limit : Option Nat) : Prop :=
      (∀ s2 mask, blockEval blk [0, 1, 2, 3] s1 = (.val true s2, mask) →
        let s3 := onCur s2 fun f => { f with rem := none }
        let met := if all then mask = usedMask blk else mask ≠ 0
        let bar := ∃ n, n < 4 ∧ condKind blk n = 2 ∧ Nat.testBit mask n = true
        (met → bar → ∃ seen, (∀ a, memGet seen a = memSeen s3 a) ∧
          o = fin (onCur s3 fun f => { f with
            seen := seen, seenBad := s3.poison, codeNew := f.codeNew.map fun e => (e.1, true),
            sram := { f.sram with l1 := [] } }) (256 * mask)) ∧
        (met → ¬ bar → o = fin s3 (256 * mask)) ∧
        (¬ met → (∃ d, limit = some d ∧ d ≤ s1.time) → o = fin s3 (256 * mask + 1)) ∧
        (¬ met → (∀ d, limit = some d → s1.time < d) →
          o = .next (onGen s3 fun g => { g with stall := some (.gwait all rd blk limit) }))) ∧
      ∀ s2 m, blockEval blk [0, 1, 2, 3] s1 = (.stop s2, m) →
        let f2 := curFrame s2
        let again (f : Frame) : Out := .next (setCur s2 { f with gen := { f.gen with stall := some (.gwait all rd blk limit) } })
        (∀ h, f2.gen.stall = some (.translation h) →
          o = again { f2 with rem := some { remNow { f2 with rem := none } with migr := some h } }) ∧
        ((∀ h, f2.gen.stall ≠ some (.translation h)) → (remWaits f2 = true → o = again f2) ∧ (remWaits f2 = false → o = .next s2))
    (∀ (s s1 : State) (bs : List Byte) (das : List Nat),
      let g := (curFrame s).gen
      let a := rx g rs1
      let t := fld (rx g rs2) 0 48
      let blk := wordsOf 16 bs
      a.toNat % 32 = 0 → genLoads s ((upto 16).map fun i => a + BitVec.ofNat 64 (8 * i)) = .ok bs das s1 →
      (blockBad blk = true → exec start s = fin s1 2) ∧
      (blockBad blk = false → ends (exec start s) s1 blk (match g.kept.find? fun k => decide (k.1 = g.pc) with
        | some k => k.2
        | none => if t = 2 ^ 48 - 1 then none else some (s1.time + t)))) ∧
    (∀ (s : State) (blk : List Word) (limit : Option Nat),
      (curFrame s).gen.stall = some (.gwait all rd blk limit) →
        ((curFrame s).disp.evHeld ≠ 0 → exec .gwaitEvaluate s = .next s ∧ exec .gwaitDeadline s = .next s) ∧
        ((curFrame s).disp.evHeld = 0 → ends (exec .gwaitEvaluate s) s blk limit) ∧
        ∀ d, limit = some d → ((curFrame s).disp.evHeld = 0 → d ≤ s.time → ends (exec .gwaitDeadline s) s blk limit) ∧
          (s.time < d → exec .gwaitDeadline s = .next s))) ∧
  (
  ∀ blk : List Word,
    let w (n i : Nat) : Word := wd blk (4 * n + i)
    let rest (n : Nat) : Prop := w n 1 = 0 ∧ w n 2 = 0 ∧ w n 3 = 0
    (∀ n, condKind blk n = fld (w n 0) 56 8) ∧
    (blockBad blk = false ↔ (∃ n, n < 4 ∧ condKind blk n ≠ 0) ∧ ∀ n, n < 4 → match condKind blk n with
      | 0 => w n 0 = 0 ∧ rest n
      | 1 => Zero (w n 0) 0 46 ∧ fld (w n 0) 52 4 ≤ 5 ∧ fld (w n 0) 48 2 ≤ 1
      | 2 => Zero (w n 0) 12 44 ∧ rest n
      | 3 => Zero (w n 0) 10 46 ∧ fld (w n 0) 0 10 ≤ 512 ∧ rest n
      | 4 => Zero (w n 0) 32 24 ∧ rest n
      | _ => False) ∧
    (∀ n, n < 4 → (Nat.testBit (usedMask blk) n = true ↔ condKind blk n ≠ 0)) ∧ usedMask blk < 16 ∧
    ∀ (s : State) (n : Nat) (r : List Nat), blockEval blk [] s = (.val true s, 0) ∧
      (condKind blk n = 0 → blockEval blk (n :: r) s = blockEval blk r s) ∧
      (condKind blk n ≠ 0 → (∀ t, condEval s blk n = .stop t → blockEval blk (n :: r) s = (.stop t, 0)) ∧
        ∀ b t, condEval s blk n = .val b t →
          blockEval blk (n :: r) s = ((blockEval blk r t).1, (blockEval blk r t).2 + if b = true then 2 ^ n else 0))) ∧
  (
  ∀ (s : State) (blk : List Word) (n : Nat),
    let f := curFrame s
    let w0 := wd blk (4 * n)
    (condKind blk n = 3 → condEval s blk n = .val (decide (f.seq.queue.length ≤ fld w0 0 10)) s) ∧
    (condKind blk n = 4 → condEval s blk n = .val (decide (f.vec.loads.length ≤ fld w0 24 8 ∧
      min 255 f.ph.released.length ≤ fld w0 16 8 ∧ cntCP f ≤ fld w0 8 8 ∧ cntBS f ≤ fld w0 0 8)) s) ∧
    (condKind blk n = 2 → ∃ b, condEval s blk n = .val b s ∧ (b = false ↔
      ∃ g j, tget s.groups (groupKey (curPart s) (fld w0 0 12)) = some g ∧
        memberIn s (curTcb s) (fld w0 0 12) = some j ∧ memberPending s (curTcb s) j g = true)) ∧
    (condKind blk n = 1 → ∀ t, genLoad s (wd blk (4 * n + 1)) (2 ^ fld w0 50 2)
        (if fld w0 48 2 = 1 then .acq else .rlx) (scopeOfCode (fld w0 46 2)) = .stop t → condEval s blk n = .stop t) ∧
    (condKind blk n = 1 → ∀ bs das s1, genLoad s (wd blk (4 * n + 1)) (2 ^ fld w0 50 2)
        (if fld w0 48 2 = 1 then .acq else .rlx) (scopeOfCode (fld w0 46 2)) = .ok bs das s1 →
      let mask := wd blk (4 * n + 3)
      let v := wd blk (4 * n + 2) &&& mask
      let u := BitVec.ofNat 64 (leNat bs) &&& mask
      let i := BitVec.ofInt 64 (sgn (8 * 2 ^ fld w0 50 2) (leNat bs)) &&& mask
      ∃ b, condEval s blk n = .val b s1 ∧ (b = true ↔ match fld w0 52 4 with
        | 0 => u = v | 1 => u ≠ v | 2 => u.toNat < v.toNat | 3 => v.toNat ≤ u.toNat
        | 4 => i.toInt < v.toInt | _ => v.toInt ≤ i.toInt)))

/-- R22, R23, R194, R363: with a created group named, GJOIN takes the thread's first free membership record and joins
the open epoch, or the next one when someone has arrived; GLEAVE gives the record up and takes the member, and an
arrival of its, out of the counts; GBAR arrives, and returns 1 and empties the L1 when that completed the epoch. After
a leave or an arrival the epoch advances once all members have arrived, or the last has left. The other statuses change
nothing but rd.
That a record is late or pending only within one epoch of the group's is the model's reading of R363 (assumption 42), and that a
control block which its partition does not hold reads as zeros and is not written is assumption 48. -/
def Obligations.GroupsAndBarriers : Prop :=
  (∀ (s : State) (rd rs1 : BitVec 5), Memory.wf s.mem = true →
    (∀ a, curTcb s + 128 ≤ a → a < curTcb s + 256 → a / 32 ∉ s.poison) →
    let r := rx (curFrame s).gen rs1
    let key := groupKey (curPart s) r.toNat
    let tcb := curTcb s
    let w0 (j : Nat) := tcb + 8 * (16 + 2 * j)
    let w1 (j : Nat) := tcb + 8 * (17 + 2 * j)
    let bytes (a n v : Nat) : List (Nat × Byte) := if homeOf tcb = 4 then [] else zipBytes ((upto n).map (a + ·)) (leOf v n)
    let ends (o : Out) (v : Word) (g : Group) (wr : List (Nat × Byte)) (drop : Bool) : Prop :=
      ∃ t, o = .next t ∧ t.groups = tset s.groups key g ∧ Stored s t wr ∧ OthersKept s t ∧
        { (curFrame t).gen with resv := none } = { retire (wx (curFrame s).gen rd v) with resv := none } ∧
        (curFrame t).sram = { (curFrame s).sram with l1 := if drop then [] else (curFrame s).sram.l1 }
    (groupOf s r = none → exec (.gjoin rd rs1) s = .next (retireWith s rd 3) ∧
      exec (.gleave rd rs1) s = .next (retireWith s rd 3) ∧ exec (.gbar rd rs1) s = .next (retireWith s rd 4)) ∧
    ∀ g, groupOf s r = some g →
      (∀ j, memberIn s tcb r.toNat = some j → exec (.gjoin rd rs1) s = .next (retireWith s rd 1)) ∧
      (memberIn s tcb r.toNat = none → exec (.gleave rd rs1) s = .next (retireWith s rd 1) ∧
        exec (.gbar rd rs1) s = .next (retireWith s rd 3) ∧
        ((∀ j, j < 8 → memberValid s tcb j = true) → exec (.gjoin rd rs1) s = .next (retireWith s rd 2)) ∧
        ∀ j, j < 8 → memberValid s tcb j = false → (∀ i, i < j → memberValid s tcb i = true) →
          ends (exec (.gjoin rd rs1) s) 0
            (if g.arrived ≠ 0 then { g with lateM := g.lateM + 1 } else { g with members := g.members + 1 })
            (bytes (w0 j) 8 (2 ^ 63 + r.toNat) ++
              bytes (w1 j + 4) 4 (if g.arrived ≠ 0 then g.epoch + 1 else g.epoch).toNat) false) ∧
      (∀ j, memberIn s tcb r.toNat = some j →
        let late := joinEpoch s tcb j = g.epoch + 1
        let one : BitVec 24 := if memberPending s tcb j g then 1 else 0
        let left := if late then { g with lateM := g.lateM - 1, lateA := g.lateA - one }
          else { g with members := g.members - 1, arrived := g.arrived - one }
        let here := groupCheck 3 (if late then { g with lateA := g.lateA + 1 } else { g with arrived := g.arrived + 1 }) false
        let aep := if late then joinEpoch s tcb j else g.epoch
        let open' := aep = here.epoch ∨ aep = here.epoch + 1
        ends (exec (.gleave rd rs1) s) 0 (groupCheck 3 left true)
          (bytes (w0 j) 8 ((memberOf s tcb j).toNat % 2 ^ 63)) false ∧
        (memberPending s tcb j g = true → exec (.gbar rd rs1) s = .next (retireWith s rd 2)) ∧
        (memberPending s tcb j g = false → ends (exec (.gbar rd rs1) s) (if open' then 0 else 1) here
          (bytes (w0 j) 8 (memberOf s tcb j ||| 2 ^ 62).toNat ++ bytes (w1 j) 4 aep.toNat) (decide (¬ open'))))) ∧
  (∀ (n : Nat) (g : Group) (byLeave : Bool),
    groupCheck (n + 1) g byLeave = if (g.arrived = g.members ∧ g.arrived ≠ 0) ∨ (byLeave = true ∧ g.members = 0) then
      groupCheck n { epoch := g.epoch + 1, members := g.members + g.lateM, arrived := g.lateA, lateM := 0, lateA := 0 } false
    else g)

/-- R195, R348 to R351: a submitted record that fails a check has status 2; one whose home is away, and a full queue, status 1; one
whose check meets a MIGRATING record waits. From step 2 of a live update on every record has status 1 (R385).
R348, R349: a record fails where a reserved bit is set, ENTRY, ARGBASE or DONE is not aligned, its die is not admitted in the
submitter's partition, ENTRY's first two bytes are not executable, a byte of the argument blocks of its threads cannot be read, or DONE
cannot be read and written; a home that has FAILED is such a failure, one under warm reset status 1. The argument blocks are tried
at their first and last byte and at each multiple of 256 between. Accepted, status 0, it enters the end of its queue
and the word at DONE grows by the number of its threads; an empty queue that it enters also posts LAUNCH (R362). GLAUNCH returns
the status in rd; the aperture shows it, and keeps the record while it waits.
R196, R354, R388: GEXIT first waits until the stream is drained and the engines idle, then asks for a commit; it waits until that has
passed, every counter is zero and no level-2 fault waits, and while a home it needs is under warm reset or the record at DONE is MIGRATING. Then the thread
leaves its groups, the word at DONE is decremented, its control block shows EXITED, the event is posted and the frame is free. A
word that cannot be decremented, its home FAILED among the reasons, leaves the thread's end as it is, and the event says the class.
In the handler of a level-2 fault GEXIT resolves that fault first (R165).
R370, R372: a word at DONE in another package is reached by an atomic flit; the record enters its queue, and the thread ends, with the
answer, and a refusal is a failed check, or the class that the event says.
Which of several failing checks outweighs the others, and the stages of GEXIT, are the model's readings (assumptions 10 and 16), as
are the parts of a launch and an exit that assumptions 21 and 26 name, and that a word in another package is waited for
(assumption 23). -/
def Obligations.LaunchAndExit : Prop :=
  let dieQ (w : List Word) : Nat × Nat := (fld (wd w 0) 6 2, fld (wd w 0) 0 6)
  let queue (x : State) (w : List Word) : List LaunchRec := tgetD (dieOf x (dieQ w).1).queues (dieQ w).2 []
  let count (w : List Word) : Word := BitVec.ofNat 64 (fld (wd w 0) 16 20 + 1)
  let entered (x : State) (part : Nat) (w : List Word) : State :=
    let d := dieOf x (dieQ w).1
    let u := setDie x (dieQ w).1 { d with queues := tset d.queues (dieQ w).2 (queue x w ++ [{ w := w, taken := 0 }]) }
    if queue x w = [] then postEvent u part { kind := 8, die := (dieQ w).1, frame := 0, tid := 0, detail := BitVec.ofNat 64 ((dieQ w).2 + 64 * (dieQ w).1) }
    else u;
  (
  (∀ (s : State) (fr part : Nat) (w : List Word),
    let word (i : Nat) : Word := wd w i
    let form : Prop := Zero (word 0) 12 4 ∧ Zero (word 0) 36 28 ∧ Zero (word 3) 32 32 ∧ fbit (word 1) 0 = false ∧
      Zero (word 2) 0 3 ∧ Zero (word 4) 0 3 ∧ word 5 = 0 ∧ word 6 = 0 ∧ word 7 = 0
    let here : Prop := (dieOf s (dieQ w).1).st = .admitted ∧ (dieOf s (dieQ w).1).part = part
    let len := fld (word 0) 16 20 * fld (word 3) 0 32 + 8
    (¬ (form ∧ here) → launchChecks s fr part w = (.fail, s)) ∧
    (form → here → ∃ (args : List Word) (a b c : LaunchRes) (s1 s2 s3 : State),
      (∀ v, v ∈ args ↔ v = word 2 ∨ v = word 2 + BitVec.ofNat 64 (len - 1) ∨
        ∃ i, 0 < i ∧ i < len ∧ ((word 2).toNat + i) % 256 = 0 ∧ v = word 2 + BitVec.ofNat 64 i) ∧
      tryAll fr needX [word 1, word 1 + 1] s = (a, s1) ∧ tryAll fr needR args s1 = (b, s2) ∧
      tryAll fr needRW ((upto 8).map fun i => word 4 + BitVec.ofNat 64 i) s2 = (c, s3) ∧
      (launchChecks s fr part w).2 = s3 ∧
      let r := (launchChecks s fr part w).1
      let any (x : LaunchRes) : Prop := a = x ∨ b = x ∨ c = x
      let stalls : Prop := ∃ h, any (.stall h)
      (r = .fail ↔ any .fail) ∧ (¬ any .fail → stalls → ∃ h, r = .stall h ∧ any (.stall h)) ∧
      (¬ any .fail → ¬ stalls → any .notNow → r = .notNow) ∧ (∀ x y z, a = .pass x → b = .pass y → c = .pass z → r = .pass z))) ∧
  (∀ (s : State) (fr : Nat) (need : Need) (a : Word) (r : List Word),
    let h := fld a 44 20
    let x := translate s fr h need [fld a 0 44]
    let next (u : State) : LaunchRes := (tryAll fr need r u).1
    tryAll fr need [] s = (.pass [], s) ∧
    (∀ c off gen u, x = (.err c off gen, u) → c ≠ .homeOffline ∨ homeFailed u fr h off = true → tryAll fr need (a :: r) s = (.fail, u)) ∧
    (∀ off gen u, x = (.err .homeOffline off gen, u) → homeFailed u fr h off = false →
      tryAll fr need (a :: r) s = (match next u with | .pass _ => .notNow | y => y, (tryAll fr need r u).2)) ∧
    (∀ u, x = (.stall, u) → tryAll fr need (a :: r) s = (if next u = .fail then .fail else .stall h, (tryAll fr need r u).2)) ∧
    (∀ d lines u, x = (.far d lines, u) → let v := askLines u fr h 11 d lines
      tryAll fr need (a :: r) s = (if next v = .fail then .fail else .stall h, (tryAll fr need r v).2)) ∧
    (∀ das e u, x = (.ok das e, u) →
      tryAll fr need (a :: r) s = (match next u with | .pass l => .pass (das ++ l) | y => y, (tryAll fr need r u).2))) ∧
  (∀ (s : State) (fr part : Nat) (w : List Word), Memory.wf s.mem = true →
    let x := launchChecks s fr part w
    (updateHolds s = true → submit s fr part w = (.inl 1, s)) ∧ (updateHolds s = false →
    (x.1 = .fail → submit s fr part w = (.inl 2, x.2)) ∧ (x.1 = .notNow → submit s fr part w = (.inl 1, x.2)) ∧
    (∀ h, x.1 = .stall h → submit s fr part w = (.inr h, x.2)) ∧
    (launchesOut x.2 = [] → (queueFull x.2 w = true ↔ 256 ≤ (queue x.2 w).length ∨ updateHolds x.2 = true)) ∧
    (∀ done, x.1 = .pass done → (queueFull x.2 w = true → submit s fr part w = (.inl 1, x.2)) ∧
      (queueFull x.2 w = false → ∃ u, Stored x.2 u (zipBytes done (wordBytes (bytesWord (gread x.2 done) + count w))) ∧
        u.dies = x.2.dies ∧ u.edge = x.2.edge ∧ submit s fr part w = (.inl 0, entered u part w))))) ∧
  (∀ (s s1 : State) (rd rs1 : BitVec 5) (bs : List Byte) (das : List Nat),
    let f := curFrame s
    let a := rx f.gen rs1
    let w := wordsOf 8 bs
    let o := exec (.glaunch rd rs1) s
    let refused (x : State) (c : L2Class) : Prop := o = .next (retireWith (onCur x fun f => { f with rem := none }) rd (if c = .homeOffline then 1 else 2))
    ((remNow f).launch = [] → a.toNat % 64 = 0 → genLoads s ((upto 8).map fun i => a + BitVec.ofNat 64 (8 * i)) = .ok bs das s1 →
      (farDone s1 s1.cur (curPart s1) w = none → let x := submit s1 s1.cur (curPart s1) w
        (∀ st, x.1 = .inl st → o = .next (retireWith x.2 rd (BitVec.ofNat 64 st))) ∧
        (∀ h, x.1 = .inr h → (linesAsked x.2 x.2.cur = true → o = .next (genAsk x.2)) ∧
          (linesAsked x.2 x.2.cur = false → o = .next (onGen x.2 fun g => { g with stall := some (.translation h) })))) ∧
      (∀ ds x, farDone s1 s1.cur (curPart s1) w = some (ds, x) → ds.length = 8 →
        (∀ c, (remNow (curFrame x)).err = some c → refused x c) ∧
        ((remNow (curFrame x)).err = none → (∃ b ∈ ds, b ∉ (remNow (curFrame x)).got) → ∃ t, o = .next t ∧ t.mem = x.mem ∧ t.dies = x.dies ∧
          (curFrame t).gen = { (curFrame x).gen with stall := some .remote } ∧ (remNow (curFrame t)).launch = w))) ∧
    (∀ x, (remNow f).launch ≠ [] → heldXl f (wd (remNow f).launch 4) 8 false = some x → x.das.length = 8 → ¬ Near x.das →
      (∀ c, (remNow f).err = some c → refused s c) ∧
      ((remNow f).err = none → (∀ b ∈ x.das, b ∈ (remNow f).got) →
        o = .next (retireWith (entered (onCur s fun f => { f with rem := none }) (curPart s) (remNow f).launch) rd 0)))) ∧
  (∀ (s : State) (who : Writer) (part slot : Nat), apertAllowed s who part = true → slot < 4 →
    (isHost who = true → s.hub.ideNeed = true → s.hub.ideRx = true) → tblFrom 0 s.hub.apert = true →
    let key := 512 * part + 32 * slot
    let from' := if fbit (tgetD s.hub.apert (key + 8) 0) 63 then 16 else 0
    let w := (upto 8).map fun i => tgetD s.hub.apert (key + (from' + i)) 0
    let fr := 48 * homeDie s part
    let asked := 2 * (4 * part + slot) + 1
    let ends (mem : State) (r : Nat ⊕ Nat) : Prop := ∃ t, exec (.laCtlSubmit who part slot) s = .next t ∧ t.mem = mem.mem ∧
      (∀ d, (dieOf t d).queues = (dieOf mem d).queues) ∧
      ∀ k, tgetD t.hub.apert k 0 = match r with
        | .inl st => if k = key + 8 then BitVec.ofNat 64 (st % 8 * 2 ^ 60) else tgetD s.hub.apert k 0
        | .inr _ => if k = key + 8 then 2 ^ 63 else if key + 16 ≤ k ∧ k < key + 24 then w.getD (k - (key + 16)) 0 else tgetD s.hub.apert k 0
    (tget s.edge.doneRes asked = none →
      (doneOut s asked = true → ends s (.inr 0)) ∧
      (doneOut s asked = false → farDone s fr part w = none → ends (submit s fr part w).2 (submit s fr part w).1) ∧
      ∀ ds x, doneOut s asked = false → farDone s fr part w = some (ds, x) → ends x (.inr 0)) ∧
    (tget s.edge.doneRes asked = some 0 → ends (entered s part w) (.inl 0)) ∧
    (∀ c, tget s.edge.doneRes asked = some c → c ≠ 0 → ends s (.inl 2)))) ∧
  (
  ∀ s : State,
    let f := curFrame s
    let tcb := curTcb s
    let done := tcbGet s tcb 4
    let h := fld done 44 20
    let ended (x : State) (detail : Word) : Out :=
      let y := setTcbState (leaveAll x (curPart s) tcb) tcb 3
      let tid : BitVec 32 := (tcbGet s tcb 0).extractLsb' 0 32
      .next (onCur (postFrameEvent { y with
        counted := y.counted.filter fun c => decide (c.1 ≠ tcb),
        carried := y.carried.filter fun c => !(decide (c.part = curPart s) && decide (c.tid = tid)) } s.cur 1 tid detail) freeFrame)
    let lost (x : State) (c : Nat) : Out := ended x (BitVec.ofNat 64 (2 ^ 63 + c % 256))
    let inL2 := f.ph.pending ≠ none ∧ f.gen.h.inH = true ∧ f.gen.h.l2pend = false
    let idle := streamDrained f = true ∧ f.seq.stage = .boundary ∧ queuesEmpty f = true ∧ f.ph.faults = []
    let due := f.seq.stage = .boundary ∧ countersZero f = true ∧ f.ph.faults = []
    let away := serves s (homeOf tcb) = false ∧ (dieOf s (homeOf tcb)).st ≠ .failed
    let answered (x : State) : State := { x with edge := { x.edge with doneRes := terase x.edge.doneRes (2 * tcb) } }
    (inL2 → exec .gexit s = .next (setCur s (resolveL2 f false))) ∧
    (¬ inL2 → f.gen.exiting = false → idle →
      exec .gexit s = .next (setCur s { f with seq := { f.seq with stage := .commit }, gen := { f.gen with exiting := true } })) ∧
    (¬ inL2 → f.gen.exiting = false → ¬ idle → exec .gexit s = .next s) ∧
    (¬ inL2 → f.gen.exiting = true → ¬ due → exec .gexit s = .next s) ∧
    (¬ inL2 → f.gen.exiting = true → due → away → exec .gexit s = .next s) ∧
    (¬ inL2 → f.gen.exiting = true → due → ¬ away →
      (tget s.edge.doneRes (2 * tcb) = some 0 → exec .gexit s = ended (answered s) 0) ∧
      (∀ c, tget s.edge.doneRes (2 * tcb) = some c → c ≠ 0 → exec .gexit s = lost (answered s) c) ∧
      (tget s.edge.doneRes (2 * tcb) = none → doneOut s (2 * tcb) = true → exec .gexit s = .next s) ∧
      (tget s.edge.doneRes (2 * tcb) = none → doneOut s (2 * tcb) = false →
      ∀ a s1, translate s s.cur h needRW ((upto 8).map (fld done 0 44 + ·)) = (a, s1) →
        (∀ das e, a = .ok das e →
          (Near das → exec .gexit s = ended (gwrite s1 none (zipBytes das (wordBytes (bytesWord (gread s1 das) + (-1))))) 0) ∧
          (¬ Near das → let y := leaveAll s1 (curPart s) tcb
            exec .gexit s = .next (sendRemote y s.cur (2 * tcb) { work := 10, ty := 5, rel := true, die := handleDie y s.cur h, handle := h }
              (fun _ => false) (zipBytes das (wordBytes (-1)))))) ∧
        (∀ c off gen, a = .err c off gen → (c = .homeOffline → homeFailed s s.cur h off = true) → exec .gexit s = lost s1 c.code) ∧
        (∀ off gen, a = .err .homeOffline off gen → homeFailed s s.cur h off = false → exec .gexit s = .next s) ∧
        (∀ die lines, a = .far die lines → exec .gexit s = .next (askLines s1 s.cur h 11 die lines)) ∧
        (a = .stall → exec .gexit s = .next s))) ∧
    (∀ x : Frame, let y := freeFrame x
      y.disp.running = none ∧ y.gen.halted = true ∧ y.vec = x.vec ∧ y.sram = x.sram ∧ y.bead = x.bead ∧ y.clk = x.clk))

/-! ### The sequencer -/

/-- R116, R131, R143, R147, R150: at a boundary a bundle is taken, from the replay buffer in a later iteration of a
loop and else from the emit queue, where POS moves on by one; the divisors and formats due apply first, and the fences before it
stand from then on in the stream (R97). A well-formed bundle begins to issue; a bad one raises ILLEGAL_BUNDLE for its first
offending part and issues nothing. Each repetition hands one issue to every engine: the bundle's word on the first where the slot is
present, else the engine's current word advanced. After the last the control word is due, once the last sub-issue has begun, or the
bundle ends with that sub-issue (R171).
R113, R120, R121, R123, R128 to R131, R148, R242: what makes a bundle bad. A header whose bits [44:0] are not zero, a slot
word that is neither IDLE nor one of an assigned opcode with legal fields, a LOOP beside six active loops or whose body would
pass the end of the body around it; the part named is the header, else the first such slot, bead, vector, copy, control.
The load at which a hint moves the level, when the next repetition may follow, and that a fence stands in every iteration that meets
it are the model's readings (assumptions 8, 17 and 37). -/
def Obligations.BundleIssue : Prop :=
  (
  ∀ (q : Seq) (b : Bundle),
    let good (sl : SlotName) : Prop := ∀ w, b.word sl = some w → SlotWord sl w
    let fits : Prop := ∀ w, b.ctl = some w → fld w 56 8 = 1 → q.loops.length < 6 ∧
      ∀ l, q.loops.getLast? = some l → q.cursor + 1 + (fld w 49 7 + 1) ≤ l.start + l.len + 1
    let hdr := Zero b.hdr 0 45
    (¬ hdr → bundleFault q b = some 3) ∧
    (hdr → ¬ good .bead → bundleFault q b = some 0) ∧
    (hdr → good .bead → ¬ good .vector → bundleFault q b = some 1) ∧
    (hdr → good .bead → good .vector → ¬ good .copy → bundleFault q b = some 2) ∧
    (hdr → good .bead → good .vector → good .copy → ¬ (good .control ∧ fits) → bundleFault q b = some 3) ∧
    (hdr → good .bead → good .vector → good .copy → good .control → fits → bundleFault q b = none)) ∧
  ∀ s : State,
    let f := curFrame s
    let clk := applyDivisors f.clk
    let q := { f.seq with fmt := applyFmt f.seq.fmt }
    let its := f.seq.loops.map LoopEnt.iter
    (seqRuns f = true → f.seq.stage = .boundary → (f.ph.ordered = true → allPerformed f = true) →
      let replay := f.seq.loops ≠ [] ∧ f.seq.cursor < f.seq.rbuf.length
      let begins (e : Entry) (pos : Nat) (again : Bool) (q' : Seq) : Prop :=
        let c : CurBundle := { ent := e, pos := pos, rep := 0, lvl := bundleLevel s f e.bun.hdr, replayed := again }
        (bundleFault q e.bun = none → exec .bundleDecode s =
          .next (setCur s { f with clk := clk, seq := { q' with cur := some c, stage := .issuing } })) ∧
        (∀ part, bundleFault q e.bun = some part →
          let x : L2Fault := { n := f.seq.issueNo, slot := part, cls := .illegalBundle, pos := pos, rep := 0, iters := its, tag := e.tag, mem := none, final := false }
          exec .bundleDecode s = .next (setCur s { f with clk := clk, seq := q', ph := { f.ph with faults := f.ph.faults ++ [x] } }))
      (replay → ∀ e, f.seq.rbuf[f.seq.cursor]? = some e → 
        begins e (f.seq.pos - f.seq.rbuf.length + f.seq.cursor) true
          { q with fences := q.fences ++ e.fences.map fun x => { f := x, lim := q.issueNo } }) ∧
      (¬ replay → f.seq.queue[f.seq.taken]? = none → exec .bundleDecode s = .next (setCur s { f with clk := clk, seq := q })) ∧
      (¬ replay → ∀ e, f.seq.queue[f.seq.taken]? = some e →
        let fences : List StreamFence := e.fences.map fun x => { f := x, lim := q.issueNo }
        begins e f.seq.pos false { q with
          pos := (q.pos + 1) % 2 ^ 48, taken := q.taken + 1, kept := max q.kept (q.taken + 1),
          rbuf := if q.loops = [] then q.rbuf else q.rbuf ++ [e], fences := q.fences ++ fences })) ∧
    (∀ c, f.seq.cur = some c → seqRuns f = true → f.seq.stage = .issuing → roomForIssue f.seq = true →
      orderedReady f c = true → c.rep = 0 ∨ lastSub c.lvl ≤ f.seq.sub →
      let clk' := { f.clk with l1cnt := f.clk.l1cnt + (if c.lvl = 1 then 1 else 0),
                               l2cnt := f.clk.l2cnt + (if 2 ≤ c.lvl then 1 else 0) }
      ∃ (t : State) (x : Seq), exec .issueRepetition s = .next t ∧
        t = setCur s { f with seq := (curFrame t).seq, clk := clk' } ∧
        (curFrame t).seq = (if c.rep < hdrRepeat c.ent.bun.hdr then x
          else if c.ent.bun.ctl ≠ none ∨ c.lvl ≠ 0 then { x with stage := .control }
          else (finishBundle { f with seq := x } none none).seq) ∧
        x = { f.seq with qb := x.qb, qv := x.qv, qc := x.qc, wb := x.wb, wv := x.wv, wc := x.wc,
                         issueNo := f.seq.issueNo + 1, sub := 0, cur := some { c with rep := c.rep + 1 } } ∧
        ∀ sl : SlotName, sl ≠ .control →
          let own := if c.rep = 0 then c.ent.bun.word sl else none
          let w := own.getD (advance sl (curWord f.seq sl))
          curWord x sl = w ∧ (slotQ x sl).hold = (slotQ f.seq sl).hold ∧
          ∃ i, (slotQ x sl).q = (slotQ f.seq sl).q ++ [i] ∧ i =
            { n := f.seq.issueNo, w := w, adv := decide (sl = .copy ∧ own = none ∧ w ≠ 0), pos := c.pos, rep := c.rep,
              iters := its, tag := c.ent.tag, sub := subOf c.lvl sl, afmt := f.seq.fmt.afmt,
              wfmt := f.seq.fmt.wfmt, rows := [], preds := [] })

/-- R71, R151, R158, R171, R172: the next sub-issue begins once those before it are done, and ends the bundle when it is the
last and no control word is due; at a boundary the splitting level rises to at most 2 while the draw exceeds the share and falls
to no less than 0 while it is below 90 %, and the formats whose shadow has passed take effect; an engine's
head issue is tried again when what it waited for has come, and an issue or an instruction that waits on a MIGRATING
record, or on one that another package holds, when the record is read again. Otherwise none of these steps happens.
R98, R154, R160, R161, R163, R168, R327: a commit that is ready releases the withheld stores and add-reduces in order,
exchanges the halves of the regions with a swap pending and the banks whose shadow is in swap mode COMMIT, drops the
retained entries but those an open loop may replay, and starts the next phase: its log is empty and its snapshot is the
frame as it stands. What it releases has its place after every issue handed out (R98). One whose released work would pass 255, or
of whose writes another package has still to answer some, releases what fits and waits for the rest; from then on nothing of the phase rolls
back. With a fault of refused work waiting it ends so and reports the first of them, no entry left, once no event holds the frame.
That these steps may come at any time their condition holds is the model's (assumption 5). -/
def Obligations.SequencerEvents : Prop :=
  (
  ∀ s : State,
    let f := curFrame s
    let put (f' : Frame) : Out := .next (setCur s f')
    let boundary := f.seq.stage = .boundary
    (f.seq.sub < 3 ∧ subDone f = true →
      let f' := { f with seq := { f.seq with sub := f.seq.sub + 1 } }
      let last := f.seq.stage = .control ∧ ∃ c, f.seq.cur = some c ∧ c.ent.bun.ctl = none ∧ lastSub c.lvl ≤ f.seq.sub + 1
      (last → exec .subIssueStart s = put (finishBundle f' none none)) ∧ (¬ last → exec .subIssueStart s = put f')) ∧
    (¬ (f.seq.sub < 3 ∧ subDone f = true) → exec .subIssueStart s = .next s) ∧
    (boundary → 100 < drawPct s → exec .splitLevelRaise s = put { f with clk := { f.clk with level := min 2 (f.clk.level + 1) } }) ∧
    (boundary → drawPct s < 90 → exec .splitLevelLower s = put { f with clk := { f.clk with level := f.clk.level - 1 } }) ∧
    (¬ (boundary ∧ 100 < drawPct s) → exec .splitLevelRaise s = .next s) ∧
    (¬ (boundary ∧ drawPct s < 90) → exec .splitLevelLower s = .next s) ∧
    (boundary → ∃ m : Fmt, exec .fmtApply s = put { f with seq := { f.seq with fmt := m } } ∧
        m.pend = f.seq.fmt.pend.filter (fun p => decide (p.left ≠ 0)) ∧
        (m.afmt, m.wfmt) = (((f.seq.fmt.pend.filter fun p => decide (p.left = 0)).getLast?.map fun p =>
          (p.afmt, p.wfmt)).getD (f.seq.fmt.afmt, f.seq.fmt.wfmt))) ∧
    (¬ boundary → exec .fmtApply s = .next s) ∧
    (∀ sl e h, headOf f sl = some e → (slotQ f.seq sl).hold = some h →
      let free := put { f with seq := setSlotQ f.seq sl { q := (slotQ f.seq sl).q, hold := none } }
      (holdGone f sl e h = true → exec (.scoreboardRelease sl) s = free) ∧
      (holdGone f sl e h = false → exec (.scoreboardRelease sl) s = .next s) ∧
      (∀ x, h = .migrating x → exec (.translationRetry (some sl)) s = free) ∧
      (∀ d i lines, h = .record d i lines → exec (.translationRetry (some sl)) s = free)) ∧
    (∀ x, f.gen.stall = some (.translation x) →
      exec (.translationRetry none) s = put { f with gen := { f.gen with stall := none } })) ∧
  (
  ∀ s : State,
    let f := curFrame s
    let room := 255 - f.ph.released.length
    let may := (seqRuns f = true ∨ f.ph.closing = true) ∧ f.seq.stage = .commit ∧ commitReady f = true
    let all := f.ph.released.length + f.ph.stores.length + f.ph.adds.length ≤ 255 ∧ farOut f = false
    let rel (stores : List VStore) (adds : List CAdd) : List Released := f.ph.released ++
      stores.map (fun v => .store { v with place := f.seq.issueNo }) ++ adds.map fun a => .add { a with place := f.seq.issueNo }
    (¬ may → exec .phaseCommit s = .next s) ∧
    (may → ¬ all → exec .phaseCommit s = .next (setCur s { f with ph := { f.ph with
        released := rel (f.ph.stores.take room) (f.ph.adds.take (room - f.ph.stores.length)),
        stores := f.ph.stores.drop room, adds := f.ph.adds.drop (room - f.ph.stores.length),
        snap := { f.ph.snap with issueNo := f.seq.issueNo }, closing := true } })) ∧
    (may → all → f.ph.faults ≠ [] → f.disp.evHeld ≠ 0 → exec .phaseCommit s = .next s) ∧
    (may → all → f.disp.evHeld = 0 → ∀ e, earliest f.ph.faults = some e → e.final = true → ∃ t, exec .phaseCommit s = .next t ∧
      t = setCur s (curFrame t) ∧ let g := curFrame t
      g.ph.released = rel f.ph.stores f.ph.adds ∧ g.ph.pending = some false ∧ g.seq.queue = [] ∧ g.seq.stage = .faulted ∧
      g.gen.l2 = reportOf e false ∧ g.gen.h = { f.gen.h with l2pend := true } ∧ g.vec.rows = f.vec.rows ∧ g.vec.preds = f.vec.preds) ∧
    (may → all → f.ph.faults = [] →
    let keep := if f.seq.loops = [] then 0 else f.seq.rbuf.length
    ∃ t, exec .phaseCommit s = .next t ∧ t = setCur s (curFrame t) ∧
      let g := curFrame t
      g.ph = { f.ph with
        released := rel f.ph.stores f.ph.adds, logs := [], closing := false,
        stores := [], adds := [], undo := [], snap := takeSnap g, replays := 0, forced := false, ordered := false, eccSeen := [] } ∧
      g.seq = { f.seq with queue := f.seq.queue.drop (f.seq.taken - keep), taken := keep,
                           kept := f.seq.kept - (f.seq.taken - keep), stage := .boundary } ∧
      g.cpe = { f.cpe with des := f.cpe.des ^^^ f.cpe.pend, pend := 0 } ∧
      (∀ b a, tget f.bead.arrays b = some a → ∃ a', tget g.bead.arrays b = some a' ∧
        let swap := (if a.act then a.b0.swm else a.b1.swm) = true
        a'.act = (if swap then !a.act else a.act) ∧ a'.swapped = false ∧ a'.b0.touched = false ∧ a'.b1.touched = false ∧ a'.b0.w = a.b0.w ∧ a'.b1.w = a.b1.w ∧
        a'.b0.swm = (if swap then false else a.b0.swm) ∧ a'.b1.swm = (if swap then false else a.b1.swm)) ∧
      g = { f with ph := g.ph, seq := g.seq, cpe := g.cpe, bead := { f.bead with arrays := g.bead.arrays } }))

/-- R126, R147, R148, R155, R157, R158, R160: a control word that is due ends its bundle: IDLE and PHASE at once,
LOOP with its body pushed, SETFMT with its formats pending, WAITC and VJOIN once what they wait for holds. The formats
pending come one bundle nearer, and the bundle's end is followed by a commit if it asks for one. An IDLE of an engine
leaves its queue.
R147, R148: where the sequencer goes after a bundle. Outside every loop a LOOP opens an empty body buffer; in a
loop it opens its body at the next bundle. A bundle that ends a body leads to its first bundle while iterations remain,
else the loop ends, and the same question is asked of the loop around it.
That WAITC and VJOIN wait for the slots of their own bundle too, and VJOIN for every vector load, is the model's reading
(assumption 39; R155 and R157 name earlier bundles, and R157 writes to frame SRAM only). -/
def Obligations.ControlWords : Prop :=
  (
  ∀ s : State,
    let f := curFrame s
    (∀ c, f.seq.cur = some c → controlDue f = true →
      let ends (views : List ViewRec) (push : Option (Nat × Nat)) (set : Option (BeadFmt × BeadFmt)) : Out :=
        let nearer : List FmtPend := f.seq.fmt.pend.map fun p => { p with left := p.left - 1 }
        let new : List FmtPend := set.toList.map fun x => { left := 4, afmt := x.1, wfmt := x.2 }
        let q := { advanceLoops f.seq push with
          cur := none, stage := if asksCommit c.ent.bun = true then .commit else .boundary,
          fmt := { f.seq.fmt with pend := nearer ++ new } }
        .next (setCur s { f with sram := { f.sram with views := views }, seq := q })
      let same := f.sram.views
      let le (v : Nat) (lim : BitVec 8) : Prop := lim = 255 ∨ v ≤ lim.toNat
      exec (.idle .control) s = ends same none none ∧ exec .phase s = ends same none none ∧
      (∀ len cnt, exec (.loop len cnt) s = ends same (some (len.toNat, cnt.toNat)) none) ∧
      (∀ a w, exec (.setfmt a w) s = ends same none (some (a, w))) ∧
      (∀ ld st cp bs,
        let may := queuesEmpty f = true ∧ le (cntLD f) ld ∧ le (cntST f) st ∧ le (cntCP f) cp ∧ le (cntBS f) bs;
        (may → exec (.waitc ld st cp bs) s = ends same none none) ∧ (¬ may → exec (.waitc ld st cp bs) s = .next s)) ∧
      (let may := queuesEmpty f = true ∧ f.vec.loads = [] ∧ ∀ o ∈ f.cpe.ops, writesSram o = false;
        (may → exec .vjoin s = ends [] none none) ∧ (¬ may → exec .vjoin s = .next s))) ∧
    (∀ sl e, sl ≠ .control → headOf f sl = some e → exec (.idle sl) s = .next (setCur s { f with
      seq := setSlotQ f.seq sl { q := (slotQ f.seq sl).q.tail, hold := none } }))) ∧
  (
  ∀ (q : Seq) (len cnt : Nat),
    (q.loops = [] → advanceLoops q none = q ∧ advanceLoops q (some (len, cnt)) =
      { q with cursor := 0, rbuf := [], loops := [{ iter := 0, cnt := cnt, len := len, start := 0 }] }) ∧
    ∀ (out : List LoopEnt) (l : LoopEnt), q.loops = out ++ [l] →
      let c := q.cursor + 1
      let last := l.start + l.len + 1
      advanceLoops q (some (len, cnt)) =
        { q with cursor := c, loops := q.loops ++ [{ iter := 0, cnt := cnt, len := len, start := c }] } ∧
      (c ≠ last → advanceLoops q none = { q with cursor := c }) ∧
      (c = last → l.iter < l.cnt →
        advanceLoops q none = { q with cursor := l.start, loops := out ++ [{ l with iter := l.iter + 1 }] }) ∧
      (c = last → l.cnt ≤ l.iter → out ≠ [] → advanceLoops q none = advanceLoops { q with loops := out } none) ∧
      (c = last → l.cnt ≤ l.iter → out = [] → advanceLoops q none = { q with loops := [], cursor := 0, rbuf := [] }))

/-- R61, R162, R164, R165, R167, R206, R209: with faults raised, and the issues before them executed, the earliest one rolls
its phase back. Every row of the undo log is as the log holds it, the other rows as they were; position, loops, formats, current
words, predicates, condition flags, ports and FIFOs are those of the snapshot; withheld stores and add-reduces are dropped. The report
registers say what the fault was, and it waits for delivery; a recoverable class leaves the phase for its replay, any
other abandons it. The fences that stand before the phase still hold its accesses, and after an abandonment those of the
discarded entries too (R97, assumption 37). A rollback that cannot restore a bank reports WEIGHT_LOST in slot bead instead
(R255). The arrays' active banks, clip counts and stale flags are the snapshot's; an exposed bank that the phase wrote is zero again where
its source is ZERO, is fetched again where that is an object, and one it only named keeps its weights; every other bank is as it
was (R216). A replay after a CHECKSUM runs at forced full beam (R227, R234), and one that was forced stays so. Delivery enters the
thread's handler with the L2 bit and code 16 in L1CAUSE, or escalates; that of HOME_OFFLINE empties the L1 (R378). Neither comes
while an event holds the frame (R362), nor a rollback while a cancelled operation can still write.
R61, R167, R209: the report registers hold the fault's class, slot, position, loop iterations, repetition and emit
tag, and for a memory class the handle, the offset and the GEN.
Which fault counts as the earliest when several were raised is the model's reading (assumption 9). -/
def Obligations.RollbackAndDelivery : Prop :=
  (
  ∀ s : State,
    let f := curFrame s
    (∀ e, earliest f.ph.faults = some e → landed f = false → f.disp.fetch = [] → rollbackReady f = true →
      writesOut s = false → f.disp.evHeld = 0 → weightLost f = false → tblFrom 0 f.vec.rows = true → (f.ph.undo.map Prod.fst).Nodup →
      let recov := e.cls.recoverable = true ∧ e.final = false
      ∃ t, exec .rollback s = .next t ∧ t = setCur s (curFrame t) ∧
        let g := curFrame t
        let p := f.ph.snap
        (∀ r x, (r, x) ∈ f.ph.undo → tget g.vec.rows r = x) ∧
        (∀ r, (∀ x, (r, x) ∉ f.ph.undo) → tget g.vec.rows r = tget f.vec.rows r) ∧
        g.vec.preds = p.preds ∧ g.vec.cf = p.cf ∧ g.vec.ports = p.ports ∧ g.vec.fifos = p.fifos ∧ g.cpe.origins = p.origins ∧
        g.cpe.des = p.des ∧ g.cpe.pend = 0 ∧ g.bead.digital = p.digital ∧ g.bead.kg = p.kg ∧ g.bead.ng = p.ng ∧
        g.seq.wb = p.wb ∧ g.seq.wv = p.wv ∧ g.seq.wc = p.wc ∧ g.seq.fmt = p.fmt ∧ g.seq.cur = none ∧
        g.seq.stage = .faulted ∧ queuesEmpty g = true ∧ g.ph.undo = [] ∧ g.ph.stores = [] ∧ g.ph.adds = [] ∧
        g.ph.faults = [] ∧ g.ph.logs = [] ∧ g.ph.bindFault = false ∧ g.ph.released = f.ph.released ∧ g.gen.h = { f.gen.h with l2pend := true } ∧
        g.gen.l2 = reportOf e (decide recov) ∧
        (tblFrom 0 f.bead.arrays = true → ∀ b a, tget f.bead.arrays b = some a → ∃ a', tget g.bead.arrays b = some a' ∧
          a'.act = fbit p.actives b ∧ a'.clip = tgetD p.clip b 0 ∧ a'.staleF = fbit p.staleF b ∧ a'.swapped = false ∧
          ∀ one : Bool,
            let k := bankOf a one
            let k' := bankOf a' one
            let start := tgetD p.srcs b (.zero, .zero)
            let src := if one then start.2 else start.1
            let fmts := tgetD p.fmts b (.i8, .i8)
            let fmt := if one then fmts.2 else fmts.1
            let exposed := fbit p.actives b = one ∨ a.swapped = true
            let left := exposed ∧ k.touched = false ∧ k.filling = true ∧ k.got = false
            k'.touched = false ∧
            (exposed → k.touched = true → (src = .zero → k' = zeroBank) ∧
              (∀ h n o, src = .object h n o → (b, one) ∈ g.disp.fetch ∧
                k' = { k with src := src, fmt := fmt, filling := true, got := false, summed := false, swm := false, touched := false })) ∧
            (left → k' = { k with filling := false, src := src, fmt := fmt, swm := false, touched := false }) ∧
            (¬ left → ¬ (exposed ∧ k.touched = true) → k' = { k with touched := false } ∨
              (¬ recov ∧ k.filling = true ∧ k' = zeroBank))) ∧
        (recov → (g.ph.forced = true ↔ f.ph.forced = true ∨ e.cls = .checksum)) ∧ (¬ recov → g.ph.forced = false) ∧
        (recov → g.ph.pending = some true ∧ g.seq.pos = p.pos ∧ g.seq.taken = p.taken ∧ g.seq.loops = p.loops ∧
          g.seq.queue = f.seq.queue ∧ g.gen.emitSer = f.gen.emitSer ∧
          g.seq.fences = f.seq.fences.filter (fun x => decide (x.lim ≤ p.issueNo))) ∧
        (¬ recov → g.ph.pending = some false ∧ g.seq.pos = p.pos - p.taken ∧ g.seq.queue = [] ∧ g.seq.loops = [] ∧
          g.gen.emitSer = ((f.seq.queue.head?.map fun x => x.tag.ser).getD f.gen.emitSer) ∧
          g.seq.fences = f.seq.fences.filter (fun x => decide (x.lim ≤ p.issueNo)) ++
            (f.seq.queue.flatMap Entry.fences).map fun x => { f := x, lim := f.seq.issueNo })) ∧
    (∀ e, earliest f.ph.faults = some e → landed f = false → f.disp.fetch = [] → rollbackReady f = true →
      writesOut s = false → f.disp.evHeld = 0 → weightLost f = true → ∃ t, exec .rollback s = .next t ∧ t = setCur s (curFrame t) ∧
        (curFrame t).gen.l2 = reportOf { e with cls := .weightLost, slot := 0, mem := none } false ∧
        (curFrame t).ph.pending = some false ∧ (curFrame t).gen.h = { f.gen.h with l2pend := true } ∧
        (curFrame t).seq.queue = [] ∧ (curFrame t).seq.pos = f.ph.snap.pos - f.ph.snap.taken) ∧
    (landed f = true ∨ f.disp.fetch ≠ [] ∨ rollbackReady f = false ∨ writesOut s = true ∨ f.disp.evHeld ≠ 0 → exec .rollback s = .next s) ∧
    (f.gen.h.l2pend = true → f.gen.h.inH = false → f.gen.halted = false → f.disp.running.isSome = true →
      landed f = false → f.disp.fetch = [] → f.disp.evHeld = 0 → remBusy f = false →
      ∃ t, exec .l2FaultDelivery s = .next t ∧ t = setCur s (curFrame t) ∧
        let g := curFrame t
        g.gen.stall = none ∧ g.gen.resv = none ∧ g.gen.exiting = false ∧ g.gen.h.l2pend = false ∧ g.gen.l2 = f.gen.l2 ∧
        g.sram = { f.sram with l1 := if fld f.gen.l2.info 56 8 = 8 then [] else f.sram.l1 } ∧
        g.seen = (if fld f.gen.l2.info 56 8 = 8 then storageSeen s else f.seen) ∧
        g.seenBad = (if fld f.gen.l2.info 56 8 = 8 then s.poison else f.seenBad) ∧
        (fld f.gen.h.tvec 0 2 = 1 → g.gen.h.cause = 2 ^ 63 + 16 ∧ g.gen.h.tval = 0 ∧ g.gen.h.inH = true ∧
          g.gen.h.epc = f.gen.pc &&& ~~~1#64 ∧ g.gen.pc = f.gen.h.tvec &&& ~~~3#64 ∧ g.disp = f.disp) ∧
        (fld f.gen.h.tvec 0 2 ≠ 1 → g.gen.halted = true ∧ g.disp.fault = some .l2 ∧ g.gen.pc = f.gen.pc ∧
          (∃ r, g.disp.req = some r ∧ (r.why = .kill ∨ r.why = .escalate))))) ∧
  (
  ∀ (e : L2Fault) (recov : Bool),
    let r := reportOf e recov
    let it (i : Nat) := e.iters.getD i 0 % 2 ^ 16
    fld r.info 56 8 = e.cls.code ∧ fld r.info 54 2 = e.slot % 4 ∧ fbit r.info 53 = recov ∧
    fld r.info 50 3 = e.iters.length % 8 ∧ fld r.info 48 2 = 0 ∧ fld r.info 0 48 = e.pos % 2 ^ 48 ∧
    r.iterA.toNat = it 0 + 2 ^ 16 * it 1 + 2 ^ 32 * it 2 + 2 ^ 48 * it 3 ∧
    r.iterB.toNat = it 4 + 2 ^ 16 * it 5 + 2 ^ 32 * (e.rep % 2 ^ 12) ∧
    r.tagPc = e.tag.pc ∧ r.tagId = e.tag.ser ++ e.tag.tid ∧
    (∀ m, e.mem = some m → e.cls.code ≤ 8 → r.mem0.toNat = m.handle % 2 ^ 20 * 2 ^ 44 + m.off % 2 ^ 44 ∧
      r.mem1.toNat = 2 ^ 16 + m.gen % 2 ^ 16) ∧
    (e.mem = none ∨ 8 < e.cls.code → r.mem0 = 0 ∧ r.mem1 = 0))

/-! ### The vector engine -/

/-- R123, R257, R265, R277, R307: an operation of the lane kind whose issue is ready and whose sources can be read
computes, in every enabled lane and for every element of it, its result from the sources' elements; what goes to the
destination is those cells, and nothing in the other lanes. Once they are delivered the issue is over, and each enabled
lane's conditions are recorded. Reading sources changes nothing outside the frame, and no row or predicate.
R300, R301: the seeds of VRCP and VRSQ. The exact value 1/a or 1/√a, whose binade is q, is rounded to nearest, ties to even, to a
multiple N of 2^(q − 12), q raised to at least −137, at F32, and to the BF16 grid at BF16; from 2^128 on the seed is infinite,
with OF and NX. An inexact seed raises NX, and UF where it lies below the smallest normal. Zeros, infinities, NaNs and VRSQ
of a negative value are as the table of R301 says.
Below q = −137 the F32 grid is the one of R300's text, 2^(q − 12) (assumption 49). -/
def Obligations.LaneOperations : Prop :=
  (
  ∀ (s s1 s2 : State) (e : SlotIssue) (i : Instr) (g : Guard) (d : Opd) (t : ElemType) (srcs : List Opd)
    (op : List Nat → Nat × Cond) (vs : List (Nat → Cell32)),
    laneOp i = some (g, d, t, srcs, op) → Ready s .vector e i →
    let en := enabled s e g
    readSrcs s e (srcs.map fun o => (o, t, en)) = .ok vs s1 →
    let elem (L j : Nat) := op (vs.map fun v => elemOf t (v L) j)
    (s1 = { setCur s (curFrame s1) with freeCtr := s1.freeCtr } ∧ (curFrame s1).gen = (curFrame s).gen ∧ (curFrame s1).vec.rows = (curFrame s).vec.rows ∧
      (curFrame s1).vec.preds = (curFrame s).vec.preds) ∧
    ∃ cell : Nat → Cell32,
      (∀ L j, j < 4 / t.esz → elemOf t (cell L) j = if L ∈ en then (elem L j).1 % 2 ^ (8 * t.esz) else 0) ∧
      (deliver s1 e d (killsOf i) en cell = .ok () s2 →
        ∃ t', exec i s = .next t' ∧ Recorded s2 .vector en (fun L => laneConds (4 / t.esz) fun j => (elem L j).2) t')) ∧
  (
  ∀ f : FFmt, f ∈ [fmtF32, fmtBF16] →
    let zero : Cond := 0x08
    let bad : Nat × Cond := (f.nan, 0x10)
    frcp f .nan = (f.nan, 0) ∧ frsq f .nan = (f.nan, 0) ∧ (∀ n, frcp f (.inf n) = (fsigned f n 0, 0)) ∧
    frsq f (.inf false) = (0, 0) ∧ frsq f (.inf true) = bad ∧ (∀ m e, m ≠ 0 → frsq f (.fin true m e) = bad) ∧
    (∀ n e, frcp f (.fin n 0 e) = (fsigned f n f.inf, zero) ∧ frsq f (.fin n 0 e) = (fsigned f n f.inf, zero)) ∧
    ∀ (b : Nat) (n : Bool) (m : Nat) (e q : Int), b < 2 * f.sign → fdec f b = .fin n m e → m ≠ 0 →
      let g : Int := if f = fmtF32 then max q (-137) - 12 else max q (-126) - 7
      let seed (r : Nat × Cond) (half : Nat → Nat) (one : Nat) (x : Int) : Prop := ∃ N : Nat,
        let low := half (2 * N - 1)
        let high := half (2 * N + 1)
        let exact := Alike one 0 (half (2 * N)) x
        ¬ Below one 0 low x ∧ ¬ Below high x one 0 ∧ (Alike one 0 low x ∨ Alike one 0 high x → N % 2 = 0) ∧
        (¬ Below N g 1 128 → r = (fsigned f n f.inf, 0x05)) ∧
        (Below N g 1 128 → ∃ k i, r.1 < 2 * f.sign ∧ fdec f r.1 = .fin n k i ∧ Alike k i N g ∧
          (exact → r.2 = 0) ∧ (¬ exact → (Below N g 1 (-126) → r.2 = 0x03) ∧ (¬ Below N g 1 (-126) → r.2 = 0x01)))
      (¬ Below 1 0 m (e + q) → Below 1 0 m (e + q + 1) → seed (frcp f (.fin n m e)) (fun j => j * m) 2 (e + g)) ∧
      (n = false → ¬ Below 1 0 m (e + 2 * q) → Below 1 0 m (e + 2 * q + 2) →
        seed (frsq f (.fin n m e)) (fun j => j * j * m) 4 (e + 2 * g)))

/-- R121, R151, R162, R257, R258, R261, R264, R265, R268, R269: delivering a result. In a register operand each enabled lane's cell,
in the operand's row or along its column or diagonal, takes its value; the other cells of a row it writes keep what they
held, or are zero where the row was dead or killed. Rows that LAST kills and nothing writes are dead, every other row is
as it was, each changed row stands in the undo log, and the slates written are FULL. The rows it would log anew and those that issues
up to it have logged must fit the log's 256, else UNDO_OVERFLOW; where they do, and with those of later issues do not, the later
issue that is the first to pass 256 takes that fault (R28). A port of kind 3 with room takes the row with its disabled lanes zero. One of kind 2 takes the
first VLEN bytes of the row at A(p), those of disabled lanes excepted, and the granules written are full; SPAD_RANGE where a
byte of them does not map, and, at offset 0, where the port's set is unused, invalid or of another kind. Any other special
destination changes no row but those killed. -/
def Obligations.RowDelivery : Prop :=
  ∀ (s : State) (e : SlotIssue) (d : Opd) (kills en : List Nat) (cell : Nat → Cell32),
    let f := curFrame s
    let cells := if d.special then [] else en.map fun L => (opdCell d L).1
    let sib := siblingKills f .vector e.n
    let gone (r : Nat) : Prop := tget e.rows r = none ∧ (r ∈ kills ∨ (r ∈ sib ∧ r ∈ cells))
    tblFrom 0 f.vec.rows = true → (∀ L ∈ en, L < 64) → en.Nodup →
    let logs := (sortUniq (kills ++ cells)).filter fun r =>
      decide (r ∉ f.ph.undo.map Prod.fst ∧ (r ∈ cells ∨ ((tget f.vec.rows r).isSome = true ∧ tget e.rows r = none)))
    let kind := setKind f.vec d.port
    let p := tgetD f.vec.ports d.port 0
    let w (i : Nat) := psetWord f.vec d.port i
    let count (i : Nat) := if fld (w i) 24 24 = 0 then 2 ^ 24 else fld (w i) 24 24
    let step (i : Nat) : Int := ((w i).extractLsb' 0 24).toInt
    let a : Int := fld (w 0) 0 22 + (p % count 1 : Nat) * step 1 + (p / count 1 % count 2 : Nat) * step 2
    let len := fld (w 4) 0 9
    let run := spadList f false ((upto len).map fun (i : Nat) => a + (i : Int))
    (d.isPort = true → setValid f.vec d.port = false ∨ (kind ≠ 2 ∧ kind ≠ 3) →
      deliver s e d kills en cell = .fault .spadRange (some { handle := 0, off := 0, gen := 0 }) s) ∧
    (d.isPort = true → setValid f.vec d.port = true → kind = 2 → ∀ x, run = .inr x →
      deliver s e d kills en cell = .fault .spadRange (some { handle := 0, off := (x % 2 ^ 44).toNat, gen := 0 }) s) ∧
    (let me := issueFault e 1 .undoOverflow
     let after := f.ph.logs.filter fun y => faultBefore me y.1
     let mine := f.ph.undo.length + logs.length - (after.map Prod.snd).sum
     d.isPort = false → logs ≠ [] → (f.ph.logs.map Prod.snd).sum ≤ f.ph.undo.length →
     f.ph.logs.Pairwise (fun x y => faultBefore x.1 y.1 = true) →
      (256 < mine → deliver s e d kills en cell = .fault .undoOverflow none s) ∧
      (mine ≤ 256 → 256 < f.ph.undo.length + logs.length → ∃ y ∈ after, ∃ t, deliver s e d kills en cell = .ok () t ∧
        (curFrame t).ph.faults = f.ph.faults ++ [{ y.1 with cls := .undoOverflow, mem := none, final := false }] ∧
        256 < mine + ((after.filter fun z => !faultBefore y.1 z.1).map Prod.snd).sum ∧
        mine + ((after.filter fun z => faultBefore z.1 y.1).map Prod.snd).sum ≤ 256)) ∧
    (f.ph.undo.length + logs.length ≤ 256 →
    (d.isPort = true → setValid f.vec d.port = true ∧ ((kind = 3 ∧ (tgetD f.vec.fifos d.port []).length < 8) ∨
      (kind = 2 ∧ Memory.wf f.sram.cells = true ∧ ∃ as, run = .inl as))) →
    ∃ t, deliver s e d kills en cell = .ok () t ∧ t = setCur s (curFrame t) ∧
      let v := (curFrame t).vec
      (∀ r, r ∈ cells → ∃ row, tget v.rows r = some row ∧ ∀ c, c < 64 →
        (∀ L, L ∈ en → opdCell d L = (r, c) → lane row c = cell L) ∧
        ((∀ L, L ∈ en → opdCell d L ≠ (r, c)) → (gone r → lane row c = 0) ∧
          (¬ gone r → lane row c = lane ((tget f.vec.rows r).getD 0) c))) ∧
      (∀ r, r ∉ cells → (gone r → tget v.rows r = none) ∧ (¬ gone r → tget v.rows r = tget f.vec.rows r)) ∧
      (∀ r, tget v.rows r ≠ tget f.vec.rows r → ∃ x, (r, x) ∈ (curFrame t).ph.undo) ∧
      (∀ u, u ∈ f.ph.undo → u ∈ (curFrame t).ph.undo) ∧
      (∀ k, tget v.slates k = if k ∈ cells.map (· / 64) then some 0 else tget f.vec.slates k) ∧
      v.preds = f.vec.preds ∧ v.cf = f.vec.cf ∧ v.psets = f.vec.psets ∧ (curFrame t).gen = f.gen ∧
      (d.isPort = false → v.fifos = f.vec.fifos ∧ v.ports = f.vec.ports ∧ (curFrame t).sram = f.sram) ∧
      (d.isPort = true → kind = 3 → ∃ x : FifoVec, tgetD v.fifos d.port [] = tgetD f.vec.fifos d.port [] ++ [x] ∧ x.bad = false ∧
        tgetD v.ports d.port 0 = p + 1 ∧ x.scales = (w 3).extractLsb' 0 32 ∧ (curFrame t).sram = f.sram ∧
        ∀ L, L < 64 → lane x.row L = if L ∈ en then cell L else 0) ∧
      (d.isPort = true → kind = 2 → v.fifos = f.vec.fifos ∧ tgetD v.ports d.port 0 = p + 1 ∧ ∀ as, run = .inl as →
        let m := (curFrame t).sram
        let keyed := ((as.zip (upto len)).filter fun b => decide (b.2 / 4 ∈ en)).map fun b =>
          (sramKey f.sram.split (fbit (w 0) 22) b.1, (cell (b.2 / 4)).extractLsb' (8 * (b.2 % 4)) 8)
        (∀ k, memGet m.cells k = (written keyed k).getD (memGet f.sram.cells k)) ∧
        (∀ g, g ∈ m.full ↔ g ∈ f.sram.full ∨ ∃ k ∈ keyed, k.1 / 16 = g) ∧
        (∀ b, b < 64 → (fbit m.live b = true ↔ fbit f.sram.live b = true ∨ ∃ k ∈ keyed, k.1 / 65536 = b)) ∧
        m.split = f.sram.split ∧ m.l1 = f.sram.l1))

/-- R278 to R280: the integer element operations. Arithmetic is modulo 2^w, saturating arithmetic clamps and raises SAT
when it does; a shift by w or more leaves zero, or the sign in every bit.
R31 to R36, R296: floating elements. A sum, a product and a fused multiply-add of finite elements are their exact result rounded once;
every NaN result is the canonical one; a NaN operand raises nothing, an invalid operation IV; an exact zero sum is +0, or −0
rounding down. Rounding: a result that a finite element holds is that element and raises nothing; between two elements the mode
chooses, to nearest with ties to even, and NX is raised, UF too where the result rounded with an unbounded exponent is below the
smallest normal; what rounds past the largest finite is infinity, or the largest finite where the mode keeps it there, with OF and NX.
R297, R298: minimum and maximum give the lesser and greater operand bit for bit, −0 below +0, and the canonical NaN for a NaN;
comparison goes by value, +0 equal to −0, and a NaN makes only NE true. -/
def Obligations.ElementValues : Prop :=
  (
  ∀ (t : ElemType) (rm : RoundMode) (a b d : Nat), t ∈ [ElemType.s8, .n8, .s16, .n16, .s32, .n32] →
    let w := 8 * t.esz
    a < 2 ^ w → b < 2 ^ w → d < 2 ^ w →
    let A := BitVec.ofNat w a
    let B := BitVec.ofNat w b
    let signed := t = .s8 ∨ t = .s16 ∨ t = .s32
    let v (x : Nat) : Int := if signed then (BitVec.ofNat w x).toInt else x
    let lo : Int := if signed then -(2 ^ (w - 1)) else 0
    let hi : Int := if signed then 2 ^ (w - 1) - 1 else 2 ^ w - 1
    let wrap (z : Int) : Nat := (z % 2 ^ w).toNat
    let sat (z : Int) : Nat × Cond := (wrap (max lo (min hi z)), if lo ≤ z ∧ z ≤ hi then 0 else 0x20)
    addElem t rm false a b = (wrap (v a + v b), 0) ∧ addElem t rm true a b = sat (v a + v b) ∧
    subElem t rm false a b = (wrap (v a - v b), 0) ∧ subElem t rm true a b = sat (v a - v b) ∧
    mulElem t rm a b = (a * b % 2 ^ w, 0) ∧ mulhElem t a b = (wrap ((v a * v b) / 2 ^ w), 0) ∧
    v (minElem t a b) = min (v a) (v b) ∧ v (maxElem t a b) = max (v a) (v b) ∧
    Nat.land a (2 ^ w - 1 - b) = (A &&& ~~~B).toNat ∧ shlElem t a b = (A <<< b).toNat ∧
    shrElem t a b = (if signed then A.sshiftRight b else A >>> b).toNat ∧
    (w = 32 → fshlElem d a b = ((BitVec.ofNat 32 d ++ BitVec.ofNat 32 a) <<< (b % 64)).toNat / 2 ^ 32 ∧
      fshrElem d a b = ((BitVec.ofNat 32 d ++ BitVec.ofNat 32 a) >>> (b % 64)).toNat % 2 ^ 32) ∧
    (a = 0 → clzElem w a = w) ∧ (a ≠ 0 → clzElem w a < w ∧ 2 ^ (w - 1 - clzElem w a) ≤ a ∧ a < 2 ^ (w - clzElem w a)) ∧
    popNat a w = ((List.range w).filter fun k => a.testBit k).length ∧
    condElem t .eq a b = decide (v a = v b) ∧ condElem t .ne a b = decide (v a ≠ v b) ∧
    condElem t .lt a b = decide (v a < v b) ∧ condElem t .le a b = decide (v a ≤ v b)) ∧
  (
  ∀ (f : FFmt) (rm : RoundMode) (x : FVal), f ∈ [fmtF32, fmtBF16, fmtF16] →
    let val (n : Bool) (m : Nat) (e k : Int) : Int := (if n then -1 else 1) * ((m * 2 ^ (e - k).toNat : Nat) : Int)
    let nan : Nat × Cond := (f.nan, 0)
    let bad : Nat × Cond := (f.nan, 0x10)
    let inf (n : Bool) : Nat × Cond := (fsigned f n f.inf, 0)
    fadd f rm .nan x = nan ∧ fadd f rm x .nan = nan ∧ fmul f rm .nan x = nan ∧ fmul f rm x .nan = nan ∧
    (∀ d g, ffma f rm d .nan x g = nan ∧ ffma f rm d x .nan g = nan) ∧
    (∀ n, fadd f rm (.inf n) (.inf (!n)) = bad ∧ fadd f rm (.inf n) (.inf n) = inf n) ∧
    (∀ n k m e, fadd f rm (.inf n) (.fin k m e) = inf n ∧ fadd f rm (.fin k m e) (.inf n) = inf n) ∧
    (∀ n k, fmul f rm (.inf n) (.inf k) = inf (n != k) ∧
      ∀ d g, ffma f rm d (.inf n) (.inf k) g = fadd f rm d (.inf ((n != k) != g))) ∧
    (∀ n k m e, (m = 0 → fmul f rm (.inf n) (.fin k m e) = bad ∧ fmul f rm (.fin k m e) (.inf n) = bad ∧
        ∀ d g, ffma f rm d (.inf n) (.fin k m e) g = bad ∧ ffma f rm d (.fin k m e) (.inf n) g = bad) ∧
      (m ≠ 0 → fmul f rm (.inf n) (.fin k m e) = inf (n != k) ∧ fmul f rm (.fin k m e) (.inf n) = inf (n != k) ∧
        ∀ d g, ffma f rm d (.inf n) (.fin k m e) g = fadd f rm d (.inf ((n != k) != g)) ∧
          ffma f rm d (.fin k m e) (.inf n) g = fadd f rm d (.inf ((n != k) != g)))) ∧
    (∀ n m e k j i, fmul f rm (.fin n m e) (.fin k j i) = fround f rm (n != k) (m * j) (e + i) ∧
      (∀ d g, ffma f rm d (.fin n m e) (.fin k j i) g = fadd f rm d (.fin ((n != k) != g) (m * j) (e + i))) ∧
      let q := min e i
      let v := val n m e q + val k j i q
      (v ≠ 0 → fadd f rm (.fin n m e) (.fin k j i) = fround f rm (decide (v < 0)) v.natAbs q) ∧
      (v = 0 → fadd f rm (.fin n m e) (.fin k j i) =
        (fsigned f (if m = 0 ∧ n = k then n else decide (rm = .rdn)) 0, 0))) ∧
    (∀ (n : Bool) (m : Nat) (e : Int), fround f rm n 0 e = (fsigned f n 0, 0) ∧ (m ≠ 0 →
      let lt (m : Nat) (e : Int) (k : Nat) (i : Int) : Prop := m * 2 ^ (e - min e i).toNat < k * 2 ^ (i - min e i).toNat
      let away := (rm = .rup ∧ n = false) ∨ (rm = .rdn ∧ n = true)
      let tiny := match rm with
        | .rne => lt m e (2 ^ (f.fb + 2) - 1) (f.emin - f.fb - 2)
        | .rtz => lt m e 1 f.emin
        | .rup | .rdn => if away then ¬ lt (2 ^ (f.fb + 1) - 1) (f.emin - 1 - f.fb) m e else lt m e 1 f.emin
      (∀ b k i, b < f.inf → fdec f b = .fin false k i →
        (¬ lt m e k i → ¬ lt k i m e → fround f rm n m e = (fsigned f n b, 0)) ∧
        (lt k i m e → lt m e (k + 1) i →
          let mid := ¬ lt m e (2 * k + 1) (i - 1) ∧ ¬ lt (2 * k + 1) (i - 1) m e
          let up := away ∨ (rm = .rne ∧ (lt (2 * k + 1) (i - 1) m e ∨ (mid ∧ b % 2 = 1)))
          (¬ up → (tiny → fround f rm n m e = (fsigned f n b, 0x03)) ∧ (¬ tiny → fround f rm n m e = (fsigned f n b, 0x01))) ∧
          (up → b + 1 < f.inf → (tiny → fround f rm n m e = (fsigned f n (b + 1), 0x03)) ∧
            (¬ tiny → fround f rm n m e = (fsigned f n (b + 1), 0x01))) ∧
          (up → b + 1 = f.inf → fround f rm n m e = (fsigned f n f.inf, 0x05)))) ∧
      (¬ lt m e 1 (f.bias + 1) → fround f rm n m e =
        (fsigned f n (if rm = .rne ∨ away then f.inf else f.inf - 1), 0x05)))) ∧
    (∀ a b, a < 2 * f.sign → b < 2 * f.sign →
      let less (u v : FVal) : Prop := match u, v with
        | .inf n, .inf k => n = true ∧ k = false | .inf n, .fin .. => n = true | .fin .., .inf k => k = false
        | .fin n m e, .fin k j i => val n m e (min e i) < val k j i (min e i) | _, _ => False
      let same (u v : FVal) : Prop := match u, v with
        | .inf n, .inf k => n = k | .fin n m e, .fin k j i => val n m e (min e i) = val k j i (min e i) | _, _ => False
      let u := fdec f a
      let v := fdec f b;
      (u = .nan ∨ v = .nan → fmin f a b = f.nan ∧ fmax f a b = f.nan) ∧
      (u ≠ .nan → v ≠ .nan → (less u v → fmin f a b = a ∧ fmax f a b = b) ∧ (less v u → fmin f a b = b ∧ fmax f a b = a) ∧
        (same u v → fmin f a b = Nat.lor a b ∧ fmax f a b = Nat.land a b)) ∧
      (fcmp f .eq a b = true ↔ same u v) ∧ (fcmp f .ne a b = true ↔ ¬ same u v) ∧
      (fcmp f .lt a b = true ↔ less u v) ∧ (fcmp f .le a b = true ↔ less u v ∨ same u v))) ∧
  (
  ∀ (t : ElemType) (rm : RoundMode) (g : Bool) (d a b : Nat), t ∈ [ElemType.f32, .bf16, .f16] → b < 2 * t.ffmt.sign →
    let f := t.ffmt
    addElem t rm g a b = fadd f rm (fdec f a) (fdec f b) ∧ mulElem t rm a b = fmul f rm (fdec f a) (fdec f b) ∧
    subElem t rm g a b = fadd f rm (fdec f a) (fdec f (Nat.xor b f.sign)) ∧
    fmaElem t rm g d a b = ffma f rm (fdec f d) (fdec f a) (fdec f b) g ∧
    minElem t a b = fmin f a b ∧ maxElem t a b = fmax f a b ∧ ∀ c, condElem t c a b = fcmp f c a b)

/-- R281 to R285, R298: VCMP sets a bit of P in each enabled lane, one when every element meets the condition; PLOG
combines two predicates in the enabled bits; VSEL takes A in the enabled lanes and B in the others; VPERM takes the lane
of A that B selects, and VGATH the row and lane of A's slate. Each leaves its queue with its result delivered. -/
def Obligations.SelectAndMove : Prop :=
  ∀ (s s1 s2 : State) (e : SlotIssue),
    let fr := curFrame s
    let ended (t : State) : Out := .next (finished t .vector)
    let pred (t : State) (p : BitVec 4) (bit : Nat → Bool) : Prop :=
      (∀ L, L < 64 → fbit (tgetD (curFrame t).vec.preds p.toNat 0) L = bit L) ∧
      (∀ k, k ≠ p.toNat → tgetD (curFrame t).vec.preds k 0 = tgetD fr.vec.preds k 0)
    tblFrom 0 fr.vec.preds = true →
    (∀ f : VP, Ready s .vector e (.vcmp f) → let en := enabled s e f.g
      ∀ vs, readSrcs s e [(f.a, f.ty, en), (f.b, f.ty, en)] = .ok vs s1 →
      commitRows s1 .vector e (killsOf (.vcmp f)) [] = .ok () s2 →
      ∃ t, exec (.vcmp f) s = .next t ∧ pred t f.p (fun L => if L ∈ en then
          (upto (4 / f.ty.esz)).all fun j => condElem f.ty f.cond (elemOf f.ty (nthSrc vs 0 L) j) (elemOf f.ty (nthSrc vs 1 L) j)
        else fbit (tgetD fr.vec.preds f.p.toNat 0) L) ∧
        (curFrame t).vec.rows = (curFrame s2).vec.rows ∧ (slotQ (curFrame t).seq .vector).q = (slotQ fr.seq .vector).q.tail) ∧
    (∀ f : VPL, Ready s .vector e (.plog f) →
      let x := predSeen fr e f.pa.toNat
      let y := predSeen fr e f.pb.toNat
      let z := match f.op with | .and => x &&& y | .or => x ||| y | .xor => x ^^^ y | .andn => x &&& ~~~y
      ∃ t, exec (.plog f) s = .next t ∧ pred t f.p (fun L => if L ∈ enabled s e f.g then fbit z L
          else fbit (tgetD fr.vec.preds f.p.toNat 0) L) ∧
        (curFrame t).vec.rows = fr.vec.rows ∧ (slotQ (curFrame t).seq .vector).q = (slotQ fr.seq .vector).q.tail) ∧
    (∀ f : VR, Ready s .vector e (.vsel f) → let m := guardMask fr e f.g
      ∀ vs, readSrcs s e [(f.a, f.ty, lanesOf m), (f.b, f.ty, lanesOf (~~~m))] = .ok vs s1 →
      deliver s1 e f.d (killsOf (.vsel f)) lanes64 (fun L => if fbit m L then nthSrc vs 0 L else nthSrc vs 1 L) = .ok () s2 →
      exec (.vsel f) s = ended s2) ∧
    (∀ (f : VR) (pa pb : Option FifoVec) (x y : State), Ready s .vector e (.vperm f) → let en := enabled s e f.g
      popOpds s e [f.a, f.b] = .ok [pa, pb] x → checkSrcs x e [(f.b, en)] = .ok () y →
      let sel (L : Nat) := ((opdVal (curFrame y) e f.b f.ty pb L).extractLsb' 0 6).toNat
      checkSrcs y e [(f.a, en.map sel)] = .ok () s1 →
      deliver s1 e f.d (killsOf (.vperm f)) en (fun L => opdVal (curFrame s1) e f.a f.ty pa (sel L)) = .ok () s2 →
      exec (.vperm f) s = ended s2) ∧
    (∀ f : VR, Ready s .vector e (.vgath f) → let en := enabled s e f.g
      ∀ vs, readSrcs s e [(f.b, f.ty, en)] = .ok vs s1 →
      let row (L : Nat) := f.a.idx.toNat / 64 * 64 + ((nthSrc vs 0 L).extractLsb' 6 6).toNat
      let x := onCur s1 fun g => { g with vec := wakeReads g.vec (en.map row) }
      (∀ L ∈ en, (rowSeen (curFrame s1) e (row L)).isSome = true ∧
        (tget e.rows (row L) = none → row L ∉ (curFrame s1).vec.bad)) →
      deliver x e f.d (killsOf (.vgath f)) en (fun L =>
        lane ((rowSeen (curFrame s1) e (row L)).getD 0) ((nthSrc vs 0 L).extractLsb' 0 6).toNat) = .ok () s2 →
      exec (.vgath f) s = ended s2)

/-- R45, R223, R224, R235, R286, R299, R302 to R306, R309: a segmented reduction gives every enabled lane its group's
result by the tree of R45, disabled lanes standing as the operation's neutral element and a NaN as the canonical one (R32); VCVT converts element i, VQNT
packs the block of its 64 lanes and VDQT unpacks one; VFLAGS delivers condition flags, which form 1 clears, or the
staleness and clipping flags of the arrays.
R37, R303: the value of a converted element. Between floating formats and from an integer to one it is rounded once; to an integer
it is rounded and clamped, with IV where it clamps, for an infinity and for a NaN, which gives 0, else NX where it is not
an integer; between integers it is clamped, with SAT.
R40, R41, R43, R304: an unpacked element is its value times the scale, exactly, and the canonical NaN under scale 0xFF. Packing
a block takes the scale of its largest magnitude, and rounds and clamps every element; a block with a NaN or an infinity has scale 0xFF
and elements 0, one of zeros scale 0. The block image holds the planes of R42 from byte 0 up, the scale in byte 255 and zero elsewhere.
That the most negative element under scale 0xFE, −2^128, unpacks to −Inf is the model's choice (assumption 49).
The time in the staleness flags is the model's (assumption 5). -/
def Obligations.ReduceAndConvert : Prop :=
  (
  ∀ (s s1 s2 : State) (e : SlotIssue) (vs : List (Nat → Cell32)),
    let src := nthSrc vs 0
    let sum (i : Instr) (f : VK) (op : Nat → Nat → Nat × Cond) (ident : Nat) : Prop :=
      f.k ≠ 7 → Ready s .vector e i → let en := enabled s e f.g
      readSrcs s e [(f.a, f.ty, en)] = .ok vs s1 →
      let leaf (x : Nat) : Nat := if f.ty.isFl ∧ fdec f.ty.ffmt x = .nan then f.ty.ffmt.nan else x
      let elem (L j : Nat) := treeOf op (fun l => if l ∈ en then leaf (elemOf f.ty (src l) j) else ident) f.k.toNat (L / 2 ^ f.k.toNat)
      ∃ cell : Nat → Cell32,
        (∀ L j, j < 4 / f.ty.esz → elemOf f.ty (cell L) j = if L ∈ en then (elem L j).1 % 2 ^ (8 * f.ty.esz) else 0) ∧
        (deliver s1 e f.d (killsOf i) en cell = .ok () s2 →
          ∃ t, exec i s = .next t ∧ Recorded s2 .vector en (fun L => laneConds (4 / f.ty.esz) fun j => (elem L j).2) t)
    (∀ f : VK, sum (.vrsum f) f (addElem f.ty f.rm false) (if f.ty.isFl ∧ f.rm ≠ .rdn then f.ty.ffmt.sign else 0) ∧
      sum (.vrmax f) f (fun a b => (maxElem f.ty a b, 0))
        (if f.ty.isFl then f.ty.ffmt.sign + f.ty.ffmt.inf else if f.ty.isSigned then 2 ^ (8 * f.ty.esz - 1) else 0) ∧
      sum (.vrmin f) f (fun a b => (minElem f.ty a b, 0))
        (if f.ty.isFl then f.ty.ffmt.inf else if f.ty.isSigned then 2 ^ (8 * f.ty.esz - 1) - 1 else 2 ^ (8 * f.ty.esz) - 1)) ∧
    (∀ f : VCv, Ready s .vector e (.vcvt f) → let en := enabled s e f.g
      let n := 4 / f.ty.esz
      let count := 256 / max f.src.esz f.ty.esz
      readSrcs s e [(f.a, f.src, sortUniq (en.flatMap fun L => (cvtElems f.src f.ty L).map (cvtLane f.src)))] = .ok vs s1 →
      let elem (i : Nat) : Nat × Cond := if i < count then
        convert f.ty f.src f.rm (elemOf f.src (src (i * f.src.esz / 4)) (i % (4 / f.src.esz))) else (0, 0)
      ∃ cell : Nat → Cell32,
        (∀ L j, j < n → elemOf f.ty (cell L) j = if L ∈ en then (elem (L * n + j)).1 % 2 ^ (8 * f.ty.esz) else 0) ∧
        (deliver s1 e f.d (killsOf (.vcvt f)) en cell = .ok () s2 →
          ∃ t, exec (.vcvt f) s = .next t ∧ Recorded s2 .vector en (fun L => laneConds n fun j => (elem (L * n + j)).2) t)) ∧
    (∀ f : VU, Ready s .vector e (.vqnt f) → let en := enabled s e f.g
      en ≠ [] → readSrcs s e [(f.a, .f32, en)] = .ok vs s1 →
      let x := quantise f.ty f.rm ((upto 64).map fun L => if L ∈ en then fdec fmtF32 (src L).toNat else .fin false 0 0)
      deliver s1 e f.d (killsOf (.vqnt f)) lanes64 (lane (blockImage f.ty x.1 x.2)) = .ok () s2 →
      exec (.vqnt f) s = .next (finished s2 .vector)) ∧
    (∀ f : VCv, Ready s .vector e (.vdqt f) → let en := enabled s e f.g
      let takes := en.filter fun L => decide (L < 16 * f.ty.esz)
      readSrcs s e [(f.a, .n8, takes)] = .ok vs s1 →
      let byte (i : Nat) : Byte := (src (i / 4)).extractLsb' (8 * (i % 4)) 8
      let n := 4 / f.ty.esz
      ∃ cell : Nat → Cell32,
        (∀ L j, j < n → elemOf f.ty (cell L) j = if L ∈ takes then mxToF f.ty.ffmt f.src (byte 255).toNat
          (mxElem f.src byte (fun k => byte (mxSz1 f.src + k)) (L * n + j)) % 2 ^ (8 * f.ty.esz) else 0) ∧
        (deliver s1 e f.d (killsOf (.vdqt f)) en cell = .ok () s2 → exec (.vdqt f) s = .next (finished s2 .vector))) ∧
    (∀ f : VFl, Ready s .vector e (.vflags f) → let en := enabled s e f.g
      let fr := curFrame s
      let n := f.sel.toNat
      let arr := arrOf fr
      let val (L : Nat) : Cell32 := match n with
        | 0 | 1 => (cfOf fr.vec L).zeroExtend 32
        | 2 => BitVec.ofNat 32 ((if (arr L).staleF then 1 else 0) + if staleNow s (arr L) then 2 else 0)
        | 3 => (arr L).clip.extractLsb' 0 32 | _ => (arr L).clip.extractLsb' 32 32
      (n < 2 → deliver s e f.d [] en val = .ok () s2 → ∃ t cf, exec (.vflags f) s = .next t ∧
        t = finished (onCur s2 fun x => { x with vec := { x.vec with cf := cf } }) .vector ∧
        ∀ L, tblFrom 0 (curFrame s2).vec.cf = true → cfOf (curFrame t).vec L = if n = 1 ∧ L ∈ en then 0 else cfOf (curFrame s2).vec L) ∧
      (2 ≤ n → tget e.rows (1024 + n) = none → (∀ x ∈ fr.seq.qb.q, e.n ≤ x.n ∨ flagWork n x.w = false) →
        ∃ cell : Nat → Cell32, (∀ L, L < 64 → cell L = val L) ∧
          (deliver s e f.d [] en cell = .ok () s2 → exec (.vflags f) s = .next (finished s2 .vector))))) ∧
  (
  let ints : List ElemType := [.s8, .n8, .s16, .n16, .s32, .n32]
  let floats : List ElemType := [.f32, .bf16, .f16]
  let width (t : ElemType) : Nat := 8 * t.esz
  let signed (t : ElemType) : Prop := t = .s8 ∨ t = .s16 ∨ t = .s32
  let lo (t : ElemType) : Int := if signed t then -(2 ^ (width t - 1)) else 0
  let hi (t : ElemType) : Int := if signed t then 2 ^ (width t - 1) - 1 else 2 ^ width t - 1
  let val (t : ElemType) (b : Nat) : Int := if signed t then (BitVec.ofNat (width t) b).toInt else b
  let bits (t : ElemType) (z : Int) : Nat := (z % 2 ^ width t).toNat
  let clamp (t : ElemType) (z : Int) : Int := max (lo t) (min (hi t) z)
  ∀ (src dst : ElemType) (rm : RoundMode) (b : Nat), b < 2 ^ width src →
    (src ∈ ints → dst ∈ ints → convert dst src rm b =
      (bits dst (clamp dst (val src b)), if clamp dst (val src b) = val src b then 0 else 0x20)) ∧
    (src ∈ ints → dst ∈ floats → convert dst src rm b = fround dst.ffmt rm (decide (val src b < 0)) (val src b).natAbs 0) ∧
    (src ∈ floats → dst ∈ floats → match fdec src.ffmt b with
      | .nan => convert dst src rm b = (dst.ffmt.nan, 0)
      | .inf n => convert dst src rm b = (fsigned dst.ffmt n dst.ffmt.inf, 0)
      | .fin n m e => convert dst src rm b = fround dst.ffmt rm n m e) ∧
    (src ∈ floats → dst ∈ ints → match fdec src.ffmt b with
      | .nan => convert dst src rm b = (0, 0x10)
      | .inf n => convert dst src rm b = (bits dst (if n then lo dst else hi dst), 0x10)
      | .fin n m e => ∃ z, RoundsTo rm n m e z ∧
        (clamp dst z ≠ z → convert dst src rm b = (bits dst (clamp dst z), 0x10)) ∧
        (clamp dst z = z → ((∃ k : Nat, Alike k 0 m e) → convert dst src rm b = (bits dst z, 0)) ∧
          ((∀ k : Nat, ¬ Alike k 0 m e) → convert dst src rm b = (bits dst z, 0x01))))) ∧
  (
  ∀ (t : ElemType) (w : Nat), (t, w) ∈ [(ElemType.mx8, 8), (.mx6, 6), (.mx4, 4)] →
    (∀ (f : FFmt) (E q : Nat), f ∈ [fmtF32, fmtBF16] → E < 256 → q < 2 ^ w →
      let v := (BitVec.ofNat w q).toInt
      let x : Int := E - 127 - (w - 2)
      (E = 255 → mxToF f t E q = f.nan) ∧
      (E < 255 → (E = 254 ∧ v = -(2 ^ (w - 1)) → mxToF f t E q = fsigned f true f.inf) ∧
        (¬ (E = 254 ∧ v = -(2 ^ (w - 1))) → ∃ k i, mxToF f t E q < 2 * f.sign ∧
          fdec f (mxToF f t E q) = .fin (decide (v < 0)) k i ∧ Alike k i v.natAbs x))) ∧
    (∀ (rm : RoundMode) (xs : List FVal),
      let odd (x : FVal) : Prop := x = .nan ∨ ∃ n, x = .inf n
      let none : Prop := ∀ n m e, FVal.fin n m e ∈ xs → m = 0
      let r := quantise t rm xs
      ((∃ x ∈ xs, odd x) → r = (255, xs.map fun _ => 0)) ∧
      ((∀ x ∈ xs, ¬ odd x) → none → r = (0, xs.map fun _ => 0)) ∧
      ((∀ x ∈ xs, ¬ odd x) → ¬ none → ∃ X : Int,
        (∀ n m e, FVal.fin n m e ∈ xs → Below m e 1 (X + 1)) ∧ (∃ n m e, FVal.fin n m e ∈ xs ∧ ¬ Below m e 1 X) ∧
        let Y := max X (-127)
        r.1 = (Y + 127).toNat ∧ r.2.length = xs.length ∧ ∀ (i : Nat) n m e, xs[i]? = some (FVal.fin n m e) → ∃ z,
          RoundsTo rm n m (e + (w - 2) - Y) z ∧ r.2[i]? = some (max (-((2 : Int) ^ (w - 1))) (min ((2 : Int) ^ (w - 1) - 1) z)))) ∧
    (∀ (E : Nat) (qs : List Int), qs.length = 64 →
      let B (k : Nat) : Nat := fld (blockImage t E qs) (8 * k) 8
      let el (i : Nat) : Nat := (qs.getD i 0 % 2 ^ w).toNat
      let used := match t with | .mx8 => 64 | .mx6 => 48 | _ => 32
      B 255 = E % 256 ∧ (∀ k, used ≤ k → k < 255 → B k = 0) ∧
      ∀ i, i < 64 → (w = 8 → B i = el i) ∧ (w ≠ 8 → B (i / 2) / 16 ^ (i % 2) % 16 = el i % 16) ∧
        (w = 6 → B (32 + i / 4) / 4 ^ (i % 4) % 4 = el i / 16)) ∧
    ∀ (p1 p2 : Nat → Byte) (i : Nat),
      let low := (p1 (i / 2)).toNat / 16 ^ (i % 2) % 16
      (w = 8 → mxElem t p1 p2 i = (p1 i).toNat) ∧ (w = 4 → mxElem t p1 p2 i = low) ∧
      (w = 6 → mxElem t p1 p2 i = low + 16 * ((p2 (i / 4)).toNat / 4 ^ (i % 4) % 4)))

/-! ### Vector memory -/

/-- R75, R76, R258, R268, R274, R275, R287 to R289, R291: a frame-SRAM load with an enabled element reads the bytes of its enabled
elements at the image address, 16-byte aligned or, for VLDU, as it stands; with FE they must all be full, and CLEAR
empties their granules. The enabled bytes, and those past the image, take the image's, a register row's other bytes stay, or are
zero where the issue kills the row.
R75 to R78, R274, R275, R287 to R289, R291: a frame-SRAM store writes the bytes of its enabled elements and no
other, makes their granules full and their banks live; VFEC empties the granules of its enabled elements 0 to 15 and
keeps the data. VBREL keeps the data of the live banks it names and marks them retained, or releases them: they are
dead, read as nothing, and every other bank is as before.
A read through the other view before a VJOIN is free (assumption 28). -/
def Obligations.ScratchpadAccess : Prop :=
  (
  ∀ (s s1 s2 s4 : State) (e : SlotIssue) (f : VM) (swz : Bool) (base : Nat) (as : List Nat) (bs : List Byte) (any : Bool),
    let i : Instr := if any then .vldu f else .vld f
    let en := enabled s e f.g
    let esz := f.ty.esz
    Ready s .vector e i → en ≠ [] → readAddr s e f.addr en = .ok () s1 → sramBase (curFrame s1) f.pset.toNat = some (swz, base) →
    let fr := curFrame s1
    let x := (opdVal fr e f.addr .n32 none 0).toInt
    let a : Int := if any then base + x else (base + 16 * x) / 16 * 16
    let idx := en.flatMap fun k => (upto esz).map fun j => esz * k + j
    spadList fr false (idx.map fun (k : Nat) => a + (k : Int)) = .inl as →
    let gs := sortUniq (as.map fun p => sramKey fr.sram.split swz p / 16)
    (f.fe ≠ .none → ∀ g ∈ gs, g ∈ fr.sram.full) → sramRead s1 swz as = .ok bs s2 →
    let s3 := if f.fe = .clear then onCur s2 fun c => { c with sram := { c.sram with full := c.sram.full.filter fun g => !gs.contains g } }
      else s2
    let mask (b : Nat) : Bool := if 64 * esz ≤ b then true else decide (b / esz ∈ en)
    let img := imageRow idx bs
    (deliverLoad s3 e f.data (killsOf i) img mask false = .ok () s4 → exec i s = .next (finished s4 .vector)) ∧
    (∀ k, k < idx.length → rowByte img (idx.getD k 0) = bs.getD k 0) ∧
    (∀ b, b < 256 → b ∉ idx → rowByte img b = 0) ∧
    (fr.sram.views = [] → bs = as.map fun p => memGet fr.sram.cells (sramKey fr.sram.split swz p)) ∧
    (f.data.special = false → deliverLoad s3 e f.data (killsOf i) img mask false = .ok () s4 →
      let r := f.data.idx.toNat
      let killed := r ∈ killsOf i ∨ r ∈ siblingKills (curFrame s3) .vector e.n
      ∀ b, b < 256 → (¬ killed → rowByte ((tget (curFrame s4).vec.rows r).getD 0) b =
          if mask b = true then rowByte img b else rowByte ((tget (curFrame s3).vec.rows r).getD 0) b) ∧
        (killed → tget e.rows r = none → rowByte ((tget (curFrame s4).vec.rows r).getD 0) b =
          if mask b = true then rowByte img b else 0))) ∧
  (
  ∀ (s s0 s1 s2 : State) (e : SlotIssue) (swz : Bool) (base : Nat) (as : List Nat) (row : Row),
    (∀ (f : VM) (any : Bool), let i : Instr := if any then .vstu f else .vst f
      let en := enabled s e f.g
      let esz := f.ty.esz
      Ready s .vector e i → en ≠ [] → storeData s e f.data (dataLanes esz en) = .ok row s0 →
      readAddr s0 e f.addr en = .ok () s1 → sramBase (curFrame s1) f.pset.toNat = some (swz, base) →
      let fr := curFrame s1
      let x := (opdVal fr e f.addr .n32 none 0).toInt
      let a : Int := if any then base + x else (base + 16 * x) / 16 * 16
      let idx := en.flatMap fun k => (upto esz).map fun j => esz * k + j
      spadList fr false (idx.map fun (k : Nat) => a + (k : Int)) = .inl as →
      commitRows s1 .vector e (killsOf i) [] = .ok () s2 → Memory.wf fr.sram.cells = true →
      let keyed := (as.map (sramKey fr.sram.split swz)).zip (idx.map (rowByte row))
      ∃ t, exec i s = .next t ∧ t.mem = s.mem ∧ (∃ m, t = finished (onCur s2 fun c => { c with sram := m }) .vector) ∧
        let m := (curFrame t).sram
        (∀ k, memGet m.cells k = (written keyed k).getD (memGet fr.sram.cells k)) ∧
        (∀ g, g ∈ m.full ↔ g ∈ fr.sram.full ∨ ∃ k ∈ keyed, k.1 / 16 = g) ∧
        (∀ b, b < 64 → (fbit m.live b = true ↔ fbit fr.sram.live b = true ∨ ∃ k ∈ keyed, k.1 / 65536 = b)) ∧
        m.split = fr.sram.split ∧ m.l1 = fr.sram.l1) ∧
    (∀ f : VFe, let en := enabled s e f.g
      Ready s .vector e (.vfec f) → en ≠ [] → readAddr s e f.addr en = .ok () s1 →
      sramBase (curFrame s1) f.pset.toNat = some (swz, base) →
      let fr := curFrame s1
      let a : Int := (base + 16 * (opdVal fr e f.addr .n32 none 0).toInt) / 16 * 16
      spadList fr false ((en.filter fun L => decide (L < 16)).map fun (L : Nat) => a + 16 * (L : Int)) = .inl as →
      commitRows s1 .vector e (killsOf (.vfec f)) [] = .ok () s2 →
      let gs := as.map fun p => sramKey fr.sram.split swz p / 16
      let emptied (m : Sram) : Sram := { m with full := m.full.filter fun g => !gs.contains g }
      exec (.vfec f) s = .next (finished (onCur s2 fun c => { c with sram := emptied c.sram }) .vector)) ∧
    (∀ f : VBr, let m := (curFrame s).sram
      let named (b : Nat) : Prop := b ∈ enabled s e f.g ∧ b < 4 * m.split
      (Ready s .vector e (.vbrelRet f) → ∃ r, exec (.vbrelRet f) s =
          .next (finished (onCur s fun c => { c with sram := { m with retain := r } }) .vector) ∧
        ∀ b, b < 64 → (fbit r b = true ↔ fbit m.retain b = true ∨ (named b ∧ fbit m.live b = true))) ∧
      (Ready s .vector e (.vbrelOff f) → ∃ x : Sram, exec (.vbrelOff f) s =
          .next (finished (onCur s fun c => { c with sram := x }) .vector) ∧
        (∀ k, memGet x.cells k = if named (k / 65536) then 0 else memGet m.cells k) ∧
        (∀ b, b < 64 → (fbit x.live b = true ↔ fbit m.live b = true ∧ ¬ named b) ∧
          (fbit x.retain b = true ↔ fbit m.retain b = true ∧ ¬ named b)) ∧
        (∀ g, g ∈ x.full ↔ g ∈ m.full ∧ ¬ named (g / 4096)) ∧ x.split = m.split ∧ x.l1 = m.l1)))

/-- R62, R92, R98, R99, R105, R107, R287, R290, R292: VLDG reads its enabled elements through its handle, under the thread's own
stores, and counts under LD until its row is written, which VLDG_DATA_RETURN does for the oldest; a byte that a store of the
generator has written, which the load may precede (R96), may be the one before that store. Lines of another package are asked
for (R370), and an earlier request for one of its lines is waited for (R92). VSTG is withheld, with the device address and the byte of each enabled element: storage is as it was. Committed, and its
home serving it, those of its bytes that the partition still holds are written and no others (R374); with its home away it waits, and
bytes of another package are sent there. VAMO makes its lanes' atomics in ascending order, each one read and write, in frame SRAM or at
the home; it waits for released stores that it must follow, and a release for the replies to earlier loads and atomics (R99).
R93, R292: each lane's atomic reads what the lanes before it left, writes its new value there and nothing else, and answers what it
read; one that comes before a store of the generator to a byte (R96) finds what was there before that store, which stands over it.
R292: the new value of each atomic.
That VLDG and VAMO read when they issue, and what a release VAMO waits for, are the model's readings (assumptions 12 and 40); that
a load in another package asks for whole lines of 128 bytes, an atomic makes one request for each lane's piece, and the row
comes with the last reply, is its choice (assumption 23). -/
def Obligations.GlobalAccess : Prop :=
  ∀ (s s0 s1 s2 s3 : State) (e : SlotIssue) (h org : Nat) (das : List Nat) (ent : RcEnt) (vs : List (Nat → Cell32)) (row : Row),
    let same (t : State) : Prop := t.mem = s.mem ∧ t.discarded = s.discarded ∧ t.poison = s.poison
    let held : Out := .next (setCur s (holdHead (curFrame s) .vector .load))
    let offs (esz a : Nat) (en : List Nat) := (imageIdx esz en).map (a + ·)
    (∀ f : VM, let en := enabled s e f.g
      let esz := f.ty.esz
      Ready s .vector e (.vldg f) → en ≠ [] → readAddr s e f.addr en = .ok () s1 →
      globBase (curFrame s1) f.pset.toNat = some (h, org) → (curFrame s1).vec.loads.length < 255 →
      let fr := curFrame s1
      let k := f.data.port
      (f.data.isPort = true → setValid fr.vec k = true ∧ (setKind fr.vec k = 2 ∨ setKind fr.vec k = 3) ∧ (tgetD fr.vec.fifos k []).length < 8) →
      let x := org + (opdVal fr e f.addr .n32 none 0).toNat
      let a := x / esz * esz
      engXlate s1 h needR (offs esz a en) = .ok (das, ent) s2 →
      let g := gload s2 das f.ord f.scope
      let lines := farLines (curFrame s2) das f.scope
      let own := ownStores (curFrame s2)
      let r := seeLoad s2 e.tag.ser own das f.ord f.scope
      let some' (val : Row) (poison : Bool) (far : Option Far) : GLoad := {
        n := e.n, iss := e, dst := f.data, handle := h, poison := poison, val := val, far := far, gen := recGen ent.words,
        mask := maskBits ((upto 256).filter (loadMask esz en)) }
      let flies (x : State) (l : GLoad) : Prop := startLoad x e (killsOf (.vldg f)) l = .ok () s3 →
        exec (.vldg f) s = .next (finished s3 .vector) ∧ same s3 ∧ (curFrame s3).vec.loads = fr.vec.loads ++ [l] ∧
        cntLD (curFrame s3) = cntLD fr + 1
      let pending := linesPending (curFrame s2) e.n das || farBusy s2 (lines.map (128 * ·))
      (∀ (k a : Nat) (b : Byte), das[k]? = some a → g.1[k]? = some b → ∃ x, r.1[k]? = some ((written own a).getD x) ∧
        (x = b ∨ ∃ y ∈ lateAt (curFrame s2) false e.tag.ser a, x = y.old)) ∧
      (pending = true → exec (.vldg f) s = held) ∧
      (pending = false → lines = [] → flies r.2 (some' (imageRow (imageIdx esz en) r.1)
        (loadBad s2 (curFrame s2).sram das f.scope) none)) ∧
      (pending = false → lines ≠ [] → flies (sendRemote s2 s2.cur e.n
          { work := 7, ty := 1, rel := false, die := recHomeDie ent.words, handle := h } (fun _ => false)
          (lines.flatMap fun l => (upto 128).map fun i => (128 * l + i, 0)))
        (some' 0 false (some {
          das := das, offs := offs esz a en, idx := imageIdx esz en, own := own, ord := f.ord, scope := f.scope, amo := none })))) ∧
    (∀ l r, (curFrame s).vec.loads = l :: r → l.far = none →
      let x := deliverLoad (onCur s fun c => { c with vec := { c.vec with loads := r } }) l.iss l.dst [] l.val (fun b => fbit l.mask b) l.poison
      (x = .ok () s1 → exec .vldgDataReturn s = .next s1 ∧ (curFrame s1).vec.loads = r ∧ s1.mem = s.mem) ∧
      (∀ c m, x = .fault c m s1 → exec .vldgDataReturn s = .next (onCur s1 fun g => { g with ph := { g.ph with faults := g.ph.faults ++
        [{ n := l.n, slot := 1, cls := c, pos := l.iss.pos, rep := l.iss.rep, iters := l.iss.iters, tag := l.iss.tag, mem := m, final := false }] } }))) ∧
    (∀ f : VM, let en := enabled s e f.g
      let esz := f.ty.esz
      Ready s .vector e (.vstg f) → en ≠ [] → storeData s e f.data (dataLanes esz en) = .ok row s0 →
      readAddr s0 e f.addr en = .ok () s1 → globBase (curFrame s1) f.pset.toNat = some (h, org) →
      let x := org + (opdVal (curFrame s1) e f.addr .n32 none 0).toNat
      let a := x / esz * esz
      engXlate s1 h needW (offs esz a en) = .ok (das, ent) s2 → commitRows s2 .vector e (killsOf (.vstg f)) [] = .ok () s3 →
      ∃ (t : State) (v : VStore), exec (.vstg f) s = .next t ∧ same t ∧
        t = finished (onCur s3 fun c => { c with ph := { c.ph with stores := c.ph.stores ++ [v] } }) .vector ∧
        v.n = e.n ∧ v.handle = h ∧ v.gen = recGen ent.words ∧ v.ord = f.ord ∧ v.scope = f.scope ∧ v.off = a ∧ v.data = row ∧ v.die = recHomeDie ent.words ∧
        (∀ b, b < 256 → (fbit v.mask b = true ↔ b ∈ imageIdx esz en)) ∧
        storeBytes v = das.zip ((imageIdx esz en).map (rowByte row))) ∧
    (∀ v rest, takeFirst relStore (curFrame s).ph.released = some (v, rest) → Memory.wf s.mem = true →
      let bs := storeBytes v
      let mine := bs.filter fun b => decide (homeOf b.1 = 4 ∨ (dieOf s (homeOf b.1)).part = curPart s)
      (homesServe s (bs.map Prod.fst) = false → exec .storePerformed s = .next s) ∧
      (homesServe s (bs.map Prod.fst) = true → (∀ b ∈ bs, isRemote b.1 = false) →
        ∃ t, exec .storePerformed s = .next t ∧ (∀ a, memSeen t a = (written mine a).getD (memSeen s a) ∨
            (memSeen t a = memSeen s a ∧ lateAt (curFrame s) false v.ser a ≠ [])) ∧ (curFrame t).ph = { (curFrame s).ph with released := rest } ∧
          (curFrame t).gen = (curFrame s).gen ∧ OthersKept s t) ∧
      (homesServe s (bs.map Prod.fst) = true → (∃ b ∈ bs, isRemote b.1 = true) →
        (farBusy s (bs.map Prod.fst) = true → exec .storePerformed s = .next s) ∧
        (farBusy s (bs.map Prod.fst) = false → exec .storePerformed s = .next (sendRemote s s.cur v.n
          { work := 0, ty := 3, rel := decide (v.ord = .rel), die := v.die, handle := v.handle } (fun _ => false) bs)))) ∧
    (∀ f : VAm, let en := enabled s e f.g
      Ready s .vector e (.vamo f) → en ≠ [] → readSrcs s e [(f.data, f.ty, en), (f.addr, .n32, en)] = .ok vs s1 →
      let fr := curFrame s1
      let val (L : Nat) := (nthSrc vs 0 L).toNat
      let addr (L : Nat) : Cell32 := opdVal fr e f.addr .n32 none L &&& ~~~3#32
      (setKind fr.vec f.pset.toNat = 5 → globBase fr f.pset.toNat = some (h, org) → fr.vec.loads.length < 255 →
        engXlate s1 h needRW (en.flatMap fun L => (upto 4).map fun j => org + (addr L).toNat + j) = .ok (das, ent) s2 →
        let rel := (curFrame s2).ph.released.flatMap fun r => match r with | .store v => storeBytes v | .add _ => []
        let order := f.ord = .rel ∨ f.ord = .ar
        let waits := (order ∧ rel ≠ []) ∨ ∃ b ∈ rel, b.1 ∈ das
        let behind := linesPending (curFrame s2) e.n das = true ∨ (order ∧ farPending (curFrame s2) e.n = true) ∨ farBusy s2 das = true
        (¬ waits → behind → exec (.vamo f) s = held) ∧
        (waits → exec (.vamo f) s = .next (setCur s (holdHead (curFrame s) .vector .store))) ∧
        (¬ waits → ¬ behind → (∃ a ∈ das, isRemote a = true) →
          let ops := en.map val
          let pieces := ((fours das).zip ops).map fun y => (y.1.headD 0, leOf y.2 4)
          let k : ReqKind := {
            work := 8, ty := 5, rel := decide (order ∧ f.scope = .sys), die := recHomeDie ent.words, amo := amoFlit f.op f.ty,
            fp := decide (f.ty = .f32 ∧ (f.op = .add ∨ f.op = .min ∨ f.op = .max)), handle := h }
          let l : GLoad := {
            n := e.n, iss := e, dst := f.data, val := 0, mask := maskBits (imageIdx 4 en), poison := false, handle := h, gen := recGen ent.words,
            far := some { das := pieces.map (·.1), offs := en.map fun L => org + (addr L).toNat, idx := en, own := [], ord := f.ord, scope := f.scope, amo := some (f.op, f.ty, ops) } }
          startLoad (pieces.foldl (sendPiece s2.cur e.n k fun _ => false) s2) e (killsOf (.vamo f)) l = .ok () s3 →
          exec (.vamo f) s = .next (finished s3 .vector)) ∧
        (¬ waits → ¬ behind → Near das →
        let x := globAtomics s2 e.tag.ser f.op f.ty (en.zip ((fours das).zip (en.map val)))
        let s' := if f.scope ≠ .fr ∧ (f.ord = .acq ∨ f.ord = .ar) then vAcquire x.1 else x.1
        let l : GLoad := {
          n := e.n, iss := e, dst := f.data, val := rowOf fun L => BitVec.ofNat 32 (tgetD x.2 L 0),
          mask := maskBits (imageIdx 4 en), poison := poisoned s2 das, handle := h, gen := recGen ent.words }
        startLoad s' e (killsOf (.vamo f)) l = .ok () s3 → exec (.vamo f) s = .next (finished s3 .vector))) ∧
      (∀ swz base as seen, setKind fr.vec f.pset.toNat ≠ 5 → sramBase fr f.pset.toNat = some (swz, base) →
        spadList fr false (en.flatMap fun L => (upto 4).map fun (j : Nat) => (base : Int) + (addr L).toInt + (j : Int)) = .inl as →
        sramLook s1 swz as = .ok seen s2 → (fr.sram.views = [] → seen = []) ∧
        let x := sramAtomics (curFrame s2).sram swz f.op f.ty seen (en.zip ((fours as).zip (en.map val)))
        deliver (onCur s2 fun c => { c with sram := x.1 }) e f.data (killsOf (.vamo f)) en (fun L => BitVec.ofNat 32 (tgetD x.2 L 0)) = .ok () s3 →
        exec (.vamo f) s = .next (finished s3 .vector))) ∧
    (∀ (u : State) (ser : BitVec 32) (op : AmoCode) (t : ElemType), globAtomics u ser op t [] = (u, []) ∧
      ∀ (L v : Nat) (at' : List Nat) (r : List (Nat × List Nat × Nat)), Memory.wf u.mem = true → at'.Nodup → at'.length = 4 →
        let late := lateAt (curFrame u) false ser
        let before (a : Nat) : Byte := match late a with | x :: _ => x.old | [] => memSeen u a
        ∃ (old : Nat) (u' : State), globAtomics u ser op t ((L, at', v) :: r) =
            ((globAtomics u' ser op t r).1, (L, old) :: (globAtomics u' ser op t r).2) ∧ OthersKept u u' ∧
          let bytes := zipBytes at' (leOf (vamoNew op t old v) 4)
          (old = leNat (at'.map (memSeen u)) ∧ Stored u u' bytes) ∨
          ((∃ a ∈ at', late a ≠ []) ∧ old = leNat (at'.map before) ∧ Stored u u' (bytes.filter fun b => (late b.1).isEmpty))) ∧
    (∀ (m : Sram) (swz : Bool) (op : AmoCode) (t : ElemType) (seen : Tbl (BitVec 128)), sramAtomics m swz op t seen [] = (m, []) ∧
      ∀ (L v : Nat) (as : List Nat) (r : List (Nat × List Nat × Nat)), Memory.wf m.cells = true → as.length = 4 →
        let found (m : Sram) (seen : Tbl (BitVec 128)) (k : Nat) : Byte := match tget seen (k / 16) with
          | some g => g.extractLsb' (8 * (k % 16)) 8
          | none => memGet m.cells k
        let keys := as.map (sramKey m.split swz)
        let old := leNat (keys.map (found m seen))
        let keyed := zipBytes keys (leOf (vamoNew op t old v) 4)
        ∃ (m' : Sram) (seen' : Tbl (BitVec 128)), sramAtomics m swz op t seen ((L, as, v) :: r) =
            ((sramAtomics m' swz op t seen' r).1, (L, old) :: (sramAtomics m' swz op t seen' r).2) ∧
          (∀ k, memGet m'.cells k = (written keyed k).getD (memGet m.cells k)) ∧
          (∀ k, found m' seen' k = (written keyed k).getD (found m seen k)) ∧
          (∀ g, g ∈ m'.full ↔ g ∈ m.full ∨ ∃ k ∈ keys, k / 16 = g) ∧
          (∀ b, b < 64 → (fbit m'.live b = true ↔ fbit m.live b = true ∨ ∃ k ∈ keys, k / 65536 = b)) ∧
          m'.split = m.split ∧ m'.l1 = m.l1 ∧ Memory.wf m'.cells = true) ∧
    (∀ (t : ElemType) (a b : BitVec 32), t ∈ [ElemType.n32, .s32, .f32] →
      let new (op : AmoCode) : Nat := vamoNew op t a.toNat b.toNat
      new .swap = b.toNat ∧ new .and = (a &&& b).toNat ∧ new .or = (a ||| b).toNat ∧ new .xor = (a ^^^ b).toNat ∧
      (t ≠ .f32 → new .add = (a.toNat + b.toNat) % 2 ^ 32) ∧
      (t = .f32 → new .add = (fadd fmtF32 .rne (fdec fmtF32 a.toNat) (fdec fmtF32 b.toNat)).1 ∧
        new .min = fmin fmtF32 a.toNat b.toNat ∧ new .max = fmax fmtF32 a.toNat b.toNat) ∧
      (t = .n32 → new .min = min a.toNat b.toNat ∧ new .max = max a.toNat b.toNat) ∧
      (t = .s32 → (BitVec.ofNat 32 (new .min)).toInt = min a.toInt b.toInt ∧ (BitVec.ofNat 32 (new .max)).toInt = max a.toInt b.toInt))

/-! ### The bead arrays and a frame on its own -/

/-- R217 to R222: what a rod's segment delivers. With no earth bits it is the exact sum of products. With them a segment
that does not clip is within its bound, 2^s, and 2^(s+1) on a stale array, of the exact sum and the difference between the
converter's own offset and the installed one (R252), which is nothing where the installed offsets are those measured. It clips exactly
where the code may pass the converter's range, and then carries the end of the range; none clips on a fresh array when s is at least
s_safe.
The code itself is free within these bounds, and that a fresh array at such an s does not clip even where its own offset takes the code
past the range is the model's reading of R222 against R220 (assumption 13). -/
def Obligations.SegmentError : Prop :=
  ∀ (m : StepMode) (a : BArr) (stale : Bool) (bank : Bank) (act : Nat → Int) (t j n free : Nat),
    let x := segment m a stale bank act t j n free
    let w (i : Nat) : Int := weightElem bank m.wfmt t (64 * j + i) n
    let exact : Int := ((List.range 64).map fun i => act (64 * j + i) * w i).sum
    let E : Int := ((List.range 64).map fun i => act (64 * j + i) * (w i % 2 ^ (beadW m.wfmt - m.kp))).sum
    let q : Int := 2 ^ m.s
    let slack : Int := if stale then 2 * q else q
    let own := tgetD a.meas (64 * j + n) 0
    let set := tgetD a.cal (64 * j + n) 0
    let safe := 64 * 2 ^ (beadW m.afmt - 1) * (2 ^ (beadW m.wfmt - m.kp) - 1) ≤ 48 * 2 ^ m.s ∧ stale = false
    m.kp ≤ beadW m.wfmt →
    (m.kp = beadW m.wfmt → x.S = exact ∧ x.err = .digital) ∧
    (m.kp < beadW m.wfmt →
      (∀ k, x.err = .bound k → k = (if stale then m.s + 1 else m.s) ∧ (x.S - exact - (own - set) * q).natAbs ≤ 2 ^ k) ∧
      (x.err = .clipped → ((64 - own) * q ≤ E + slack ∧ x.S = exact - E + (63 - set) * q) ∨
        (E - slack ≤ (-65 - own) * q ∧ x.S = exact - E + (-64 - set) * q)) ∧
      (¬ safe → (64 - own) * q ≤ E - slack ∨ E + slack ≤ (-65 - own) * q → x.err = .clipped) ∧
      (safe → x.err ≠ .clipped) ∧ x.err ≠ .digital)

/-- R217, R227, R230, R234, R235, R243, R244, R246: a BSTEP that is ready, with its vectors popped and the rows it reads
live, forms for every rod of every logical N-group the tracked sum of its destination and its arrays' segments, and its
bound. They wait as one write-back, and the arrays' clip and stale flags are set. A segment that fails its checksum raises
CHECKSUM instead and is counted in BEAD_STAT. The rows read wake their slates out of RETAIN (R261), and those it will write enter the
undo log, where they need no second place (R162). The oldest write-back puts its values into its cells; where two are for one cell,
the last stands (R243).
R46: the sum and its bound, operation by operation: each rounding to nearest enters the bound with half an ulp where it is inexact, and
each segment with its error.
R47: the bound is sound: if it covers the distance of the destination from some value, then after the step it covers the distance from
that value and the exact sum of products together, or it is infinite.
R231: a rod's segments are those of its arrays in ascending K-group and segment, with the exponent of both scales. R212, R245: the
elements of weights and activations.
R233: the checksum test, segment by segment, in whole numbers; the lowest array and segment that fails is the one reported. A segment
whose weights have an error that a checksum stands for never matches (R381). -/
def Obligations.BeadStep : Prop :=
  (∀ (s s1 : State) (e : SlotIssue) (f : BStep) (acts : List FifoVec), Ready s .bead e (.bstep f) →
    (∀ b, (curFrame s).bead.bldp = some b → b.port ≠ f.a.port) →
    let kg := (curFrame s).bead.kg
    popActs s e f.a.port (decide (e.afmt ≠ .i8)) kg = .ok acts s1 →
    let fr := curFrame s1
    let ng := (curFrame s).bead.ng
    let nl := if e.wfmt = .mx4 then 2 * ng else ng
    let noB := f.bnd.isZero
    let rows (i : Nat) := stepRows i nl
    let col := f.d.idx.toNat % 64
    let rd := if f.ovw then [] else rows f.d.idx.toNat ++ (if noB then [] else rows f.bnd.idx.toNat)
    let woken (v : Vec) : Prop := (∃ x, v = { fr.vec with slates := x }) ∧
      ∀ k, tget v.slates k = if k ∈ rd.map (· / 64) ∧ tgetD fr.vec.slates k 2 ≠ 2 then some 0 else tget fr.vec.slates k
    (∀ r ∈ rd,
      ((rowSeen fr e r).isSome = true ∨ ∃ w ∈ fr.bead.bwb, ∃ c ∈ w.cells, c.1 = r) ∧
      (rowBad fr e r = true → ∃ w ∈ fr.bead.bwb, ∃ c ∈ w.cells, c.1 = r ∧ c.2.1 = col)) →
    let full := fr.bead.digital || fr.ph.forced
    let m : StepMode := { kp := if full then beadW e.wfmt else min (2 * f.beam.toNat) (beadW e.wfmt), s := f.sexp.toNat, afmt := e.afmt, wfmt := e.wfmt }
    let steps := (upto (kg * fr.bead.ng)).map fun b =>
      arrStep s1 fr m b (acts.getD (b % kg) { row := 0, scales := 0, bad := false }) s1.freeCtr
    (∀ p, stepMismatch m steps = some p → ∃ t x, exec (.bstep f) s = .next t ∧
      (curFrame t).ph.faults = fr.ph.faults ++ [x] ∧ x.cls = .checksum ∧ x.slot = 0 ∧ x.pos = e.pos ∧ x.final = fr.ph.forced ∧ woken (curFrame t).vec ∧
      (curFrame t).bead = { fr.bead with chkArray := p.1, chkSeg := p.2, chkValid := true, chkCnt := min 65535 (fr.bead.chkCnt + 1) }) ∧
    (stepMismatch m steps = none →
      let at0 (o : Opd) (x : Nat × Nat) := 64 * ((o.idx.toNat / 64 + x.1) % 16) + x.2
      let rods := (upto nl).flatMap fun l => lanes64.map fun n => (l, n)
      let val (x : Nat × Nat) := accumulate (if f.ovw then 0 else (fwdCell fr e (at0 f.d x) col).toNat)
        (if f.ovw || noB then 0 else (fwdCell fr e (at0 f.bnd x) col).toNat) (rodSegs m kg steps x.1 x.2)
      let cells := rods.map (fun x => (at0 f.d x, col, BitVec.ofNat 32 (val x).1)) ++
        (if noB then [] else rods.map fun x => (at0 f.bnd x, col, BitVec.ofNat 32 (val x).2))
      fr.ph.undo.length + ((sortUniq (cells.map (·.1))).filter fun r => decide (r ∉ fr.ph.undo.map Prod.fst)).length ≤ 256 →
      ∃ t, exec (.bstep f) s = .next t ∧ (curFrame t).bead.bwb = fr.bead.bwb ++ [{ n := e.n, cells := cells }] ∧
        woken (curFrame t).vec ∧ (∀ c ∈ cells, ∃ x, (c.1, x) ∈ (curFrame t).ph.undo) ∧ (curFrame t).ph.faults = fr.ph.faults ∧ t.mem = s1.mem ∧
        ∀ x ∈ steps, (arrOf (curFrame t) x.b).clip = (arrOf fr x.b).clip ||| clipBits m x ∧
          (arrOf (curFrame t) x.b).staleF = ((arrOf fr x.b).staleF || (staleNow s1 (arrOf fr x.b) && decide (m.kp < beadW e.wfmt))))) ∧
  (∀ (s : State) (b : BWrite) (r : List BWrite), (curFrame s).bead.bwb = b :: r → (∀ c ∈ b.cells, c.2.1 < 64) →
    (curFrame s).ph.undo.length + ((sortUniq (b.cells.map (·.1))).filter fun r =>
      decide (r ∉ (curFrame s).ph.undo.map Prod.fst)).length ≤ 256 →
    ∃ t, exec .bstepWriteback s = .next t ∧ t = setCur s (curFrame t) ∧ (curFrame t).bead.bwb = r ∧
      (∀ row L x, (b.cells.filter fun c => decide (c.1 = row ∧ c.2.1 = L)).getLast? = some x →
        lane (tgetD (curFrame t).vec.rows row 0) L = x.2.2) ∧
      ∀ k, (∀ c ∈ b.cells, c.1 ≠ k) → tget (curFrame t).vec.rows k = tget (curFrame s).vec.rows k) ∧
  (∀ (d b : Nat) (arrays : List (List SegIn)),
    let up (a : Nat) (x : FVal) : Nat := (fadd fmtF32 .rup (fdec fmtF32 a) x).1
    let rne (tb : Nat) (r : Nat × Cond) : Nat × Nat := match fdec fmtF32 r.1 with
      | .fin _ m e => (r.1, if fbit r.2 0 = true then up tb (.fin false 1 (if m = 0 then -150 else max (Nat.log2 m + e) (-126) - 24)) else tb)
      | _ => (r.1, fmtF32.inf)
    let plus (p : Option Nat) (v : Nat) (tb : Nat) : Option Nat × Nat := match p with
      | none => (some v, tb)
      | some a => let y := rne tb (fadd fmtF32 .rne (fdec fmtF32 a) (fdec fmtF32 v)); (some y.1, y.2)
    let one (a : Option Nat × Nat) (x : SegIn) : Option Nat × Nat :=
      let v := rne a.2 (match x.e with
        | some e => fround fmtF32 .rne (decide (x.seg.S < 0)) x.seg.S.natAbs e
        | none => (fmtF32.nan, 0))
      plus a.1 v.1 (up v.2 (match x.seg.err, x.e with
        | .digital, _ => .fin false 0 0 | .bound k, some e => .fin false 1 (k + e) | _, _ => .inf false))
    let all := arrays.foldl (fun t xs => let a := xs.foldl one (none, t.2); plus t.1 (a.1.getD 0) a.2) (none, 0)
    let y := rne all.2 (fadd fmtF32 .rne (fdec fmtF32 d) (fdec fmtF32 (all.1.getD 0)))
    accumulate d b arrays = (y.1, match fdec fmtF32 y.1 with | .fin .. => up b (fdec fmtF32 y.2) | _ => fmtF32.inf)) ∧
  (∀ (d b : Nat) (arrays : List (List (SegIn × Int))) (D g : Int) (nd : Bool) (md mb : Nat) (ed eb : Int),
    let at' (n : Bool) (m : Nat) (e : Int) : Int := (if n then -1 else 1) * ((m * 2 ^ (e - g).toNat : Nat) : Int)
    d < 2 ^ 32 → b < 2 ^ 32 → fdec fmtF32 d = .fin nd md ed → fdec fmtF32 b = .fin false mb eb → g ≤ -149 →
    (∀ xs ∈ arrays, ∀ x ∈ xs, (∀ e, x.1.e = some e → g ≤ e) ∧ (x.1.seg.err = .digital → x.2 = x.1.seg.S) ∧
      ∀ k, x.1.seg.err = .bound k → (x.1.seg.S - x.2).natAbs ≤ 2 ^ k) →
    (at' nd md ed - D).natAbs ≤ at' false mb eb →
    let r := accumulate d b (arrays.map (·.map Prod.fst))
    let P := (arrays.flatten.map fun x => x.2 * 2 ^ ((x.1.e.getD g) - g).toNat).sum
    r.2 = fmtF32.inf ∨ ∃ n m e k i, fdec fmtF32 r.1 = .fin n m e ∧ fdec fmtF32 r.2 = .fin false k i ∧
      (at' n m e - (D + P)).natAbs ≤ at' false k i) ∧
  (∀ (m : StepMode) (kg : Nat) (steps : List ArrStep) (l n : Nat),
    let sets := if m.wfmt = .mx4 then 2 else 1
    let f (t : BeadFmt) : Int := match t with | .i8 => 0 | .mx8 => 6 | .mx6 => 4 | .mx4 => 2
    rodSegs m kg steps l n = (steps.filter fun x => decide (x.b / kg = l / sets)).map fun x => (List.range 4).map fun j =>
      let ea : Nat := x.ea j
      let ew : Nat := if m.wfmt = .i8 then 127 else (tgetD x.bank.scales (256 * (l % sets) + 64 * j + n) 0x7F).toNat
      { seg := x.seg (l % sets) j n,
        e := if ea = 255 ∨ ew = 255 then none else some ((ea - 127 - f m.afmt) + (ew - 127 - f m.wfmt)) }) ∧
  (∀ (s : State) (f : Frame) (m : StepMode) (b : Nat) (v : FifoVec) (base : Nat),
    let x := arrStep s f m b v base
    let a := arrOf f b
    x.b = b ∧ x.bank = (if a.act then a.b1 else a.b0) ∧
    (∀ j, x.ea j = if m.afmt = .i8 then 127 else fld v.scales (8 * j) 8) ∧
    (∀ t j n, ∃ free, x.seg t j n = segment m a (staleNow s a) x.bank x.act t j n free) ∧
    (∀ r, r < 256 →
      let B (i : Nat) : Nat := (rowByte v.row i).toNat
      let low := B (r / 2) / 16 ^ (r % 2) % 16
      x.act r = match m.afmt with
        | .i8 | .mx8 => (rowByte v.row r).toInt
        | .mx6 => (BitVec.ofNat 6 (low + 16 * (B (128 + r / 4) / 4 ^ (r % 4) % 4))).toInt
        | .mx4 => (BitVec.ofNat 4 low).toInt) ∧
    ∀ (t r n : Nat), t < 2 → let c : Byte := tgetD x.bank.w (64 * r + n) 0
      weightElem x.bank m.wfmt t r n = match m.wfmt with
        | .i8 | .mx8 => c.toInt
        | .mx6 => (c.extractLsb' 0 6).toInt
        | .mx4 => (c.extractLsb' (4 * t) 4).toInt) ∧
  (∀ (m : StepMode) (steps : List ArrStep),
    let segs (x : ArrStep) (j : Nat) : List Seg :=
      (List.range (if m.wfmt = .mx4 then 2 else 1)).flatMap fun t => (List.range 64).map fun n => x.seg t j n
    let fails (x : ArrStep) (j : Nat) : Prop :=
      let rows := (List.range 64).map (64 * j + ·)
      let q : Nat := 2 ^ tgetD x.bank.sigma j 0
      let lhs := ((segs x j).map Seg.S).sum
      let chk := (rows.map fun r => x.act r * tgetD x.bank.chk r 0 * (q : Int)).sum
      let err (y : Seg) : Nat := match y.err with | .bound k => 2 ^ k | _ => 0
      let tol := ((segs x j).map err).sum + q / 2 * (rows.map fun r => (x.act r).natAbs).sum
      j ∈ x.bank.unmatch ∨ ((∀ y ∈ segs x j, y.err ≠ .clipped) ∧ tol < (lhs - chk).natAbs)
    (stepMismatch m steps = none ↔ ∀ x ∈ steps, ∀ j, j < 4 → ¬ fails x j) ∧
    ∀ (l r : List ArrStep) (x : ArrStep) (j : Nat), steps = l ++ x :: r → j < 4 → fails x j → (∀ i, i < j → ¬ fails x i) →
      (∀ y ∈ l, ∀ i, i < 4 → ¬ fails y i) → stepMismatch m steps = some (x.b, j))

/-- R214, R235, R239, R240, R250, R253: when its issue is ready BGRID sets the arrangement and BMODE the mode, BSWAP waits
while a named shadow is FILLING and else exchanges the banks of the arrays it names, their new shadows EXPLICIT, and
BFLAG writes the stale flags, or an array's clip flags, to its predicate; CLR clears just those flags. -/
def Obligations.BeadControl : Prop :=
  ∀ (s : State) (e : SlotIssue),
    let f := curFrame s
    let put (b : Bead) : Out := .next (finished (setCur s { f with bead := b }) .bead)
    (∀ k n, Ready s .bead e (.bgrid k n) → exec (.bgrid k n) s = put { f.bead with kg := k.toNat + 1, ng := n.toNat + 1 }) ∧
    (Ready s .bead e .bmodeDigital → exec .bmodeDigital s = put { f.bead with digital := true }) ∧
    (Ready s .bead e .bmodeAnalog → exec .bmodeAnalog s = put { f.bead with digital := false }) ∧
    (∀ r : ARange, Ready s .bead e (.bswap r) →
      let named (b : Nat) : Prop := r.first.toNat ≤ b ∧ b ≤ r.first.toNat + r.nm1.toNat
      let shadow (a : BArr) : Bank := if a.act then a.b0 else a.b1
      ((∃ b, named b ∧ (shadow (arrOf f b)).filling = true) →
        exec (.bswap r) s = .next (setCur s (holdHead f .bead (.filling (rangeOf r))))) ∧
      ((∀ b, named b → (shadow (arrOf f b)).filling = false) → ∃ x : Tbl BArr,
        exec (.bswap r) s = put { f.bead with arrays := x } ∧
        (∀ b, ¬ named b → tget x b = tget f.bead.arrays b) ∧
        ∀ b, named b → let a := arrOf f b
          tget x b = some { a with act := !a.act, swapped := true, b0 := { a.b0 with swm := false }, b1 := { a.b1 with swm := false } })) ∧
    (∀ (p : BitVec 4) (clr : Bool), tblFrom 0 f.vec.preds = true → tblFrom 0 f.bead.arrays = true →
      let wrote (t : State) (bit : Nat → Bool) : Prop :=
        (∀ b, b < 64 → fbit (tgetD (curFrame t).vec.preds p.toNat 0) b = bit b) ∧
        (∀ k, k ≠ p.toNat → tgetD (curFrame t).vec.preds k 0 = tgetD f.vec.preds k 0) ∧
        (curFrame t).vec.rows = f.vec.rows ∧ headOf (curFrame t) .bead = (slotQ f.seq .bead).q.tail.head?
      (Ready s .bead e (.bflagStale p clr) → ∃ t, exec (.bflagStale p clr) s = .next t ∧ wrote t (fun b => (arrOf f b).staleF) ∧
        ∀ b, arrOf (curFrame t) b = if clr = true then { arrOf f b with staleF := false } else arrOf f b) ∧
      (∀ a, Ready s .bead e (.bflagClip p a clr) → ∃ t, exec (.bflagClip p a clr) s = .next t ∧
        wrote t (fun b => fbit (arrOf f a.toNat).clip b) ∧
        ∀ b, arrOf (curFrame t) b = if b = a.toNat ∧ clr = true then { arrOf f b with clip := 0 } else arrOf f b))

/-- R214, R232, R247, R248, R324: BLDP marks the shadows it names FILLING from ports and streams; each of its vectors
enters the array it fills, and with an array's last vector all its bytes have come. The last byte's checksum makes the bank
ready, the bank then becomes VALID, and no active bank changes.
R223 to R225, R251, R252: BCAL gives every named array measured offsets within −32…31, which the spec leaves open, and
a fresh calibration point; BCALW the offsets of its row, saturated, and a fresh point; BCALR writes an array's offsets
into its row. A temperature sample more than 8 degrees from an array's point, or 260,000,000 ticks since it, leave the
array stale. -/
def Obligations.BeadReload : Prop :=
  (
  ∀ (s : State) (e : SlotIssue),
    let f := curFrame s
    let shadow (a : BArr) : Bank := if a.act then a.b0 else a.b1
    let active (a : BArr) : Bank := if a.act then a.b1 else a.b0
    (∀ x : BLdp, Ready s .bead e (.bldp x) → f.bead.bldp = none → (∀ b ∈ rangeOf x.r, reloading f b = false) → cntBS f < 255 →
      ∃ t, exec (.bldp x) s = .next t ∧ cntBS (curFrame t) = cntBS f + 1 ∧
        (curFrame t).bead.bldp = some { n := e.n, iss := e, todo := rangeOf x.r, vec := 0, port := x.a.port, swm := x.swm, lfmt := x.lfmt } ∧
        ∀ b, let a := arrOf f b
          let a' := arrOf (curFrame t) b
          if b ∈ rangeOf x.r then (shadow a').filling = true ∧ (shadow a').src = .ports ∧ (shadow a').swm = x.swm ∧
            (shadow a').fmt = x.lfmt ∧ (shadow a').w = (shadow a).w ∧ active a' = active a ∧ a'.act = a.act
          else a' = a) ∧
    (∀ (x : BldpStream) (b : Nat) (rest : List Nat) (v : FifoVec) (s1 : State), f.bead.bldp = some x → x.todo = b :: rest →
      engineRuns f = true → popPort s x.port false = .ok v s1 → tblFrom 0 (shadow (arrOf f b)).w = true →
      tblFrom 0 (shadow (arrOf f b)).scales = true →
      ∃ t, exec .bldpStreamVector s = .next t ∧
        let a := arrOf f b
        let a' := arrOf (curFrame t) b
        let last := x.vec + 1 = bldpVecs x.lfmt
        (∀ i, x.vec < 64 → i < 256 → let c := tgetD (shadow a').w (64 * (4 * x.vec + i / 64) + i % 64) 0
          if x.lfmt = .mx6 then c.extractLsb' 0 6 = (rowByte v.row i).extractLsb' 0 6 else c = rowByte v.row i) ∧
        (∀ i, 64 ≤ x.vec → i < 256 → tgetD (shadow a').scales (256 * (x.vec - 64) + i) 0x7F = rowByte v.row i) ∧
        (x.vec = 0 → ∀ i, tgetD (shadow a').scales i 0x7F = 0x7F) ∧
        (∀ k, k < 256 * x.vec ∨ 256 * (x.vec + 1) ≤ k → tgetD (shadow a').w k 0 = tgetD (shadow a).w k 0) ∧
        ((shadow a').got = true ↔ last) ∧ active a' = active a ∧
        (curFrame t).bead.bldp = (if ¬ last then some { x with vec := x.vec + 1 }
          else if rest = [] then none else some { x with todo := rest, vec := 0 })) ∧
    (∀ b, let a := arrOf f b
      let k := shadow a
      (k.filling = true → k.got = true → k.summed = false → crldOf f b = none →
        ∃ c, exec (.reloadLastByte b) s = .next (setCur s (setArr f b (setBank a (!a.act) { c with summed := true }))) ∧
          c = bankChecksum k ∧ c.w = k.w ∧ c.scales = k.scales) ∧
      (k.filling = true → k.summed = true → exec (.shadowBankValid b) s = .next (setCur s (setArr f b
        (setBank a (!a.act) { k with filling := false, got := false, summed := false })))))) ∧
  (
  ∀ (s : State) (e : SlotIssue),
    let f := curFrame s
    (∀ r : ARange, Ready s .bead e (.bcal r) → ∃ t, exec (.bcal r) s = .next t ∧
      headOf (curFrame t) .bead = (slotQ f.seq .bead).q.tail.head? ∧ (curFrame t).vec = f.vec ∧
      ∀ b, let a := arrOf f b
        let a' := arrOf (curFrame t) b
        if r.first.toNat ≤ b ∧ b ≤ r.first.toNat + r.nm1.toNat then
          a' = { a with cal := a'.cal, meas := a'.meas, calTemp := f.bead.temp, calTime := s.time, calStale := false, calOut := a'.calOut } ∧
          ∀ i, -32 ≤ tgetD a'.cal i 0 ∧ tgetD a'.cal i 0 ≤ 31 ∧ tgetD a'.meas i 0 = tgetD a'.cal i 0
        else a' = a) ∧
    (∀ (d : Opd) (b : BitVec 6) (st : BitVec 3), Ready s .bead e (.bcalr d b st) → f.ph.undo.length < 256 ∨ d.idx.toNat ∈ f.ph.undo.map Prod.fst →
      ∃ t row, exec (.bcalr d b st) s = .next t ∧ tget (curFrame t).vec.rows d.idx.toNat = some row ∧
        (∀ n j, n < 64 → j < 4 → (tgetD (arrOf f b.toNat).cal (64 * j + n) 0) % 256 = ((rowByte row (4 * n + j)).toNat : Int)) ∧
        (∀ k, k ≠ d.idx.toNat → tget (curFrame t).vec.rows k = tget f.vec.rows k) ∧ (curFrame t).bead = f.bead) ∧
    (∀ (a : Opd) (b : BitVec 6) (st : BitVec 3) (s1 s2 : State), Ready s .bead e (.bcalw a b st) →
      checkSrcs s e [(a, lanes64)] = .ok () s1 → commitRows (captureFlags s1 e.n) .bead e (opdKill a) [] = .ok () s2 →
      ∃ t, exec (.bcalw a b st) s = .next t ∧ let x := arrOf (curFrame t) b.toNat
        (∀ n j, n < 64 → j < 4 →
          let v := ((opdVal (curFrame s1) e a .n32 none n).extractLsb' (8 * j) 8).toInt
          tgetD x.cal (64 * j + n) 0 = max (-32) (min 31 v)) ∧
        x.meas = (arrOf f b.toNat).meas ∧ x.calTemp = f.bead.temp ∧ x.calTime = s.time ∧ x.calStale = false ∧
        (∀ k, k ≠ b.toNat → arrOf (curFrame t) k = arrOf f k)) ∧
    (∀ temp, ∃ t, exec (.temperatureSample temp) s = .next t ∧ (curFrame t).bead.temp = temp ∧
      t = setCur s { f with bead := { f.bead with temp := temp, arrays := (curFrame t).bead.arrays } } ∧
      ∀ b, b < 64 → let a := arrOf f b
        arrOf (curFrame t) b = { a with calStale := a.calStale || decide (8 < (temp - a.calTemp).natAbs) }) ∧
    (∀ b, b < 64 → 260000000 ≤ s.time - (arrOf f b).calTime → ∃ t, exec (.calibrationAgeExpiry b) s = .next t ∧
      (arrOf (curFrame t) b).calStale = true ∧ ∀ k, k ≠ b → arrOf (curFrame t) k = arrOf f k) ∧
    (∀ a : BArr, staleNow s a = true ↔ a.calStale = true ∨ a.calOut = true ∨ 260000000 ≤ s.time - a.calTime))

/-- R17, R225, R261, R274, R357: a FULL slate that idles keeps its data and goes to RETAIN, a slate with no live row goes OFF,
a live scratchpad bank that idles goes to RETAIN with its data; a frame with both entries empty may be gated, and powered up
again it stands as at reset with all its arrays measured and fresh, a sprint grant and a cool-down running on, EXEC_DIV at 5 in a
cool-down.
When a state changes, and that a grant and a cool-down last through gating, are the model's (assumptions 5 and 21). -/
def Obligations.SupplyStates : Prop :=
  ∀ s : State,
    let f := curFrame s
    (∀ k, k < 16 → (tgetD f.vec.slates k 2 = 0 → exec (.slateRetain k) s =
        .next (setCur s { f with vec := { f.vec with slates := tset f.vec.slates k 1 } })) ∧
      ((∀ r, r < 64 → tget f.vec.rows (64 * k + r) = none) → exec (.slateOff k) s =
        .next (setCur s { f with vec := { f.vec with slates := tset f.vec.slates k 2 } }))) ∧
    (∀ b, b < 4 * f.sram.split → fbit f.sram.live b = true → ∃ r, exec (.bankRetain b) s =
        .next (setCur s { f with sram := { f.sram with retain := r } }) ∧
      ∀ j, j < 64 → (fbit r j = true ↔ fbit f.sram.retain j = true ∨ j = b)) ∧
    (∀ k, let g := frameOf s k
      (g.disp.running = none → g.disp.standby = none → exec (.framePowerGate k true) s =
        .next (setFrame s k { g with disp := { g.disp with gated := true } })) ∧
      (g.disp.gated = true → ∃ t, exec (.framePowerGate k false) s = .next t ∧ t.mem = s.mem ∧
        (∀ j, j ≠ k → frameOf t j = frameOf s j) ∧
        let h := frameOf t k
        h = { Frame.fresh with bead := { Bead.fresh with temp := (dieOf s (k / 48)).temp, arrays := h.bead.arrays },
                               clk := { Clocks.fresh with
                                 grant := g.clk.grant, cool := g.clk.cool, exec := if g.clk.cool.isSome then 5 else 4 } } ∧
        ∀ b, b < 64 → (∀ i, tgetD (arrOf h b).meas i 0 = tgetD (arrOf h b).cal i 0) ∧ (arrOf h b).calTime = s.time ∧ (arrOf h b).calStale = false ∧
          ∀ i, -32 ≤ tgetD (arrOf h b).cal i 0 ∧ tgetD (arrOf h b).cal i 0 ≤ 31))

/-! ### The copy engine -/

/-- R313 to R316, R318 to R323, R325, R327, R329: a copy operation whose issue is ready, for which the engine has room
and whose checks pass joins the engine's operations as the newest, with the bytes it reads and writes in move order; a
current word that was advanced first advances the sets it names. A fill holds the bytes it writes from the start. Storage
and frame SRAM are untouched until it completes, and so is everything of the other frames.
R314: a set of kind 8 advances the coordinate its word 0 names by its signed step, modulo 2^32; one of kind 10 its
base within the view, modulo 2^22; no other set changes. Until it has advanced or been written, a set's current origin is
the one it holds.
The reports of a failing check are not stated (assumption 14). -/
def Obligations.CopyIssue : Prop :=
  (
  ∀ (s : State) (e : SlotIssue) (f : CpW) (s1 s2 : State),
    let fr := curFrame s
    let after (i : Instr) : State := if e.adv then setCur s ((copySets i).foldl advanceSet fr) else s
    let joins (i : Instr) (t0 : State) (o : COp) : Prop :=
      fr.cpe.ops.length < 32 → Ready s .copy e i → ∃ t, exec i s = .next t ∧
        t = finished (setCur t0 { curFrame t0 with cpe := { (curFrame t0).cpe with
          ops := (curFrame t0).cpe.ops ++ [o], pend := pendOf (curFrame t0) o.dst } }) .copy ∧
        t.mem = s.mem ∧ t.discarded = s.discarded ∧ t.poison = s.poison ∧ (curFrame t).sram = fr.sram ∧ OthersKept s t
    let op (k : CKind) (ord : Ordering4) (sc : Scope) (a b : RcEnt) (src dst : List CLoc) (vals : List Byte) (got : Bool) (unit : Nat) : COp :=
      { n := e.n, kind := k, src := src, dst := dst, vals := vals, badv := [], got := got, ord := ord, scope := sc, unit := unit,
        handleA := a.handle, handleB := b.handle, genA := recGen a.words, genB := recGen b.words,
        dieA := recHomeDie a.words, dieB := recHomeDie b.words, issue := e }
    let nil : RcEnt := { handle := 0, words := [], ext := [], map := [] }
    let loc (x : Nat × Nat) : CLoc := .glob x.1 x.2
    (∀ (ent : RcEnt) (us : List (List (Nat × Nat))) (rs : List (List Nat)),
      let g := us.flatten.map loc
      let m := rs.flatten.map CLoc.sram
      let sets (i : Instr) (ks : List (BitVec 5 × Nat)) := checkSets (after i) ks = .ok () s1
      let box (k : Option (BitVec 5 × Bool)) (need : Need) (x : List Word → Option (L2Class × Nat)) :=
        boxChecks s1 f.sa f.se k need x = .ok (ent, us, rs) s2
      (sets (.cboxOs f) [(f.sa, 8), (f.se, 9), (f.sb, 10)] → box (some (f.sb, true)) needR noExtra →
        joins (.cboxOs f) s2 (op .box .rlx .fr ent nil g m [] false (unitLen rs))) ∧
      (sets (.cboxSo f) [(f.sa, 8), (f.se, 9), (f.sb, 10)] → box (some (f.sb, false)) needW noExtra →
        joins (.cboxSo f) s2 (op .box f.ord f.scope ent nil m g [] false (unitLen us))) ∧
      (sets (.caddSo f) [(f.sa, 8), (f.se, 9), (f.sb, 10)] → box (some (f.sb, false)) needRW (fun ws => notF32 (recFmt ws)) →
        joins (.caddSo f) s2 (op .add f.ord f.scope ent nil m g [] false 0)) ∧
      (sets (.cfillO f) [(f.sa, 8), (f.se, 9)] → box none needW noExtra →
        joins (.cfillO f) s2 (op .fill f.ord f.scope ent nil [] g
          (us.flatMap fun _ => fillUnit (recFmt ent.words) (fillValue (curFrame s2) f.se.toNat)) true (unitLen us))) ∧
      (sets (.cpref f.sa f.se) [(f.sa, 8), (f.se, 9)] → box none needR noExtra →
        joins (.cpref f.sa f.se) s2 (op .pref .rlx .fr ent nil g [] [] false 0)) ∧
      (sets (.cdisc f) [(f.sa, 8), (f.se, 9)] → box none needW noExtra →
        joins (.cdisc f) s2 (op (.disc (wholeLines (us.flatten.map (·.1)))) f.ord f.scope ent nil [] g [] true 0))) ∧
    (∀ (a b : RcEnt) (ua ub : List (List (Nat × Nat))),
      let x := ua.flatten.map loc
      let y := ub.flatten.map loc
      (checkSets (after (.cboxOo f)) [(f.sa, 8), (f.se, 9), (f.sb, 8)] = .ok () s1 →
        twoBoxes s1 f needW (fun p q => decide (recFmt p = recFmt q)) = .ok (a, b, ua, ub) s2 →
        joins (.cboxOo f) s2 (op .box f.ord f.scope a b x y [] false (unitLen ub))) ∧
      (checkSets (after (.caddOo f)) [(f.sa, 8), (f.se, 9), (f.sb, 8)] = .ok () s1 →
        twoBoxes s1 f needRW (fun p _ => decide (recFmt p = 6)) = .ok (a, b, ua, ub) s2 →
        joins (.caddOo f) s2 (op .add f.ord f.scope a b x y [] false 0))) ∧
    (∀ (sb se : BitVec 5) (us : List (List Nat)), checkSets (after (.cfillS sb se)) [(sb, 10), (se, 9)] = .ok () s1 →
      let g := curFrame s1
      (emptyBox (extents g se.toNat) 14 = true → joins (.cfillS sb se) s1 (op .fill .rlx .fr nil nil [] [] [] true 0)) ∧
      (emptyBox (extents g se.toNat) 14 = false → runUnits g sb.toNat 4 true (extents g se.toNat) 14 = .inl us →
      joins (.cfillS sb se) s1 (op .fill .rlx .fr nil nil [] (us.flatten.map .sram)
        (us.flatMap fun _ => leOf (fillValue g se.toNat) 4) true 4))) ∧
    (∀ (sa : BitVec 5) (ord : Ordering4) (sc : Scope) (imm : BitVec 16) (ent x : RcEnt) (das : List Nat) (s3 : State),
      let i : Instr := .cctrAdd sa ord sc imm
      checkSets (after i) [(sa, 5)] = .ok () s1 →
      let g := curFrame s1
      let h := setHandle g sa
      let org := fld (psetWord g.vec sa.toNat 1) 0 44
      lookSides s1 [h] = .ok [(ent, false)] s2 → org % 8 = 0 →
      checkAccess s2 s2.cur ent needRW ((upto 8).map (org + ·)) none false = (.ok das x, s3) →
      joins i s3 { op (.ctr (das.headD 0) imm) ord sc x nil [] ((das.zip ((upto 8).map (org + ·))).map loc) [] true 0 with handleA := h })) ∧
  (
  ∀ (f : Frame) (k : Nat),
    let w0 := psetWord f.vec k 0
    let o := curOrigin f k
    let g := advanceSet f k
    let d := fld w0 56 4
    (tget f.cpe.origins k = none → setKind f.vec k = 8 → ∀ i, i < 14 → o.getD i 0 = packed14 f.vec k i) ∧
    (tget f.cpe.origins k = none → setKind f.vec k = 10 → o = [fld w0 0 23]) ∧
    (setKind f.vec k = 8 → d < o.length → (curOrigin g k).length = o.length ∧
      (((curOrigin g k).getD d 0 : Nat) : Int) = ((o.getD d 0 : Nat) + (w0.extractLsb' 32 24).toInt) % 2 ^ 32 ∧
      ∀ i, i ≠ d → (curOrigin g k).getD i 0 = o.getD i 0) ∧
    (setKind f.vec k = 10 → ∃ b, curOrigin g k = [b] ∧ b / 2 ^ 22 = o.getD 0 0 / 2 ^ 22 ∧
      ((b % 2 ^ 22 : Nat) : Int) = ((o.getD 0 0 % 2 ^ 22 : Nat) + ((psetWord f.vec k 1).extractLsb' 24 24).toInt) % 2 ^ 22) ∧
    (setKind f.vec k ≠ 8 → setKind f.vec k ≠ 10 → g = f) ∧
    (∀ j, j ≠ k → curOrigin g j = curOrigin f j) ∧ g.vec = f.vec ∧ g.cpe.ops = f.cpe.ops)

/-- R72, R92 to R94, R98, R99, R105, R318, R319, R321 to R323, R325, R330: with nothing earlier on its bytes, and homes of this
package that serve them, the reads of a held operation return what stands there, a prefetch then being done and an
add-reduce withheld with its addends, in the C path's program order; of an earlier write that awaits the commit a read returns the
bytes (R333), and of a byte that a store of the generator has written, which it may precede, perhaps what was there before that store
(R96). The writes of a fill or a box reach storage or frame
SRAM, a discard marks its whole lines, and a counter gains its addend in one read and write. A released add-reduce adds to
each element, rounded to nearest. A write that may precede a store of the generator may leave that store's bytes standing (R96). A
write behind a withheld add-reduce of the same bytes, or a release behind any, waits for the
commit, a counter for none. Bytes that a partition change has taken away are not reached (R374): a read of them raises
PERMISSION.
R214, R324: a CRLD whose issue is ready and whose checks pass, with no named shadow still reloading, makes every named
shadow FILLING from the object and joins the engine's operations under BS. Its array's last byte brings the whole bank and
its checksum; with the last array it leaves the engine.
That all reads, and all writes, of an operation are made in one step, that the later of two elements of one byte stands,
and that addends of one destination are added in box order, are the model's (assumption 15); which withheld add-reduces a write waits for is assumption 41. -/
def Obligations.CopyCompletes : Prop :=
  (
  ∀ s : State, Memory.wf s.mem = true →
    let f := curFrame s
    let home (locs : List CLoc) : Prop := ∀ a x, CLoc.glob a x ∈ locs → isRemote a = false ∧ homesServe s [a] = true
    let lost (locs : List CLoc) : Prop := ∃ a x, CLoc.glob a x ∈ locs ∧ reaches s a = false
    let glob (bs : List (CLoc × Byte)) : List (Nat × Byte) := bs.filterMap fun x => match x.1 with | .glob a _ => some (a, x.2) | .sram _ => none
    let late (o : COp) := lateAt f true o.issue.tag.ser
    (∀ (o : COp) (das : List Nat),
      let v := readView s o das
      let own := (heldWrites f o.n).1
      (∀ a ∈ das, ∃ b, memSeen v.1 a = (written own a).getD b ∧ (b = memSeen s a ∨ ∃ y ∈ late o a, b = y.old)) ∧
      v.2 = { setCur s { f with late := (curFrame v.2).late } with freeCtr := v.2.freeCtr } ∧
      ((∀ a ∈ das, late o a = [] ∧ a ∉ own.map Prod.fst) → v = (s, s)) ∧
      own = ((awaitOps f).filter fun p => decide (p.n < o.n)).flatMap fun p => glob (p.dst.zip p.vals)) ∧
    (∀ (l : List COp) (p : COp),
      let g : Frame := { f with cpe := { f.cpe with ops := l } }
      awaitOps { g with cpe := { g.cpe with ops := l ++ [p] } } = awaitOps g ++
        if p.got = true ∧ (behindAdds f p p.dst = true ∨ ∃ q ∈ awaitOps g, behindOp f q p = true) then [p] else []) ∧
    (∀ (k : Nat) (o : COp) (s1 s2 : State) (x y : List Byte), f.cpe.ops[k]? = some o → o.got = false → o.had = {} →
      locsMeet f.sram o.src (earlierWrites f k o.n) = false → home o.src → ¬ lost o.src →
      sramRead s false (viewLocs false o.src) = .ok x s1 → sramRead s1 true (viewLocs true o.src) = .ok y s2 →
      let v := readView s2 o (globOf o.src)
      let vals := weave v.1 o.src x y
      let bad := badIdx v.1 o.src
      ((∀ l ∈ o.src, ∃ a z, l = CLoc.glob a z) → vals = (globOf o.src).map (memSeen v.1)) ∧
      ((∀ l ∈ o.src, ∃ a, l = CLoc.sram a ∧ a < 2 ^ 22) → vals = x) ∧
      ∃ t, exec (.copyOperationComplete k) s = .next t ∧ t.mem = s.mem ∧ t.discarded = s.discarded ∧ (curFrame t).gen = f.gen ∧ OthersKept s t ∧
        (o.kind = .pref → (curFrame t).cpe.ops = f.cpe.ops.eraseIdx k) ∧
        (o.kind = .add → (curFrame t).cpe.ops = f.cpe.ops.eraseIdx k ∧ (curFrame t).ph.adds = insertAdd (addOf o vals bad) f.ph.adds) ∧
        (o.kind = .box → (curFrame t).cpe.ops[k]? = some { o with vals := vals, badv := bad, got := true } ∧
          ∀ j, j ≠ k → (curFrame t).cpe.ops[j]? = f.cpe.ops[j]?)) ∧
    (∀ (k : Nat) (o : COp), f.cpe.ops[k]? = some o → o.got = false → opInBS o = false →
      locsMeet f.sram o.src (earlierWrites f k o.n) = false → lost o.src → ∃ t x, exec (.copyOperationComplete k) s = .next t ∧
        t = setCur s (curFrame t) ∧ (curFrame t).cpe.ops = f.cpe.ops.eraseIdx k ∧ (curFrame t).ph.faults = f.ph.faults ++ [x] ∧
        x.cls = .permission ∧ x.slot = 2 ∧ x.n = o.n) ∧
    (∀ (k : Nat) (o : COp), f.cpe.ops[k]? = some o → o.got = true → opInBS o = false →
      let behind := (∀ a i, o.kind ≠ .ctr a i) ∧ landed f = false ∧ (∃ c ∈ f.ph.adds, c.n < o.n) ∧
        (o.ord = .rel ∨ locsMeet f.sram o.dst (heldAdds f o.n) = true)
      (behind → exec (.copyOperationComplete k) s = .next s) ∧
      (¬ behind → o.badv = [] → o.put = [] → o.had = {} → home o.dst →
      let before := f.cpe.ops.take k
      (o.ord = .rel → before = [] ∧ addsBefore f o.n = []) →
      locsMeet f.sram o.dst (earlierLocs f k o.n) = false →
      let gone (t : State) : Prop := exec (.copyOperationComplete k) s = .next t ∧ (curFrame t).cpe.ops = f.cpe.ops.eraseIdx k ∧
        (curFrame t).gen = f.gen ∧ OthersKept s t
      (o.kind = .fill ∨ o.kind = .box → ∃ t, gone t ∧ (∀ a,
          memSeen t a = (written (inReach s (glob (o.dst.zip o.vals))) a).getD (memSeen s a) ∨ (memSeen t a = memSeen s a ∧ late o a ≠ [])) ∧
        ∀ swz : Bool, Memory.wf f.sram.cells = true → (∀ l ∈ o.dst, ∃ a, l = CLoc.sram a ∧ decide (a / 2 ^ 22 = 1) = swz) →
          ∀ c, memGet (curFrame t).sram.cells c = (written ((o.dst.zip o.vals).filterMap fun x => match x.1 with
            | .sram a => some (sramKey f.sram.split swz (a % 2 ^ 22), x.2) | .glob .. => none) c).getD (memGet f.sram.cells c)) ∧
      (∀ lines, o.kind = .disc lines → lines.Nodup → tblFrom 0 s.discarded = true → ∃ t, gone t ∧ t.mem = s.mem ∧
        ∀ l, tgetD t.discarded l [] = tgetD s.discarded l [] ++ (if l ∈ lines ∧ reaches s (128 * l) = true ∧ isRemote (128 * l) = false then [s.freeCtr] else [])) ∧
      (∀ a imm z, o.kind = .ctr a imm → o.dst = ((upto 8).map fun i => CLoc.glob (a + i) (z + i)) → before.any opInCP = false →
        let sum (old : Nat → Byte) := zipBytes ((upto 8).map (a + ·))
          (wordBytes (bytesWord ((upto 8).map fun i => old (a + i)) + imm.signExtend 64))
        let before (x : Nat) : Byte := match late o x with | y :: _ => y.old | [] => memSeen s x
        ∃ t, gone t ∧ (Stored s t (inReach s (sum (memSeen s))) ∨ ((∃ i, i < 8 ∧ late o (a + i) ≠ []) ∧
          Stored s t (inReach s ((sum before).filter fun b => (late o b.1).isEmpty))))))) ∧
    (∀ c rest, takeFirst relAdd f.ph.released = some (c, rest) → c.bad = [] →
      let locs := c.elems.flatMap fun x => (upto 4).map fun j => CLoc.glob (x.1 + j) 0
      (∀ o ∈ f.cpe.ops, o.n < c.n → c.ord ≠ .rel ∧ locsMeet f.sram locs (opReads o ++ o.dst) = false) → home locs →
      let sum (x : Nat × BitVec 32) : Nat := (addRne (leNat (grun s x.1 4)) x.2.toNat).1
      ∃ t, exec .addReduceApply s = .next t ∧ (curFrame t).ph = { f.ph with released := rest } ∧ (curFrame t).gen = f.gen ∧
        OthersKept s t ∧ t.mem = (c.elems.foldl (addApply c.ser) (setCur s { f with ph := { f.ph with released := rest } })).mem ∧
        (c.elems.Pairwise (fun x y => x.1 + 4 ≤ y.1 ∨ y.1 + 4 ≤ x.1) → (∀ x ∈ c.elems, ∀ j, j < 4 → lateAt f true c.ser (x.1 + j) = []) →
          Stored s t (inReach s (c.elems.flatMap fun x => zipBytes ((upto 4).map (x.1 + ·)) (leOf (sum x) 4))))) ∧
    (∀ (ser : BitVec 32) (x : Nat × BitVec 32),
      let as := (upto 4).map (x.1 + ·)
      let there := lateAt f true ser
      let before (a : Nat) : Byte := match there a with | y :: _ => y.old | [] => memSeen s a
      let sum (old : Nat → Byte) := zipBytes as (leOf (addRne (leNat (as.map old)) x.2.toNat).1 4)
      let t := addApply ser s x
      OthersKept s t ∧ (Stored s t (inReach s (sum (memSeen s))) ∨ ((∃ a ∈ as, there a ≠ []) ∧
        Stored s t (inReach s ((sum before).filter fun b => (there b.1).isEmpty)))))) ∧
  (
  ∀ (s s1 s2 s3 : State) (e : SlotIssue) (f : CRld) (ent : RcEnt) (us : List (List (List (Nat × Nat)))) (fmt : BeadFmt),
    let fr := curFrame s
    let shadow (a : BArr) : Bank := if a.act then a.b0 else a.b1
    let active (a : BArr) : Bank := if a.act then a.b1 else a.b0
    let t0 := if e.adv then setCur s (advanceSet fr f.sa.toNat) else s
    let h := setHandle (curFrame s1) f.sa
    let ws := ent.words
    let kg := f.kgm1.toNat + 1
    let n := f.r.nm1.toNat + 1
    let sets := if recFmt ws = 11 then 2 else 1
    let org := curOrigin (curFrame s1) f.sa.toNat
    let cs := (upto n).flatMap fun i => crldUnits org (recRank ws) sets (i % kg) (i / kg) (fmtMx (recFmt ws))
    (Ready s .copy e (.crld f) → fr.cpe.ops.length < 32 → checkSets t0 [(f.sa, 8)] = .ok () s1 →
      lookSides s1 [h] = .ok [(ent, false)] s2 → beadFmtOf (recFmt ws) = some fmt →
      (fmtMx (recFmt ws) = true → org.headD 0 % 64 = 0) →
      checkSides s2 [{ h := h, ent := ent, migr := false, need := needB, cs := cs, extra := none }] none = .ok us s3 →
      (∀ b ∈ rangeOf f.r, reloading (curFrame s3) b = false) → cntBS (curFrame s3) < 255 →
      ∃ t o, exec (.crld f) s = .next t ∧ t.mem = s.mem ∧ (curFrame t).cpe.ops = fr.cpe.ops ++ [o] ∧ o.n = e.n ∧ OthersKept s t ∧
        o.kind = .crld (rangeOf f.r) kg f.r.first.toNat org ws ent.ext ∧ cntBS (curFrame t) = cntBS fr + 1 ∧
        ∀ b, let a := arrOf fr b
          let a' := arrOf (curFrame t) b
          let i := b - f.r.first.toNat
          if b ∈ rangeOf f.r then (shadow a').filling = true ∧ (shadow a').fmt = fmt ∧ (shadow a').swm = f.swm ∧
            (shadow a').src = .object h (recGen ws) (crldOrg org sets (i % kg) (i / kg)) ∧ active a' = active a ∧ a'.act = a.act
          else a' = a) ∧
    (∀ (b k : Nat) (o : COp) (todo : List Nat) (g first : Nat) (og : List Nat) (wds ext : List Word),
      let a := arrOf fr b
      (shadow a).filling = true → crldOf fr b = some (k, o) → o.kind = .crld todo g first og wds ext → b ∈ todo.take 2 →
      let i := b - first
      let locs := crldLocs first g og wds ext b
      (∀ x y, CLoc.glob x y ∈ locs → isRemote x = false ∧ homesServe s [x] = true ∧ reaches s x = true) → o.had = {} →
      locsMeet fr.sram locs (earlierWrites fr k o.n) = false →
      let left := todo.filter fun x => decide (x ≠ b)
      let v := readView s o (globOf locs)
      ∃ t, exec (.reloadLastByte b) s = .next t ∧ t = setCur { v.2 with freeCtr := v.2.freeCtr + 16384 } (curFrame t) ∧
        (let y := fillBank v.1 wds ext og (i % g) (i / g) (beginBank fr o.n (shadow a))
         shadow (arrOf (curFrame t) b) = { bankChecksum y with got := true, summed := true }) ∧
        active (arrOf (curFrame t) b) = active a ∧ (∀ j, j ≠ b → arrOf (curFrame t) j = arrOf fr j) ∧
        (curFrame t).cpe.ops = (if left = [] then fr.cpe.ops.eraseIdx k
          else lset fr.cpe.ops k { o with kind := .crld left g first og wds ext })))

/-! ### Dispatch -/

/-- R355, R357, R358, R360, R361: what the commands of a slot table do; a die that is not admitted ignores them (R8). BIND
takes the first row of its table that applies: the statuses 0 and 8 put the record into the standby entry and make the
thread BOUND, 8 also asks the running thread to stop, and every other status changes nothing. PREEMPT raises a request on a
running thread; WITHDRAW empties a standby entry and its thread is NEW or UNBOUND again. KILL asks a running thread to end,
cancels at once what is in flight of one that has stopped already, withdraws a standby thread, and ends at once every thread
that does not run; an end that must wait is held. The status stands in BIND_CTL with GO 0.
Commands complete in one step, the statuses for absent frames and threads bound nowhere, and that a thread whose end is held
counts as ended, are the model's readings (assumption 21); during a live update BIND does nothing (assumption 45); a control block
that is uncorrectable reads as 0, and one that has left the partition is not written (assumptions 47 and 48). -/
def Obligations.SlotTableCommands : Prop :=
  ∀ (s : State) (die : Nat) (ctl : Word), Memory.wf s.mem = true →
    let v := dieOf s die
    let at0 := fld ctl 6 2
    let k := 48 * at0 + fld ctl 0 6
    let f := frameOf s k
    let absent := ¬ (fld ctl 0 6 < 48 ∧ (dieOf s at0).st = .admitted ∧ (dieOf s at0).part = v.part)
    let b := bindRecOf v.bindRec
    let word0 (a : Nat) : Word := if tcbBad s a 0 = true then 0 else gword s a
    let reached (a : Nat) : Prop := inPartition s v.part a = true ∧ inPartition s v.part (a + 255) = true
    let state := fld (word0 b.tcb) 61 3
    let ended := state = 3 ∨ state = 4 ∨ endHeld s b.tcb = true
    let shows (t : State) (st : Nat) : Prop := (dieOf t die).bindCtl.toNat = st * 2 ^ 59 + ctl.toNat % 2 ^ 10
    let onlyOf (x : State) (o : Out) (st : Nat) : Prop := ∃ t, o = .next t ∧ shows t st ∧
      t = setDie x die { dieOf x die with bindCtl := (dieOf t die).bindCtl }
    let only := onlyOf s
    let marks (t : State) (a st : Nat) : Prop :=
      Stored s t (zipBytes ((upto 8).map (a + ·)) (wordBytes (fput (word0 a) 61 3 st)))
    let stop (g : Frame) (w : StopWhy) : Option StopReq := match g.disp.req with
      | none => some { why := w, landed := false } | some r => some { r with why := if w = .kill then .kill else r.why }
    let st := if bindBad s v.part v.bindRec = true then 6 else if absent then 2
      else if (dieOf s at0).oos.getLsbD (fld ctl 0 6) = true then 3 else if f.disp.gated = true then 4
      else if ended then 5 else if state = 1 then 11 else if f.disp.standby.isSome = true then 1
      else if b.image = true ∧ imageOk s b.area b.areaLen = false then 7
      else if ∃ r, f.disp.running = some r ∧ r.prio < b.prio then 8 else 0
    (v.st ≠ .admitted → exec (.bind die ctl) s = .next s ∧ exec (.preempt die ctl) s = .next s ∧
      exec (.withdraw die ctl) s = .next s ∧ exec (.kill die ctl) s = .next s) ∧
    (v.st = .admitted →
    (updateHolds s = true → exec (.bind die ctl) s = .next s) ∧
    (updateHolds s = false → st ≠ 0 → st ≠ 8 → only (exec (.bind die ctl) s) st) ∧
    (updateHolds s = false → st = 0 ∨ st = 8 → ∃ t, exec (.bind die ctl) s = .next t ∧ shows t st ∧ marks t b.tcb 1 ∧
      (frameOf t k).disp = { f.disp with standby := some b, req := if st = 8 then stop f .preempt else f.disp.req } ∧
      ∀ j, j ≠ k → (frameOf t j).disp = (frameOf s j).disp) ∧
    (absent → only (exec (.preempt die ctl) s) 2 ∧ only (exec (.withdraw die ctl) s) 2) ∧
    (¬ absent → f.disp.running = none → only (exec (.preempt die ctl) s) 9) ∧
    (¬ absent → f.disp.running.isSome = true → ∃ t, exec (.preempt die ctl) s = .next t ∧ shows t 10 ∧ t.mem = s.mem ∧
      frameOf t k = { f with disp := { f.disp with req := stop f .preempt } } ∧ ∀ j, j ≠ k → frameOf t j = frameOf s j) ∧
    (¬ absent → f.disp.standby = none → only (exec (.withdraw die ctl) s) 9) ∧
    (¬ absent → ∀ x, f.disp.standby = some x → ∃ t, exec (.withdraw die ctl) s = .next t ∧ shows t 10 ∧
      (reached x.tcb → marks t x.tcb (if x.image = true then 2 else 0)) ∧ (¬ reached x.tcb → StorageKept s t) ∧
      (frameOf t k).disp = { f.disp with standby := none } ∧ (∀ j, j ≠ k → (frameOf t j).disp = (frameOf s j).disp) ∧ ∀ d, (dieOf t d).queues = (dieOf s d).queues) ∧
    (onlyBits (wd v.bindRec 1) [(8, 40)] = false ∨ dramOf s v.part b.tcb 256 = false → only (exec (.kill die ctl) s) 6) ∧
    (onlyBits (wd v.bindRec 1) [(8, 40)] = true → dramOf s v.part b.tcb 256 = true →
      ((word0 b.tcb).extractLsb' 0 32 ≠ b.tid ∨ 5 ≤ state → only (exec (.kill die ctl) s) 6) ∧
      ((word0 b.tcb).extractLsb' 0 32 = b.tid → state < 5 →
        let ends (x : State) (fr : Nat) : Prop :=
          (∀ y, endThread x fr v.part b.tcb true = some y → onlyOf y (exec (.kill die ctl) s) 10) ∧
          (endThread x fr v.part b.tcb true = none → ∃ t d, exec (.kill die ctl) s = .next t ∧ shows t 10 ∧
            (b.tcb, true, fr) ∈ (dieOf t d).heldExit ∧ (∀ j, (frameOf t j).disp = (frameOf x j).disp) ∧
            (tcbAway x b.tcb = true → t.mem = x.mem ∧ t.frames = x.frames))
        (ended → only (exec (.kill die ctl) s) 5) ∧
        (¬ ended → ∀ j, runsTcb s v.part b.tcb = some j → ∃ t, exec (.kill die ctl) s = .next t ∧ shows t 10 ∧ t.mem = s.mem ∧
          (∀ i, i ≠ j → frameOf t i = frameOf s i) ∧
          let g := { frameOf s j with disp := { (frameOf s j).disp with req := stop (frameOf s j) .kill } }
          frameOf t j = if landed (frameOf s j) = true then killCancel g else g) ∧
        (¬ ended → runsTcb s v.part b.tcb = none →
          (∀ j x, standsTcb s v.part b.tcb = some j → (frameOf s j).disp.standby = some x → ∃ y, ends y j ∧
            marks y b.tcb (if x.image = true then 2 else 0) ∧ (frameOf y j).disp = { (frameOf s j).disp with standby := none } ∧
            ∀ i, i ≠ j → (frameOf y i).disp = (frameOf s i).disp) ∧
          (standsTcb s v.part b.tcb = none → ends s (48 * die))))))

/-- R312: a fresh entry state sets every word of the 32 parameter sets to zero, so that every set is of kind 0; every
port position is 0 and every FIFO empty. -/
def Obligations.FreshParameterSets : Prop :=
  ∀ (s : State) (k : Nat) (b : BindRec), (frameOf s k).disp.running = none → (frameOf s k).disp.standby = some b →
    b.image = false → frameHeld s k = false →
    ∃ t, exec (.promote k) s = .next t ∧
      (∀ j w, j < 32 → w < 8 → psetWord (frameOf t k).vec j w = 0) ∧ (∀ j, j < 32 → setKind (frameOf t k).vec j = 0) ∧
      ∀ p, p < 8 → tgetD (frameOf t k).vec.ports p 0 = 0 ∧ tgetD (frameOf t k).vec.fifos p [] = []

/-- R169, R264, R263, R275, R336, R345, R356, R357: a frame whose running entry is empty runs its standby thread, unless a
waiting event holds the frame (R362). A FRESH thread starts at its control block's ENTRY with every register, buffer, CSR
and predicate zero, no level-2 report, every row dead, every granule empty and every bank dead, and it belongs to no group;
the frame keeps its calibration, grant and cool-down. An IMAGE thread starts from its image.
R338, R340 to R344: each section of an image whose bytes stand at its area is found with the bytes that were written, and, of a
thread with no fault kept in it, the generator's registers and compose buffers, loops, emitted bundles, predicates, lanes, parameter
sets, ports, FIFOs, rows, scratchpad, banks and their marks, weights, withheld writes, undo log and divisors stand as they were; the
divisors asked for run under the frame's own floors.
A bank still to fetch enters its array when its fetch is done; till the last has, nothing of the thread moves.
What an image has no field for, what a fresh entry leaves to the frame, and what of storage it may fetch, are the model's
readings (assumptions 19, 21 and 30), and so is what becomes of a thread whose control block or image is not there any more: the
image's thread is withdrawn (assumptions 47 and 48). -/
def Obligations.ThreadEntry : Prop :=
  (
  ∀ (s : State) (k : Nat), Memory.wf s.mem = true →
    let f := frameOf s k
    (f.disp.running.isSome = true ∨ f.disp.standby = none ∨ frameHeld s k = true → exec (.promote k) s = .next s) ∧
    let part := (dieOf s (k / 48)).part
    let here : State := { s with cur := k }
    (∀ b, f.disp.running = none → f.disp.standby = some b → frameHeld s k = false → b.image = true → imageStands s part b = false →
      ∃ t, exec (.promote k) s = .next t ∧ (frameOf t k).disp = { f.disp with standby := none } ∧
        ∀ j, j ≠ k → (frameOf t j).disp = (frameOf s j).disp) ∧
    (∀ b, f.disp.running = none → f.disp.standby = some b → frameHeld s k = false → (b.image = true → imageStands s part b = true) →
      ∃ (u : State) (g : Frame), exec (.promote k) s = .next (postFrameEvent (setFrame u k g) k 7 b.tid 0) ∧
        g.disp.running = some b ∧ g.disp.standby = none ∧
        (b.image = true → u = s ∧ g = restoreFrame here f b) ∧
        (b.image = false → inPartition s part b.tcb = true → inPartition s part (b.tcb + 255) = true → u.dies = s.dies ∧ u.groups = s.groups ∧ (∀ j, (frameOf u j).disp = (frameOf s j).disp) ∧
          (∀ j, j < 8 → memberValid u b.tcb j = false) ∧
          (∀ a, a < b.tcb + 128 ∨ b.tcb + 256 ≤ a → memSeen u a = memSeen s a) ∧
          g.gen = { Gen.fresh with pc := if tcbBad s b.tcb 1 = true then 0 else gword here (b.tcb + 8), imem := g.seen, ibad := g.seenBad } ∧
          (∀ a, memGet g.seen a = memSeen { u with cur := k } a) ∧ g.seenBad = u.poison ∧
          (∀ r, rx g.gen r = 0) ∧ (∀ i, kget g.gen i = 0) ∧ g.gen.l2 = L2Report.fresh ∧ g.gen.lastGen = 0 ∧ g.gen.qfull = 0 ∧
          g.seq = Seq.fresh ∧ g.ph = Phase.fresh ∧ g.vec = Vec.fresh ∧ g.sram = { Sram.fresh with split := b.split } ∧
          g.cpe = Cpe.fresh ∧ g.clk.cool = f.clk.cool ∧ g.clk.grant = f.clk.grant ∧ g.clk.level = f.clk.level ∧
          g.clk.gen = 3 ∧ g.clk.copy = 4 ∧ g.bead.kg = 1 ∧ g.bead.ng = 1 ∧ g.bead.digital = false ∧
          ∀ i a, tget f.bead.arrays i = some a → ∃ a', tget g.bead.arrays i = some a' ∧ a'.cal = a.cal ∧ a'.meas = a.meas ∧
            a'.calTemp = a.calTemp ∧ a'.calTime = a.calTime ∧ a'.b0 = Bank.fresh ∧ a'.b1 = Bank.fresh ∧ a'.act = false)) ∧
    (∀ p rest, f.disp.fetch = p :: rest → f.disp.running.isSome = true →
      genRuns f = false ∧ seqRuns f = false ∧ engineRuns f = false ∧
      ∀ b x, fetchBank here (bankKey p) (bankOf (arrOf f p.1) p.2) = (.done b, x) →
        ∃ t, exec (.bankFetchRetry k) s = .next t ∧ t.mem = s.mem ∧ (frameOf t k).disp.fetch = rest.filter (fun q => decide (q ≠ p)) ∧
          bankOf (arrOf (frameOf t k) p.1) p.2 = b ∧ bankOf (arrOf (frameOf t k) p.1) (!p.2) = bankOf (arrOf f p.1) (!p.2) ∧
          ∀ j, j ≠ k → (frameOf t j).disp = (frameOf s j).disp)) ∧
  (
  ∀ (s : State) (f f0 : Frame) (b : BindRec),
    let secs := imageSecs f false
    let bytes := imageBytes f b.tid secs
    let g := restoreFrame s f0 b
    imageSize secs < 2 ^ 32 → (∀ i, i < bytes.length → memSeen s (b.area + i) = bytes.getD i 0) →
    (∀ n, n < 12 → let sec := secs.getD n []
      secLen s b.area (n + 1) = sec.length ∧ grun s (secBase s b.area (n + 1)) sec.length = sec) ∧
    g.disp.running = some b ∧ (g.clk.askGen, g.clk.askExec, g.clk.askCopy) = (f.clk.askGen, f.clk.askExec, f.clk.askCopy) ∧
    g.clk.gen.toNat = divisorFor 3 f.clk.askGen.toNat ∧ (g.clk.grant, g.clk.cool) = (f0.clk.grant, f0.clk.cool) ∧
    (∀ c, carriedOf s b = some c → f.ph.faults = [] → f.disp.fault = none →
      (g.ph.stores, g.ph.adds, g.ph.undo, g.ph.snap) = (c.ph.stores, c.ph.adds, c.ph.undo, c.ph.snap) ∧ g.vec.fifos = c.vec.fifos ∧
      (g.seq.queue, g.seq.loops, g.seq.fmt, g.gen.fences) = (c.seq.queue, c.seq.loops, c.seq.fmt, c.gen.fences)) ∧
    (f.ph.faults = [] → f.disp.fault = none → carriedOf s b = none →
      g.gen.pc = f.gen.pc ∧ (∀ r, rx g.gen r = rx f.gen r) ∧ (∀ i, kget g.gen i = kget f.gen i) ∧ g.gen.h = f.gen.h ∧ g.gen.l2 = f.gen.l2 ∧
      (g.gen.emitSer, g.gen.lastGen, g.gen.cycle, g.gen.instret) = (f.gen.emitSer, f.gen.lastGen, f.gen.cycle, f.gen.instret) ∧
      (g.seq.wb, g.seq.wv, g.seq.wc) = (f.seq.wb, f.seq.wv, f.seq.wc) ∧
      (f.seq.loops.length ≤ 6 → (∀ l ∈ f.seq.loops, l.iter < 2 ^ 16 ∧ l.cnt < 2 ^ 16 ∧ l.len < 2 ^ 7 ∧ l.start < 2 ^ 7) → g.seq.loops = f.seq.loops) ∧
      (f.seq.queue.length ≤ 512 → f.seq.kept ≤ f.seq.queue.length →
        (∀ e ∈ f.seq.queue, ∀ sl, (e.bun.word sl).isSome = hdrHas e.bun.hdr sl) →
        g.seq.queue = f.seq.queue.map fun e => { e with tag := { e.tag with tid := b.tid }, fences := [] }) ∧
      (∀ i, i < 16 → tgetD g.vec.preds i 0 = tgetD f.vec.preds i 0) ∧ (∀ i, i < 64 → tgetD g.vec.cf i 0 = tgetD f.vec.cf i 0) ∧
      (∀ j w, j < 32 → w < 8 → psetWord g.vec j w = psetWord f.vec j w) ∧
      (∀ p, p < 8 → (tgetD f.vec.ports p 0 < 2 ^ 48 → tgetD g.vec.ports p 0 = tgetD f.vec.ports p 0) ∧
        ((tgetD f.vec.fifos p []).length ≤ 8 → (∀ v ∈ tgetD f.vec.fifos p [], v.bad = false) →
          tgetD g.vec.fifos p [] = tgetD f.vec.fifos p [])) ∧
      (∀ k, k < 32 → (setKind f.vec k = 8 → (curOrigin f k).length = 14 → (∀ x ∈ curOrigin f k, x < 2 ^ 32) → curOrigin g k = curOrigin f k) ∧
        (setKind f.vec k = 10 → ∀ x, x < 2 ^ 23 → curOrigin f k = [x] → curOrigin g k = [x])) ∧
      (tblFrom 0 f.vec.rows = true → (∀ r ∈ f.vec.rows, r.1 < 1024) → g.vec.rows = f.vec.rows) ∧
      (f.sram.split < 16 → (∀ i, fbit f.sram.live i = true → i < 4 * f.sram.split) → (g.sram.split, g.sram.live) = (f.sram.split, f.sram.live) ∧
        (∀ a, fbit f.sram.live (a / 65536) = true → memGet g.sram.cells a = memGet f.sram.cells a) ∧
        ∀ q, fbit f.sram.live (q / 4096) = true → (q ∈ g.sram.full ↔ q ∈ f.sram.full)) ∧
      (tblFrom 0 f.bead.arrays = true → g.bead.digital = f.bead.digital ∧
        (1 ≤ f.bead.kg → f.bead.kg ≤ 64 → g.bead.kg = f.bead.kg) ∧ (1 ≤ f.bead.ng → f.bead.ng ≤ 64 → g.bead.ng = f.bead.ng) ∧
        ∀ i, i < 64 → let a := arrOf g i
          let old := arrOf f i
          (a.act, a.clip, a.staleF) = (old.act, old.clip, old.staleF) ∧ (a.cal, a.meas) = ((arrOf f0 i).cal, (arrOf f0 i).meas) ∧
          ∀ one, let x := bankOf a one
            let y := imageBank f i one
            (x.fmt, x.swm) = (y.fmt, y.swm) ∧ (x.filling = true ↔ ∃ h n o, y.src = .object h n o) ∧ (x.filling = true ↔ (i, one) ∈ g.disp.fetch) ∧
            (y.src = .zero ∨ y.src = .ports → x.src = y.src) ∧
            (∀ h n o, y.src = .object h n o → h < 2 ^ 20 → n < 2 ^ 16 → o.length = 14 → (∀ c ∈ o, c < 2 ^ 32) → x.src = y.src) ∧
            (y.src = .ports → (∀ j, j < 16384 → tgetD x.w j 0 = tgetD y.w j 0) ∧ ∀ j, j < 512 → tgetD x.scales j 0x7F = tgetD y.scales j 0x7F)) ∧
      (g.cpe.des, g.cpe.pend) = (f.cpe.des, f.cpe.pend) ∧ g.ph.forced = f.ph.forced ∧ (f.ph.replays < 256 → g.ph.replays = f.ph.replays) ∧
      ((∀ u ∈ f.ph.undo, u.1 < 1024) → g.ph.undo = f.ph.undo.take 256) ∧
      (let what (v : VStore) := (v.handle, v.gen, v.ord, v.scope, v.off, v.da, v.da2, v.mask, v.data)
       (∀ v ∈ f.ph.stores, v.handle < 2 ^ 20 ∧ v.gen < 2 ^ 16 ∧ v.off < 2 ^ 64 ∧ v.da < 2 ^ 64 ∧ v.da2 < 2 ^ 64) →
         g.ph.stores.map what = f.ph.stores.map what) ∧
      (let what (c : CAdd) := (c.handle, c.gen, c.ord, c.scope, c.elems)
       (∀ c ∈ f.ph.adds, c.handle < 2 ^ 20 ∧ c.gen < 2 ^ 16 ∧ ∀ x ∈ c.elems, x.1 < 2 ^ 48) → g.ph.adds.map what = f.ph.adds.map what) ∧
      let p := g.ph.snap
      (f.ph.snap.pos < 2 ^ 48 → p.pos = f.ph.snap.pos) ∧ (p.wb, p.wv, p.wc, p.des) = (f.ph.snap.wb, f.ph.snap.wv, f.ph.snap.wc, f.ph.snap.des) ∧
      (∀ i, i < 16 → tgetD p.preds i 0 = tgetD f.ph.snap.preds i 0) ∧
      ∀ i, i < 8 → tgetD f.ph.snap.ports i 0 < 2 ^ 48 → tgetD p.ports i 0 = tgetD f.ph.snap.ports i 0))

/-- R169, R210, R331, R336, R337, R354, R358, R361, R362: a request to stop lands between bundles or repetitions, never inside
a split bundle nor while the generator core awaits a reply from another package: the core holds no stalled instruction from
then on, and a bundle taken of which nothing has been handed out is not begun. With the point landed and everything in flight
settled, no cancelled operation still able to write in another package, the image is written, the thread is UNBOUND and its frame free; a pre-emption whose image does not fit its area is
refused and the thread goes on, its reservation with it, past an acquire: its L1 is empty, and the writes before the point may be
fetched after a FENCE.I (R94, R108). A killed thread's frame is free, and it ends, or its end is held, once its committed work is performed, and a
completion word in another package has been asked for its decrement. None of it comes while an event holds the frame (R362).
What is written when an image does not fit, and when the write waits, are the model's readings (assumption 18); bytes of the area
that have left the partition are not written (assumption 48). -/
def Obligations.ThreadStop : Prop :=
  ∀ (s : State) (r : StopReq) (b : BindRec),
    let f := curFrame s
    f.disp.req = some r → f.disp.running = some b →
    let held := f.disp.evHeld ≠ 0
    (r.landed = true ∨ f.bead.bldp.isSome = true ∨ atBoundary f = false ∨ remBusy f = true ∨ held →
      exec .preemptionPoint s = .next s) ∧
    (cancelledOut s = true ∨ held → exec .imageWrite s = .next s) ∧
    (¬ held → r.landed = false → f.bead.bldp = none → atBoundary f = true → remBusy f = false →
      ∃ t, exec .preemptionPoint s = .next t ∧ t = setCur s (curFrame t) ∧ let g := curFrame t
        g.disp = { f.disp with req := some { r with landed := true }, fetch := g.disp.fetch } ∧ g.gen.stall = none ∧
        g.gen.exiting = false ∧ g.gen = { f.gen with stall := none, exiting := false, kept := g.gen.kept } ∧
        ((∀ all rd blk d, f.gen.stall ≠ some (.gwait all rd blk d)) → g.gen.kept = f.gen.kept) ∧
        g.vec.rows = f.vec.rows ∧ g.ph.released = f.ph.released ∧ genRuns g = false ∧ seqRuns g = false ∧
        (r.why ≠ .kill → g = { f with gen := g.gen, disp := { f.disp with req := some { r with landed := true } }, seq := g.seq } ∧
          (∀ c, f.seq.stage = .issuing → f.seq.cur = some c → c.rep = 0 → g.seq = untake f.seq) ∧
          ((∀ c, f.seq.stage = .issuing → f.seq.cur = some c → c.rep ≠ 0) → g.seq = f.seq)) ∧
        (r.why = .kill → queuesEmpty g = true ∧ g.vec.loads = [] ∧ g.cpe.ops = [] ∧ g.ph.stores = [] ∧ g.ph.adds = [])) ∧
    (r.landed = true → r.why ≠ .kill → imageReady f = false → exec .imageWrite s = .next s) ∧
    (¬ held → cancelledOut s = false → r.landed = true → imageReady f = true → (b.areaLen = 0 ∨ serves s (homeOf b.area) = true) →
      let h := imageFrame f
      let size := imageSize (imageSecs h false)
      let free (x : State) : State := onCur x fun g => freeFrame { g with clk := h.clk }
      (size ≤ 4096 * b.areaLen → r.why ≠ .kill →
        exec .imageWrite s = .next (postFrameEvent (free (setTcbState (putImage s h b false) (curTcb s) 2))
          s.cur (if r.why = .escalate then 3 else 2) b.tid (BitVec.ofNat 64 size))) ∧
      (4096 * b.areaLen < size → r.why = .preempt → ∃ g, exec .imageWrite s = .next (postFrameEvent
          (setCur s g) s.cur 5 b.tid (BitVec.ofNat 64 size)) ∧ g.sram.l1 = [] ∧ g.late = [] ∧ g.seenBad = s.poison ∧
        (Memory.wf s.mem = true → ∀ a, memGet g.seen a = memSeen s a) ∧ (∀ e ∈ g.codeNew, e.2 = true) ∧
        g = { f with disp := { f.disp with req := none }, sram := { f.sram with l1 := [] }, late := [], seen := g.seen, seenBad := g.seenBad,
                     codeNew := g.codeNew })) ∧
    (¬ held → cancelledOut s = false → r.landed = true → r.why = .kill → (f.ph.released ≠ [] → exec .imageWrite s = .next s) ∧
      (f.ph.released = [] → let x := onCur s freeFrame
        let tcb := reachTcb x (curPart s) b.tcb
        (∀ y, endThread x s.cur (curPart s) tcb true = some y → exec .imageWrite s = .next y) ∧
        (endThread x s.cur (curPart s) tcb true = none → ∃ t d, exec .imageWrite s = .next t ∧
          (b.tcb, true, s.cur) ∈ (dieOf t d).heldExit ∧ (∀ j, (frameOf t j).disp = (frameOf x j).disp) ∧
          (tcbAway x tcb = true → t.mem = s.mem ∧ t.frames = x.frames)))) ∧
    (∀ g : Frame, let h := freeFrame g
      h.disp = { g.disp with running := none, req := none, fault := none, fetch := [], posted := [] } ∧ genRuns h = false) ∧
    (∀ g : Frame, ∃ c rest, (putImage s g b false).carried = c :: rest ∧ c.part = curPart s ∧ c.tid = b.tid ∧ c.frame = g ∧ c.key = imageKey g) ∧
    (Memory.wf s.mem = true → ∀ g : Frame, let bytes := imageBytes g b.tid (imageSecs g false)
      Stored s (putImage s g b false) ((zipBytes ((upto bytes.length).map (b.area + ·)) bytes).filter fun x => inPartition s (curPart s) x.1))

/-- R362, R363: the group commands read, create and destroy an entry of their partition's table and end with their
STATUS; a group that is not there reads as zeros; a die that is not admitted ignores them (R8). An event enters the ring at
HEAD, and those that wait for room enter it in order once there is some, each then no longer holding its frame; while the
ring's memory is away they wait as well (R379). That they do so within one step is the model's reading (assumption 21),
and that a byte of the ring outside the partition's memory is not written is its choice (R26, assumption 48). -/
def Obligations.GroupsAndRing : Prop :=
  ∀ (s : State) (die : Nat),
    let v := dieOf s die
    (v.st ≠ .admitted → ∀ g, exec (.grpRead die g) s = .next s ∧ exec (.grpCreate die g) s = .next s ∧
      exec (.grpDestroy die g) s = .next s) ∧
    (v.st = .admitted → ∀ g : BitVec 12,
      let key := 4096 * v.part + g.toNat
      let new : Group := { epoch := 0, members := 0, arrived := 0, lateM := 0, lateA := 0 }
      let ends (o : Out) (op st : Nat) (data : List Word) (gr : Tbl Group) : Prop :=
        let done : Word := BitVec.ofNat 64 (st * 2 ^ 60 + op * 2 ^ 12 + g.toNat)
        let w : Die := { v with grpData := data, grpCmd := done }
        o = .next (setDie { s with groups := gr } die w)
      (∀ x, tget s.groups key = some x →
        ends (exec (.grpRead die g) s) 0 0 [BitVec.ofNat 64 (2 ^ 63 + x.epoch.toNat),
          BitVec.ofNat 64 (x.members.toNat * 2 ^ 24 + x.arrived.toNat), BitVec.ofNat 64 (x.lateM.toNat * 2 ^ 24 + x.lateA.toNat)] s.groups ∧
        ends (exec (.grpCreate die g) s) 1 1 v.grpData s.groups ∧
        (x.members ≠ 0 ∨ x.lateM ≠ 0 → ends (exec (.grpDestroy die g) s) 2 3 v.grpData s.groups) ∧
        (x.members = 0 → x.lateM = 0 → ends (exec (.grpDestroy die g) s) 2 0 v.grpData (terase s.groups key))) ∧
      (tget s.groups key = none → ends (exec (.grpRead die g) s) 0 2 [0, 0, 0] s.groups ∧
        ends (exec (.grpDestroy die g) s) 2 2 v.grpData s.groups ∧
        ends (exec (.grpCreate die g) s) 1 0 v.grpData (tset s.groups key new))) ∧
    (v.evWait = [] → exec (.eventRingSpace die) s = .next s) ∧
    (∀ e rest, v.evWait = e :: rest → Memory.wf s.mem = true →
      let head := fld v.evqBase 48 16
      let base := fld v.evqBase 12 36 * 4096
      let full := head = (fld v.evqBase 0 12 + 4095) % 4096
      let served := base / 0x1000000000 ∉ partDies s v.part ∨ serves s (base / 0x1000000000) = true
      let k := 48 * e.die + e.frame
      (full ∨ ¬ served → exec (.eventRingSpace die) s = .next s) ∧
      (¬ full → served → ∃ t, exec (.eventRingSpace die) s = exec (.eventRingSpace die) t ∧
        (rest = [] → exec (.eventRingSpace die) s = .next t) ∧
        (dieOf t die).evWait = rest ∧ fld (dieOf t die).evqBase 48 16 = (head + 1) % 4096 ∧
        fld (dieOf t die).evqBase 0 48 = fld v.evqBase 0 48 ∧ (∀ d, d ≠ die → dieOf t d = dieOf s d) ∧
        (frameOf t k).disp = { (frameOf s k).disp with evHeld := (frameOf s k).disp.evHeld - if e.kind = 8 then 0 else 1 } ∧
        (∀ j, j ≠ k → (frameOf t j).disp = (frameOf s j).disp) ∧
        Stored s t ((zipBytes ((upto 16).map (base + 16 * (head % 4096) + ·)) (wordBytes e.word0 ++ wordBytes e.detail)).filter fun b =>
          inPartition s v.part b.1)) ∧
      (¬ full → served → ∃ t m, exec (.eventRingSpace die) s = .next t ∧ 1 ≤ m ∧ m ≤ v.evWait.length ∧
        (dieOf t die).evWait = v.evWait.drop m ∧ fld (dieOf t die).evqBase 48 16 = (head + m) % 4096 ∧
        ((dieOf t die).evWait ≠ [] → (head + m) % 4096 = (fld v.evqBase 0 12 + 4095) % 4096)))

/-! ### The package -/

/-- R7, R8, R52, R84, R383: an aligned doubleword written to a register of a die's block that answers is that
register's write; any other size or alignment, a block that does not answer and a frame's block change nothing. HTAB_BASE
and HTAB_LEN of a table that fits reach every die of the partition, and else change nothing. FRAME_OOS takes no bit for an
occupied frame that it did not have. BOARD_CFG asks for at most 12 ways with no thread bound; when the change completes
the bytes of the ways that move read as zero, and no other byte changes.
R63, R64, R65, R71: a write of RC_INVAL with BUSY sets BUSY and drops the handles it names from the record caches
of every die and frame of the partition; a bad range ends with status 2; while BUSY reads 1 a write changes nothing. The
invalidation completes when no covered access is in flight and no covered line of another package is awaited: and no unbound thread withholds a write through a covered handle in its image, the caches hold
none of those handles, with ALL the handle table written last is in use, generator cores and issues stalled on one have read
the table again and go on, bank fetches and launches that a MIGRATING record held are tried again, BUSY reads 0, and ends of
threads so held are made. A die that is not admitted ignores writes (R8).
When an invalidation drops entries, and writes of read-only fields, are the model's readings (assumptions 20 and 31). -/
def Obligations.ManagementRegisters : Prop :=
  (
  ∀ (s : State) (die : Nat) (val : Word),
    let v := dieOf s die
    let ds := partDies s v.part
    let onAll (o : Out) (g : Die → Die) : Prop := ∃ t, o = .next t ∧ t = { s with dies := t.dies } ∧
      ∀ d, dieOf t d = if d ∈ ds then g (dieOf s d) else dieOf s d
    let len := min (2 ^ 20) (val.toNat % 2 ^ 21)
    let regAt (off : Nat) (who : Writer) : Instr := .mgmtRegisterWrite { who := who, off := 0x4000000 + 0x400000 * die + off, size := 8, val := val }
    (∀ who off size, size ≠ 8 ∨ off % 8 ≠ 0 → exec (.mgmtRegisterWrite { who := who, off := off, size := size, val := val }) s = .next s) ∧
    (die < 4 → ∀ who,
      (∀ off, off < 0x400000 → off % 8 = 0 → dieReached s who die = false ∨ 0x100000 ≤ off → exec (regAt off who) s = .next s) ∧
      (dieReached s who die = true →
        exec (regAt 0x200 who) s = exec (.htabBaseWrite die val) s ∧ exec (regAt 0x208 who) s = exec (.htabLenWrite die val) s ∧
        exec (regAt 0x210 who) s = exec (.rcInval die val) s ∧ exec (regAt 0x280 who) s = exec (.boardCfgWrite die val) s ∧
        exec (regAt 0x410 who) s = exec (.frameOosWrite die val) s ∧
        ∀ i, i < 4 → exec (regAt (0x300 + 8 * i) who) s = .next (setDie s die { v with bindRec := lset v.bindRec i val }))) ∧
    (v.st ≠ .admitted → exec (.htabBaseWrite die val) s = .next s ∧ exec (.htabLenWrite die val) s = .next s ∧
      exec (.rcInval die val) s = .next s ∧ exec (.boardCfgWrite die val) s = .next s ∧ exec (.frameOosWrite die val) s = .next s) ∧
    (v.st = .admitted →
    (tableFits s die (fld val 12 36 * 4096) v.htabLen.toNat = true → onAll (exec (.htabBaseWrite die val) s)
      fun d => { d with htabBase := BitVec.ofNat 64 (fld val 12 36 * 4096 + val.toNat % 2) }) ∧
    (tableFits s die (fld val 12 36 * 4096) v.htabLen.toNat = false → exec (.htabBaseWrite die val) s = .next s) ∧
    (tableFits s die (fld v.htabBase 12 36 * 4096) len = true → onAll (exec (.htabLenWrite die val) s)
      fun d => { d with htabLen := BitVec.ofNat 64 len }) ∧
    (tableFits s die (fld v.htabBase 12 36 * 4096) len = false → exec (.htabLenWrite die val) s = .next s) ∧
    (∃ t, exec (.frameOosWrite die val) s = .next t ∧ t = setDie s die { v with oos := (dieOf t die).oos } ∧
      ∀ f, f < 48 → let x := (frameOf s (48 * die + f)).disp
        (dieOf t die).oos.getLsbD f = (val.getLsbD f && (v.oos.getLsbD f || (x.running.isNone && x.standby.isNone)))) ∧
    (let idle := ∀ k ∈ partFrames s v.part, (frameOf s k).disp.running = none ∧ (frameOf s k).disp.standby = none
     (val.toNat % 16 ≤ 12 → v.lockNew = none → idle →
       exec (.boardCfgWrite die val) s = .next (setDie s die { v with lockNew := some (val.toNat % 16) })) ∧
     (12 < val.toNat % 16 ∨ v.lockNew.isSome = true ∨ ¬ idle → exec (.boardCfgWrite die val) s = .next s))) ∧
    (∀ n, v.lockNew = some n → ∃ t, exec (.boardLockComplete die) s = .next t ∧ t.frames = s.frames ∧
      (∀ d, dieOf t d = if d = die then { v with lockWays := n, lockNew := none } else dieOf s d) ∧
      ∀ a, let way := (a - boardBase die) / 0x1000000
        memSeen t a = if boardBase die ≤ a ∧ min n v.lockWays ≤ way ∧ way < max n v.lockWays then 0 else memSeen s a)) ∧
  (
  ∀ (s : State) (die : Nat) (val : Word), die < 4 →
    let v := dieOf s die
    let ds := partDies s v.part
    let covers (w : Word) (h : Nat) : Prop := w.getLsbD 40 = true ∨ fld w 0 20 ≤ h ∧ h ≤ fld w 20 20
    let gone (w : Word) (t : State) : Prop :=
      (∀ d, (dieOf t d).rc = if d ∈ ds then (dieOf s d).rc.filter (fun e => !invalCovers w e.handle) else (dieOf s d).rc) ∧
      (∀ k ∈ partFrames s v.part, frameOf t k = { frameOf s k with
        rc := (frameOf s k).rc.filter (fun e => !invalCovers w e.handle),
        reread := (frameOf s k).reread.filter (fun e => !invalCovers w e.handle), recGot := [] }) ∧
      (∀ k, k ∉ partFrames s v.part → frameOf t k = frameOf s k) ∧ t.mem = s.mem
    (∀ w h, invalCovers w h = true ↔ covers w h) ∧
    (v.rcInval.getLsbD 63 = true → exec (.rcInval die val) s = .next s) ∧
    (v.st = .admitted → v.rcInval.getLsbD 63 = false → val.getLsbD 63 = true →
      (val.getLsbD 40 = true ∨ (0 < fld val 0 20 ∧ fld val 0 20 ≤ fld val 20 20) →
        ∃ t, exec (.rcInval die val) s = .next t ∧ gone val t ∧ (dieOf t die).rcInval.getLsbD 63 = true ∧
          fld (dieOf t die).rcInval 0 41 = fld val 0 41) ∧
      (val.getLsbD 40 = false → fld val 0 20 = 0 ∨ fld val 20 20 < fld val 0 20 →
        ∃ t, exec (.rcInval die val) s = .next t ∧ t = setDie s die { v with rcInval := (dieOf t die).rcInval } ∧
          (dieOf t die).rcInval.getLsbD 63 = false ∧ fld (dieOf t die).rcInval 60 3 = 2)) ∧
    (v.rcInval.getLsbD 63 = false → exec (.rcInvalComplete die) s = .next s) ∧
    (v.rcInval.getLsbD 63 = true →
      let w := v.rcInval
      let listed := (partFrames s v.part).filter fun k => (tget s.frames k).isSome
      let busy (k : Nat) : Prop := (∃ h ∈ inFlight (frameOf s k), covers w h) ∨ fetchesOut s k w = true
      let unbound := ∃ h ∈ heldUnbound s v.part, covers w h
      let wrote (p : Phase) (h : Nat) : Prop := (∃ x ∈ p.stores, x.handle = h) ∨ ∃ c ∈ p.adds, c.handle = h
      (∀ f h, h ∈ inFlight f ↔ f.disp.running.isSome = true ∧ ((remBusy f = true ∧ ∃ x ∈ (remNow f).held, tagHandle x.addr = h) ∨
        wrote f.ph h ∨ (∃ x, .store x ∈ f.ph.released ∧ x.handle = h) ∨ (∃ c, .add c ∈ f.ph.released ∧ c.handle = h) ∨
        (∃ l ∈ f.vec.loads, l.handle = h) ∨ ∃ o ∈ f.cpe.ops, o.handleA = h ∨ o.handleB = h)) ∧
      (∀ k, fetchesOut s k w = true ↔ ∃ o ∈ s.edge.flitsWait ++ s.edge.parked, o.frame = k ∧
        covers w (if o.work = 12 then bankHandle (bankOf (arrOf (frameOf s k) (o.n / 2)) (decide (o.n % 2 = 1))) else o.handle)) ∧
      (∀ p h, h ∈ heldUnbound s p ↔ ∃ c ∈ s.carried, c.part = p ∧ wrote c.frame.ph h ∧
        ∀ k ∈ partFrames s p, ∀ b, (frameOf s k).disp.running = some b → b.tid ≠ c.tid) ∧
      (∀ k h, let f := frameOf s k
        h ∈ stalledOn s k ↔ f.gen.stall = some (.translation h) ∨
          ((∃ a rd blk d, f.gen.stall = some (.gwait a rd blk d)) ∧ (remNow f).migr = some h) ∨
          (exitReady f = true ∧ ∃ b, f.disp.running = some b ∧ h = tagHandle (tcbGet s b.tcb 4)) ∨
          ∃ q ∈ [f.seq.qb, f.seq.qv, f.seq.qc], q.hold.bind Hold.record? = some h) ∧
      let ends (t : State) : State := ((partDies t v.part).filter fun d => decide ((dieOf t d).st = .admitted)).foldl releaseExits t
      let uses (t : State) : Prop := ∀ d ∈ ds, ((dieOf t d).useBase, (dieOf t d).useLen) =
        if w.getLsbD 40 = true then ((dieOf s d).htabBase, (dieOf s d).htabLen) else ((dieOf s d).useBase, (dieOf s d).useLen)
      (unbound ∨ (∃ k ∈ listed, busy k) → exec (.rcInvalComplete die) s = .next s) ∧
      (¬ unbound → (∀ k ∈ listed, ¬ busy k) →
        (∃ u t, gone w u ∧ uses u ∧
          t = retrySubmits (listed.foldl (fun x k => retryFetches (retryStalls x k w) k w) u) v.part ∧
          ∃ x, exec (.rcInvalComplete die) s = .next (ends x) ∧ x = setDie t die { dieOf t die with rcInval := (dieOf x die).rcInval } ∧
            (dieOf x die).rcInval.getLsbD 63 = false ∧ fld (dieOf x die).rcInval 60 3 = 0) ∧
        ((∀ k ∈ listed, ∀ p ∈ (frameOf s k).disp.fetch, ¬ covers w (bankHandle (bankOf (arrOf (frameOf s k) p.1) p.2))) →
          (∀ slot, slot < 4 → (tgetD s.hub.apert (apertKey v.part slot 8) 0).getLsbD 63 = false) →
          ∃ t, exec (.rcInvalComplete die) s = .next (ends t) ∧ uses t ∧ t.mem = s.mem ∧
            (∀ d ∈ ds, (dieOf t d).rc = (dieOf s d).rc.filter fun e => !invalCovers w e.handle) ∧
            ∀ k ∈ listed, let f := frameOf s k
              let g := frameOf t k
              let goes (q r : SlotQ) : Prop := r = { q with hold := r.hold } ∧
                r.hold = if (q.hold.bind Hold.record?).any (invalCovers w) = true then none else q.hold
              g.rc = f.rc.filter (fun e => !invalCovers w e.handle) ∧
              goes f.seq.qb g.seq.qb ∧ goes f.seq.qv g.seq.qv ∧ goes f.seq.qc g.seq.qc ∧
              (∀ h, f.gen.stall = some (.translation h) → g.gen.stall = if invalCovers w h = true then none else some (.translation h)) ∧
              ∀ h ∈ stalledOn s k, covers w h → ∀ e, rcRead { t with cur := k } (k / 48) [] h = .found e → e ∈ g.reread))))

/-- R25, R373, R374: a partition change is refused for a layout the variant has not, for a moved die with a thread or a
launch record, and while another change runs; else every moved die is SCRUBBING, FAILED ones moving at once. A scrubbed
die joins its new partition with its storage zeroed, no copy of it left in any frame or thread, its frames as after reset and calibrated, and its queues and caches
empty; the last one completes the change.
The order of the statuses, what a scrub keeps, and that a frame's grant and cool-down last through it, are the model's
readings (assumptions 21 and 22). -/
def Obligations.PartitionChange : Prop :=
  ∀ (s : State) (layout : BitVec 4),
    let l := layout.toNat
    let moved (d : Nat) : Prop := d < 4 ∧ (dieOf s d).st ≠ .absent ∧ partOf l d ≠ (dieOf s d).part
    let refused (st : Nat) : Prop := ∃ t, exec (.partCfg layout) s = .next t ∧
      t = { s with hub := { s.hub with partCtl := t.hub.partCtl } } ∧ fld t.hub.partCtl 60 4 = st ∧ fld t.hub.partCtl 0 4 = l
    let held := ∃ d, moved d ∧ ((∃ f, f < 48 ∧ ((frameOf s (48 * d + f)).disp.running.isSome = true ∨
      (frameOf s (48 * d + f)).disp.standby.isSome = true)) ∨ ∃ q ∈ (dieOf s d).queues, q.2 ≠ [])
    ((∀ x y, s.hub.op ≠ some (.part x y)) →
      (layoutOk s.hub.variant l = false → refused 1) ∧
      (layoutOk s.hub.variant l = true → held → refused 2) ∧
      (layoutOk s.hub.variant l = true → ¬ held → s.hub.op.isSome = true → refused 3) ∧
      (layoutOk s.hub.variant l = true → ¬ held → s.hub.op = none →
        ∃ t, exec (.partCfg layout) s = .next t ∧ t = { s with dies := t.dies, hub := t.hub } ∧
          (∀ d, (moved d → dieOf t d = if (dieOf s d).st = .failed then { dieOf s d with part := partOf l d }
              else { dieOf s d with st := .scrubbing }) ∧ (¬ moved d → dieOf t d = dieOf s d)) ∧
          fld t.hub.partCtl 0 4 = l ∧ fld t.hub.partCtl 60 3 = 0 ∧
          ((∃ d, moved d ∧ (dieOf s d).st ≠ .failed) → t.hub.layout = s.hub.layout ∧ t.hub.partCtl.getLsbD 63 = true ∧
            ∃ todo, t.hub.op = some (.part l todo) ∧ ∀ d, d ∈ todo ↔ moved d ∧ (dieOf s d).st ≠ .failed) ∧
          ((∀ d, moved d → (dieOf s d).st = .failed) → t.hub.layout = l ∧ t.hub.op = none ∧ t.hub.partCtl.getLsbD 63 = false))) ∧
    ∀ todo die, s.hub.op = some (.part l todo) → exec (.partCfg layout) s = .next s ∧
      (die ∈ todo → die < 4 → ∃ t, exec (.scrubComplete die) s = .next t ∧
        (dieOf t die).st = .admitted ∧ (dieOf t die).part = partOf l die ∧ (dieOf t die).queues = [] ∧ (dieOf t die).rc = [] ∧
        (dieOf t die).pinned = (dieOf s die).pinned ∧ (dieOf t die).retired = (dieOf s die).retired ∧ (dieOf t die).handover = none ∧
        (∀ d, d ≠ die → dieOf t d = dieOf s d) ∧
        (∀ a, homeOf a = die → memSeen t a = 0) ∧ (∀ a, homeOf a ≠ die → memGet t.mem a = memGet s.mem a) ∧
        (∀ k, (k < 48 * die ∨ 48 * die + 48 ≤ k) → Forgotten (fun a => homeOf a = die) (frameOf s k) (frameOf t k)) ∧
        (∀ c ∈ t.carried, ∃ x ∈ s.carried, c = { x with frame := c.frame } ∧ Forgotten (fun a => homeOf a = die) x.frame c.frame) ∧
        (∀ f, f < 48 → let g := frameOf t (48 * die + f)
          let c := (frameOf s (48 * die + f)).clk
          { g with bead := Bead.fresh } = { Frame.fresh with clk := { Clocks.fresh with
            grant := c.grant, cool := c.cool, exec := if c.cool.isSome then 5 else 4 } } ∧
          ∀ i, i < 64 → (∀ x, tgetD (arrOf g i).meas x 0 = tgetD (arrOf g i).cal x 0) ∧ (arrOf g i).b0 = Bank.fresh ∧ (arrOf g i).b1 = Bank.fresh) ∧
        let rest := todo.filter fun d => decide (d ≠ die)
        t.hub.op = (if rest = [] then none else some (.part l rest)) ∧ t.hub.layout = (if rest = [] then l else s.hub.layout))

/-- R375, R376, R377, R379: a warm reset is refused for a die that is not admitted and while another change runs; else
the die quiesces: no thread stands by, a running one is killed by DROP or where its area is homed on the die, and else
asked to stop. The steps follow in order, step 2 only when no thread is left, its Svaken core's state then standing in its DRAM: its ports
leave the trained state, the other dies drop their copies of lines homed on it, its
board contents and record caches are lost, its DRAM stays. Admitted, the die serves again, and those of its ports that
have retrained carry traffic; a failure in step 4 or 5, or
more than 64 lost ranges, makes it FAILED with status 3.
The order of events in a step, and the threads that SAVE kills, are the model's readings (assumption 22); the place and the form of
Svaken's state are free (assumption 44). -/
def Obligations.WarmReset : Prop :=
  ∀ (s : State) (die : Nat) (drop : Bool), die < 4 →
    let i : Instr := if drop then .warmResetDrop die else .warmResetSave die
    let stands (t : State) (st : Nat) : Prop := t = { s with hub := { s.hub with dreset := t.hub.dreset } } ∧ fld t.hub.dreset 60 3 = st
    ((∀ n p, s.hub.op ≠ some (.reset die drop n p)) →
      ((dieOf s die).st ≠ .admitted → ∃ t, exec i s = .next t ∧ stands t 1) ∧
      ((dieOf s die).st = .admitted → s.hub.op.isSome = true → ∃ t, exec i s = .next t ∧ stands t 2) ∧
      ((dieOf s die).st = .admitted → s.hub.op = none → ∃ t p, exec i s = .next t ∧ t.hub.op = some (.reset die drop 1 p) ∧
        (dieOf t die).st = .quiescing ∧ t.hub.dreset.getLsbD 63 = true ∧ fld t.hub.dreset 56 4 = 1 ∧ fld t.hub.dreset 0 2 = die ∧
        ∀ f, f < 48 → let k := 48 * die + f
          (frameOf t k).disp.standby = none ∧ (frameOf t k).disp.running = (frameOf s k).disp.running ∧
          ∀ b, (frameOf s k).disp.running = some b → ∃ r, (frameOf t k).disp.req = some r ∧
            r.why = if drop = true ∨ homeOf b.area = die then .kill else match (frameOf s k).disp.req with
              | none => .resetSave
              | some q => if q.why = .preempt then .resetSave else q.why)) ∧
    (∀ n p, s.hub.op = some (.reset die drop n p) →
      let goes (t : State) : Prop := exec i s = .next t ∧ t.hub.op = some (.reset die drop (n + 1) p)
      (n = 1 → dieIdle s die = false → exec i s = .next s) ∧
      let saved := let bs := Config.svakenState die s.freeCtr
        (zipBytes ((upto bs.length).map (0x1000000000 * die + Config.svakenAt die + ·)) bs).filter fun b => inDram s die b.1
      let board (a : Nat) : Prop := boardBase die ≤ a ∧ a < boardBase die + 0x100000000
      (n = 1 → dieIdle s die = true → ∃ t, goes t ∧ (Memory.wf s.mem = true → (∀ o ∈ s.edge.flitsWait, o.work < 11) → Stored s t saved) ∧
        ∀ q, q < 16 → t.hub.trained.getLsbD (16 * die + q) = false) ∧
      (n = 2 → ∃ t, goes t ∧ t.dies = s.dies ∧ t.mem = s.mem ∧ ∀ k l, l ∈ (frameOf t k).sram.l1 ↔
        l ∈ (frameOf s k).sram.l1 ∧ homeOf (128 * l.line) ≠ die) ∧
      (n = 3 → ∃ t, goes t ∧ (dieOf t die).st = .offline ∧ (dieOf t die).rc = [] ∧
        (∀ a, memGet t.mem a = if boardBase die ≤ a ∧ a < boardBase die + 0x100000000 then 0 else memGet s.mem a) ∧
        (∀ k, Forgotten board (frameOf s k) (frameOf t k)) ∧
        ∀ c ∈ t.carried, ∃ x ∈ s.carried, c = { x with frame := c.frame } ∧ Forgotten board x.frame c.frame) ∧
      (n = 4 → ∃ t, goes t ∧ (dieOf t die).st = .retraining ∧ t.mem = s.mem) ∧
      (n = 5 → ∃ t, goes t ∧ t.dies = s.dies ∧ t.mem = s.mem) ∧
      let failed (t : State) : Prop := (dieOf t die).st = .failed ∧ t.hub.op = none ∧ t.hub.dreset.getLsbD 63 = false ∧ fld t.hub.dreset 60 3 = 3
      (n = 4 ∨ n = 5 → ∃ t, exec (.dieAdmitted die false) s = .next t ∧ failed t) ∧
      (n = 6 → 64 < (dieOf s die).retired.length → ∃ t, exec (.dieAdmitted die true) s = .next t ∧ failed t) ∧
      (n = 6 → (dieOf s die).retired.length ≤ 64 → ∃ t, exec (.dieAdmitted die true) s = .next t ∧ (dieOf t die).st = .admitted ∧
        t.hub.op = none ∧ t.hub.dreset.getLsbD 63 = false ∧ fld t.hub.dreset 60 3 = 0 ∧ serves t die = true ∧
        ∀ q, q < 16 → t.hub.trained.getLsbD (16 * die + q) = (s.hub.trained.getLsbD (16 * die + q) || p.testBit q)))

/-- R2, R15, R25, R373, R384, R385: cold reset admits the dies of the variant in the recorded layout, with storage, groups and
frames as after reset and every clock at its reset divisor, takes a hub firmware image laid out for it that verifies, and pins the
sectors of the pin extension that the hub's device key has signed (R382). An image verifies only under a configuration record that
does, and whose manufacture part names the release key. A
live update reads its verdict from the image in the inactive slot: its header, digest, signature and SVN, and whether it accepts,
by MAGIC, VERSION and digest, the handover structures that stand in DRAM once the cores have written them. One that verifies waits
for the heartbeat of every admitted die's core, then makes the other slot active; a missed heartbeat, an image that does not
verify, or one that rejects a structure, then or at a heartbeat, leaves the slot and ends with its status.
The values of registers that the manual leaves without one, and what stands in the configuration record, are the model's
(assumptions 1, 2 and 3); the place and the fields of the structure, how a hub image is laid out, that an operation whose
operand is not the image's verdict does nothing, and that steps 1 to 4 are one step, are too (assumptions 25 and 45). -/
def Obligations.ResetAndUpdate : Prop :=
  ∀ (s : State),
    (∃ t, exec .coldReset s = .next t ∧ t.mem = [] ∧ t.time = 0 ∧ t.groups = [] ∧ t.hub.op = none ∧ t.hub.layout = s.hub.recLayout ∧
      t.hub.hubBody = (if imageSigned s s.hub.hubNext 1 = true ∧ minSvn s 1 ≤ leNat (memRead s.hub.hubNext 16 4)
        then some (imageBody s.hub.hubNext) else s.hub.hubBody) ∧ (t.hub.record, t.hub.pinExt) = (s.hub.record, s.hub.pinExt) ∧
      (∀ d, d < 4 → let v := dieOf t d
        v.st = (if d < (if s.hub.variant = 3 then 2 else 4) then .admitted else .absent) ∧ v.part = partOf s.hub.recLayout d ∧
        v.htabLen = 0 ∧ v.rcInval = 0 ∧ v.queues = [] ∧ v.oos = 0 ∧ v.lockWays = 0 ∧ v.pinned = pinsOf s d) ∧
      ∀ k, { frameOf t k with bead := Bead.fresh } = Frame.fresh) ∧
    (let ext := s.hub.pinExt
     let body := ext.drop 256
     let ok := ovwenSigned (edPublic Config.deviceSeed) 4 (ext.take 256) body = true ∧ minSvn s 4 ≤ leNat ((ext.drop 16).take 4)
     ∀ d, pinsOf s d = if ok then (((wordsOf (body.length / 8) body).map BitVec.toNat).filter fun a => decide (homeOf a = d)).map
       fun a => (a - 0x1000000000 * d) / 128 else []) ∧
    (let record := s.hub.record
     let body := record.drop 256
     (∀ k, minSvn s k = Config.minSvn body k) ∧
     (recordNames s = true ↔ ovwenSigned Config.recordKey 3 (record.take 256) body = true ∧ minSvn s 3 ≤ leNat ((record.drop 16).take 4) ∧
       Config.keyPrint (Config.manufacturePart body) = (shake256 Config.releaseKey).flatMap wordBytes)) ∧
    (let ends (o : Out) (st : Nat) : Prop := o = .next { s with hub := { s.hub with fwStatus := st, op := none, fwWait := [] } }
     let cores := (upto 4).filter fun d => decide ((dieOf s d).st = .admitted)
     let handed (t : State) : Prop := ∃ hs : Nat → Handover,
       (∀ d, dieOf t d = if d ∈ cores then { dieOf s d with handover := some (hs d) } else dieOf s d) ∧
       (∀ d ∈ cores, (hs d).magic = 0x4856 ∧ (hs d).version = Config.handoverVersion ∧ (hs d).length = (hs d).body.length ∧
         (hs d).digest = (shake256 (hs d).body).flatMap wordBytes) ∧
       OthersKept { s with cur := 192 } t ∧
       (Memory.wf s.mem = true → Stored s t (cores.flatMap fun d =>
         (zipBytes ((upto (handoverBytes (hs d)).length).map (dramBase d + Config.handoverAt d + ·)) (handoverBytes (hs d))).filter
           fun b => inDram s d b.1))
     let field (a n : Nat) : Nat := leNat (memRead (slotMem s false) a n)
     let signed := imageSigned s (slotMem s false) 2
     let put := handOver s
     let accepts := ∀ d ∈ cores, handoverFits put (slotMem s false) d = true
     handed put ∧
     (∀ (x : State) (m : Mem) (d : Nat), handoverFits x m d = true ↔
       let a := 0x1000000000 * d + Config.handoverAt d
       let at_ (i n : Nat) : Nat := leNat (grun x (a + i) n)
       (∀ i, i < 64 + at_ 4 4 → inDram x d (a + i) = true ∧ (a + i) / 32 ∉ x.poison) ∧ at_ 0 2 = 0x4856 ∧
         leNat (memRead m 20 2) ≤ at_ 2 2 ∧ at_ 2 2 ≤ leNat (memRead m 22 2) ∧
         grun x (a + 8) 56 = ((shake256 (grun x (a + 64) (at_ 4 4))).flatMap wordBytes).take 56) ∧
     (∀ m kind, imageSigned s m kind = true ↔ recordNames s = true ∧ leNat (memRead m 0 4) = 0x4E57564F ∧ leNat (memRead m 4 2) = 1 ∧ leNat (memRead m 6 2) = kind ∧
       leNat (memRead m 8 8) ≤ 0x2000000 - 256 ∧ (shake256 (memRead m 256 (leNat (memRead m 8 8)))).flatMap wordBytes = memRead m 24 64 ∧
       edVerify Config.releaseKey (memRead m 0 88) (memRead m 88 114) = true) ∧
     (∀ h, h.digest.length = 64 → (handoverBytes h).drop 64 = h.body ∧ (handoverBytes h).length = 64 + h.body.length ∧
       (handoverBytes h).take 64 = leOf h.magic 2 ++ leOf h.version 2 ++ leOf h.length 4 ++ h.digest.take 56) ∧
     (verdict s = .badSignature ↔ signed = false) ∧ (verdict s = .svnTooLow ↔ signed = true ∧ field 16 4 < minSvn s 2) ∧
     (verdict s = .handoverRejected ↔ signed = true ∧ minSvn s 2 ≤ field 16 4 ∧ ¬ accepts) ∧
     (verdict s = .good ↔ signed = true ∧ minSvn s 2 ≤ field 16 4 ∧ accepts) ∧
     (s.hub.op = none →
       (∀ v, v ≠ verdict s → exec (.liveUpdate v) s = .next s) ∧
       (verdict s = .good → exec (.liveUpdate .good) s =
         .next { put with hub := { s.hub with fwStatus := 0, op := some (.update 4), fwWait := cores } }) ∧
       (verdict s = .badSignature → exec (.liveUpdate .badSignature) s = .next { s with hub := { s.hub with fwStatus := 1 } }) ∧
       (verdict s = .svnTooLow → exec (.liveUpdate .svnTooLow) s = .next { s with hub := { s.hub with fwStatus := 2 } }) ∧
       (verdict s = .handoverRejected → exec (.liveUpdate .handoverRejected) s =
         .next { put with hub := { s.hub with fwStatus := 3, op := none, fwWait := [] } })) ∧
     (∀ o v, s.hub.op = some o → (∀ n, o ≠ .update n) → exec (.liveUpdate v) s = .next { s with hub := { s.hub with fwStatus := 5 } }) ∧
     ∀ n, s.hub.op = some (.update n) →
       let beat (c : Nat) (o : Out) : Prop :=
         let rest := s.hub.fwWait.filter fun d => decide (d ≠ c)
         (c ∉ s.hub.fwWait → o = .next s) ∧
         let fits := handoverFits s (slotMem s false) c
         (c ∈ s.hub.fwWait → fits = false → ends o 3) ∧
         (c ∈ s.hub.fwWait → fits = true → rest ≠ [] → o = .next { s with hub := { s.hub with fwWait := rest } }) ∧
         (c ∈ s.hub.fwWait → fits = true → rest = [] → ∃ t, o = .next t ∧ t = { s with hub := t.hub } ∧
           t.hub.fwActive = (!s.hub.fwActive) ∧ t.hub.op = none ∧ t.hub.fwStatus = 0 ∧
           (t.hub.flashA, t.hub.flashB) = (s.hub.flashA, s.hub.flashB))
       (∀ v, exec (.liveUpdate v) s = .next s) ∧ ends (exec .heartbeatTimeout s) 4 ∧ beat (curDie s) (exec .fwHeartbeat s) ∧
       ∀ d val, val.getLsbD 59 = true → beat d (exec (.mgmtRegisterWrite { who := .svaken d, off := 0x30, size := 8, val := val }) s))

/-- R107, R366, R367, R369, R377, R381, R382: a retrain counts and changes only the link's width and rate. A host access
reaches the DRAM of the partition's dies in ascending order, 64 GiB each: a read returns the bytes with their poison, a
retired range as all ones with poison; a write is made, or discarded and counted. An access to a die that does not serve
is held, and ends at its deadline: a read with poison, a write counted. A write with IDE required and not active is
refused. DRAM errors are counted; an uncorrectable one poisons its 32-byte word, and its sector is pinned or its range
retired; with a pin way, the fourth corrected error of a sector within 24 hours pins it. A new pin is written, with the others, to the
extension that the hub's device key signs (R382).
When a held access is made, and its data after the deadline, are the model's (assumptions 23 and 28). -/
def Obligations.HostAndDram : Prop :=
  ∀ (s : State),
    (∀ w r, w < 3 → r < 3 → s.hub.linkUp = true → exec (.hostLinkRetrain w r) s =
      .next { s with hub := { s.hub with retrains := min 65535 (s.hub.retrains + 1), width := w, rate := r } }) ∧
    (∀ p o k d, (partDies s p)[k]? = some d → o < 0x1000000000 → hdmAddr s p (0x1000000000 * k + o) = some (0x1000000000 * d + o)) ∧
    (∀ p o len as, hdmAddrs s p o len = some as → as.length = len ∧ ∀ i, i < len → hdmAddr s p (o + i) = as[i]?) ∧
    (∀ p o len as, hdmAddrs s p o len = some as →
      (homesServe s as = true → ∃ r, exec (.hostMemRead p o len) s = .next { s with edge := { s.edge with hostOut := s.edge.hostOut ++ [r] } } ∧
        r.unsup = false ∧ r.data = as.map (fun a => if retiredAt s a = true then 0xFF else memSeen { s with cur := hostReader } a) ∧
        (r.poison = true ↔ ∃ a ∈ as, a / 32 ∈ s.poison ∨ retiredAt s a = true)) ∧
      (homesServe s as = false → exec (.hostMemRead p o len) s = .next { s with edge := { s.edge with
        hostHeld := s.edge.hostHeld ++ [{ part := p, off := o, len := len, data := none }] } })) ∧
    (∀ p o data as, hdmAddrs s p o data.length = some as → s.hub.ideNeed = false ∨ s.hub.ideRx = true →
      (homesServe s as = true → (∀ a ∈ as, retiredAt s a = false) → Memory.wf s.mem = true →
        ∃ t, exec (.hostMemWrite p o data) s = .next t ∧ OthersKept { s with cur := hostReader } t ∧
          Stored { s with cur := hostReader } { t with cur := hostReader } (zipBytes as data)) ∧
      (homesServe s as = true → ∀ a, as.find? (retiredAt s) = some a → let d := homeOf a
        exec (.hostMemWrite p o data) s = .next (setDie s d { dieOf s d with ueCnt := min 65535 ((dieOf s d).ueCnt + 1) })) ∧
      (homesServe s as = false → exec (.hostMemWrite p o data) s = .next { s with edge := { s.edge with
        hostHeld := s.edge.hostHeld ++ [{ part := p, off := o, len := data.length, data := some data }] } })) ∧
    (s.hub.ideNeed = true → s.hub.ideRx = false → ∀ p o data, exec (.hostMemWrite p o data) s =
      .next { s with edge := { s.edge with hostOut := s.edge.hostOut ++ [{ data := [], poison := false, unsup := true }] } }) ∧
    (∀ x rest, s.edge.hostHeld = x :: rest →
      (x.data = none → ∃ t r, exec .hostHoldTimeout s = .next t ∧ t.edge = { s.edge with hostHeld := rest, hostOut := s.edge.hostOut ++ [r] } ∧
        r.poison = true ∧ r.unsup = false ∧ r.data.length = x.len ∧ t.mem = s.mem) ∧
      (x.data.isSome = true → ∀ a, hdmAddr s x.part x.off = some a → let d := homeOf a
        let u : State := { s with edge := { s.edge with hostHeld := rest } }
        exec .hostHoldTimeout s = .next (setDie u d { dieOf s d with ueCnt := min 65535 ((dieOf s d).ueCnt + 1) }))) ∧
    ∀ die byte, die < 4 → (dieOf s die).st ≠ .absent → dramCell (dieOf s die) byte = true →
      let v := dieOf s die
      let pins (t : State) : List Byte := (upto 4).flatMap fun d => (dieOf t d).pinned.flatMap fun p => leOf (0x1000000000 * d + 128 * p) 8
      let ext (t : State) : List Byte := ovwenImage Config.deviceSeed 4 (Config.minSvn (s.hub.record.drop 256) 4) (pins t)
      let record (t : State) : Prop := t.hub =
        { s.hub with pinExt := if (dieOf t die).pinned = v.pinned then s.hub.pinExt else ext t }
      let near := (v.ceHist.filter fun h => decide (h.1 = byte / 128) && decide (s.time < h.2 + 449280000000000)).length
      (∃ t, exec (.dramCorrectedError die byte) s = .next t ∧ t = { setDie s die (dieOf t die) with hub := t.hub } ∧ record t ∧
        (dieOf t die).ceCnt = min 65535 (v.ceCnt + 1) ∧
        (v.pinWay = true → 3 ≤ near → (∀ p ∈ v.pinned, p % 131072 ≠ byte / 128 % 131072) → (dieOf t die).pinned = v.pinned ++ [byte / 128]) ∧
        (v.pinWay = false ∨ near < 3 → (dieOf t die).pinned = v.pinned ∧ (dieOf t die).retired = v.retired)) ∧
      (∃ t, exec (.dramUncorrectableError die byte) s = .next t ∧ t.mem = s.mem ∧ record t ∧ (dieOf t die).ueCnt = min 65535 (v.ueCnt + 1) ∧
        (∀ p, p ∈ t.poison ↔ p ∈ s.poison ∨ p = (0x1000000000 * die + byte) / 32) ∧
        (v.pinWay = true → (∀ p ∈ v.pinned, p % 131072 ≠ byte / 128 % 131072) →
          (dieOf t die).pinned = v.pinned ++ [byte / 128] ∧ (dieOf t die).retired = v.retired) ∧
        (v.pinWay = false → v.retired.length < 64 →
          (dieOf t die).retired = v.retired ++ [byte / 0x200000] ∧ (dieOf t die).pinned = v.pinned))

/-! ### The fabric, attestation -/

/-- R107, R370, R372, R381: a peer's request is served only where an export window of its partition grants it and its
home serves; anything else is answered with an error reply and reads and writes nothing. A read is answered with the
bytes and their poison, a write and an add-reduce are made and acknowledged, an atomic is one read and write whose old
value returns. Poisoned data poisons every word it reaches.
R160, R370, R372: what a reply brings is kept for the piece of work that asked for it, and stands where that reads it; a reply
completes the request with its tag; a reply whose tag nothing awaits completes nothing.
The last acknowledgement of a released store or add-reduce performs it; the last read data of a copy performs its reads,
the last write reply retires it; the last line of a global load brings its bytes, and each lane of a global atomic its old
value. A generator core's load, store or atomic on another package's bytes waits under the translation it holds, and its last reply
lets it go on; code comes into the fetch view once since the last FENCE.I, with a byte that the thread has written since free. A record's, a map's or a bank's line and a completion word's answer let what waits for them be tried again. An
error reply of committed work sends it again for HOME_OFFLINE, waiting for a trained port if there is none, and for PERMISSION
drops it with a fault, counters and other writes of the copy engine included; one of the generator's, of a global load's or of an open operation raises its fault. Credits are
counted; a flit with a bad CRC counts a replay, one of a reserved type is discarded and counted; after 16 failed replays in a
row the port leaves the trained state and its traffic moves, requests that await an answer and answers that may not have left.
The image of peer memory, and what an error reply does to committed work, are the model's (assumptions 23 and 43). -/
def Obligations.FabricTraffic : Prop :=
  (
  ∀ (s : State) (f : Flit),
    let at_ (n : Nat) : List Nat := (upto n).map (f.addr + ·)
    let serves (n : Nat) (w : Bool) : Prop := exported s f.part.toNat f.addr n w = true ∧ peerReach s f.part.toNat (at_ n) = true ∧ homesServe s (at_ n) = true
    let answers (t : State) (ty : BitVec 4) (poison : Bool) (data : List Byte) : Prop :=
      let fl : FlitOut := { port := f.port, ty := ty, tag := f.tag, part := f.part, rel := false, poison := poison, addr := 0, data := data }
      let q := tgetD s.edge.sent f.port []
      t.edge = { s.edge with replays := terase s.edge.replays f.port, flitsOut := s.edge.flitsOut ++ [fl],
                             sent := tset s.edge.sent f.port ((q ++ [fl]).drop (q.length - 63)) }
    let n := f.data.length
    let peer : State := { s with cur := peerReader }
    let seen (t : State) : State := { t with cur := peerReader }
    (∀ p a k w, exported s p a k w = true ↔ ∃ x, x < 16 ∧
      let w0 := tgetD s.hub.exports (512 * p + 2 * x) 0
      let w1 := tgetD s.hub.exports (512 * p + 2 * x + 1) 0
      w0.getLsbD 63 = true ∧ w0.getLsbD (if w = true then 62 else 61) = true ∧ fld w0 12 28 * 4096 ≤ a ∧ a + k ≤ (fld w1 12 28 + 1) * 4096) ∧
    (portUp s f.port = false → exec (.fabricReadRequest f) s = .next s ∧ exec (.fabricWrite f) s = .next s ∧
      exec (.fabricAtomic f) s = .next s ∧ exec (.fabricAddReduce f) s = .next s) ∧
    (portUp s f.port = true →
      (¬ serves (min 232 f.len) false → ∃ t, exec (.fabricReadRequest f) s = .next t ∧ t = { s with edge := t.edge } ∧ answers t 8 false []) ∧
      (¬ serves n true → ∀ i, i = .fabricWrite f ∨ i = .fabricAtomic f ∨ i = .fabricAddReduce f →
        ∃ t, exec i s = .next t ∧ t = { s with edge := t.edge } ∧ answers t 8 false []) ∧
      (serves (min 232 f.len) false → let as := at_ (min 232 f.len)
        ∃ t p, exec (.fabricReadRequest f) s = .next t ∧ t = { s with edge := t.edge } ∧ answers t 2 p (as.map (memSeen peer)) ∧
          (p = true ↔ ∃ a ∈ as, a / 32 ∈ s.poison)) ∧
      (serves n true → Memory.wf s.mem = true →
        (∃ t, exec (.fabricWrite f) s = .next t ∧ answers t 4 false [] ∧ Stored peer (seen t) (zipBytes (at_ n) f.data) ∧
          (f.poison = true → ∀ a ∈ at_ n, a / 32 ∈ t.poison) ∧ (f.poison = false → ∀ p ∈ t.poison, p ∈ s.poison)) ∧
        (n = 4 ∨ n = 8 → let old := (at_ n).map (memSeen peer)
          let code : AmoCode := if f.amo = .add then .add else if f.amo = .min then .min else .max
          let new := if f.fp = true then leOf (vamoNew code .f32 (leNat old) (leNat f.data)) 4
            else if n = 8 then wordBytes (amoNew f.amo (bytesWord old) (bytesWord f.data))
            else leOf (amoNew f.amo (BitVec.ofNat 32 (leNat old)) (BitVec.ofNat 32 (leNat f.data))).toNat 4
          (f.fp = true → n = 4 ∧ (f.amo = .add ∨ f.amo = .min ∨ f.amo = .max)) →
          ∃ t p, exec (.fabricAtomic f) s = .next t ∧ answers t 6 p old ∧ (p = true ↔ ∃ a ∈ at_ n, a / 32 ∈ s.poison) ∧
          Stored peer (seen t) (zipBytes (at_ n) new)) ∧
        ∃ t, exec (.fabricAddReduce f) s = .next t ∧ answers t 4 false [] ∧
          (∀ i, i < n / 4 → grun (seen t) (f.addr + 4 * i) 4 =
            leOf (addRne (leNat (grun peer (f.addr + 4 * i) 4)) (leNat ((f.data.drop (4 * i)).take 4))).1 4) ∧
          ∀ a, (a < f.addr ∨ f.addr + n / 4 * 4 ≤ a) → memSeen (seen t) a = memSeen peer a))) ∧
  (
  ∀ (s : State) (f : Flit),
    let good : Edge := { s.edge with replays := terase s.edge.replays f.port }
    let left := s.edge.flitsWait.filter fun x => decide (x.flit.tag ≠ f.tag)
    let kinds (i : Instr) : List Nat := if i = .fabricReadData f then [2, 4, 7, 9, 11, 12] else if i = .fabricWriteAck f then [0, 1, 3, 5] else [3, 6, 8, 10]
    let replies : List Instr := [.fabricReadData f, .fabricWriteAck f, .fabricAtomicReply f]
    (portUp s f.port = false → ∀ i ∈ replies ++ [.fabricErrorReply f .permission, .fabricErrorReply f .homeOffline], exec i s = .next s) ∧
    (portUp s f.port = true →
      (s.edge.flitsWait.find? (fun o => decide (o.flit.tag = f.tag)) = none →
        ∀ i ∈ replies ++ [.fabricErrorReply f .permission, .fabricErrorReply f .homeOffline], exec i s = .next { s with edge := good }) ∧
      ∀ o, s.edge.flitsWait.find? (fun o => decide (o.flit.tag = f.tag)) = some o →
        let later := (left ++ s.edge.parked).any fun x => decide (x.frame = o.frame) && decide (x.work = o.work) && decide (x.n = o.n)
        let taken : State := { s with edge := { good with flitsWait := left } }
        let fr := frameOf s o.frame
        let more (w : Wired) (d : List Byte) : Wired := w.add o.base d f.poison
        let hop (d : List Byte) (p : COp) : COp := if p.n = o.n then { p with had := more p.had d } else p
        let hload (l : GLoad) : GLoad := if l.n = o.n then { l with far := l.far.map fun x => { x with had := more x.had f.data } } else l
        let told : State := setFrame taken o.frame (if o.work = 7 then { fr with vec := { fr.vec with loads := fr.vec.loads.map hload } }
          else { fr with cpe := { fr.cpe with ops := fr.cpe.ops.map (hop f.data) } })
        (∀ (x : State) (w : Wired), Memory.wf x.mem = true → (∀ a, memGet (wiredPut x w).mem a = (written w.bytes a).getD (memGet x.mem a)) ∧
          wiredPut x w = { x with mem := (wiredPut x w).mem, poison := (wiredPut x w).poison }) ∧
        (∀ w : Wired, (more w f.data).bytes = w.bytes ++ zipBytes ((upto f.data.length).map (o.base + ·)) f.data) ∧
        (∀ i ∈ replies, o.work ∉ kinds i → exec i s = .next { s with edge := good }) ∧
        (o.work = 2 ∨ o.work = 7 → later = true → exec (.fabricReadData f) s = .next told) ∧
        (o.work = 3 → later = true → exec (.fabricAtomicReply f) s = .next told) ∧
        (o.work = 0 ∨ o.work = 1 → later = true → exec (.fabricWriteAck f) s = .next taken) ∧
        let resOf (e : Edge) (code : Nat) : Edge := { e with doneRes := tset s.edge.doneRes o.n code }
        let lineCode (r : LineRes) : State :=
          let g : Frame := { fr with recGot := tset fr.recGot (o.base / 128) r }
          let out := (left ++ s.edge.parked).any fun x => decide (x.frame = o.frame) && decide (x.work = 11)
          setFrame taken o.frame (if o.work = 11 ∧ out = false ∧ (remNow g).asks = true ∧ g.gen.stall = some .remote
            then { g with gen := { g.gen with stall := none } } else g)
        (o.work = 10 → exec (.fabricAtomicReply f) s = .next (retryEnds { s with edge := resOf taken.edge 0 })) ∧
        (o.work = 11 ∨ o.work = 12 → exec (.fabricReadData f) s =
          .next (retryEnds (lineCode { code := 0, data := f.data, bad := f.poison }))) ∧
        let actor : State := { s with cur := o.frame }
        let acted (t : State) : State := { t with cur := o.frame }
        (o.work = 0 → later = false → Memory.wf s.mem = true → ∀ v rest, takeFirst relStore fr.ph.released = some (v, rest) → v.n = o.n →
          (∀ b ∈ storeBytes v, lateAt fr false v.ser b.1 = []) → ∃ t, exec (.fabricWriteAck f) s = .next t ∧ t.edge = taken.edge ∧ Stored actor (acted t) (inReach actor (storeBytes v)) ∧
            (frameOf t o.frame).ph.released = rest) ∧
        (o.work = 1 → later = false → Memory.wf s.mem = true → ∀ c rest, takeFirst relAdd fr.ph.released = some (c, rest) → c.n = o.n →
          ∃ t, exec (.fabricWriteAck f) s = .next t ∧ t.edge = taken.edge ∧ (frameOf t o.frame).ph.released = rest ∧
            (c.elems.Pairwise (fun x y => x.1 + 4 ≤ y.1 ∨ y.1 + 4 ≤ x.1) → (∀ x ∈ c.elems, ∀ j, j < 4 → lateAt fr true c.ser (x.1 + j) = []) →
              Stored actor (acted t) (inReach actor (c.elems.flatMap fun x =>
                zipBytes ((upto 4).map (x.1 + ·)) (leOf (addRne (leNat (grun actor x.1 4)) x.2.toNat).1 4))))) ∧
        (o.work = 2 → later = false → ∀ k p, opIndex fr o.n = some (k, p) →
          (p.kind = .box → p.got = false → (∀ l ∈ p.src, ∃ a z, l = CLoc.glob a z) → ∃ t, exec (.fabricReadData f) s = .next t ∧
            let q := hop f.data p
            let v := readView (wiredPut (acted told) q.had) q (globOf p.src)
            t.edge = taken.edge ∧ (frameOf t o.frame).cpe.ops[k]? =
              some { q with vals := (globOf p.src).map (memSeen v.1), badv := badIdx v.1 p.src, got := true }) ∧
          (∀ b rest g first og wds ext, p.kind = .crld (b :: rest) g first og wds ext →
            let todo := (b :: rest).filter fun x => decide (x ≠ b)
            ∃ t, exec (.fabricReadData f) s = .next t ∧ t.edge = taken.edge ∧ (frameOf t o.frame).cpe.ops =
              let ops := fr.cpe.ops.map (hop f.data)
              if todo = [] then ops.eraseIdx k else lset ops k { p with kind := .crld todo g first og wds ext, had := {} })) ∧
        (o.work = 3 → later = false → ∀ k p, opIndex fr o.n = some (k, p) → p.got = true →
          ∀ i, i = .fabricWriteAck f ∨ i = .fabricAtomicReply f → ∃ t, exec i s = .next t ∧ t.edge = taken.edge ∧ t.cur = s.cur ∧
            (frameOf t o.frame).cpe.ops = (fr.cpe.ops.map (hop (if i = .fabricWriteAck f then [] else f.data))).eraseIdx k) ∧
        (let gen (i : Instr) (u : State) (keys : List Nat) (d : List Byte) (bad : Bool) : Prop := ∃ t, exec i s = .next t ∧
           t = setFrame u o.frame (frameOf t o.frame) ∧
           let x := frameOf u o.frame
           let y := { x with rem := x.rem.map fun r => { r with got := keys ++ r.got, had := r.had.add o.base d bad } }
           frameOf t o.frame = if later = false ∧ x.gen.stall = some .remote then { y with gen := { y.gen with stall := none } } else y
         let base := o.base
         let bytes := (upto o.flit.data.length).map (base + ·)
         let code := (upto f.data.length).map fun i => (base + i, if base + i ∈ fr.codeNew.map Prod.fst
           then BitVec.ofNat 8 (Config.freeValue (s.freeCtr + i)) else f.data.getD i 0)
         (o.work = 4 → gen (.fabricReadData f) taken [base] f.data f.poison) ∧ (o.work = 5 → gen (.fabricWriteAck f) taken bytes [] false) ∧
         (o.work = 6 → gen (.fabricAtomicReply f) taken bytes f.data f.poison) ∧
         (o.work = 9 → base / 128 ∈ fr.codeHad → gen (.fabricReadData f) taken [base] [] false) ∧
         (o.work = 9 → base / 128 ∉ fr.codeHad → ∃ ib sb : List Nat,
           (∀ p, (p ∈ ib ↔ if p / 4 = base / 128 then f.poison = true else p ∈ fr.gen.ibad) ∧
             (p ∈ sb ↔ if p / 4 = base / 128 then f.poison = true else p ∈ fr.seenBad)) ∧
           let gc : Gen := { fr.gen with imem := memPut fr.gen.imem code, ibad := ib }
           let h : Frame := { fr with gen := gc, seen := memPut fr.seen code, seenBad := sb, codeHad := insertUniq (base / 128) fr.codeHad }
           gen (.fabricReadData f) (setFrame { taken with freeCtr := s.freeCtr + f.data.length } o.frame h) [base] [] false)) ∧
        (∀ l x, fr.vec.loads.find? (fun l => decide (l.n = o.n)) = some l → l.far = some x →
          let ends (i : Instr) (l' : GLoad) (also : State → Prop) : Prop := ∃ t, exec i s = .next t ∧ t.edge = taken.edge ∧ also t ∧
            (frameOf t o.frame).vec.loads = fr.vec.loads.map fun y => if y.n = o.n then l' else y
          (∀ y ∈ fr.vec.loads, y.n = o.n → y = l) →
          (o.work = 7 → later = false → let v := wiredPut (acted told) (more x.had f.data)
            ends (.fabricReadData f) { l with
              val := imageRow x.idx (seeLoad v l.iss.tag.ser x.own x.das x.ord x.scope).1,
              poison := loadBad v fr.sram x.das x.scope, far := none } fun _ => True) ∧
          (∀ op ty vals, o.work = 8 → x.amo = some (op, ty, vals) →
            let i := x.das.findIdx fun a => decide (a = o.base)
            let y : Far := { x with das := x.das.eraseIdx i, offs := x.offs.eraseIdx i, idx := x.idx.eraseIdx i,
                                    amo := some (op, ty, vals.eraseIdx i) }
            ends (.fabricAtomicReply f) { l with val := fput l.val (32 * x.idx.getD i 0) 32 (leNat f.data), poison := l.poison || f.poison,
                                                 far := if y.das = [] then none else some y }
              fun t => Memory.wf s.mem = true → Stored actor (acted t)
                (zipBytes ((upto 4).map (o.base + ·)) (leOf (vamoNew op ty (leNat f.data) (vals.getD i 0)) 4)))) ∧
        (let again (p : Nat) : Edge :=
           let q := tgetD s.edge.sent p []
           let o' : Outstanding := { o with flit := { o.flit with port := p } }
           { good with flitsOut := s.edge.flitsOut ++ [o'.flit], flitsWait := left ++ [o'],
                       sent := tset s.edge.sent p ((q ++ [o'.flit]).drop (q.length - 63)) }
         (o.work ≤ 1 ∨ o.work = 10 →
           (∀ p, o.portNow s = some p → exec (.fabricErrorReply f .homeOffline) s = .next { s with edge := again p }) ∧
           (o.portNow s = none → exec (.fabricErrorReply f .homeOffline) s =
             .next { s with edge := { taken.edge with parked := s.edge.parked ++ [o] } })) ∧
         (o.work = 10 → exec (.fabricErrorReply f .permission) s = .next (retryEnds { s with edge := resOf taken.edge 4 })) ∧
         (o.work = 11 ∨ o.work = 12 → exec (.fabricErrorReply f .permission) s = .next (retryEnds (lineCode { code := 4 })) ∧
           exec (.fabricErrorReply f .homeOffline) s = .next (retryEnds (lineCode { code := 8 }))) ∧
         (∀ k p, o.work = 2 ∨ o.work = 3 → opIndex fr o.n = some (k, p) → p.n < fr.ph.snap.issueNo →
           (∀ q, o.portNow s = some q → exec (.fabricErrorReply f .homeOffline) s = .next { s with edge := again q }) ∧
           ∃ t x, exec (.fabricErrorReply f .permission) s = .next t ∧ t = setFrame taken o.frame (frameOf t o.frame) ∧
             (frameOf t o.frame).cpe.ops = fr.cpe.ops.eraseIdx k ∧ (frameOf t o.frame).ph.faults = fr.ph.faults ++ [x] ∧
             x.cls = .permission ∧ x.slot = 2 ∧ x.final = true) ∧
         (o.work ≤ 1 → ∃ t, exec (.fabricErrorReply f .permission) s = .next t ∧ t.edge = taken.edge ∧ t.mem = s.mem ∧
            (∀ r, r ∈ (frameOf t o.frame).ph.released ↔ r ∈ fr.ph.released ∧
              (∀ v, r = .store v → o.work = 0 → v.n ≠ o.n) ∧ ∀ c, r = .add c → o.work = 1 → c.n ≠ o.n) ∧
            ∀ m, refusedMem fr o.work o.n o.base = some m → ∃ x, (frameOf t o.frame).ph.faults = fr.ph.faults ++ [x] ∧
              x.cls = .permission ∧ x.mem = some m ∧ x.final = true) ∧
         (∀ e : ErrReply, let c : L2Class := if e = .homeOffline then .homeOffline else .permission
           (o.work = 4 ∨ o.work = 5 ∨ o.work = 6 ∨ o.work = 9 → ∃ t, exec (.fabricErrorReply f e) s = .next t ∧
             t = setFrame taken o.frame (frameOf t o.frame) ∧ (frameOf t o.frame).rem = fr.rem.map (fun r => { r with err := some c }) ∧
             (frameOf t o.frame).gen.stall = if fr.gen.stall = some .remote then none else fr.gen.stall) ∧
           (∀ l, o.work = 7 ∨ o.work = 8 → fr.vec.loads.find? (fun l => decide (l.n = o.n)) = some l →
             ∃ t x m, exec (.fabricErrorReply f e) s = .next t ∧ t = setFrame taken o.frame (frameOf t o.frame) ∧
               (frameOf t o.frame).vec.loads = fr.vec.loads.filter (fun y => decide (y.n ≠ o.n)) ∧
               (frameOf t o.frame).ph.faults = fr.ph.faults ++ [x] ∧ x.n = l.n ∧ x.slot = 1 ∧ x.cls = c ∧ x.mem = some m ∧
               m.handle = l.handle ∧ m.gen = l.gen ∧ ∀ w, l.far = some w →
                 let z := if o.flit.ty = 1 then o.flit.len else o.flit.data.length
                 ∀ i a, w.das[i]? = some a → o.base ≤ a ∧ a < o.base + z → (∀ j b, j < i → w.das[j]? = some b → b < o.base ∨ o.base + z ≤ b) →
                   m.off = w.offs.getD i 0) ∧
           (∀ k p, o.work = 2 ∨ o.work = 3 → opIndex fr o.n = some (k, p) → fr.ph.snap.issueNo ≤ p.n →
             ∃ t x, exec (.fabricErrorReply f e) s = .next t ∧ t = setFrame taken o.frame (frameOf t o.frame) ∧
               (frameOf t o.frame).cpe.ops = fr.cpe.ops.eraseIdx k ∧ (frameOf t o.frame).ph.faults = fr.ph.faults ++ [x] ∧
               x.n = p.n ∧ x.slot = 2 ∧ x.cls = c)))) ∧
    ∀ p, portUp s p = true →
      (let one : Edge := { s.edge with replays := terase s.edge.replays p, credits := tset s.edge.credits p (tgetD s.edge.credits p 0 + 1) }
       exec (.fabricCredit p) s = .next { s with edge := one }) ∧
      (let last := ((tgetD s.edge.sent p []).getLast?).toList
       let one : Edge := { s.edge with flitsOut := s.edge.flitsOut ++ last, replays := tset s.edge.replays p (tgetD s.edge.replays p 0 + 1) }
       exec (.flitCrcFailure p) s = .next { s with edge := one }) ∧
      (∀ ty : BitVec 4, 10 ≤ ty.toNat → exec (.flitReservedType p ty) s = .next { s with edge := { s.edge with discarded := s.edge.discarded + 1 } }) ∧
      (tgetD s.edge.replays p 0 < 17 → exec (.fabricReplayLimit p) s = .next s) ∧
      (17 ≤ tgetD s.edge.replays p 0 → ∃ t, exec (.fabricReplayLimit p) s = .next t ∧ t.hub.trained.getLsbD p = false ∧
        ((∀ o ∈ s.edge.flitsWait, o.work < 11) → t.mem = s.mem) ∧
        (∀ o ∈ s.edge.flitsWait, o.flit.port = p → o.work ≤ 1 → (o.portNow { s with hub := t.hub } = none → o ∈ t.edge.parked) ∧
          ∀ q, o.portNow { s with hub := t.hub } = some q → { o with flit := { o.flit with port := q } } ∈ t.edge.flitsWait) ∧
        (∀ q, q ∈ siblings s p ↔ q ≠ p ∧ q / 16 = p / 16 ∧ fbit s.hub.trained q = true ∧ ∃ i, i < 64 ∧
          let part := (dieOf s (p / 16)).part
          let ports := tgetD s.hub.peers (512 * part + 2 * i + 1) 0
          fbit (tgetD s.hub.peers (512 * part + 2 * i) 0) 63 = true ∧ fbit ports p = true ∧ fbit ports q = true) ∧
        (∀ a ∈ tgetD s.edge.sent p [], a.ty.toNat ∈ [2, 4, 6, 8] → siblings s p ≠ [] →
          ∃ q ∈ siblings s p, { a with port := q } ∈ t.edge.flitsOut) ∧
        ∀ q, q < 64 → q ≠ p → t.hub.trained.getLsbD q = s.hub.trained.getLsbD q)) ∧
  ∀ (s s1 : State) (a : Word) (n : Nat) (das : List Nat) (rd rs1 rs2 : BitVec 5), das.length = n →
    let f := curFrame s1
    let r := remNow f
    let g := (curFrame s).gen
    let x := newXl s1 a n false das
    let waits (o : Out) (work : Nat) (ty : BitVec 4) (bytes : List (Nat × Byte)) : Prop :=
      let asked : Frame := { f with rem := some (holdXl r x), gen := { f.gen with stall := some .remote } }
      let left := bytes.filter fun b => !r.got.contains b.1 && !r.got.contains (b.1 / 128 * 128)
      let out := awaits s1 s1.cur work 0
      let busy := farBusy s1 (left.map Prod.fst) false
      (∀ c, r.err = some c → o = .next (takeL1 s1 c.l1code a x.gen)) ∧
      (r.err = none →
        (out = true → o = .next (setCur s1 asked)) ∧
        (out = false → busy = true → o = .next (setCur s1 { f with rem := some (holdXl r x) })) ∧
        (out = false → busy = false → noPort s1 s1.cur x.die left = true → o = .next (takeL1 s1 30 a x.gen)) ∧
        (out = false → busy = false → noPort s1 s1.cur x.die left = false → ∃ t, o = .next t ∧
          t = { s1 with edge := t.edge, frames := t.frames } ∧ OthersKept s1 t ∧ curFrame t = asked ∧
          ∀ y ∈ t.edge.flitsWait, y ∈ s1.edge.flitsWait ∨
            (y.frame = s1.cur ∧ y.work = work ∧ y.flit.ty = ty ∧ y.handle = tagHandle a ∧ ∃ b ∈ left, y.base = b.1)))
    (∀ h, a.toNat % n = 0 → heldXl (curFrame s) a n false = some h → ∀ align need, genXlate s a n align need = .ok [] h.das s) ∧
    (genXlate s a n causeLoadAlign needR = .ok [] das s1 → ¬ ReadsHad s das .fr →
      ∀ op imm, a = effAddr g rs1 imm → n = loadLen op → waits (exec (.standardLoad op rd rs1 imm) s) 4 1
        ((farLines f das .fr).flatMap fun l => (upto 128).map fun i => (128 * l + i, 0))) ∧
    (genXlate s a n causeStoreAlign needW = .ok [] das s1 → ¬ WritesHad s das →
      ∀ op imm, a = effAddr g rs1 imm → n = storeLen op → waits (exec (.standardStore op rs2 rs1 imm) s) 5 3
        (zipBytes das (leOf (rx g rs2).toNat n))) ∧
    (genXlate s a n causeStoreAlign needRW = .ok [] das s1 → ¬ WritesHad s das →
      ∀ op dbl aq rl, a = rx g rs1 → n = (if dbl then 8 else 4) → waits (exec (.amo op dbl aq rl rd rs1 rs2) s) 6 5
        (zipBytes das (leOf (rx g rs2).toNat n)))

/-- R369, R384, R385, R386: the responder answers each request with its code, in a session far enough along, and refuses
one out of order with ERROR. A CHALLENGE is answered with the hash of the slot's certificate chain, a nonce and SPDM's summary hash of
the measurements, signed. The key exchange gives the session keys, which MACs stand under and FINISH, KEY_UPDATE and the end of the
session change; a FINISH whose MAC is wrong is refused, and ends the session. A measurement is the digest of what its index names; the Svaken image measured is the active
slot's, and the other slot's from step 4 of an update. IDE keys take effect only in an established session. The response
codes and the order of a session are those of SPDM 1.3, which the spec names (assumption 24). -/
def Obligations.Attestation : Prop :=
  ∀ (s : State),
    let givesKeys (o : Out) (code : Nat) (next : SpdmState) (keys starts : List Word) : Prop := ∃ t rest, o = .next t ∧
      t = { s with freeCtr := t.freeCtr, hub := { s.hub with spdm := next, spdmKeys := keys, spdmOut := s.hub.spdmOut ++ [(code, starts ++ rest)] } }
    let error (o : Out) (e : Nat) : Prop := o = .next { s with hub := { s.hub with spdmOut := s.hub.spdmOut ++ [(0x7F, [BitVec.ofNat 64 e])] } }
    let stepKeys (i : Instr) (need code : Nat) (next : SpdmState) (keys starts : List Word) : Prop :=
      (need ≤ s.hub.spdm.rank → givesKeys (exec i s) code next keys starts) ∧ (s.hub.spdm.rank < need → error (exec i s) 4)
    let now := s.hub.spdm
    let keys := s.hub.spdmKeys
    let step (i : Instr) (need code : Nat) (next : SpdmState) (starts : List Word) : Prop := stepKeys i need code next keys starts
    let image := match s.hub.op with
      | some (.update n) => imageBody (slotMem s (decide (n < 4)))
      | _ => imageBody (slotMem s true)
    let digest : List (List Word) := [shake256 (hubBody s), shake256 image,
      shake256 (Config.manufacturePart (s.hub.record.drop 256)), shake256 (s.hub.pinExt.drop 256), shake256 (leOf (fld s.hub.partCtl 0 4 + 256 * admittedSet s) 8)]
    stepKeys .getVersion 0 0x04 .version [] [0x13] ∧
    step .getCapabilities 1 0x61 (if now.rank < 2 then .capabilities else now) [] ∧
    step .negotiateAlgorithms 2 0x63 (if now.rank < 3 then .negotiated else now) [0x800] ∧
    step .getDigests 3 0x01 now (shake256 (Config.certChain 0) ++ shake256 (Config.certChain 1)) ∧
    (∀ k, k < 2 → step (.getCertificate k) 3 0x02 now [] ∧ step (.challenge k) 3 0x03 now (let body := shake256 (Config.certChain k) ++ Config.spdmNonce s.freeCtr ++ shake256 (digest.flatten.flatMap wordBytes)
      body ++ hubSign k challengeCtx s body)) ∧
    (∀ k, 2 ≤ k → error (exec (.getCertificate k) s) 1 ∧ error (exec (.challenge k) s) 1) ∧
    step (.getMeasurements 0) 3 0x60 now [5] ∧ step (.getMeasurements 255) 3 0x60 now digest.flatten ∧
    (∀ k m, digest[k]? = some m → step (.getMeasurements (k + 1)) 3 0x60 now m) ∧
    (let new := Config.spdmKeys s.freeCtr
     stepKeys .keyExchange 3 0x64 .keyExchanged new (let body := Config.spdmNonce s.freeCtr
      body ++ hubSign 0 exchangeCtx s body ++ Config.spdmMac new s.freeCtr)) ∧
    (let bad := Config.spdmFinishBad keys s.freeCtr
     (now = .keyExchanged → bad = false → givesKeys (exec .finish s) 0x65 .established (Config.spdmNextKeys keys) (Config.spdmMac keys s.freeCtr)) ∧
     (now = .keyExchanged → bad = true → exec .finish s = .next { s with
        freeCtr := s.freeCtr + 1, hub := { s.hub with spdm := .negotiated, spdmKeys := [], spdmOut := s.hub.spdmOut ++ [(0x7F, [6])] } })) ∧
    (now ≠ .keyExchanged → error (exec .finish s) 4) ∧
    step .spdmHeartbeat 5 0x68 now [] ∧ stepKeys .keyUpdate 5 0x69 now (Config.spdmNextKeys keys) [] ∧
    stepKeys .endSession 5 0x6C .negotiated [] [] ∧
    ∀ tx rx, (now = .established → exec (.ideKeyProgramming tx rx) s =
        .next { s with hub := { s.hub with ideTx := s.hub.ideTx || tx, ideRx := s.hub.ideRx || rx } }) ∧
      (now ≠ .established → exec (.ideKeyProgramming tx rx) s = .next s)

/-- R122: a diagonal operand V(64s + o).d makes lane L take row L and column (L + o) & 63 of slate s. A column operand
V(64s + c).c makes lane L take row L, column c of slate s. -/
def Obligations.OperandCells : Prop :=
  ∀ (o : Opd) (L : Nat), L < 64 →
    let slate := o.idx.toNat / 64
    let off := o.idx.toNat % 64
    (o.dir = 2 → opdCell o L = (64 * slate + L, Nat.land (L + off) 63)) ∧
    (o.dir = 1 → opdCell o L = (64 * slate + L, off))
end

