-- ==== Sys2Proof/Laws/Ops.lean ====
section
/-! SUPPORT. What each shared operation can do, said once: an issue's body, reading and writing operands, loads and
stores, translation, taking a level-1 fault. -/

namespace Sys2Proof.Machine

/-! ### Parts of an issue -/

/-- A chain goes on exactly where both parts do. -/
theorem andThen_ok {α β : Type} {a : Acc α} {k : α → State → Acc β} {v : β} {t : State} :
    a.andThen k = .ok v t ↔ ∃ x s, a = .ok x s ∧ k x s = .ok v t := by
  cases a <;> simp [Acc.andThen]

/-- A chain waits where a part of it does. -/
theorem andThen_hold {α β : Type} {a : Acc α} {k : α → State → Acc β} {h : Hold} :
    a.andThen k = .hold h ↔ a = .hold h ∨ ∃ x s, a = .ok x s ∧ k x s = .hold h := by
  cases a <;> simp [Acc.andThen]

/-- A chain faults where a part of it does. -/
theorem andThen_fault {α β : Type} {a : Acc α} {k : α → State → Acc β} {c : L2Class} {m : Option MemInfo} {t : State} :
    a.andThen k = .fault c m t ↔ a = .fault c m t ∨ ∃ x s, a = .ok x s ∧ k x s = .fault c m t := by
  cases a <;> simp [Acc.andThen]

@[simp] theorem andThen_of_ok {α β : Type} (x : α) (s : State) (k : α → State → Acc β) : (Acc.ok x s).andThen k = k x s := rfl

/-- Where engines execute what they hold, every issue does. -/
theorem issueRuns_of {f : Frame} (h : engineRuns f = true) (e : SlotIssue) : issueRuns f e = true := by
  simp only [engineRuns, Bool.and_eq_true, decide_eq_true_eq] at h
  obtain ⟨⟨⟨h1, h2⟩, h3⟩, h4⟩ := h
  simp [issueRuns, h1, h3, h4, List.isEmpty_iff.mp h2]

/-- A ready issue executes. -/
theorem Ready.runs {s : State} {sl : SlotName} {e : SlotIssue} {i : Instr} (h : Ready s sl e i) :
    issueRuns (curFrame s) e = true := issueRuns_of h.2.1 e

/-- A slot with nothing to execute changes nothing. -/
theorem runSlot_idle (s : State) (sl : SlotName) (i : Instr) (body : SlotIssue → State → Acc Unit)
    (h : headOf (curFrame s) sl = none ∨ ∃ e, headOf (curFrame s) sl = some e ∧ issueRuns (curFrame s) e = false) :
    runSlot s sl i body = s := by
  rcases h with h | ⟨e, h, hr⟩
  · simp [runSlot, h]
  · simp [runSlot, h, hr]

/-- An issue that must wait waits. -/
theorem runSlot_wait {s : State} {sl : SlotName} {i : Instr} {e : SlotIssue} {x : Hold} (body : SlotIssue → State → Acc Unit)
    (hd : headOf (curFrame s) sl = some e) (hr : issueRuns (curFrame s) e = true) (hs : startHold (curFrame s) sl e i = some x)
    (hx : x ≠ .subIssue) : runSlot s sl i body = setCur s (holdHead (curFrame s) sl x) := by
  cases x <;> simp [runSlot, hd, hr, hs] <;> exact absurd rfl hx

/-- An issue whose sub-issue has not begun pops its ports and waits; one that another issue of its sub-issue holds waits (R171). -/
theorem runSlot_subIssue {s : State} {sl : SlotName} {i : Instr} {e : SlotIssue} (body : SlotIssue → State → Acc Unit)
    (hd : headOf (curFrame s) sl = some e) (hr : issueRuns (curFrame s) e = true)
    (hs : startHold (curFrame s) sl e i = some .subIssue) :
    runSlot s sl i body = if subBegun (curFrame s) e then setCur s (holdHead (curFrame s) sl .subIssue) else popEarly s sl e i := by
  simp [runSlot, hd, hr, hs]

/-- A ready issue whose body goes on leaves its queue. -/
theorem runSlot_ok {s t : State} {sl : SlotName} {i : Instr} {e : SlotIssue} {body : SlotIssue → State → Acc Unit}
    (h : Ready s sl e i) (hb : body e s = .ok () t) : runSlot s sl i body = finished t sl := by
  simp [runSlot, h.1, h.runs, h.2.2, hb, finished]

/-- A ready issue whose body waits is tried again later. -/
theorem runSlot_hold {s : State} {sl : SlotName} {i : Instr} {e : SlotIssue} {body : SlotIssue → State → Acc Unit} {x : Hold}
    (h : Ready s sl e i) (hb : body e s = .hold x) : runSlot s sl i body = waitHead s sl x := by
  simp [runSlot, h.1, h.runs, h.2.2, hb]

/-- A wait for anything but another package's lines concerns the moving frame alone. -/
theorem waitHead_of {s : State} {sl : SlotName} {x : Hold} (h : ∀ a d ls, x ≠ .record a d ls) :
    waitHead s sl x = setCur s (holdHead (curFrame s) sl x) := by
  cases x <;> first | rfl | exact absurd rfl (h _ _ _)

/-- A ready issue whose body faults raises that fault. -/
theorem runSlot_fault {s t : State} {sl : SlotName} {i : Instr} {e : SlotIssue} {body : SlotIssue → State → Acc Unit}
    {c : L2Class} {m : Option MemInfo} (h : Ready s sl e i) (hb : body e s = .fault c m t) :
    runSlot s sl i body = onCur t fun f => raiseL2 f sl e c m (faultFinal f e c m) := by
  simp [runSlot, h.1, h.runs, h.2.2, hb]

/-- A ready copy word with room in the engine whose checks pass joins the engine's operations. -/
theorem runCopy_ok {s t u : State} {i : Instr} {e : SlotIssue} {body : SlotIssue → State → Acc COp} {o : COp}
    (h : Ready s .copy e i) (room : (curFrame s).cpe.ops.length < 32)
    (hb : body e (if e.adv then setCur s ((copySets i).foldl advanceSet (curFrame s)) else s) = .ok o t) (ht : takeOp t o = .ok () u) :
    runCopy i body s = finished u .copy := by
  unfold runCopy
  apply runSlot_ok h
  simp only [Nat.not_le.mpr room, if_false]
  rw [hb]; exact ht

/-! ### Operands -/

/-- Rows that are read wake their slates, whether or not one of them faults, and nothing else changes. -/
theorem readRows_ok {s t : State} {e : SlotIssue} {rows : List Nat} :
    readRows s e rows = .ok () t ↔ rowsFault (curFrame s) e rows = none ∧
      t = onCur s fun f => { f with vec := wakeReads f.vec rows } := by
  unfold readRows
  cases h : rowsFault (curFrame s) e rows <;> simp [eq_comm]

theorem readRows_fault {s t : State} {e : SlotIssue} {rows : List Nat} {c : L2Class} {m : Option MemInfo} :
    readRows s e rows = .fault c m t ↔ rowsFault (curFrame s) e rows = some c ∧ m = none ∧
      t = onCur s fun f => { f with vec := wakeReads f.vec rows } := by
  unfold readRows
  cases h : rowsFault (curFrame s) e rows <;> simp [eq_comm]

/-- Sources that can be read wake their slates and change nothing else. -/
theorem checkSrcs_ok {s t : State} {e : SlotIssue} {srcs : List (Opd × List Nat)} (h : checkSrcs s e srcs = .ok () t) :
    rowsFault (curFrame s) e (srcs.flatMap fun x => opdRows x.1 x.2) = none ∧
    t = onCur s fun f => { f with vec := wakeReads f.vec (srcs.flatMap fun x => opdRows x.1 x.2) } := readRows_ok.mp h

/-- Rows are written as `writeRows` says, in the moving frame alone, or the undo log is full. -/
theorem commitRows_ok {s t : State} {sl : SlotName} {e : SlotIssue} {kills : List Nat} {cells : List (Nat × Nat × Cell32)} :
    commitRows s sl e kills cells = .ok () t ↔
      ∃ f, writeRows (curFrame s) sl (issueFault e (slotCode sl) .undoOverflow) e.rows kills cells = some f ∧ t = setCur s f := by
  unfold commitRows
  cases h : writeRows (curFrame s) sl (issueFault e (slotCode sl) .undoOverflow) e.rows kills cells <;> simp [eq_comm]

theorem commitRows_onlyCur {s t : State} {sl : SlotName} {e : SlotIssue} {kills : List Nat} {cells : List (Nat × Nat × Cell32)}
    (h : commitRows s sl e kills cells = .ok () t) : t = setCur s (curFrame t) := by
  obtain ⟨f, -, rfl⟩ := commitRows_ok.mp h
  simp

/-- Reading frame SRAM changes the moving frame alone. -/
theorem onCur_onlyCur (s : State) (g : Frame → Frame) : onCur s g = setCur s (curFrame (onCur s g)) := by simp [onCur]

/-- What leaves every other part of the package alone, twice over. -/
theorem onlyCur_trans {s t u : State} (a : t = setCur s (curFrame t)) (b : u = setCur t (curFrame u)) : u = setCur s (curFrame u) := by
  rw [a] at b; simpa using b

theorem checkSrcs_onlyCur {s t : State} {e : SlotIssue} {srcs : List (Opd × List Nat)} (h : checkSrcs s e srcs = .ok () t) :
    t = setCur s (curFrame t) := by
  rw [(checkSrcs_ok h).2]; exact onCur_onlyCur _ _

/-! ### Generator accesses -/

/-- A translated access is aligned, and its bytes are those the translation names: one that it holds, or a new one. -/
theorem genXlate_ok {s t : State} {a : Word} {n align : Nat} {need : Need} {bs : List Byte} {das : List Nat}
    (h : genXlate s a n align need = .ok bs das t) :
    bs = [] ∧ a.toNat % n = 0 ∧
      ((∃ x, heldXl (curFrame s) a n false = some x ∧ das = x.das ∧ t = s) ∨
       heldXl (curFrame s) a n false = none ∧ ∃ e, translateTagged s a n need = (.ok das e, t)) := by
  unfold genXlate at h
  split at h
  · cases h
  · next ha =>
    have ha : a.toNat % n = 0 := by simpa using ha
    split at h
    · next x hx =>
      injection h with h1 h2 h3
      exact ⟨h1.symm, ha, .inl ⟨x, hx, h2.symm, h3.symm⟩⟩
    · next hn =>
      split at h
      · next d e x hx =>
        injection h with h1 h2 h3
        subst h1 h2 h3
        exact ⟨rfl, ha, .inr ⟨hn, e, hx⟩⟩
      all_goals cases h

/-- An access to another package that goes on has all it needs, which stands where it reads it. -/
theorem genFar_ok {s t : State} {x : HeldXl} {k : ReqKind} {keys : List Nat} {bytes : List (Nat × Byte)} {bs : List Byte}
    {das : List Nat} (h : genFar s x k keys bytes = .ok bs das t) : (∀ a ∈ keys, a ∈ (remNow (curFrame s)).got) ∧ t = remPut s := by
  unfold genFar at h
  simp only at h
  split at h
  · next hk =>
    injection h with _ _ h
    exact ⟨fun a ha => by simpa using List.all_eq_true.mp hk a ha, h.symm⟩
  · split at h
    · cases h
    · repeat' split at h
      all_goals cases h

/-- A read that goes on has every line that lies in another package. -/
theorem genFarRead_ok {s t : State} {a : Word} {n work : Nat} {das : List Nat} {scope : Scope} {bs : List Byte} {d : List Nat}
    (h : genFarRead s a n work das scope = .ok bs d t) : ReadsHad s das scope ∧ t = heardRead s das scope := by
  unfold genFarRead at h
  simp only at h
  split at h
  · next he =>
    injection h with _ _ h
    have he := List.isEmpty_iff.mp he
    exact ⟨fun l hl => by simp [he] at hl, by rw [← h]; simp [heard, he]⟩
  · next he =>
    obtain ⟨hk, ht⟩ := genFar_ok h
    refine ⟨fun l hl => hk _ (List.mem_map.mpr ⟨l, hl, rfl⟩), ?_⟩
    have : farLines (curFrame s) das scope ≠ [] := fun e => he (by simp [e])
    simp [heard, this, ht]

/-- Where no byte lies in another package a read goes on. -/
theorem genFarRead_near {s : State} {a : Word} {n work : Nat} {das : List Nat} {scope : Scope}
    (h : das.all (fun x => !isRemote x) = true) : genFarRead s a n work das scope = .ok [] [] s := by
  have : das.filter isRemote = [] := by
    rw [List.filter_eq_nil_iff]; intro x hx hr
    have := List.all_eq_true.mp h x hx
    simp [hr] at this
  simp [genFarRead, farLines, this, sortUniq]

/-- Where no byte lies in another package a write goes on. -/
theorem genFarWrite_near {s : State} {a : Word} {work : Nat} {ty : BitVec 4} {rel : Bool} {amo : AmoOp} {bytes : List (Nat × Byte)}
    (h : bytes.any (fun b => isRemote b.1) = false) : genFarWrite s a work ty rel amo bytes = .ok [] [] s := by
  simp [genFarWrite, h]

/-- A load that goes on read sound bytes at translated addresses. -/
theorem genLoad_ok {s t : State} {a : Word} {n : Nat} {ord : Ordering4} {scope : Scope} {bs : List Byte} {das : List Nat}
    (h : genLoad s a n ord scope = .ok bs das t) :
    ∃ x, genXlate s a n causeLoadAlign needR = .ok [] das x ∧ ReadsHad x das scope ∧
      let y := heardRead x das scope
      loadBad y (curFrame y).sram das scope = false ∧ (bs, t) = gload y das ord scope := by
  unfold genLoad at h
  split at h
  · cases h
  · next c d x hx =>
    split at h
    · cases h
    · next y z w hf =>
      obtain ⟨hr, rfl⟩ := genFarRead_ok hf
      split at h
      · cases h
      · next hp =>
        injection h with h1 h2 h3
        subst h2
        have := (genXlate_ok hx).1
        subst this
        exact ⟨_, hx, hr, by simpa using hp, by rw [← h1, ← h3]⟩

/-- At a scope wider than the frame a load reads storage. -/
theorem gload_wide {s : State} {das : List Nat} {ord : Ordering4} {scope : Scope} (h : scope ≠ .fr) :
    (gload s das ord scope).1 = gread s das := by
  simp [gload, h]

/-- A load changes the L1 of the moving frame, and what its acquire lets it fetch. -/
theorem gload_state (s : State) (das : List Nat) (ord : Ordering4) (scope : Scope) :
    ∃ m seen bad new, (gload s das ord scope).2 =
      setCur s { curFrame s with sram := m, seen := seen, seenBad := bad, codeNew := new } := by
  by_cases h : scope = .fr
  · exact ⟨_, (curFrame s).seen, (curFrame s).seenBad, (curFrame s).codeNew, by simp only [gload, h, if_true]; rfl⟩
  · by_cases ha : (decide (ord = .acq) || decide (ord = .ar)) = true
    · exact ⟨_, storageSeen s, s.poison, (curFrame s).codeNew.map fun e => (e.1, true), by simp only [gload, h, ha, if_false, if_true, seeAll]; rfl⟩
    · exact ⟨_, (curFrame s).seen, (curFrame s).seenBad, (curFrame s).codeNew, by simp only [gload, h, ha, if_false]; rfl⟩

@[simp] theorem gload_mem (s : State) (das : List Nat) (ord : Ordering4) (scope : Scope) : (gload s das ord scope).2.mem = s.mem := by
  obtain ⟨m, x, b, c, h⟩ := gload_state s das ord scope; rw [h]; rfl

/-- A store is a write at the homes, and the frame's L1 copies follow. -/
@[simp] theorem gstore_mem (s : State) (bytes : List (Nat × Byte)) : (gstore s bytes).mem = (gwrite s (some s.cur) bytes).mem := rfl
@[simp] theorem gstore_discarded (s : State) (bytes : List (Nat × Byte)) :
    (gstore s bytes).discarded = (gwrite s (some s.cur) bytes).discarded := rfl
@[simp] theorem gstore_poison (s : State) (bytes : List (Nat × Byte)) : (gstore s bytes).poison = (gwrite s (some s.cur) bytes).poison := rfl
@[simp] theorem gstore_freeCtr (s : State) (bytes : List (Nat × Byte)) : (gstore s bytes).freeCtr = s.freeCtr := rfl

/-- What a store of the generator core writes over is noted in the moving frame alone (R96). -/
theorem lateNote_onlyCur (s : State) (bytes : List (Nat × Byte)) : lateNote s bytes = setCur s (curFrame (lateNote s bytes)) := by
  simp [lateNote, setLate]

/-- Beside that it is such a write. -/
@[simp] theorem gput_mem (s : State) (bytes : List (Nat × Byte)) : (gput s bytes).mem = (gwrite s (some s.cur) bytes).mem := rfl
@[simp] theorem gput_discarded (s : State) (bytes : List (Nat × Byte)) :
    (gput s bytes).discarded = (gwrite s (some s.cur) bytes).discarded := rfl
@[simp] theorem gput_poison (s : State) (bytes : List (Nat × Byte)) : (gput s bytes).poison = (gwrite s (some s.cur) bytes).poison := rfl

/-- Where no store of the generator may follow it, an engine's read finds storage as it stands, and its write lands whole (R96). -/
theorem lateRead_none {s : State} {c : Bool} {ser : BitVec 32} {found : List (Nat × Byte)}
    (h : lateHit (curFrame s) c ser (found.map (·.1)) = false) : lateRead s c ser found = (found.map (·.2), s) := by
  simp [lateRead, h]

theorem lateWrite_none {s : State} {c : Bool} {ser : BitVec 32} {bytes : List (Nat × Byte)}
    (h : lateHit (curFrame s) c ser (bytes.map (·.1)) = false) : lateWrite s c ser bytes = (bytes, s) := by
  simp [lateWrite, h]

/-! ### Level-1 faults -/

/-- A fault that the handler takes enters it. -/
theorem takeL1_handler {s : State} {code gen : Nat} {tval : Word} (h : handlerTakes (curFrame s).gen.h code = true) :
    takeL1 s code tval gen =
      onGen (setCur s { curFrame s with rem := none }) fun g => enterHandler g (causeWord false gen code) tval := by
  simp [takeL1, h]

/-- Any other fault escalates; after ECALL the pc is past it, and HOME_OFFLINE acquires first. Either way the instruction's requests
to other packages are over. -/
theorem takeL1_escalates {s : State} {code gen : Nat} {tval : Word} (h : handlerTakes (curFrame s).gen.h code = false) :
    takeL1 s code tval gen =
      let y := setCur s { curFrame s with rem := none }
      let x := if code = 30 then l1Invalidate y else y
      if code = causeEcall then
        onGen (escalate x (.l1 (causeWord false gen code) tval (curFrame s).gen.pc)) fun g => { g with pc := g.npc }
      else escalate x (.l1 (causeWord false gen code) tval (curFrame s).gen.pc) := by
  simp [takeL1, h]

/-- Taking a fault concerns the moving frame alone. -/
theorem takeL1_onlyCur (s : State) (code gen : Nat) (tval : Word) : takeL1 s code tval gen = setCur s (curFrame (takeL1 s code tval gen)) := by
  cases h : handlerTakes (curFrame s).gen.h code with
  | true => rw [takeL1_handler h]; simp [onGen]
  | false =>
    rw [takeL1_escalates h]
    by_cases h1 : code = 30 <;> by_cases h2 : code = causeEcall <;> simp only [h1, h2, if_true, if_false] <;>
      try (first | (split <;> simp [escalate, onGen, l1Invalidate]) | simp [escalate])

@[simp] theorem takeL1_mem (s : State) (code gen : Nat) (tval : Word) : (takeL1 s code tval gen).mem = s.mem := by
  rw [takeL1_onlyCur]; rfl

/-! ### Fields -/

theorem fld_lt {n : Nat} (w : BitVec n) (lo len : Nat) : fld w lo len < 2 ^ len := Nat.mod_lt _ (Nat.two_pow_pos len)

theorem fbit_eq {n : Nat} (w : BitVec n) (i : Nat) : fbit w i = w.toNat.testBit i := rfl

end Sys2Proof.Machine
end

