-- ==== Sys2Proof/Tests/Slice0.lean ====
section
/-! SUPPORT. Tests: ill-formed terms refused, words of the manual decoded, single steps whose results the manual
gives, and witnesses that the hypotheses of the statements can be met. -/

open Sys2Proof Sys2Proof.Machine

namespace Sys2Proof.Tests

set_option Elab.async false

/-! ### Operands and fields to build terms from -/

/-- A row operand V(i). -/
def v (i : Nat) : Opd := ⟨false, 0, BitVec.ofNat 10 i⟩
/-- A row operand with LAST. -/
def vx (i : Nat) : Opd := ⟨true, 0, BitVec.ofNat 10 i⟩
/-- A port operand Qk, ZERO, the broadcast of n. -/
def q (k : Nat) : Opd := ⟨false, 3, BitVec.ofNat 10 k⟩
def zero : Opd := ⟨false, 3, 0x100⟩
def cst (n : Int) : Opd := ⟨false, 3, 1#1 ++ BitVec.ofInt 9 n⟩
/-- No guard, and the guard (Pp). -/
def g0 : Guard := ⟨false, false, 0⟩
def gp (p : Nat) : Guard := ⟨true, false, BitVec.ofNat 4 p⟩
def vr (d a b : Opd) (ty : ElemType) : VR := { g := g0, d := d, a := a, b := b, rm := .rne, step := 0, ty := ty, mod := 0 }
def vu (d a : Opd) (ty : ElemType) : VU := { g := g0, d := d, a := a, rm := .rne, step := 0, ty := ty }
def vk (d a : Opd) (k : BitVec 3) (ty : ElemType) : VK := { g := g0, d := d, a := a, k := k, rm := .rne, step := 0, ty := ty }
def vm (data addr : Opd) (pset : BitVec 5) (ty : ElemType) : VM :=
  { g := g0, data := data, addr := addr, pset := pset, ord := .rlx, scope := .pkg, fe := .none, step := 0, ty := ty }
def va (data addr : Opd) (pset : BitVec 5) (op : AmoCode) (ty : ElemType) : VAm :=
  { g := g0, data := data, addr := addr, pset := pset, ord := .rlx, scope := .pkg, op := op, step := 0, ty := ty }
def cw (sa se sb : BitVec 5) : CpW := { sa := sa, se := se, sb := sb, ord := .rlx, scope := .pkg }

/-! ### Ill-formed terms (R120 to R131, R236 to R252, R317, R134 to R137) -/

/-- LAST on a destination, a broadcast as destination, LAST on a column, a reserved special, a guard with EN 0. -/
theorem test_illformed_operands : ¬ WellFormed (.vadd (vr (vx 1) (v 2) (v 3) .n32)) ∧ ¬ WellFormed (.vadd (vr (cst 1) (v 2) (v 3) .n32)) ∧
    ¬ WellFormed (.vadd (vr (v 1) ⟨true, 1, 2⟩ (v 3) .n32)) ∧ ¬ WellFormed (.vadd (vr (v 1) (q 8) (v 3) .n32)) ∧
    ¬ WellFormed (.vadd { vr (v 1) (v 2) (v 3) .n32 with g := ⟨false, false, 1⟩ }) ∧ WellFormed (.vadd (vr (v 1) (vx 2) (cst (-1)) .n32)) := by decide
/-- A type outside the column, RM or MOD where the operation has none, a read destination that is special. -/
theorem test_illformed_vr : ¬ WellFormed (.vadd (vr (v 1) (v 2) (v 3) .f16)) ∧ ¬ WellFormed (.vadd { vr (v 1) (v 2) (v 3) .n32 with rm := .rup }) ∧
    ¬ WellFormed (.vadd { vr (v 1) (v 2) (v 3) .f32 with mod := 1 }) ∧ ¬ WellFormed (.vsub { vr (v 1) (v 2) (v 3) .n8 with mod := 2 }) ∧
    ¬ WellFormed (.vmul { vr (v 1) (v 2) (v 3) .n8 with mod := 1 }) ∧ ¬ WellFormed (.vmulh (vr (v 1) (v 2) (v 3) .f32)) ∧
    ¬ WellFormed (.vmin { vr (v 1) (v 2) (v 3) .f32 with rm := .rtz }) ∧ ¬ WellFormed (.vmax { vr (v 1) (v 2) (v 3) .n8 with mod := 3 }) ∧
    ¬ WellFormed (.vfma (vr zero (v 2) (v 3) .f32)) ∧ ¬ WellFormed (.vfma { vr (v 1) (v 2) (v 3) .f32 with mod := 2 }) ∧
    ¬ WellFormed (.vand (vr (v 1) (v 2) (v 3) .s32)) ∧ ¬ WellFormed (.vshl (vr (v 1) (v 2) (v 3) .bf16)) ∧
    ¬ WellFormed (.vfshl (vr (q 0) (v 2) (v 3) .n32)) ∧ ¬ WellFormed (.vfshr (vr (v 1) (v 2) (v 3) .n16)) ∧
    ¬ WellFormed (.vsel (vr (v 1) (v 2) (v 3) .n32)) ∧ ¬ WellFormed (.vperm (vr (v 1) (v 2) (v 3) .n8)) ∧
    ¬ WellFormed (.vgath (vr (v 1) (vx 2) (v 3) .n32)) := by decide
/-- The other vector formats. -/
theorem test_illformed_vector : ¬ WellFormed (.vclz (vu (v 1) (v 2) .f32)) ∧ ¬ WellFormed (.vrcp (vu (v 1) (v 2) .n32)) ∧
    ¬ WellFormed (.vqnt (vu (v 1) (v 2) .f32)) ∧ ¬ WellFormed (.vrsq { vu (v 1) (v 2) .f32 with rm := .rtz }) ∧
    ¬ WellFormed (.vcmp { g := g0, p := 1, a := v 2, b := v 3, step := 0, ty := .mx8, cond := .eq }) ∧
    ¬ WellFormed (.plog { g := ⟨false, true, 0⟩, p := 1, pa := 2, pb := 3, op := .and }) ∧
    ¬ WellFormed (.vrsum (vk (v 1) (v 2) 7 .n32)) ∧ ¬ WellFormed (.vrmax { vk (v 1) (v 2) 1 .f32 with rm := .rtz }) ∧
    ¬ WellFormed (.vcvt { g := g0, d := v 1, a := q 0, src := .f32, rm := .rne, step := 1, ty := .bf16 }) ∧
    ¬ WellFormed (.vcvt { g := g0, d := v 1, a := v 2, src := .mx8, rm := .rne, step := 0, ty := .bf16 }) ∧
    ¬ WellFormed (.vdqt { g := g0, d := v 1, a := zero, src := .mx8, rm := .rne, step := 0, ty := .f32 }) ∧
    ¬ WellFormed (.vdqt { g := g0, d := v 1, a := v 2, src := .f32, rm := .rne, step := 0, ty := .f32 }) ∧
    ¬ WellFormed (.vflags { g := g0, d := q 0, sel := 1 }) ∧ ¬ WellFormed (.vflags { g := g0, d := v 1, sel := 5 }) := by decide
/-- Memory forms: a column as DATA, a port as ADDR, a release on a load, an acquire or FE on a store, an MX type, FE on
VLDG, LAST on the row of VAMO, a float AND, VBREL with no guard. -/
theorem test_illformed_memory : ¬ WellFormed (.vld (vm ⟨false, 1, 3⟩ (v 2) 0 .n32)) ∧ ¬ WellFormed (.vldu (vm (v 1) (q 2) 0 .n32)) ∧
    ¬ WellFormed (.vld { vm (v 1) (v 2) 0 .n32 with ord := .rel }) ∧ ¬ WellFormed (.vst { vm (v 1) (v 2) 0 .n32 with ord := .acq }) ∧
    ¬ WellFormed (.vstu { vm (v 1) (v 2) 0 .n32 with fe := .keep }) ∧ ¬ WellFormed (.vstg (vm (v 1) (v 2) 0 .mx8)) ∧
    ¬ WellFormed (.vldg { vm (v 1) (v 2) 0 .n32 with fe := .clear }) ∧ ¬ WellFormed (.vamo (va (vx 1) (v 2) 0 .add .n32)) ∧
    ¬ WellFormed (.vamo (va (v 1) (v 2) 0 .and .f32)) ∧ ¬ WellFormed (.vamo (va (v 1) (v 2) 0 .add .n8)) ∧
    ¬ WellFormed (.vfec { g := g0, addr := q 1, pset := 0, step := 0 }) ∧ ¬ WellFormed (.vbrelOff { g := g0, step := 0 }) := by decide
/-- Bead and copy forms: a range past array 63, a grid of more than 64, the cases of R242, orderings of copies, a used
field of another operation. -/
theorem test_illformed_bead_copy : ¬ WellFormed (.bswap ⟨60, 4⟩) ∧ ¬ WellFormed (.bcal ⟨63, 1⟩) ∧ ¬ WellFormed (.bgrid 63 1) ∧
    ¬ WellFormed (.bldp { r := ⟨0, 0⟩, a := v 1, swm := false, lfmt := .i8 }) ∧ ¬ WellFormed (.bldp { r := ⟨63, 1⟩, a := q 1, swm := false, lfmt := .i8 }) ∧
    ¬ WellFormed (.bstep { d := v 1, bnd := zero, a := q 1, beam := 5, sexp := 0, step := 0, ovw := false }) ∧
    ¬ WellFormed (.bstep { d := v 1, bnd := zero, a := q 1, beam := 4, sexp := 21, step := 0, ovw := false }) ∧
    ¬ WellFormed (.bstep { d := v 1, bnd := v 2, a := q 1, beam := 4, sexp := 0, step := 0, ovw := false }) ∧
    ¬ WellFormed (.bstep { d := ⟨false, 2, 1⟩, bnd := zero, a := q 1, beam := 4, sexp := 0, step := 0, ovw := false }) ∧
    ¬ WellFormed (.bstep { d := vx 1, bnd := zero, a := q 1, beam := 4, sexp := 0, step := 0, ovw := false }) ∧
    ¬ WellFormed (.bstep { d := v 1, bnd := zero, a := v 1, beam := 4, sexp := 0, step := 0, ovw := false }) ∧
    ¬ WellFormed (.bcalr (vx 1) 0 0) ∧ ¬ WellFormed (.bcalw ⟨false, 1, 0⟩ 0 0) ∧
    ¬ WellFormed (.cboxOs { cw 1 2 3 with ord := .acq }) ∧ ¬ WellFormed (.cfillO (cw 1 2 3)) ∧ ¬ WellFormed (.cdisc (cw 1 2 3)) ∧
    ¬ WellFormed (.caddOo { cw 1 2 3 with ord := .ar }) ∧ ¬ WellFormed (.cctrAdd 1 .acq .fr 0) ∧
    ¬ WellFormed (.crld { sa := 1, r := ⟨62, 2⟩, kgm1 := 0, swm := false }) := by decide
/-- Generator forms: KMERGE of nothing, KRD of word 5, a field past bit 319, a selector above 8, orderings, a word shift
by 32, and the two words of the handler's return. -/
theorem test_illformed_generator : ¬ WellFormed (.kmerge 0 1 0) ∧ ¬ WellFormed (.krd 1 0 5) ∧ ¬ WellFormed (.kins 0 1 319 1) ∧
    ¬ WellFormed (.kinsi 0 1 300 20) ∧ ¬ WellFormed (.gself 1 9) ∧ ¬ WellFormed (.gld .w .rel .pkg 1 2) ∧ ¬ WellFormed (.gst .w .acq .pkg 1 2) ∧
    ¬ WellFormed (.integerInstruction (.shift .slliw 1 2 32)) ∧ ¬ WellFormed (.csrAccess .rw 0 (.imm 4) 0x805) ∧
    ¬ WellFormed (.csrAccess .rw 0 (.imm 12) 0x805) ∧ WellFormed (.kins 0 1 319 0) := by decide

/-! ### Words of the manual -/

/-- The generator words of R133 to R136, R175, R185 to R203. -/
theorem test_decode_generator : ([(0x0005008B, .kload 1 10), (0x0000118B, .kclr 3), (0x0010210B, .kmov 2 1), (0x0410300B, .kmerge 0 1 2),
    (0x0410430B, .krd 6 1 2), (0x0025500B, .gemit 2 10), (0x0010630B, .gemitNb 6 1 0), (0x0000730B, .geq 6), (0x5292862B, .kins 1 5 165 12),
    (0x4313912B, .kinsi 1 7 134 2), (0x00C5855B, .gwaitAny 10 11 12), (0x02C5855B, .gwaitAll 10 11 12), (0x0005955B, .gjoin 10 11),
    (0x0005A55B, .gleave 10 11), (0x0005B55B, .gbar 10 11), (0x0005C55B, .glaunch 10 11), (0x0000505B, .gexit), (0x0010655B, .gself 10 1),
    (0x0005857B, .grec 10 11 0), (0x0055857B, .grec 10 11 5), (0x04B011FB, .psetw 11 3 2), (0x0401A57B, .psetr 10 3 2),
    (0x0280307B, .gfenceX 2 8), (0x00A0407B, .gfence .rel .pkg), (0x0120407B, .gfence .sc .pkg), (0x4C05D57B, .gld .w .acq .pkg 10 11),
    (0x74C5E07B, .gst .d .rel .pkg 12 11), (0x0015F57B, .gdiv 10 11 .exec), (0x0205F57B, .sprint 10 11)] : List (Nat × Instr)).all
      (fun x => decide (decodeTableWord 32 x.1 = some x.2)) = true := by decide +kernel
/-- Words of the RISC-V base (R176), written from its encodings: ADDI x1, x0, -1; LUI x5, 0x12345; JAL x1, 8;
BEQ x1, x2, -4; LD x6, 8(x7); SD x6, -8(x7); AMOADD.D.AQ x5, x6, (x7); LR.W x5, (x7); SC.D.RL x5, x6, (x7); FENCE RW, R;
FENCE.I; ECALL; EBREAK; CSRRW x5, 0x800, x6; SH1ADD x1, x2, x3; C.LI x10, 1; C.ADD x1, x2; RESUME; ABANDON. -/
theorem test_decode_standard : ([(0xFFF00093, .integerInstruction (.imm .addi 1 0 0xFFF)), (0x123452B7, .integerInstruction (.lui 5 0x12345)),
    (0x008000EF, .integerInstruction (.jal 1 4)), (0xFE208EE3, .integerInstruction (.branch .beq 1 2 0xFFE)),
    (0x0083B303, .standardLoad .ld 6 7 8), (0xFE63BC23, .standardStore .sd 6 7 0xFF8), (0x0463B2AF, .amo .add true true false 5 7 6),
    (0x1003A2AF, .lr false false false 5 7), (0x1A63B2AF, .sc true false true 5 7 6), (0x0320000F, .fence 0 3 2), (0x0000100F, .fenceI),
    (0x00000073, .ecall), (0x00100073, .ebreak), (0x800312F3, .csrAccess .rw 5 (.reg 6) 0x800), (0x203120B3, .integerInstruction (.alu .sh1add 1 2 3)),
    (0x80525073, .handlerResume), (0x80565073, .handlerAbandon)] : List (Nat × Instr)).all
      (fun x => decide (decodeTableWord 32 x.1 = some x.2)) = true ∧
    decode16 0x4505 = .integerInstruction (.imm .addi 10 0 1) ∧ decode16 0x908A = .integerInstruction (.alu .add 1 1 2) ∧
    decodeTableWord 32 0x0000000F = some (.fence 0 0 0) ∧ decodeTableWord 32 0xFFFFFFFF = some (.illegalInstruction 0xFFFFFFFF) := by decide +kernel
/-- The bead words of R238 to R252 and of the program of chapter 09. -/
theorem test_decode_bead : ([(0x0400000000000000, .bswap ⟨0, 0⟩), (0x0520700000000000, .bcal ⟨8, 7⟩), (0x017C100000000000, .bgrid 31 1),
    (0x0300000018020000, .bldp { r := ⟨0, 0⟩, a := q 1, swm := false, lfmt := .i8 }), (0x061C206000000000, .bcalr (v 900) 3 0),
    (0x070000601A000000, .bcalw zero 3 0), (0x0858700000000000, .bflagClip 5 3 true), (0x0980000000000000, .bmodeDigital),
    (0x0900000000000000, .bmodeAnalog), (0x0800000000000000, .bflagStale 0 false),
    (0x0228098058008A20, .bstep { d := ⟨false, 1, 0x101⟩, bnd := ⟨false, 1, 0x201⟩, a := q 0, beam := 2, sexp := 5, step := 0, ovw := true })] :
      List (Word × Instr)).all (fun x => decide (decodeSlot .bead x.1 = some x.2)) = true := by decide +kernel
/-- The vector words of the tables in chapters 10 and 11. -/
theorem test_decode_vector : ([(0x01001000C0880050, .vadd { vr (v 128) (v 192) (vx 256) .s32 with step := 1 }),
    (0x0200006004002809, .vsub { vr (v 3) (v 4) (v 5) .s16 with mod := 1 }), (0x138801400B006014, .vfshr { vr (v 10) (v 11) (v 12) .n32 with g := gp 2 }),
    (0x1800006014700012, .vcmp { g := g0, p := 3, a := v 20, b := cst 0, step := 0, ty := .s32, cond := .lt }),
    (0x1998002002001810, .vsel { vr (v 1) (v 2) (v 3) .s32 with g := gp 6 }), (0x1A00002002001800, .plog { g := g0, p := 1, pa := 2, pb := 3, op := .and }),
    (0x290003C028002014, .vrmax (vk (v 30) (v 40) 4 .n32)), (0xC0000C8E04494014, .vld { vm (v 100) (cst 4) 9 .n32 with fe := .clear }),
    (0xC38400EE03210004, .vstu { vm (v 7) (cst 3) 4 .n8 with g := gp 1 }),
    (0xC60000A006670015, .vamo { va (v 5) (v 6) 12 .add .n32 with ord := .ar, scope := .pkg }), (0xC890000000080000, .vbrelOff { g := gp 4, step := 0 }),
    (0x0100002002001E1C, .vadd { vr (v 1) (v 2) (v 3) .bf16 with rm := .rdn }), (0x0700095048824819, .vfma { vr (v 74) (vx 72) (vx 73) .f32 with mod := 1 }),
    (0x2800050029003418, .vrsum { vk (v 40) (v 41) 6 .f32 with rm := .rup }), (0x310008E046000018, .vrsq (vu (v 71) (v 70) .f32)),
    (0x380001400B00301C, .vcvt { g := g0, d := v 10, a := v 11, src := .f32, rm := .rne, step := 0, ty := .bf16 }),
    (0x3900028015000024, .vqnt (vu (v 20) (v 21) .mx8)), (0x3A0002C014005018, .vdqt { g := g0, d := v 22, a := v 20, src := .mx6, rm := .rne, step := 0, ty := .f32 }),
    (0x3C0003C001000014, .vflags { g := g0, d := v 30, sel := 1 }), (0xC600012007190017, .vamo (va (v 9) (v 7) 3 .or .n32)),
    (0xC38A01EFFB190004, .vstu { vm (vx 15) (cst (-5)) 3 .n8 with g := gp 2 })] : List (Word × Instr)).all
      (fun x => decide (decodeSlot .vector x.1 = some x.2)) = true := by decide +kernel
/-- The copy and control words of chapters 06 and 12; words of a reserved operation or with an unused field set. -/
theorem test_decode_copy_control : ([(0x0102219000000000, .cboxOs (cw 1 2 3)), (0x064821D000000000, .caddSo { cw 4 2 3 with ord := .rel }),
    (0x0502201000000000, .cdisc (cw 1 2 0)), (0x0202000001860000, .crld { sa := 1, r := ⟨0, 3⟩, kgm1 := 3, swm := false }),
    (0x070A005000000001, .cctrAdd 5 .rel .pkg 1)] : List (Word × Instr)).all (fun x => decide (decodeSlot .copy x.1 = some x.2)) = true ∧
    decodeSlot .control 0x010400C600000000 = some (.loop 2 99) ∧ decodeSlot .control 0x0300FF00FF000000 = some (.waitc 0 255 0 255) ∧
    decodeSlot .control 0x0599000000000000 = some (.setfmt .mx8 .mx8) ∧ decodeSlot .control 0x0200000000000000 = some .phase ∧
    decodeSlot .control 0x0400000000000000 = some .vjoin ∧ (∀ sl, decodeSlot sl 0 = some (.idle sl)) ∧
    decodeSlot .copy 0x0800000000000000 = none ∧ decodeSlot .control 0x0200000000000001 = none ∧ decodeSlot .bead 0x0400000000000001 = none ∧
    decodeSlot .vector 0x0000000000000001 = none ∧ decodeSlot .bead 0x04F4400000000000 = none := by
  refine ⟨by decide +kernel, by decide +kernel, by decide +kernel, by decide +kernel, by decide +kernel, by decide +kernel, ?_, by decide +kernel, by decide +kernel, by decide +kernel, by decide +kernel, by decide +kernel⟩
  intro sl; cases sl <;> decide +kernel

/-! ### States to run one step from -/

/-- The thread that runs on frame 0 of die 0. -/
def thread : BindRec := { image := false, prio := 0, split := 12, tid := 7, tcb := 0x3000, area := 0, areaLen := 0 }
/-- Record of a linear object of bytes, 4096 long at device address `a`, with permissions R, W and B. -/
def record (h a fmt : Nat) : RcEnt :=
  { handle := h, words := [mk64 [(44, 1, 1), (43, 1, 1), (42, 1, 1), (46, 16, 9), (36, 4, fmt), (30, 4, 1)], BitVec.ofNat 64 a,
      0, 0, 0, 4096, 0, 0, if fmt ≤ 1 then 1 else if fmt = 6 then 4 else 0, 0, 0, 0, 0, 0, 4096, 0], ext := [], map := [] }
def frame0 : Frame := { Frame.fresh with
  disp := { Disp.fresh with running := some thread }, rc := [record 2 0x4000 1, record 3 0x8000 6, record 4 0x10000 0, record 5 0x14000 9] }
/-- A state with frame 0 as given and objects 2 to 5 in its record cache. -/
def stateOf (f : Frame) : State := { State.reset with
  frames := [(0, f)], dies := [(0, { Die.fresh with useBase := 1, useLen := 8 })] }
def issue (w : Word) : SlotIssue :=
  { n := 1, w := w, adv := false, pos := 5, rep := 0, iters := [], tag := ⟨0, 0, 7⟩, sub := 0, afmt := .i8, wfmt := .i8, rows := [], preds := [] }
/-- The word of an operation in its slot. -/
def wordOf (i : Instr) : Word := ((encodeSlot i).map (·.2)).getD 0
/-- The vector slot holds `i`; rows and predicates as given. -/
def vecFrame (rows : Tbl Row) (i : Instr) : Frame := { frame0 with
  vec := { Vec.fresh with rows := rows, preds := [(1, 3)] }, seq := { Seq.fresh with qv := { q := [issue (wordOf i)], hold := none } } }
def vecState (rows : Tbl Row) (i : Instr) : State := stateOf (vecFrame rows i)
def all (c : Nat) : Row := rowOf fun _ => BitVec.ofNat 32 c
/-- Lane L of row r after the step; none where the row is dead. -/
def laneAfter (o : Out) (r L : Nat) : Option Cell32 := match o with | .next t => (tget (curFrame t).vec.rows r).map (lane · L) | _ => none
def flagsAfter (o : Out) (L : Nat) : Cond := match o with | .next t => cfOf (curFrame t).vec L | _ => 0
def vec1 (i : Instr) (rows : Tbl Row) : Out := exec i (vecState rows i)

/-! ### Vector operations: examples of chapters 10 and 11 -/

/-- R279: d = 0x12345678, a = 0x9ABCDEF0, b = 8 and 40. -/
theorem test_vfshl : laneAfter (vec1 (.vfshl (vr (v 1) (v 2) (cst 8) .n32)) [(1, all 0x12345678), (2, all 0x9ABCDEF0)]) 1 63 = some 0x3456789A ∧
    laneAfter (vec1 (.vfshl (vr (v 1) (v 2) (cst 40) .n32)) [(1, all 0x12345678), (2, all 0x9ABCDEF0)]) 1 0 = some 0xBCDEF000 := by decide +kernel
theorem test_vfshr : laneAfter (vec1 (.vfshr (vr (v 1) (v 2) (cst 8) .n32)) [(1, all 0x12345678), (2, all 0x9ABCDEF0)]) 1 5 = some 0x789ABCDE ∧
    laneAfter (vec1 (.vfshr (vr (v 1) (v 2) (cst 40) .n32)) [(1, all 0x12345678), (2, all 0x9ABCDEF0)]) 1 0 = some 0x00123456 := by decide +kernel
/-- R278: the example of saturation. -/
theorem test_vadd : laneAfter (vec1 (.vadd { vr (v 1) (v 2) (v 3) .s8 with mod := 1 }) [(2, all 0x7F800102), (3, all 0x0180FF7F)]) 1 9 = some 0x7F80007F ∧
    flagsAfter (vec1 (.vadd { vr (v 1) (v 2) (v 3) .s8 with mod := 1 }) [(2, all 0x7F800102), (3, all 0x0180FF7F)]) 9 = 0x20 ∧
    laneAfter (vec1 (.vadd (vr (v 1) (v 2) (v 3) .s8)) [(2, all 0x7F800102), (3, all 0x0180FF7F)]) 1 9 = some 0x80000081 := by decide +kernel
/-- R257: a column destination writes lane 5 of rows V0 to V63, all else zero. -/
theorem test_column : laneAfter (vec1 (.vadd (vr ⟨false, 1, 5⟩ (v 64) (cst 1) .n32)) [(64, all 41)]) 63 5 = some 42 ∧
    laneAfter (vec1 (.vadd (vr ⟨false, 1, 5⟩ (v 64) (cst 1) .n32)) [(64, all 41)]) 63 4 = some 0 := by decide +kernel
/-- R299: the seed of 1/sqrt(25). -/
theorem test_vrsq : laneAfter (vec1 (.vrsq (vu (v 1) (v 2) .f32)) [(2, all 0x41C80000)]) 1 0 = some 0x3E4CD000 := by decide +kernel
/-- R303, R304: -2.5 and NaN to S8, -5 to N8, 65535 to F16. -/
def cvt (src ty : ElemType) : Instr := .vcvt { g := g0, d := v 1, a := v 2, src := src, rm := .rne, step := 0, ty := ty }
theorem test_vcvt : laneAfter (vec1 (cvt .f32 .s8) [(2, all 0xC0200000)]) 1 0 = some 0xFEFEFEFE ∧
    laneAfter (vec1 (cvt .f32 .s8) [(2, all 0x43960000)]) 1 0 = some 0x7F7F7F7F ∧ laneAfter (vec1 (cvt .f32 .s8) [(2, all 0x7FC00000)]) 1 3 = some 0 ∧
    laneAfter (vec1 (cvt .n16 .f16) [(2, all 0xFFFFFFFF)]) 1 0 = some 0x7C007C00 := by decide +kernel
/-- R30: a NaN operand leaves the canonical NaN. -/
theorem test_vmul_nan : laneAfter (vec1 (.vmul (vr (v 1) (v 2) (v 3) .f32)) [(2, all 0xFFC12345), (3, all 0x3F800000)]) 1 0 = some 0x7FC00000 := by decide +kernel
/-- By hand from R278 to R286: wraps, sign changes, group sums, selections. -/
theorem test_vsub : laneAfter (vec1 (.vsub (vr (v 1) (v 2) (v 1) .n32)) [(1, all 1), (2, all 0)]) 1 0 = some 0xFFFFFFFF := by decide +kernel
theorem test_vmulh : laneAfter (vec1 (.vmulh (vr (v 1) (v 2) (v 3) .s16)) [(2, all 0x80007FFF), (3, all 0x80000002)]) 1 0 = some 0x40000000 := by decide +kernel
theorem test_vmin_vmax : laneAfter (vec1 (.vmin (vr (v 1) (v 2) (v 3) .s32)) [(2, all 0xFFFFFFFF), (3, all 1)]) 1 0 = some 0xFFFFFFFF ∧
    laneAfter (vec1 (.vmax (vr (v 1) (v 2) (v 3) .n32)) [(2, all 0xFFFFFFFF), (3, all 1)]) 1 0 = some 0xFFFFFFFF := by decide +kernel
theorem test_vfma : laneAfter (vec1 (.vfma { vr (v 1) (v 2) (v 3) .f32 with mod := 1 }) [(1, all 0x40E00000), (2, all 0x40000000), (3, all 0x40400000)]) 1 0 = some 0x3F800000 := by decide +kernel
theorem test_logic : laneAfter (vec1 (.vandn (vr (v 1) (v 2) (v 3) .n32)) [(2, all 0xFF), (3, all 0x0F)]) 1 0 = some 0xF0 ∧
    laneAfter (vec1 (.vxor (vr (v 1) (v 2) (v 3) .n32)) [(2, all 0xFF), (3, all 0x0F)]) 1 0 = some 0xF0 ∧
    laneAfter (vec1 (.vor (vr (v 1) (v 2) (v 3) .n32)) [(2, all 0xF0), (3, all 0x0F)]) 1 0 = some 0xFF ∧
    laneAfter (vec1 (.vand (vr (v 1) (v 2) (v 3) .n32)) [(2, all 0xFF), (3, all 0x1E)]) 1 0 = some 0x1E := by decide +kernel
theorem test_shifts : laneAfter (vec1 (.vshr (vr (v 1) (v 2) (cst 33) .s32)) [(2, all 0x80000000)]) 1 0 = some 0xFFFFFFFF ∧
    laneAfter (vec1 (.vshl (vr (v 1) (v 2) (cst 32) .n32)) [(2, all 1)]) 1 0 = some 0 := by decide +kernel
theorem test_counts : laneAfter (vec1 (.vclz (vu (v 1) (v 2) .n16)) [(2, all 0x00010000)]) 1 0 = some 0x000F0010 ∧
    laneAfter (vec1 (.vpopc (vu (v 1) (v 2) .n32)) [(2, all 0x80000001)]) 1 0 = some 2 := by decide +kernel
/-- A disabled lane of VSEL takes B; P1 enables lanes 0 and 1. -/
theorem test_vsel : laneAfter (vec1 (.vsel { vr (v 1) (v 2) (v 3) .n32 with g := gp 1 }) [(2, all 5), (3, all 6)]) 1 1 = some 5 ∧
    laneAfter (vec1 (.vsel { vr (v 1) (v 2) (v 3) .n32 with g := gp 1 }) [(2, all 5), (3, all 6)]) 1 2 = some 6 := by decide +kernel
theorem test_vperm : laneAfter (vec1 (.vperm (vr (v 2) (v 2) (v 3) .n32)) [(2, rowOf fun L => BitVec.ofNat 32 L), (3, all 70)]) 2 0 = some 6 := by decide +kernel
theorem test_vgath : laneAfter (vec1 (.vgath (vr (v 1) (v 64) (v 3) .n32)) [(3, all (2 * 64 + 9)), (66, rowOf fun L => BitVec.ofNat 32 (L + 100))]) 1 4 = some 109 := by decide +kernel
theorem test_vrsum : laneAfter (vec1 (.vrsum (vk (v 1) (v 2) 2 .n32)) [(2, rowOf fun L => BitVec.ofNat 32 L)]) 1 5 = some 22 := by decide +kernel
theorem test_vrmax : laneAfter (vec1 (.vrmax (vk (v 1) (v 2) 6 .s32)) [(2, rowOf fun L => BitVec.ofNat 32 L)]) 1 5 = some 63 ∧
    laneAfter (vec1 (.vrmin (vk (v 1) (v 2) 1 .s32)) [(2, rowOf fun L => BitVec.ofNat 32 L)]) 1 5 = some 4 := by decide +kernel
/-- P3 bit L after VCMP; PLOG over P1 (lanes 0, 1) and P2 (none). -/
def predAfter (o : Out) (p : Nat) : Word := match o with | .next t => tgetD (curFrame t).vec.preds p 0 | _ => 0
theorem test_vcmp : predAfter (vec1 (.vcmp { g := g0, p := 3, a := v 2, b := cst 0, step := 0, ty := .s32, cond := .lt }) [(2, rowOf fun L => if L = 4 then 0xFFFFFFFF else 0)]) 3 = 16 := by decide +kernel
theorem test_plog : predAfter (vec1 (.plog { g := g0, p := 2, pa := 1, pb := 2, op := .or }) []) 2 = 3 ∧
    predAfter (vec1 (.plog { g := gp 1, p := 3, pa := 2, pb := 1, op := .andn }) []) 3 = 0 := by decide +kernel
/-- R306, R42: MXINT6 element 5 = -19 under scale 0x7F is -1.1875. -/
theorem test_vdqt : laneAfter (vec1 (.vdqt { g := g0, d := v 1, a := v 2, src := .mx6, rm := .rne, step := 0, ty := .f32 })
    [(2, bytesRow ((upto 256).map fun i => if i = 2 then 0xD0 else if i = 33 then 0x08 else if i = 255 then 0x7F else 0))]) 1 5 = some 0xBF980000 := by decide +kernel
theorem test_vflags : laneAfter (vec1 (.vflags { g := g0, d := v 1, sel := 0 }) []) 1 0 = some 0 := by decide +kernel

/-! ### Generator core: one step of a placed word -/

def nextOf (o : Out) : State := match o with | .next t => t | _ => State.reset
/-- Registers x5 to x7, the word placed at the pc, one step. -/
def gen1 (w : Nat) (x5 x6 x7 : Word) : Out :=
  let s := State.reset.withFetchWord 32 w
  step (onGen s fun g => { g with x := [(5, x5), (6, x6), (7, x7)] })
def xAfter (o : Out) (r : BitVec 5) : Word := match o with | .next t => rx (curFrame t).gen r | _ => 0
def pcAfter (o : Out) : Word := match o with | .next t => (curFrame t).gen.pc | _ => 0

/-- R176: ADDI x1, x0, -1; the pc moves on by four. -/
theorem test_addi : xAfter (gen1 0xFFF00093 0 0 0) 1 = -1 ∧ pcAfter (gen1 0xFFF00093 0 0 0) = 0x0000100000000004 := by decide +kernel
/-- A write of x0 is lost; a compressed LI moves the pc on by two. -/
theorem test_x0 : xAfter (gen1 0xFFF00013 0 0 0) 0 = 0 ∧ xAfter (gen1 0x4505 0 0 0) 10 = 1 ∧ pcAfter (gen1 0x4505 0 0 0) = 0x0000100000000002 := by decide +kernel
/-- DIV x1, x5, x6 and REMW x1, x5, x6: division by zero and overflow. -/
theorem test_div : xAfter (gen1 0x0262C0B3 7 0 0) 1 = -1 ∧ xAfter (gen1 0x0262C0B3 0x8000000000000000 (-1) 0) 1 = 0x8000000000000000 := by decide +kernel
theorem test_remw : xAfter (gen1 0x0262E0BB 0x80000000 0xFFFFFFFF 0) 1 = 0 ∧ xAfter (gen1 0x0262E0BB 0xF00000007 0 0) 1 = 7 := by decide +kernel
/-- BEQ x5, x6, -4, taken and not; JALR x1, 3(x5) clears bit 0. -/
theorem test_branch : pcAfter (gen1 0xFE628EE3 4 4 0) = 0x00000FFFFFFFFFFC ∧ pcAfter (gen1 0xFE628EE3 4 5 0) = 0x0000100000000004 := by decide +kernel
theorem test_jalr : pcAfter (gen1 0x003280E7 0x100 0 0) = 0x102 ∧ xAfter (gen1 0x003280E7 0x100 0 0) 1 = 0x0000100000000004 := by decide +kernel
/-- SH1ADD x1, x5, x6; CPOP x1, x5; REV8 x1, x5; SLLI.UW x1, x5, 4. -/
theorem test_bits : xAfter (gen1 0x2062A0B3 3 1 0) 1 = 7 ∧ xAfter (gen1 0x60229093 0xF0F0 0 0) 1 = 8 ∧
    xAfter (gen1 0x6B82D093 1 0 0) 1 = 0x0100000000000000 ∧ xAfter (gen1 0x0842909B 0xFFFFFFFF00000001 0 0) 1 = 16 := by decide +kernel
/-- R204, R205: ECALL escalates and stands at the next instruction; EBREAK at its own. -/
theorem test_ecall : pcAfter (gen1 0x00000073 0 0 0) = 0x0000100000000004 ∧ pcAfter (gen1 0x00100073 0 0 0) = 0x0000100000000000 := by decide +kernel
/-- R205, R208: with L1TVEC = 0x101 an illegal word enters the handler at 0x100, cause 2, value the word. -/
def genHandler (w : Nat) : Out := step (onGen (State.reset.withFetchWord 32 w) fun g => { g with h := { g.h with tvec := 0x101 } })
theorem test_handler_entry : pcAfter (genHandler 0xFFFFFFFF) = 0x100 ∧
    (let g := (curFrame (nextOf (genHandler 0xFFFFFFFF))).gen
    (g.h.cause, g.h.tval, g.h.inH) = (2, 0xFFFFFFFF, true)) := by decide +kernel
/-- R208: CSRRW x5, 0x800, x6 stores MODE 2 as 0 and returns the old value. -/
theorem test_csr : xAfter (gen1 0x800312F3 0 0x202 0) 5 = 0 ∧ (match gen1 0x800312F3 0 0x202 0 with | .next t => (curFrame t).gen.h.tvec | _ => 0) = 0x200 := by decide +kernel
/-- R207: RESUME with IN_H 0 is an illegal instruction, and escalates. -/
theorem test_resume : (match gen1 0x80525073 0 0 0 with | .next t => (curFrame t).gen.halted | _ => false) = true := by decide +kernel
/-- R15, R203: GDIV x1, x5, EXEC asks for 1 and gets the floor 4, status 1; 40 gives 32, status 2. -/
theorem test_gdiv : xAfter (gen1 0x0012F0FB 1 0 0) 1 = 0x104 ∧ xAfter (gen1 0x0012F0FB 40 0 0) 1 = 0x220 := by decide +kernel
/-- R190: GEQ x6 of an empty queue; R197: GSELF x10, 7 is the partition, a selector of 9 escalates. -/
theorem test_geq : xAfter (gen1 0x0000730B 0 1 0) 6 = 0 := by decide +kernel
theorem test_gself : xAfter (gen1 0x0070655B 0 0 0) 10 = 0 ∧ (match gen1 0x0090655B 0 0 0 with | .next t => (curFrame t).gen.halted | _ => false) = true := by decide +kernel
/-- R199: PSETW x5, 3, 2 writes word 2 of set 3. -/
theorem test_psetw : (match gen1 (0x04B011FB - 0x00600000) 77 0 0 with | .next t => psetWord (curFrame t).vec 3 2 | _ => 0) = 77 := by decide +kernel
/-- R175: a request of 2 has status 7, giving back with no grant 6, asking is granted at no draw: SPRINT x1, x5. -/
theorem test_sprint : xAfter (gen1 0x0202F0FB 2 0 0) 1 = 7 ∧ xAfter (gen1 0x0202F0FB 0 0 0) 1 = 6 ∧ xAfter (gen1 0x0202F0FB 1 0 0) 1 = 0 := by decide +kernel
/-- R134, R185: KINS K1, x5, VEC_D puts 13 bits at 165; KINSI K1, VEC_STEP, 7. -/
theorem test_kins : (match gen1 0x5292862B 0xFFFFFFFFFFFFFFFF 0 0 with | .next t => kget (curFrame t).gen 1 | _ => (0 : Image)) = BitVec.ofNat 320 (0x1FFF * 2 ^ 165) := by decide +kernel
theorem test_kinsi : (match gen1 0x4313912B 0 0 0 with | .next t => kget (curFrame t).gen 1 | _ => (0 : Image)) = BitVec.ofNat 320 (7 * 2 ^ 134) := by decide +kernel
/-- R112, R186: the image of chapter 05 packs into the header, the vector word and the control word. -/
def image05 : Image := BitVec.ofNat 320 (0xA00F000000000000 + 0x01001000C0880050 * 2 ^ 128)
theorem test_pack : pack image05 = { hdr := 0xA00F000000000000, bead := none, vec := some 0x01001000C0880050, copy := none, ctl := some 0 } := by decide +kernel
/-- GEMIT K1, x5 with an override of 16 repeats: REPEAT holds 15; of 0: cause 49 escalates. -/
def emit1 (n : Word) : Out := exec (.gemit 1 5) (onGen (State.reset.withFetchWord 32 0) fun g => { g with x := [(5, n)], k := [(1, image05)] })
theorem test_gemit : (match emit1 3 with | .next t => (curFrame t).seq.queue.map fun e => e.bun.hdr | _ => []) = [0xA002000000000000] ∧
    (match emit1 0 with | .next t => (curFrame t).gen.halted | _ => false) = true := by decide +kernel

/-! ### Memory -/

/-- Object 2 lies at device address 0x4000: bytes and registers as given. -/
def mem1 (i : Instr) (x5 x6 : Word) (bytes : List Byte) : Out :=
  exec i { stateOf { frame0 with gen := { Gen.fresh with x := [(5, x5), (6, x6)] } } with mem := memWrite [] 0x4000 bytes }
def byteAfter (o : Out) (a : Nat) : Byte := match o with | .next t => memGet t.mem a | _ => 0
/-- The tagged address of byte `o` of handle 2. -/
def at2 (o : Nat) : Word := BitVec.ofNat 64 (2 * 2 ^ 44 + o)
/-- LB and LBU of 0x80; LD is little-endian. -/
theorem test_load : xAfter (mem1 (.standardLoad .lb 7 5 0) (at2 0) 0 [0x80]) 7 = 0xFFFFFFFFFFFFFF80 ∧ xAfter (mem1 (.standardLoad .lbu 7 5 0) (at2 0) 0 [0x80]) 7 = 0x80 ∧
    xAfter (mem1 (.standardLoad .ld 7 5 8) (at2 0) 0 [0, 0, 0, 0, 0, 0, 0, 0, 1, 2]) 7 = 0x201 := by decide +kernel
theorem test_store : byteAfter (mem1 (.standardStore .sh 6 5 2) (at2 0) 0x1234 []) 0x4003 = 0x12 ∧ byteAfter (mem1 (.standardStore .sh 6 5 2) (at2 0) 0x1234 []) 0x4004 = 0 := by decide +kernel
/-- R59, R61, R204: the last byte of the object loads, the next is out of shape and escalates. -/
theorem test_bounds : xAfter (mem1 (.standardLoad .lb 7 5 0) (at2 4095) 0 []) 7 = 0 ∧
    (match mem1 (.standardLoad .lb 7 5 0) (at2 4096) 0 [] with | .next t => (curFrame t).gen.halted | _ => false) = true := by decide +kernel
theorem test_amo : xAfter (mem1 (.amo .add false false false 7 5 6) (at2 4) 1 [0, 0, 0, 0, 0xFF, 0xFF, 0xFF, 0xFF]) 7 = -1 ∧
    byteAfter (mem1 (.amo .add false false false 7 5 6) (at2 4) 1 [0, 0, 0, 0, 0xFF, 0xFF, 0xFF, 0xFF]) 0x4007 = 0 := by decide +kernel
/-- R181: SC with no reservation fails; after LR of its line it succeeds. -/
def lrsc : Out := match mem1 (.lr true false false 7 5) (at2 8) 5 [] with | .next t => exec (.sc true false false 7 5 6) t | o => o
theorem test_sc : xAfter (mem1 (.sc true false false 7 5 6) (at2 8) 5 []) 7 = 1 ∧ xAfter lrsc 7 = 0 ∧ byteAfter lrsc 0x4008 = 5 := by decide +kernel
theorem test_gst : byteAfter (mem1 (.gst .b .rel .pkg 6 5) (at2 1) 0xAB []) 0x4001 = 0xAB := by decide +kernel
theorem test_gld : xAfter (mem1 (.gld .h .acq .pkg 7 5) (at2 0) 0 [0, 0x80]) 7 = 0xFFFFFFFFFFFF8000 := by decide +kernel
theorem test_grec : xAfter (mem1 (.grec 7 5 14) 2 0 []) 7 = 4096 := by decide +kernel

/-! ### Sequencer, bead arrays, copy engine -/

/-- R116, R143: an entry is taken, POS moves on; its bundle of 16 repetitions then hands out one issue. -/
def entry05 : Entry := { tag := ⟨0, 3, 7⟩, bun := pack image05, fences := [] }
def took : Out := exec .bundleDecode (stateOf { frame0 with seq := { Seq.fresh with queue := [entry05] } })
theorem test_bundleDecode : (match took with | .next t => ((curFrame t).seq.pos, (curFrame t).seq.taken, decide ((curFrame t).seq.stage = .issuing)) | _ => (0, 0, false)) = (1, 1, true) := by decide +kernel
def issued : Seq := (curFrame (nextOf (exec .issueRepetition (nextOf took)))).seq
theorem test_issue : issued.qv.q.map SlotIssue.w = [0x01001000C0880050] ∧ issued.qb.q.map SlotIssue.w = [0] ∧ issued.cur.map CurBundle.rep = some 1 := by decide +kernel
/-- R117: the second repetition's word names V129, V193 and V257! -/
theorem test_advance : advance .vector 0x01001000C0880050 = 0x01001020C1880850 := by decide +kernel
/-- R147: a LOOP of 3 bundles 100 times pushes its body. -/
theorem test_loop : (advanceLoops Seq.fresh (some (2, 99))).loops = [{ iter := 0, cnt := 99, len := 2, start := 0 }] := by decide +kernel
/-- R227, R228: with weight 3 in row 0, rod 5 and activation 4 in element 0 a DIGITAL-width segment is 12. -/
def bank1 : Bank := bankChecksum { Bank.fresh with w := [(5, 3)] }
theorem test_segment : (segment { kp := 8, s := 0, afmt := .i8, wfmt := .i8 } { BArr.fresh with b0 := bank1 } false bank1 (fun i => if i = 0 then 4 else 0) 0 0 5 0).S = 12 := by decide +kernel
theorem test_bgrid : (match exec (.bgrid 31 1) (stateOf { frame0 with seq := { Seq.fresh with qb := { q := [issue 0x017C100000000000], hold := none } } }) with
    | .next t => ((curFrame t).bead.kg, (curFrame t).bead.ng) | _ => (0, 0)) = (32, 2) := by decide +kernel
/-- R320: CFILL.S fills two FP32 elements of frame SRAM: issued, then performed. -/
def copyState (i : Instr) (ps : Tbl Word) : State := stateOf { frame0 with
  vec := { Vec.fresh with psets := ps }, seq := { Seq.fresh with qc := { q := [issue (wordOf i)], hold := none } } }
/-- Sets 1 (kind 8, handle 3, origin 1), 2 (kind 9, two elements, FILLV 1.0), 3 (kind 10 at 0x100), 4 (kind 8, handle 3,
origin 8), 5 (kind 5, handle 2, origin 16) and 6 (kind 9, fourteen extents: 2, then 1, FILLV 1.0). -/
def copySets : Tbl Word := [(8, 0x8000000000000003), (9, 1), (16, 0x900000003F800000), (17, 2), (24, 0xA000000000000100),
  (32, 0x8000000000000003), (33, 8), (40, 0x5000000000000002), (41, 16),
  (48, 0x900000003F800000), (49, 0x100000002), (50, 0x100000001), (51, 0x100000001), (52, 0x100000001), (53, 0x100000001), (54, 0x100000001), (55, 0x100000001)]
/-- The operation issues and is then performed, its reads first. -/
def copyRun (i : Instr) (bytes : List Byte) : State :=
  let s := nextOf (exec i { copyState i copySets with mem := memWrite [] 0x8000 bytes })
  nextOf (exec (.copyOperationComplete 0) (nextOf (exec (.copyOperationComplete 0) s)))
/-- Byte a of frame SRAM at the splitting of 12 granules. -/
def sramByte (m : Sram) (a : Nat) : Byte := memGet m.cells (sramKey 12 false a)
theorem test_cfill_s : let m := (curFrame (copyRun (.cfillS 3 6) [])).sram
    (sramByte m 0x102, sramByte m 0x103, sramByte m 0x107, sramByte m 0x108) = (0x80, 0x3F, 0x3F, 0) := by decide +kernel
/-- R320: the object form writes the two elements from element 1 on. -/
theorem test_cfill_o : let s := copyRun (.cfillO { cw 1 2 0 with sb := 0 }) []
    (memGet s.mem 0x8003, memGet s.mem 0x8007, memGet s.mem 0x800B, memGet s.mem 0x800C) = (0, 0x3F, 0x3F, 0) := by decide +kernel
/-- R319: bytes 4 to 11 of the object reach frame SRAM, or elements 8 and 9 of it. -/
theorem test_cbox : (let m := (curFrame (copyRun (.cboxOs (cw 1 2 3)) [0, 1, 2, 3, 4, 5, 6, 7, 8, 9, 10, 11, 12])).sram
    (sramByte m 0x100, sramByte m 0x107, sramByte m 0x108)) = (4, 11, 0) ∧
    memGet (copyRun (.cboxOo (cw 1 2 4)) [0, 1, 2, 3, 4, 5, 6, 7, 8, 9, 10, 11, 12]).mem 0x8027 = 11 := by decide +kernel
/-- R325: the doubleword at offset 16 of object 2 gains -1. -/
theorem test_cctr : memGet (copyRun (.cctrAdd 5 .rel .pkg 0xFFFF) []).mem 0x4017 = 0xFF := by decide +kernel
/-- R72, R322: the 128-byte lines wholly inside the box are discarded; a box of eight bytes holds none. -/
theorem test_cdisc : (copyRun (.cdisc (cw 1 2 0)) []).discarded = [] := by decide +kernel

/-! ### Frame SRAM -/

/-- R266, R287: a set of kind 4 at base 0x200: VST writes lanes 0 and 1 at 0x200 + 16·n, VLD reads them back. -/
def sramFrame (rows : Tbl Row) (i : Instr) (m : Sram) : Frame := { vecFrame rows i with
  vec := { (vecFrame rows i).vec with psets := [(24, 0x4000000000000200)] }, sram := m }
def stored : Sram := (curFrame (nextOf (exec (.vst { vm (v 2) (cst 1) 3 .n32 with g := gp 1 })
  (stateOf (sramFrame [(2, all 0x01020304)] (.vst { vm (v 2) (cst 1) 3 .n32 with g := gp 1 }) .fresh))))).sram
theorem test_vst : (sramByte stored 0x210, sramByte stored 0x217, sramByte stored 0x218) = (4, 1, 0) := by decide +kernel
theorem test_vld : laneAfter (exec (.vld { vm (v 2) (cst 1) 3 .n32 with g := gp 1 }) (stateOf (sramFrame [] (.vld { vm (v 2) (cst 1) 3 .n32 with g := gp 1 }) stored))) 2 1 = some 0x01020304 := by decide +kernel

/-! ### Package -/

/-- R8, R18: CLK_STAT of F5 on D1 lies at 0x4505040 and holds the reset divisors 3, 4 and 4. -/
theorem test_clk_stat : mgmtRead State.reset (.host 0) 0x4505040 8 = 0x03040400 ∧ frameOffset 1 5 0x40 = 0x4505040 := by decide +kernel
/-- R7: a read of four bytes returns all ones. -/
theorem test_mgmt_size : mgmtRead State.reset (.host 0) 0x4505040 4 = -1 := by decide +kernel
/-- R365: four admitted dies of partition 0. -/
theorem test_die_stat : mgmtRead State.reset (.host 0) 0x08 8 = 0x20202020 := by decide +kernel
/-- R367: byte 5 of the second die's share of partition 0. -/
theorem test_hdm : hdmAddr State.reset 0 0x1000000005 = some 0x1000000005 := by decide +kernel
/-- R370: a flit of a reserved type is discarded and counted. -/
theorem test_flit : (nextOf (exec (.flitReservedType 3 12) { State.reset with hub := { Hub.fresh with trained := 8 } })).edge.discarded = 1 := by decide +kernel

/-! ### Digests and signatures (R5) -/

/-- FIPS 202: the first word of SHAKE256 of no bytes, 46 B9 DD 2B 0B A8 8D 13. -/
theorem test_shake256 : (shake256 []).headD 0 = 0x138DA80B2BDDB946 := by decide +kernel
/-- RFC 8032 7.4, the blank message: the secret key has this public key, and this signature. -/
def edSecret : List Byte := leOf 0x5bf99800a249752e038f2f49945bfca3394e042fcc3f8a8c52a348e3f60e96c9639f8cfadd349f926cbf3e51c889be32d6108d80cb62a5826c 57
theorem test_ed448 : edPublic edSecret =
    leOf 0x806125e8afbe1afad16c0fe5f13d78d61b06c7469b7624f1ed7867e9805da70e8a1f0ea7852434a11d6ad46a61ec87e72cfd61b4599b44d75f 57 := by decide +kernel
theorem test_ed448_sign : edSign edSecret [] = leOf 0x26652eff0858d9718c2663735af04911b6dbf4a013a13085dacdc7c59ab92d8504410bc08d5d925b342d1c5d6c003ef69d8ab1d428200dff8039fd1ba2d09bc528787dd4dd227afdf28182624f033f232b1f591ad423d84f07d2343e844a50fb2dae76f9880d3c021f2557e4bbf6373a53 114 ∧ edVerify (edPublic edSecret) [] (edSign edSecret []) = true := by decide +kernel

/-! ### Witnesses: the hypotheses of the statements can be met, clause by clause -/

/-- The access goes on, with a value and a state that meet `p`; `accGoes_iff` says so. -/
def accGoes {α : Type} (x : Acc α) (p : α → State → Bool) : Bool := match x with | .ok v s => p v s | _ => false
theorem accGoes_iff {α : Type} (x : Acc α) (p : α → State → Bool) : accGoes x p = true ↔ ∃ v s, x = .ok v s ∧ p v s = true := by
  cases x <;> simp [accGoes]
/-- A generator access goes on. -/
def genGoes (x : GRes) (p : List Byte → List Nat → State → Bool) : Bool := match x with | .ok bs das s => p bs das s | _ => false
theorem genGoes_iff (x : GRes) (p : List Byte → List Nat → State → Bool) :
    genGoes x p = true ↔ ∃ bs das s, x = .ok bs das s ∧ p bs das s = true := by
  cases x <;> simp [genGoes]
/-- A step goes on. -/
def outGoes (o : Out) (p : State → Bool) : Bool := match o with | .next t => p t | _ => false
theorem outGoes_iff (o : Out) (p : State → Bool) : outGoes o p = true ↔ ∃ t, o = .next t ∧ p t = true := by
  cases o <;> simp [outGoes]
/-- The word that an instruction encodes to. -/
def hasWord (i : Instr) : Bool := (encode i).isSome

theorem witness_GeneratorEncodeDecode : WellFormed (.kins 0 1 319 0) ∧ (∀ x, Instr.kins 0 1 319 0 ≠ .illegalInstruction x) ∧
    hasWord (.kins 0 1 319 0) = true := ⟨by decide, by intro x; simp, by decide⟩
theorem witness_SlotEncodeDecode : WellFormed (.bswap ⟨60, 3⟩) ∧ encodeSlot (.bswap ⟨60, 3⟩) = some (.bead, 0x04F0300000000000) := by decide

/-- States whose next turn is the generator's, a slot's and an event's. -/
def turnGen (w : Nat) : State := { State.reset.withFetchWord 32 w with turns := [.gen 0] }
def turnSlot (f : Frame) (t : Turn) : State := { stateOf f with turns := [t] }
def before (s : State) : State := tick { s with turns := [], cur := 0 }
def fetched (s : State) (a : Word) : Bool := match fetchHalf s a with | (.inl _, _) => true | _ => false
def fetchedShort (s : State) (a : Word) : Bool := match fetchHalf s a with | (.inl b, _) => isShort (BitVec.ofNat 16 (leBytes b)) | _ => false
def fetchFaults (s : State) (a : Word) : Bool := match fetchHalf s a with | (.inr (.fault ..), _) => true | _ => false
theorem witness_StepRunsDecoded_short : (turnGen 0x4505).turns = [.gen 0] ∧ genRuns (curFrame (before (turnGen 0x4505))) = true ∧
    fetched (before (turnGen 0x4505)) (curFrame (before (turnGen 0x4505))).gen.pc = true ∧
    fetchedShort (before (turnGen 0x4505)) (curFrame (before (turnGen 0x4505))).gen.pc = true := by decide +kernel
theorem witness_StepRunsDecoded_long : let s := before (turnGen 0xFFF00093)
    genRuns (curFrame s) = true ∧ fetched s (curFrame s).gen.pc = true ∧ fetchedShort s (curFrame s).gen.pc = false ∧
    fetched (fetchHalf s (curFrame s).gen.pc).2 ((curFrame s).gen.pc + 2) = true := by decide +kernel
theorem witness_StepRunsDecoded_fault : let s := before { stateOf { frame0 with gen := { Gen.fresh with pc := 2 } } with turns := [.gen 0] }
    genRuns (curFrame s) = true ∧ fetchFaults s (curFrame s).gen.pc = true := by decide +kernel
/-- The code object ends after the first half of the instruction at pc. -/
theorem witness_StepRunsDecoded_secondFault : let s := before { State.reset.withFetchWord 128 (2 ^ 128 - 1) with turns := [.gen 0] }
    let t := onGen s fun g => { g with pc := g.pc + 14 }
    genRuns (curFrame t) = true ∧ fetched t (curFrame t).gen.pc = true ∧ fetchedShort t (curFrame t).gen.pc = false ∧
    fetchFaults (fetchHalf t (curFrame t).gen.pc).2 ((curFrame t).gen.pc + 2) = true := by decide +kernel
theorem witness_StepRunsDecoded_held : let f := vecFrame [] (.plog { g := g0, p := 1, pa := 2, pb := 3, op := .and })
    (slotQ (curFrame (before (turnSlot { f with seq := { f.seq with qv := { f.seq.qv with hold := some .row } } } (.slot 0 .vector)))).seq .vector).hold ≠ none ∧
    SlotName.vector ≠ .control := by decide +kernel
theorem witness_StepRunsDecoded_slot : let s := before (turnSlot (vecFrame [] (.plog { g := g0, p := 1, pa := 2, pb := 3, op := .and })) (.slot 0 .vector))
    (headOf (curFrame s) .vector).map (fun e => decide (decodeSlot .vector e.w = some (.plog { g := g0, p := 1, pa := 2, pb := 3, op := .and }))) = some true ∧
    (slotQ (curFrame s).seq .vector).hold = none := by decide +kernel
/-- The bundle in progress of a frame, with a control word. -/
def cur1 (w : Word) : CurBundle := { ent := { entry05 with bun := { (pack image05) with ctl := some w } }, pos := 1, rep := 16, lvl := 0, replayed := false }
def ctlFrame (w : Word) : Frame := { frame0 with seq := { Seq.fresh with cur := some (cur1 w), stage := .control } }
theorem witness_StepRunsDecoded_control : let s := before (turnSlot (ctlFrame 0x0200000000000000) (.slot 0 .control))
    ((curFrame s).seq.cur.bind fun c => c.ent.bun.ctl) = some 0x0200000000000000 ∧ decodeSlot .control 0x0200000000000000 = some .phase := by decide +kernel
theorem witness_StepRunsDecoded_event : ({ State.reset with turns := [.event 191 .sprintExpiry] } : State).turns = [.event 191 .sprintExpiry] ∧
    eventOk .sprintExpiry = true := by decide
theorem witness_EveryStepGoesOn : TurnOk State.reset (nextTurn State.reset).1 ∧
    ¬ TurnOk { State.reset with turns := [.gen 192] } (nextTurn { State.reset with turns := [.gen 192] }).1 := by
  refine ⟨?_, ?_⟩ <;> simp [TurnOk, nextTurn, State.reset]
theorem witness_StorageCanonicalStep : Memory.wf (State.reset.withFetchWord 32 0x0062A023).mem = true ∧
    outGoes (gen1 0x0062A023 (at2 0) 7 0) (fun _ => true) = true := by decide +kernel
/-- Frame 1 holds the line of the written byte; frame 0's own write, and another line, leave its reservation. -/
theorem witness_WritesAtHomes : let s : State := { stateOf frame0 with frames := [(0, frame0), (1, { frame0 with gen := { Gen.fresh with resv := some 3 } })] }
    Memory.wf s.mem = true ∧ (∃ b ∈ [((511 : Nat), (1 : Byte))], (frameOf s 1).gen.resv = some (b.1 / 128)) ∧
    ¬ (∃ b ∈ [((512 : Nat), (1 : Byte))], (frameOf s 1).gen.resv = some (b.1 / 128)) := by decide +kernel
theorem witness_RegistersAndIntegers : tblFrom 0 ({ Gen.fresh with x := [(5, 1), (31, 2)] } : Gen).x = true := by decide
theorem witness_AluValues : AluWOp.subw ∉ [AluWOp.adduw, .sh1adduw, .sh2adduw, .sh3adduw] ∧ AluWOp.sh3adduw ∈ [AluWOp.adduw, .sh1adduw, .sh2adduw, .sh3adduw] ∧
    (0x100000000 : Word) ≠ 0 ∧ (0x100000000 : Word).toNat % 2 ^ 32 = 0 ∧ (0xFFFFFFFF : Word).toNat % 2 ^ 32 ≠ 0 := by decide
theorem witness_AlignmentAndDivision : (0x8000000000000000 : Word).toInt = -2 ^ 63 ∧ (-1 : Word).toInt = -1 ∧ (5 : Word) ≠ 0 ∧
    ¬ ((5 : Word).toInt = -2 ^ 63 ∧ (-1 : Word).toInt = -1) ∧ AluOp.rem ∈ [AluOp.div, .divu, .rem, .remu] := by decide
/-- Frame 0 with registers x5 and x6. -/
def regState (x5 x6 : Word) : State := stateOf { frame0 with gen := { Gen.fresh with x := [(5, x5), (6, x6)], npc := 4 } }
def gen0 (s : State) : Gen := (curFrame s).gen
/-- One past the alignment of each width. -/
theorem witness_AlignmentAndDivision_misaligned : (effAddr (gen0 (regState (at2 0) 0)) 5 1).toNat % loadLen .lh ≠ 0 ∧
    (effAddr (gen0 (regState (at2 0) 0)) 5 4).toNat % storeLen .sd ≠ 0 ∧ (at2 4).toNat % accLen .d ≠ 0 ∧ (at2 4).toNat % 8 ≠ 0 ∧
    (at2 2).toNat % 4 ≠ 0 ∧ (at2 16).toNat % 32 ≠ 0 ∧ (at2 32).toNat % 64 ≠ 0 := by decide
/-- The last bytes of the object, for every width of a load, an LR and a GLD. -/
theorem witness_LoadEffect : let s := regState (at2 4088) 0
    (∀ c ∈ [Scope.fr, .pkg, .sys], ReadsHad s [0x4FF8, 0x4FFF] c) ∧
    genGoes (genXlate s (effAddr (gen0 s) 5 7) (loadLen .lb) causeLoadAlign needR) (fun bs das t => bs.isEmpty && !poisoned t das) = true ∧
    genGoes (genXlate s (rx (gen0 s) 5) (accLen .d) causeLoadAlign needR) (fun bs das t => bs.isEmpty && !poisoned t das) = true ∧
    genGoes (genXlate s (rx (gen0 s) 5) 4 causeLoadAlign needR) (fun bs das t => bs.isEmpty && !poisoned t das) = true := by decide +kernel
theorem witness_StoreEffect : let s := regState (at2 4088) 7
    Memory.wf s.mem = true ∧ genGoes (genXlate s (effAddr (gen0 s) 5 7) (storeLen .sb) causeStoreAlign needW) (fun bs das _ => bs.isEmpty &&
      decide (das.length = storeLen .sb) && decide (WritesHad s das)) = true ∧
    genGoes (genXlate s (rx (gen0 s) 5) 8 causeStoreAlign needW) (fun bs das _ => bs.isEmpty && decide (das.length = 8) && decide (WritesHad s das) &&
      decide (das.head?.map (· / 128) = some (0x4FF8 / 128))) = true ∧
    (gen0 s).resv = none := by decide +kernel
theorem witness_AtomicEffect : let s := regState (at2 4088) 7
    Memory.wf s.mem = true ∧ genGoes (genXlate s (rx (gen0 s) 5) 8 causeStoreAlign needRW) (fun bs das t => bs.isEmpty && !poisoned t das &&
      decide (das.length = 8) && decide (WritesHad s das)) = true := by decide +kernel
/-- Bytes of another package whose line has come, and whose write has been made; with neither the access waits. -/
theorem witness_LoadEffect_far : let s := regState 0 0
    let t := onCur s fun f => { f with rem := some { pc := f.gen.pc, ret := f.gen.instret, got := [0xC00000000000, 0xC00000000001], err := none } }
    ReadsHad t [0xC00000000000, 0xC00000000001] .sys ∧ WritesHad t [0xC00000000000, 0xC00000000001] ∧
    ¬ ReadsHad s [0xC00000000000, 0xC00000000001] .fr ∧ ¬ WritesHad s [0xC00000000000, 0xC00000000001] := by decide +kernel
/-- A void set, an issue of the vector path not yet executed, and the stream drained. -/
def fenced : Frame := { vecFrame [] (.vpopc (vu (v 1) (v 2) .n32)) with seq := { (vecFrame [] (.vpopc (vu (v 1) (v 2) .n32))).seq with issueNo := 2 } }
theorem witness_FenceEffect : fenceVoid 2 2 = true ∧ fenceVoid 2 1 = false ∧ fbit (1 : BitVec 4) 0 = true ∧ (2 : BitVec 4) &&& 0xE ≠ 0 ∧
    ¬ (streamDrained fenced ∧ pathDone fenced 2 (fenced.seq.issueNo + 1)) ∧
    (streamDrained frame0 ∧ pathDone frame0 2 (frame0.seq.issueNo + 1)) := by decide +kernel
/-- A handler at 0x100 for an ordinary cause; none of it for MODE 0, in a handler and for cause 30. -/
theorem witness_HandlerEntry : fld (0x101 : Word) 0 2 = 1 ∧ Handler.fresh.inH = false ∧ 49 ∉ [8, 29, 30] := by decide
theorem witness_Escalation : fld Handler.fresh.tvec 0 2 ≠ 1 ∧ ({ Handler.fresh with inH := true } : Handler).inH = true ∧ 30 ∈ [8, 29, 30] := by decide
/-- Each resolution of a handler's return, and a return outside a handler. -/
def handled (p : Option Bool) (pend : Bool) : Frame :=
  { frame0 with gen := { Gen.fresh with h := { Handler.fresh with inH := true, l2pend := pend } }, ph := { Phase.fresh with pending := p } }
theorem witness_HandlerReturn : (∀ p ∈ [none, some true, some false], (curFrame (stateOf (handled p false))).gen.h.inH = true) ∧
    (curFrame (stateOf (handled none true))).gen.h.l2pend = true ∧ (curFrame (stateOf frame0)).gen.h.inH = false := by decide +kernel
/-- An absent CSR, an idle access, a read-only CSR, and a write of each handler CSR. -/
theorem witness_HandlerReturn_csr : (∀ n ∈ [0x7FF, 0xCCC, 0xC00, 0x800, 0x801, 0x802, 0x803, 0x804, 0x805], hasWord (.csrAccess .rw 5 (.reg 6) (BitVec.ofNat 12 n)) = true) ∧
    csrRead State.reset 0x7FF = none ∧ (∀ n ∈ [0xC00, 0x800, 0x801, 0x802, 0x803, 0x804, 0x805], (csrRead State.reset n).isSome = true) ∧
    (fbit (0xC : Word) 2 = true ∧ fbit (0xC : Word) 3 = true) ∧ hasWord (.csrAccess .rs 5 (.imm 0) 0xC00) = true ∧ fbit (0xFB : Word) 2 = false := by decide +kernel
theorem witness_StatusRegisters : (3 < 4 ∧ 47 < 48) ∧ (dieOf State.reset 3).st = .admitted := by decide

theorem witness_ComposeBuffers : tblFrom 0 ({ Gen.fresh with k := [(1, image05)] } : Gen).k = true ∧ tblFrom 0 (gen0 (regState (at2 0) 0)).k = true ∧
    genGoes (genLoads (regState (at2 0) 0) ((upto 5).map fun i => rx (gen0 (regState (at2 0) 0)) 5 + BitVec.ofNat 64 (8 * i))) (fun _ _ _ => true) = true := by decide +kernel

/-- A queue of n entries, the last asking for a commit. -/
def phaseEntry : Entry := { entry05 with bun := { (pack image05) with ctl := some 0x0200000000000000 } }
def queued (n : Nat) (last : List Entry) : Frame := { frame0 with seq := { Seq.fresh with queue := List.replicate n entry05 ++ last } }
/-- The last override admitted, one past it, none at all; 511 and 512 open entries; a full queue whose span is closed. -/
theorem witness_EmitQueue : (1 ≤ (4096 : Word).toNat ∧ (4096 : Word).toNat ≤ 4096) ∧ (4096 : Nat) < (4097 : Word).toNat ∧ (0 : Word).toNat = 0 ∧
    openSpan (queued 511 []).seq (queued 511 []).ph = 511 ∧ (queued 511 []).seq.queue.length ≠ 512 ∧
    512 ≤ openSpan (queued 512 []).seq (queued 512 []).ph ∧
    openSpan (queued 511 [phaseEntry]).seq (queued 511 [phaseEntry]).ph < 512 ∧ (queued 511 [phaseEntry]).seq.queue.length = 512 := by decide +kernel
theorem witness_EmitQueue_waits : let f : Frame := { queued 511 [phaseEntry] with gen := { Gen.fresh with stall := some (.emit 1 image05) } }
    f.gen.stall = some (.emit 1 image05) ∧ 512 ≤ f.seq.queue.length ∧ (queued 511 []).seq.queue.length < 512 := by decide +kernel
theorem witness_ParameterSets : tblFrom 0 copySets = true ∧ tblFrom 0 Cpe.fresh.origins = true ∧ tblFrom 0 ([(7, 3)] : Tbl Nat) = true ∧
    tblFrom 0 ([(7, [])] : Tbl (List FifoVec)) = true ∧
    tblFrom 0 Snap.fresh.origins = true ∧ tblFrom 0 Snap.fresh.ports = true ∧ tblFrom 0 Snap.fresh.fifos = true := by decide
theorem witness_ClockDivisors : frame0.seq.stage = .boundary ∧ (curFrame (nextOf took)).seq.stage ≠ .boundary := by decide +kernel
/-- Every state of a sprint, and the bounds of the draws. -/
theorem witness_SprintLife : fld (rx (gen0 (regState 1 0)) 5) 0 2 = 1 ∧ fld (rx (gen0 (regState 0 0)) 5) 0 2 = 0 ∧ 2 ≤ fld (rx (gen0 (regState 2 0)) 5) 0 2 ∧
    Clocks.fresh.grant = none ∧ Clocks.fresh.cool = none ∧ ({ Clocks.fresh with grant := some 0 } : Clocks).grant = some 0 ∧
    ({ Clocks.fresh with cool := some 0 } : Clocks).cool = some 0 ∧ (0 : Nat) ≤ State.reset.time ∧
    State.reset.edge.sprintW < 2600 ∧ 2600 ≤ ({ Edge.fresh with sprintW := 2600 } : Edge).sprintW ∧
    (let s : State := { stateOf frame0 with edge := { Edge.fresh with sprintW := 2599, partW := [(0, 2600)] } }
     s.edge.sprintW < 2600 ∧ 650 * (partDies s (curPart s)).length ≤ tgetD s.edge.partW (curPart s) 0 ∧
     tgetD State.reset.edge.partW 0 0 < 650 * (partDies s (curPart s)).length) := by decide +kernel

/-- Words at addresses from `a` on. -/
def putWords (a : Nat) (ws : List Word) (m : Mem) : Mem := (ws.zip (upto ws.length)).foldl (fun m x => memWrite m (a + 8 * x.2) (wordBytes x.1)) m
/-- Handle 6 is MIGRATING in the table at address 0, handle 7 is no record, 8 is past the table. -/
def tableState (x5 : Word) : State :=
  { regState x5 0 with mem := putWords 768 (((record 6 0x18000 0).words.set 0 (fput ((record 6 0x18000 0).words.getD 0 0) 62 2 1))) [] }
def lookOf (s : State) (h : Nat) : Nat := match (rcLookup s s.cur h).1 with | .found _ => 0 | .migrating _ => 1 | .badHandle => 2 | .badRecord _ => 3 | .denied _ => 4 | .offline _ => 5 | .far .. => 6
/-- Handle 2 also executable. -/
def recordX : RcEnt := { record 2 0x4000 1 with words := (record 2 0x4000 1).words.set 0 (fput ((record 2 0x4000 1).words.getD 0 0) 45 1 1) }
/-- Handle 6 has a rank of 7 and an extension record at an address that no window holds. -/
theorem witness_IdentityAndRecords_denied : let w := (record 6 0x18000 0).words
    lookOf { tableState 0 with mem := putWords 768 ((w.set 0 (fput (w.getD 0 0) 30 4 7)).set 4 0x7FFFFFFFF80) [] } 6 = 4 := by decide +kernel
/-- The handle of the code migrates, and that of the second half of the instruction at pc. -/
theorem witness_StepRunsDecoded_stall : let w := recordX.words
    let gone : Mem := putWords 384 (w.set 0 (fput (w.getD 0 0) 62 2 1)) []
    let s := before { onCur { tableState 0 with mem := gone } (fun f => { f with rc := [], gen := { f.gen with pc := 0x300000000000 } }) with turns := [.gen 0] }
    let h : RcEnt := { recordX with words := ((w.set 0 (fput (w.getD 0 0) 28 2 2)).set 1 0x800000000000).set 14 0x100000000000 }
    let t := before { onCur { tableState 0 with mem := gone }
      (fun f => { f with rc := [h], gen := { f.gen with pc := 0x2FFFFFFFFFFE, imem := [(0x8FFFFFFFFFFE, 3)] } }) with turns := [.gen 0] }
    let stalls (s : State) (a : Word) : Bool := match fetchHalf s a with | (.inr (.stall _), _) => true | _ => false
    (genRuns (curFrame s) = true ∧ stalls s (curFrame s).gen.pc = true) ∧
    genRuns (curFrame t) = true ∧ fetched t (curFrame t).gen.pc = true ∧ fetchedShort t (curFrame t).gen.pc = false ∧
    stalls (fetchHalf t (curFrame t).gen.pc).2 ((curFrame t).gen.pc + 2) = true := by decide +kernel
theorem witness_IdentityAndRecords : (curFrame (tableState 0)).disp.running = some thread ∧
    (lookOf (tableState 0) 2, lookOf (tableState 0) 6, lookOf (tableState 0) 8, lookOf (tableState 0) 7) = (0, 1, 2, 3) ∧
    ((7 : BitVec 5).toNat < 9 ∧ 9 ≤ (9 : BitVec 5).toNat) ∧ hasWord (.gself 10 9) = true := by decide +kernel

/-- A block with one entry: EMITQ ≤ 0, which is true with an empty queue. -/
def blockW (w : Word) : List Word := w :: List.replicate 15 0
def stops (s : State) (blk : List Word) (p : Frame → Bool) : Bool := match (blockEval blk [0, 1, 2, 3] s).1 with | .stop t => p (curFrame t) | _ => false
def evals (s : State) (blk : List Word) : Bool := match (blockEval blk [0, 1, 2, 3] s).1 with | .val true _ => true | _ => false
/-- A true entry, a barrier that is true, an entry that is false; a deadline reached, and one that is not; a bad block. -/
theorem witness_GroupWaits : let s := regState (at2 0) 0
    (genGoes (genLoads s ((upto 16).map fun i => rx (gen0 s) 5 + BitVec.ofNat 64 (8 * i))) fun bs _ _ => blockBad (wordsOf 16 bs)) = true ∧
    (rx (gen0 s) 5).toNat % 32 = 0 ∧ blockBad (blockW 0x0300000000000000) = false ∧
    (evals s (blockW 0x0300000000000000) = true ∧ (blockEval (blockW 0x0300000000000000) [0, 1, 2, 3] s).2 = usedMask (blockW 0x0300000000000000)) ∧
    (evals s (blockW 0x0200000000000001) = true ∧ condKind (blockW 0x0200000000000001) 0 = 2 ∧ (blockEval (blockW 0x0200000000000001) [0, 1, 2, 3] s).2 = 1) ∧
    (evals (stateOf (queued 1 [])) (blockW 0x0300000000000000) = true ∧ (blockEval (blockW 0x0300000000000000) [0, 1, 2, 3] (stateOf (queued 1 []))).2 = 0) ∧
    ((∃ d, some 0 = some d ∧ d ≤ s.time) ∧ s.time < 1) := by
  refine ⟨by decide +kernel, by decide +kernel, by decide +kernel, by decide +kernel, by decide +kernel, by decide +kernel, ⟨0, rfl, by decide⟩, by decide +kernel⟩
theorem witness_GroupWaits_waiting : let b := blockW 0x0300000000000000
    (let f : Frame := { frame0 with gen := { Gen.fresh with stall := some (.gwait true 5 b (some 0)) } }; f.gen.stall = some (.gwait true 5 b (some 0))) ∧
    condKind b 0 = 3 ∧ condKind (blockW 0x0400000000000000) 0 = 4 ∧ condKind (blockW 0x0200000000000001) 0 = 2 ∧
    (let m : List Word := [0x010C800000000000, at2 0, 0, 0] ++ List.replicate 12 0
     condKind m 0 = 1 ∧ genGoes (genLoad (regState 0 0) (wd m 1) (2 ^ fld (wd m 0) 50 2) .rlx (scopeOfCode (fld (wd m 0) 46 2))) (fun _ _ _ => true) = true) := by decide +kernel

/-- A MEM entry whose load faults, and one whose record migrates. -/
theorem witness_GroupWaits_stops : let m (h : Nat) : List Word := [0x010C800000000000, BitVec.ofNat 64 (h * 2 ^ 44), 0, 0] ++ List.replicate 12 0
    stops (tableState 0) (m 0) (fun f => decide (f.gen.stall = none)) = true ∧
    stops (tableState 0) (m 6) (fun f => decide (f.gen.stall = some (.translation 6))) = true := by decide +kernel

/-- Group 5 exists; the thread belongs to it by record 0, or not at all; has arrived, or not; all records taken. -/
def groupState (recs : List Word) (g : Group) : State :=
  { regState 5 0 with mem := putWords (0x3000 + 128) recs [], groups := [(5, g)] }
def someGroup : Group := { epoch := 3, members := 2, arrived := 0, lateM := 0, lateA := 0 }
def member (arr : Bool) : List Word := [if arr then 0xC000000000000005 else 0x8000000000000005, 0x0000000300000003]
theorem witness_GroupsAndBarriers : let s := groupState [] someGroup
    Memory.wf s.mem = true ∧ groupOf s 5 = some someGroup ∧ groupOf s 6 = none ∧ groupOf s 4096 = none ∧
    memberIn s (curTcb s) 5 = none ∧ memberValid s (curTcb s) 0 = false ∧
    (let t := groupState ((List.replicate 8 [0x8000000000000006, 0]).flatten) someGroup
     memberIn t (curTcb t) 5 = none ∧ ∀ j, j < 8 → memberValid t (curTcb t) j = true) ∧
    (let t := groupState ((List.replicate 7 [0x8000000000000006, 0]).flatten) someGroup
     memberValid t (curTcb t) 7 = false ∧ ∀ i, i < 7 → memberValid t (curTcb t) i = true) ∧
    (let t := groupState (member true) someGroup; memberIn t (curTcb t) 5 = some 0 ∧ memberPending t (curTcb t) 0 someGroup = true) ∧
    (let t := groupState (member false) someGroup; memberIn t (curTcb t) 5 = some 0 ∧ memberPending t (curTcb t) 0 someGroup = false) := by decide +kernel

def launchState (q : List LaunchRec) (op : Option HubOp) : State :=
  let s := regState (at2 0) 0
  { s with frames := [(0, { curFrame s with rc := [recordX] })], hub := { Hub.fresh with op := op, apert := [(8, 5)], ideNeed := true, ideRx := true },
           mem := putWords 768 (((record 6 0x18000 0).words.set 0 (fput ((record 6 0x18000 0).words.getD 0 0) 62 2 1))) [],
           dies := [(0, { Die.fresh with useBase := 1, useLen := 8, queues := [(5, q)] })] }
/-- One thread of queue 5, its code and completion word in object 2, its argument in handle h. -/
def launchW (h : Nat) : List Word := [5, at2 0, BitVec.ofNat 64 (h * 2 ^ 44), 0, at2 8, 0, 0, 0]
def launchIs (s : State) (w : List Word) : Nat := match (launchChecks s 0 0 w).1 with | .pass _ => 0 | .notNow => 1 | .fail => 2 | .stall _ => 3
theorem witness_LaunchAndExit : (launchIs (launchState [] none) (launchW 2), launchIs (launchState [] none) (launchW 0), launchIs (launchState [] none) (launchW 6)) = (0, 2, 3) ∧
    Memory.wf (launchState [] none).mem = true ∧ (tgetD (dieOf (launchState [] none) 0).queues 5 []).length < 256 ∧
    256 ≤ (tgetD (dieOf (launchState (List.replicate 256 { w := launchW 2, taken := 0 }) none) 0).queues 5 []).length ∧
    updateHolds (launchState [] (some (.update 2))) = true ∧ updateHolds (launchState [] none) = false := by decide +kernel
/-- Code homed on a die that is away. -/
theorem witness_LaunchAndExit_away : let s : State := { launchState [] none with frames := [(0, { curFrame (launchState [] none) with rc := [{ recordX with words := (recordX.words.set 1 0x1000004000).set 0 (fput (recordX.words.getD 0 0) 26 2 1) }, record 3 0x8000 6] })], dies := [(0, { Die.fresh with useBase := 1, useLen := 8 }), (1, { Die.fresh with st := .offline })] }
    launchIs s [5, at2 0, BitVec.ofNat 64 (3 * 2 ^ 44), 0, BitVec.ofNat 64 (3 * 2 ^ 44 + 8), 0, 0, 0] = 1 := by decide +kernel
theorem witness_LaunchAndExit_submit : let s := launchState [] none
    (rx (gen0 s) 5).toNat % 64 = 0 ∧ genGoes (genLoads s ((upto 8).map fun i => rx (gen0 s) 5 + BitVec.ofNat 64 (8 * i))) (fun _ _ _ => true) = true ∧
    apertAllowed s (.host 0) 0 = true ∧ s.hub.ideNeed = true ∧ s.hub.ideRx = true ∧ tblFrom 0 s.hub.apert = true := by decide +kernel
/-- Handle 2 lies in another package, behind the trained port 3 of die 0. -/
def farRec : RcEnt := { record 2 0xC00000004000 1 with words := (record 2 0xC00000004000 1).words.set 0 (fput ((record 2 0 1).words.getD 0 0) 28 2 2) }
def farState (f : Frame) : State := { stateOf { f with rc := [farRec] } with hub := { Hub.fresh with trained := 8, peers := [(0, 0x8000000000000000), (1, 8)] } }
/-- A thread about to exit: its first stage, and the last, with a word that can be decremented, one that cannot, and one
whose record migrates. -/
def exiting (h : Nat) (e : Bool) : State :=
  let s := tableState 0
  { s with frames := [(0, { curFrame s with gen := { (curFrame s).gen with exiting := e } })], mem := putWords 0x3020 [BitVec.ofNat 64 (h * 2 ^ 44)] s.mem }
def decOf (s : State) : Nat :=
  let done := tcbGet s (curTcb s) 4
  match (translate s s.cur (fld done 44 20) needRW ((upto 8).map (fld done 0 44 + ·))).1 with | .ok .. => 0 | .err c _ _ => if c = .homeOffline then 3 else 1 | .stall => 2 | .far .. => 4
theorem witness_LaunchAndExit_exit : let f := curFrame (exiting 2 false)
    ¬ (f.ph.pending ≠ none ∧ f.gen.h.inH = true ∧ f.gen.h.l2pend = false) ∧ f.ph.faults = [] ∧ f.gen.exiting = false ∧ streamDrained f = true ∧
    f.seq.stage = .boundary ∧ queuesEmpty f = true ∧
    (curFrame (exiting 2 true)).gen.exiting = true ∧ countersZero (curFrame (exiting 2 true)) = true ∧
    serves (exiting 2 true) (homeOf (curTcb (exiting 2 true))) = true ∧
    (decOf (exiting 2 true), decOf (exiting 7 true), decOf (exiting 6 true)) = (0, 1, 2) ∧
    (let g := handled (some true) false; g.ph.pending ≠ none ∧ g.gen.h.inH = true ∧ g.gen.h.l2pend = false) ∧
    streamDrained (queued 1 []) = false ∧ countersZero { frame0 with ph := { Phase.fresh with released := [.store { n := 0, handle := 2, gen := 9, ord := .rlx, scope := .fr, off := 0, da := 0, da2 := 0, data := 0, mask := 0 }] } } = false := by decide +kernel
/-- The word's home away, and failed; in another package; and the control block's home away. -/
theorem witness_LaunchAndExit_lost : let e (st : DieState) : State :=
      let s := exiting 3 true
      let r := record 3 0x1000004000 1
      { s with frames := [(0, { curFrame s with rc := [{ r with words := r.words.set 0 (fput (r.words.getD 0 0) 26 2 1) }] })],
               dies := [(0, { Die.fresh with useBase := 1, useLen := 8 }), (1, { Die.fresh with st := st })] }
    (decOf (e .offline) = 3 ∧ homeFailed (e .offline) 0 3 0 = false) ∧ (decOf (e .failed) = 3 ∧ homeFailed (e .failed) 0 3 0 = true) ∧
    (let s := exiting 2 true; decOf { farState (curFrame s) with mem := s.mem } = 0 ∧ ¬ Near [0xC00000004000] ∧ Near [0x4000]) ∧
    (let s : State := { exiting 2 true with dies := [(0, { Die.fresh with st := .offline })] }
     serves s (homeOf (curTcb s)) = false ∧ (dieOf s (homeOf (curTcb s))).st ≠ .failed) := by decide +kernel
/-- A queued bundle to take; one of a running loop to take again; a bad one; none. -/
def loopFrame : Frame := { frame0 with seq := { Seq.fresh with pos := 2, loops := [{ iter := 1, cnt := 3, len := 0, start := 0 }], rbuf := [entry05], cursor := 0 } }
def badEntry : Entry := { entry05 with bun := { (pack image05) with hdr := 0xFFFFFFFFFFFFFFFF } }
theorem witness_BundleIssue : let f := queued 1 []
    seqRuns f = true ∧ f.seq.stage = .boundary ∧ f.ph.ordered = false ∧ f.seq.queue[f.seq.taken]? = some entry05 ∧ bundleFault f.seq entry05.bun = none ∧
    (curFrame (stateOf frame0)).seq.queue[0]? = none ∧ bundleFault f.seq badEntry.bun = some 3 ∧
    seqRuns loopFrame = true ∧ (loopFrame.seq.loops ≠ [] ∧ loopFrame.seq.cursor < loopFrame.seq.rbuf.length) ∧
    loopFrame.seq.rbuf[loopFrame.seq.cursor]? = some entry05 ∧ bundleFault loopFrame.seq entry05.bun = none ∧ allPerformed { f with ph := { Phase.fresh with ordered := true } } = true := by decide +kernel
theorem witness_BundleIssue_issue : let f := curFrame (nextOf took)
    f.seq.cur.map CurBundle.rep = some 0 ∧ seqRuns f = true ∧ f.seq.stage = .issuing ∧ roomForIssue f.seq = true ∧
    f.seq.cur.map (orderedReady f) = some true ∧
    (let g : Frame := { f with seq := { f.seq with sub := 3, cur := f.seq.cur.map fun c => { c with rep := 15, lvl := 2 } } }
     g.seq.cur.map (fun c => decide (lastSub c.lvl ≤ g.seq.sub) && orderedReady g c && decide (c.rep = hdrRepeat c.ent.bun.hdr)) = some true ∧
     seqRuns g = true ∧ roomForIssue g.seq = true) := by decide +kernel
/-- A committed store of one byte. -/
def store1 : VStore := { n := 1, handle := 2, gen := 9, ord := .rlx, scope := .pkg, off := 20, da := 0x4014, da2 := 0, data := 7, mask := 1 }
/-- An issue that waits, and one whose wait is over. -/
def heldFrame (h : Hold) : Frame := { vecFrame [] (.plog { g := g0, p := 1, pa := 2, pb := 3, op := .and }) with
  seq := { Seq.fresh with qv := { q := [issue 0x1A00002002001800], hold := some h } } }
theorem witness_SequencerEvents : (frame0.seq.sub < 3 ∧ subDone frame0 = true) ∧ ¬ (({ frame0 with seq := { Seq.fresh with sub := 3 } } : Frame).seq.sub < 3) ∧
    frame0.seq.stage = .boundary ∧ (ctlFrame 0).seq.stage ≠ .boundary ∧
    (let g : Frame := { frame0 with seq := { Seq.fresh with sub := 2, stage := .control, cur := some { cur1 0 with ent := { entry05 with bun := { (pack image05) with ctl := none } } } } }
     g.seq.sub < 3 ∧ subDone g = true ∧ g.seq.cur.map (fun c => decide (c.ent.bun.ctl = none) && decide (lastSub c.lvl ≤ g.seq.sub + 1)) = some true) ∧
    (let load (n : Nat) : State := { State.reset with edge := { Edge.fresh with loadPct := [(0, n)] } }
     100 < drawPct (load 101) ∧ ¬ 100 < drawPct (load 100) ∧ drawPct (load 89) < 90 ∧ ¬ drawPct (load 90) < 90) ∧
    (headOf (heldFrame .row) .vector).isSome = true ∧ holdGone (heldFrame .row) .vector (issue 0x1A00002002001800) .row = true ∧
    holdGone (heldFrame .row) .vector (issue 0x1A00002002001800) (.portEmpty 0) = false ∧
    (slotQ (heldFrame (.migrating 6)).seq .vector).hold = some (.migrating 6) ∧
    ({ Gen.fresh with stall := some (.translation 6) } : Gen).stall = some (.translation 6) := by decide +kernel
theorem witness_SequencerEvents_commit : let f : Frame := { queued 2 [] with seq := { (queued 2 []).seq with stage := .commit, taken := 1 } }
    seqRuns f = true ∧ f.seq.stage = .commit ∧ commitReady f = true ∧
    (let full (n : Nat) : Frame := { f with ph := { Phase.fresh with released := List.replicate n (.store store1), stores := [store1] } }
     commitReady (full 255) = true ∧ 255 < (full 255).ph.released.length + (full 255).ph.stores.length + (full 255).ph.adds.length ∧
     (full 254).ph.released.length + (full 254).ph.stores.length + (full 254).ph.adds.length ≤ 255) ∧
    tget ({ Bead.fresh with arrays := [(63, { BArr.fresh with b1 := { Bank.fresh with swm := true } })] } : Bead).arrays 63 ≠ none := by decide +kernel
/-- A control word due; waits that may and may not end; an engine's IDLE. -/
theorem witness_ControlWords : (ctlFrame 0x0200000000000000).seq.cur = some (cur1 0x0200000000000000) ∧ controlDue (ctlFrame 0x0200000000000000) = true ∧
    (let f := ctlFrame 0; queuesEmpty f = true ∧ (0 : Nat) = cntLD f ∧ cntST f = 0 ∧ cntCP f = 0 ∧ cntBS f = 0 ∧ f.vec.loads = [] ∧ ∀ o ∈ f.cpe.ops, writesSram o = false) ∧
    ¬ (queuesEmpty (heldFrame .row) = true) ∧ headOf { frame0 with seq := { Seq.fresh with qc := { q := [issue 0], hold := none } } } .copy = some (issue 0) := by decide +kernel
/-- The end of a body with iterations left, the last one of an inner and of the only loop, and the middle of a body. -/
theorem witness_ControlWords_loops : let l : LoopEnt := { iter := 1, cnt := 3, len := 0, start := 0 }
    [l] = [] ++ [l] ∧ loopFrame.seq.cursor + 1 = l.start + l.len + 1 ∧ l.iter < l.cnt ∧ ({ l with iter := 3 } : LoopEnt).cnt ≤ ({ l with iter := 3 } : LoopEnt).iter ∧
    loopFrame.seq.cursor + 1 ≠ ({ l with len := 1 } : LoopEnt).start + ({ l with len := 1 } : LoopEnt).len + 1 ∧ ([l] : List LoopEnt) ≠ [] ∧ Seq.fresh.loops = [] := by decide

/-- A recoverable fault over a logged row, and one that is not; a fault to deliver with and without a handler. -/
def faultAt (c : L2Class) : L2Fault := { n := 1, slot := 1, cls := c, pos := 0, rep := 0, iters := [], tag := ⟨0, 0, 7⟩, mem := none, final := false }
def faulted (c : L2Class) : Frame := { frame0 with ph := { Phase.fresh with faults := [faultAt c], undo := [(3, none), (5, some 0)] }, vec := { Vec.fresh with rows := [(3, 1)] } }
theorem witness_RollbackAndDelivery : (∀ c ∈ [L2Class.residency, L2Class.outOfShape], earliest (faulted c).ph.faults = some (faultAt c)) ∧
    landed (faulted .residency) = false ∧ (faulted .residency).disp.fetch = [] ∧ weightLost (faulted .residency) = false ∧
    rollbackReady (faulted .residency) = true ∧ rollbackReady frame0 = false ∧
    (let p : Bank := { Bank.fresh with touched := true }
     let f := faulted .residency
     let g : Frame := { f with bead := { Bead.fresh with arrays := [(0, { BArr.fresh with b0 := p })] }, ph := { f.ph with snap := { f.ph.snap with srcs := [(0, (.ports, .zero))] } } }
     weightLost g = true ∧ rollbackReady g = true) ∧
    tblFrom 0 (faulted .residency).vec.rows = true ∧ ((faulted .residency).ph.undo.map Prod.fst).Nodup ∧
    L2Class.residency.recoverable = true ∧ L2Class.outOfShape.recoverable = false := by decide +kernel
theorem witness_RollbackAndDelivery_delivery : let f : Frame := { frame0 with gen := { Gen.fresh with h := { Handler.fresh with l2pend := true, tvec := 0x101 } } }
    f.gen.h.l2pend = true ∧ f.gen.h.inH = false ∧ f.gen.halted = false ∧ f.disp.running.isSome = true ∧ landed f = false ∧ f.disp.fetch = [] ∧ f.gen.stall ≠ some .remote ∧
    fld f.gen.h.tvec 0 2 = 1 ∧ fld Handler.fresh.tvec 0 2 ≠ 1 := by decide +kernel
theorem witness_RollbackAndDelivery_report : (∃ m, ({ faultAt .outOfShape with mem := some { handle := 2, off := 4096, gen := 9 } } : L2Fault).mem = some m) ∧
    L2Class.outOfShape.code ≤ 8 ∧ (faultAt .undoOverflow).mem = none := by refine ⟨⟨_, rfl⟩, by decide, rfl⟩

/-- A state whose vector slot holds `i`, and its issue. -/
def vs1 (i : Instr) : State := vecState [(2, all 0x3F800000), (3, all 1), (64, all 5)] i
def ve (i : Instr) : SlotIssue := issue (wordOf i)
theorem witness_LaneOperations : let i : Instr := .vadd { vr (v 1) (v 2) (v 3) .n32 with g := gp 1 }
    (laneOp i).isSome = true ∧ Ready (vs1 i) .vector (ve i) i ∧
    accGoes (readSrcs (vs1 i) (ve i) ([v 2, v 3].map fun o => (o, .n32, enabled (vs1 i) (ve i) (gp 1)))) (fun vs s1 =>
      accGoes (deliver s1 (ve i) (v 1) (killsOf i) (enabled (vs1 i) (ve i) (gp 1)) fun L => nthSrc vs 0 L) fun _ _ => true) = true := by decide +kernel
/-- A row operand, a column, a port with one place left, and the undo log just full enough. -/
theorem witness_RowDelivery : let s := vs1 (.plog { g := g0, p := 1, pa := 2, pb := 3, op := .and })
    tblFrom 0 (curFrame s).vec.rows = true ∧ (∀ L ∈ ([0, 63] : List Nat), L < 64) ∧ ([0, 63] : List Nat).Nodup ∧
    (curFrame s).ph.undo.length + (sortUniq ([2] ++ ([0, 63] : List Nat).map fun L => (opdCell ⟨false, 1, 5⟩ L).1)).length ≤ 256 ∧
    (v 1).isPort = false ∧ (q 1).isPort = true ∧
    (let f : Vec := { Vec.fresh with psets := [(8, 0x3000000000000000)], fifos := [(1, List.replicate 7 { row := 0, scales := 0, bad := false })] }
     setKind f (q 1).port = 3 ∧ setValid f (q 1).port = true ∧ (tgetD f.fifos (q 1).port []).length < 8) := by decide +kernel
theorem witness_ElementValues : (∀ t ∈ [ElemType.s8, .n8, .s16, .n16, .s32, .n32], 127 < 2 ^ (8 * t.esz)) ∧ ElemType.n32 ∈ [ElemType.s8, .n8, .s16, .n16, .s32, .n32] ∧
    fmtF16 ∈ [fmtF32, fmtBF16, fmtF16] ∧ (1 : Nat) ≠ 0 ∧ 0x3C00 < 2 * fmtF16.sign ∧ fdec fmtF16 0x3C00 = .fin false 0x400 (-10) := by decide
/-- Rounding to F16: a value that fits; a tie below an even and above an odd element; one below the smallest normal; a tie above
the largest finite, and 2^16. -/
theorem witness_ElementValues_round :
    let lt (m : Nat) (e : Int) (k : Nat) (i : Int) : Bool := decide (m * 2 ^ (e - min e i).toNat < k * 2 ^ (i - min e i).toNat)
    (fdec fmtF16 0x3C00 = .fin false 0x400 (-10) ∧ lt 1 0 0x400 (-10) = false ∧ lt 0x400 (-10) 1 0 = false) ∧
    (lt 0x400 (-10) 0x801 (-11) = true ∧ lt 0x801 (-11) 0x401 (-10) = true ∧ 0x3C00 % 2 ≠ 1) ∧
    (fdec fmtF16 0x3C01 = .fin false 0x401 (-10) ∧ lt 0x401 (-10) 0x803 (-11) = true ∧ lt 0x803 (-11) 0x402 (-10) = true ∧
      lt 0x803 (-11) 0x803 (-11) = false ∧ 0x3C02 < fmtF16.inf) ∧
    (fdec fmtF16 0 = .fin false 0 (-24) ∧ lt 0 (-24) 3 (-26) = true ∧ lt 3 (-26) 1 (-24) = true ∧ lt 3 (-26) 1 fmtF16.emin = true) ∧
    (fdec fmtF16 0x7BFF = .fin false 0x7FF 5 ∧ lt 0x7FF 5 0xFFF 4 = true ∧ lt 0xFFF 4 0x800 5 = true ∧ 0x7BFF + 1 = fmtF16.inf) ∧
    lt 1 16 1 (fmtF16.bias + 1) = false := by decide +kernel
theorem witness_SelectAndMove : let c : Instr := .vcmp { g := gp 1, p := 3, a := v 2, b := v 3, step := 0, ty := .n32, cond := .lt }
    tblFrom 0 (curFrame (vs1 c)).vec.preds = true ∧ Ready (vs1 c) .vector (ve c) c ∧
    accGoes (readSrcs (vs1 c) (ve c) [(v 2, .n32, enabled (vs1 c) (ve c) (gp 1)), (v 3, .n32, enabled (vs1 c) (ve c) (gp 1))])
      (fun _ s1 => accGoes (commitRows s1 .vector (ve c) (killsOf c) []) fun _ _ => true) = true ∧
    (let p : Instr := .plog { g := gp 1, p := 3, pa := 1, pb := 2, op := .or }; Ready (vs1 p) .vector (ve p) p) ∧
    (let i : Instr := .vsel { vr (v 1) (v 2) (v 3) .n32 with g := gp 1 }
     Ready (vs1 i) .vector (ve i) i ∧ let m := guardMask (curFrame (vs1 i)) (ve i) (gp 1)
     accGoes (readSrcs (vs1 i) (ve i) [(v 2, .n32, lanesOf m), (v 3, .n32, lanesOf (~~~m))]) (fun vs s1 =>
       accGoes (deliver s1 (ve i) (v 1) (killsOf i) lanes64 fun L => if fbit m L then nthSrc vs 0 L else nthSrc vs 1 L) fun _ _ => true) = true) := by decide +kernel
theorem witness_SelectAndMove_move : (let i : Instr := .vperm { vr (v 1) (v 2) (v 3) .n32 with g := gp 1 }
     Ready (vs1 i) .vector (ve i) i ∧
     accGoes (popOpds (vs1 i) (ve i) [v 2, v 3]) (fun ps x => ps.length = 2 && accGoes (checkSrcs x (ve i) [(v 3, enabled (vs1 i) (ve i) (gp 1))]) fun _ y =>
       accGoes (checkSrcs y (ve i) [(v 2, (enabled (vs1 i) (ve i) (gp 1)).map fun L => ((opdVal (curFrame y) (ve i) (v 3) .n32 none L).extractLsb' 0 6).toNat)]) fun _ s1 =>
       accGoes (deliver s1 (ve i) (v 1) (killsOf i) (enabled (vs1 i) (ve i) (gp 1)) fun _ => 0) fun _ _ => true) = true) ∧
    (let i : Instr := .vgath { vr (v 1) (v 64) (v 3) .n32 with g := gp 1 }
     Ready (vs1 i) .vector (ve i) i ∧
     accGoes (readSrcs (vs1 i) (ve i) [(v 3, .n32, enabled (vs1 i) (ve i) (gp 1))]) (fun vs s1 =>
       (enabled (vs1 i) (ve i) (gp 1)).all (fun L => let r := 64 + ((nthSrc vs 0 L).extractLsb' 6 6).toNat; (rowSeen (curFrame s1) (ve i) r).isSome && !(curFrame s1).vec.bad.contains r) &&
       accGoes (deliver (onCur s1 fun g => { g with vec := wakeRows g.vec [64] }) (ve i) (v 1) (killsOf i) (enabled (vs1 i) (ve i) (gp 1)) fun _ => 0) fun _ _ => true) = true) := by decide +kernel
/-- Reads sources and delivers to V1. -/
def readsAndDelivers (i : Instr) (srcs : List (Opd × ElemType × List Nat)) (en : List Nat) : Bool :=
  decide (Ready (vs1 i) .vector (ve i) i) && accGoes (readSrcs (vs1 i) (ve i) srcs) fun vs s1 =>
    accGoes (deliver s1 (ve i) (v 1) (killsOf i) en fun L => nthSrc vs 0 L) fun _ _ => true
theorem witness_ReduceAndConvert : (let f : VK := { vk (v 1) (v 2) 6 .f32 with g := gp 1 }
     f.k ≠ 7 ∧ (∀ i ∈ [Instr.vrsum f, .vrmax f, .vrmin f], readsAndDelivers i [(v 2, .f32, [0, 1])] [0, 1] = true)) ∧
    (let f : VCv := { g := gp 1, d := v 1, a := v 2, src := .f32, rm := .rne, step := 0, ty := .bf16 }
     readsAndDelivers (.vcvt f) [(v 2, .f32, sortUniq ([0, 1].flatMap fun L => (cvtElems .f32 .bf16 L).map (cvtLane .f32)))] [0, 1] = true) ∧
    readsAndDelivers (.vqnt { vu (v 1) (v 2) .mx8 with g := gp 1 }) [(v 2, .f32, [0, 1])] lanes64 = true ∧
    readsAndDelivers (.vdqt { g := gp 1, d := v 1, a := v 2, src := .mx8, rm := .rne, step := 0, ty := .f32 }) [(v 2, .n8, [0, 1])] [0, 1] = true ∧
    (let i : Instr := .vflags { g := gp 1, d := v 1, sel := 2 }
     2 ≤ (2 : BitVec 3).toNat ∧ tget (ve i).rows (1024 + 2) = none ∧ (∀ x ∈ (curFrame (vs1 i)).seq.qb.q, (ve i).n ≤ x.n) ∧
     accGoes (deliver (vs1 i) (ve i) (v 1) [] [0, 1] fun _ => 3) (fun _ _ => true) = true ∧ (1 : BitVec 3).toNat < 2) := by decide +kernel

/-- Set 2 is global over object 2 at 16, set 3 the frame SRAM at 0x200, set 1 a FIFO; its bytes are those of `stored`. -/
def memFrame (i : Instr) : Frame :=
  let f := vecFrame [(2, all 0x01020304), (3, all 1)] i
  let x : Vec := { f.vec with psets := [(8, 0x3000000000000000), (16, 0x5000000000000002), (17, 16), (24, 0x4000000000000200)], fifos := [(1, [{ row := 3, scales := 0, bad := false }])] }
  { f with vec := x, sram := { stored with views := [] } }
def memState (i : Instr) : State := stateOf (memFrame i)
def listed (x : List Nat ⊕ Int) (p : List Nat → Bool) : Bool := match x with | .inl as => p as | .inr _ => false
theorem witness_ScratchpadAccess_load : let f : VM := { vm (v 5) (cst 1) 3 .n32 with g := gp 1, fe := .clear }
    (∀ i ∈ [Instr.vld f, .vldu { f with fe := .keep }], let s := memState i
    Ready s .vector (ve i) i ∧ enabled s (ve i) f.g ≠ [] ∧ accGoes (readAddr s (ve i) f.addr (enabled s (ve i) f.g)) (fun _ s1 =>
      decide (sramBase (curFrame s1) 3 = some (false, 0x200)) && listed (spadList (curFrame s1) false [0x210, 0x217]) fun as =>
        as.all (fun p => (curFrame s1).sram.full.contains (sramKey 12 false p / 16)) && accGoes (sramRead s1 false as) fun bs s2 =>
          decide (bs = [4, 1]) && (curFrame s1).sram.views.isEmpty &&
          accGoes (deliverLoad s2 (ve i) f.data (killsOf i) (imageRow [0, 7] bs) (fun _ => true) false) fun _ s4 =>
            !(killsOf i).contains 5 && !(siblingKills (curFrame s4) .vector (ve i).n).contains 5) = true) := by decide +kernel
theorem witness_ScratchpadAccess_store : let f : VM := { vm (v 2) (cst 1) 3 .n32 with g := gp 1 }
    (∀ i ∈ [Instr.vst f, .vstu f], let s := memState i
    Ready s .vector (ve i) i ∧ accGoes (storeData s (ve i) f.data (dataLanes 4 [0, 1])) (fun _ s0 => accGoes (readAddr s0 (ve i) f.addr [0, 1]) fun _ s1 =>
      decide (sramBase (curFrame s1) 3 = some (false, 0x200)) && listed (spadList (curFrame s1) false [0x210, 0x217]) fun _ =>
        Memory.wf (curFrame s1).sram.cells && accGoes (commitRows s1 .vector (ve i) (killsOf i) []) fun _ _ => true) = true) ∧
    (let i : Instr := .vfec { g := gp 1, addr := cst 1, pset := 3, step := 0 }
     Ready (memState i) .vector (ve i) i ∧ accGoes (readAddr (memState i) (ve i) (cst 1) [0, 1]) (fun _ s1 =>
       listed (spadList (curFrame s1) false [0x210, 0x220]) fun _ => accGoes (commitRows s1 .vector (ve i) (killsOf i) []) fun _ _ => true) = true) ∧
    (∀ i ∈ [Instr.vbrelRet { g := gp 1, step := 0 }, .vbrelOff { g := gp 1, step := 0 }], Ready (memState i) .vector (ve i) i) := by decide +kernel
/-- An earlier load of a line of another package that awaits its replies. -/
def awaited (n da : Nat) : GLoad := { n := n, iss := issue 0, dst := v 6, val := 0, mask := 0, poison := false, handle := 2, gen := 9, far := some { das := [da], offs := [0x14], idx := [0], own := [], ord := .rlx, scope := .pkg, amo := none } }
/-- A VLDG, into a row and into a port, of lanes 0 and 1 of object 2 at 20, here and in another package. -/
theorem witness_GlobalAccess : ∀ d ∈ [v 5, q 1], let f : VM := { vm d (cst 4) 2 .n32 with g := gp 1 }
    let i : Instr := .vldg f
    ∀ s ∈ [memState i, farState (memFrame i)],
      Ready s .vector (ve i) i ∧ enabled s (ve i) f.g = [0, 1] ∧ accGoes (readAddr s (ve i) f.addr [0, 1]) (fun _ s1 =>
       (!d.isPort || (setValid (curFrame s1).vec d.port && decide (setKind (curFrame s1).vec d.port = 3) && decide ((tgetD (curFrame s1).vec.fifos d.port []).length < 8))) &&
       decide (globBase (curFrame s1) 2 = some (2, 16)) && decide ((curFrame s1).vec.loads.length < 255) && accGoes (engXlate s1 2 needR ((imageIdx 4 [0, 1]).map (20 + ·))) fun x s2 =>
         let r := gload s2 x.1 f.ord f.scope
         let lines := farLines (curFrame s2) x.1 f.scope
         let row := imageRow (imageIdx 4 [0, 1]) ((x.1.zip r.1).map fun b => seeOwn (ownStores (curFrame s2)) b.1 b.2)
         let far : Far := { das := x.1, offs := (imageIdx 4 [0, 1]).map (20 + ·), idx := imageIdx 4 [0, 1], own := ownStores (curFrame s2), ord := f.ord, scope := f.scope, amo := none }
         let l : GLoad := { n := 1, iss := ve i, dst := d, handle := 2, poison := loadBad s2 (curFrame s2).sram x.1 f.scope, val := row, gen := recGen x.2.words, mask := maskBits ((upto 256).filter (loadMask 4 [0, 1])) }
         let out := sendRemote s2 s2.cur 1 { work := 7, ty := 1, rel := false, die := recHomeDie x.2.words, handle := 2 } (fun _ => false)
           (lines.flatMap fun l => (upto 128).map fun i => (128 * l + i, 0))
         !(linesPending (curFrame s2) 1 x.1 || farBusy s2 (lines.map (128 * ·))) && if lines = [] then accGoes (startLoad r.2 (ve i) (killsOf i) l) fun _ _ => true
         else accGoes (startLoad out (ve i) (killsOf i) { l with poison := false, val := 0, far := some far }) fun _ _ => true) = true := by decide +kernel
/-- Two loads of one line of another package, the earlier one unanswered. -/
theorem witness_GlobalAccess_pending : linesPending { frame0 with vec := { Vec.fresh with loads := [awaited 0 0xC00000004010] } } 1 [0xC00000004014] = true ∧
    linesPending { frame0 with vec := { Vec.fresh with loads := [awaited 0 0xC00000004080] } } 1 [0xC00000004014] = false ∧
    linesPending { frame0 with vec := { Vec.fresh with loads := [awaited 2 0xC00000004010] } } 1 [0xC00000004014] = false ∧
    farPending { frame0 with vec := { Vec.fresh with loads := [awaited 0 0xC00000004080] } } 1 = true ∧ farPending frame0 1 = false ∧
    (farLines (curFrame (stateOf frame0)) [0x4014] .pkg = [] ∧ farLines (curFrame (stateOf frame0)) [0xC00000004014] .pkg ≠ []) := by decide +kernel
theorem witness_GlobalAccess_store : let f : VM := { vm (v 2) (cst 4) 2 .n32 with g := gp 1 }
    let i : Instr := .vstg f
    let s := memState i
    Ready s .vector (ve i) i ∧ accGoes (storeData s (ve i) (v 2) (dataLanes 4 [0, 1])) (fun _ s0 => accGoes (readAddr s0 (ve i) f.addr [0, 1]) fun _ s1 =>
      accGoes (engXlate s1 2 needW ((imageIdx 4 [0, 1]).map (20 + ·))) fun _ s2 => accGoes (commitRows s2 .vector (ve i) (killsOf i) []) fun _ _ => true) = true := by decide +kernel
def load1 : GLoad := { n := 1, iss := issue 0, dst := v 5, handle := 2, poison := false, val := 7, mask := 1 }
theorem witness_GlobalAccess_performed : load1.far = none ∧
    accGoes (deliverLoad (stateOf frame0) load1.iss load1.dst [] load1.val (fun b => fbit load1.mask b) load1.poison) (fun _ _ => true) = true ∧
    (match deliverLoad (stateOf frame0) load1.iss (q 1) [] 7 (fun b => fbit (1 : BitVec 256) b) false with | .fault .. => true | _ => false) = true ∧
    takeFirst relStore [Released.store store1] = some (store1, []) ∧ Memory.wf (stateOf frame0).mem = true ∧
    homesServe (stateOf frame0) ((storeBytes store1).map Prod.fst) = true ∧ (∀ b ∈ storeBytes store1, isRemote b.1 = false) ∧
    homesServe { stateOf frame0 with dies := [(0, { Die.fresh with st := .offline })] } ((storeBytes store1).map Prod.fst) = false ∧
    (let far : VStore := { store1 with da := 0xC00000004014 }
     homesServe (stateOf frame0) ((storeBytes far).map Prod.fst) = true ∧ ∃ b ∈ storeBytes far, isRemote b.1 = true) := by decide +kernel
/-- A VAMO on object 2, here and in another package, and one on frame SRAM. -/
theorem witness_GlobalAccess_atomics : ∀ ty ∈ [ElemType.n32, .f32], let f : VAm := { va (v 2) (cst 4) 2 .add ty with g := gp 1 }
    let i : Instr := .vamo f
    (∀ s ∈ [memState i, farState (memFrame i)],
      Ready s .vector (ve i) i ∧ enabled s (ve i) f.g = [0, 1] ∧ accGoes (readSrcs s (ve i) [(f.data, ty, [0, 1]), (f.addr, .n32, [0, 1])]) (fun vs s1 =>
       decide (setKind (curFrame s1).vec 2 = 5) && decide (globBase (curFrame s1) 2 = some (2, 16)) && decide ((curFrame s1).vec.loads.length < 255) &&
       accGoes (engXlate s1 2 needRW ([0, 1].flatMap fun _ => (upto 4).map fun j => 16 + 4 + j)) fun x s2 => (curFrame s2).ph.released.isEmpty && !linesPending (curFrame s2) 1 x.1 && !farBusy s2 x.1 &&
         let vals := [0, 1].map fun L => (nthSrc vs 0 L).toNat
         let l : GLoad := { n := 1, iss := ve i, dst := v 2, handle := 2, poison := false, val := 0, mask := maskBits (imageIdx 4 [0, 1]), gen := recGen x.2.words }
         if x.1.any isRemote then
           let ps := ((fours x.1).zip vals).map fun y => (y.1.headD 0, leOf y.2 4)
           let k : ReqKind := { work := 8, ty := 5, rel := false, die := recHomeDie x.2.words, amo := amoFlit f.op ty, fp := decide (ty = .f32), handle := 2 }
           accGoes (startLoad (ps.foldl (sendPiece s2.cur 1 k fun _ => false) s2) (ve i) (killsOf i)
             { l with far := some { das := ps.map (·.1), offs := [20, 20], idx := [0, 1], own := [], ord := f.ord, scope := f.scope, amo := some (f.op, ty, vals) } }) fun _ _ => true
         else
           let y := globAtomics s2 (ve i).tag.ser f.op ty ([0, 1].zip ((fours x.1).zip vals))
           decide (Near x.1) && accGoes (startLoad y.1 (ve i) (killsOf i) { l with val := rowOf fun L => BitVec.ofNat 32 (tgetD y.2 L 0), poison := poisoned s2 x.1 }) fun _ _ => true) = true) := by decide +kernel
theorem witness_GlobalAccess_orders : let f : VAm := { va (v 2) (cst 4) 2 .add .n32 with g := gp 1 }
    (let g : VAm := { f with ord := .rel }
     let rel : List (Nat × Byte) := storeBytes store1
     ((g.ord = .rel ∨ g.ord = .ar) ∧ rel ≠ []) ∧ ¬ (f.ord = .rel ∨ f.ord = .ar) ∧ (∃ b ∈ rel, b.1 ∈ [0x4014]) ∧ (∀ b ∈ rel, b.1 ∉ [0x4018])) ∧
    (let f : VAm := { va (v 2) (cst 16) 3 .add .n32 with g := gp 1 }
     let i : Instr := .vamo f
     let s := memState i
     Ready s .vector (ve i) i ∧ accGoes (readSrcs s (ve i) [(f.data, .n32, [0, 1]), (f.addr, .n32, [0, 1])]) (fun _ s1 =>
       decide (setKind (curFrame s1).vec 3 ≠ 5) && decide (sramBase (curFrame s1) 3 = some (false, 0x200)) &&
       listed (spadList (curFrame s1) false ([0, 1].flatMap fun _ => (upto 4).map fun (j : Nat) => (0x200 : Int) + 16 + (j : Int))) fun as =>
         accGoes (sramRead s1 false as) fun _ s2 => accGoes (deliver s2 (ve i) (v 2) (killsOf i) [0, 1] fun _ => 0) fun _ _ => true) = true) := by decide +kernel
theorem witness_SegmentError : let m (kp s : Nat) : StepMode := { kp := kp, s := s, afmt := .i8, wfmt := .i8 }
    let bank : Bank := bankChecksum { Bank.fresh with w := [(5, 15)] }
    let x (s : Nat) (stale : Bool) (v : Int) : SegErr := (segment (m 4 s) BArr.fresh stale bank (fun i => if i = 0 then v else 0) 0 0 5 0).err
    (m 8 0).kp = beadW .i8 ∧ (m 4 0).kp < beadW .i8 ∧ x 0 false 1 = .bound 0 ∧ x 0 true 1 = .bound 1 ∧ x 0 false 127 = .clipped ∧
    ((64 - 0) * 1 ≤ (127 * 15 - 1 : Int) ∧ (-128 * 15 + 1 : Int) ≤ (-65 - 0) * 1) ∧
    64 * 2 ^ (beadW .i8 - 1) * (2 ^ (beadW .i8 - 4) - 1) ≤ 48 * 2 ^ 12 ∧ ¬ 64 * 2 ^ (beadW .i8 - 1) * (2 ^ (beadW .i8 - 4) - 1) ≤ 48 * 2 ^ 0 := by decide +kernel
/-- The bead slot holds `i`; port 1 is a FIFO with one vector; array 0 as given. -/
def beadState (i : Instr) (a : BArr) : State :=
  let f := memFrame i
  let d : Bead := { Bead.fresh with arrays := [(0, a)] }
  stateOf { f with seq := { Seq.fresh with qb := { q := [ve i], hold := none } }, bead := d }
/-- A step of one array at full precision, and one whose segment no checksum can match. -/
def bs1 : BStep := { d := ⟨false, 1, 0x101⟩, bnd := zero, a := q 1, beam := 4, sexp := 0, step := 0, ovw := true }
def mode1 : StepMode := { kp := 8, s := 0, afmt := .i8, wfmt := .i8 }
def stepsOf (a : BArr) : List ArrStep :=
  let s := beadState (.bstep bs1) a
  (upto 1).map fun b => arrStep s (curFrame s) mode1 b { row := 3, scales := 0, bad := false } 0
theorem witness_BeadStep : (∀ a ∈ [BArr.fresh], let s := beadState (.bstep bs1) a
    Ready s .bead (ve (.bstep bs1)) (.bstep bs1) ∧ (curFrame s).bead.bldp = none ∧
    accGoes (popActs s (ve (.bstep bs1)) 1 false (curFrame s).bead.kg) (fun acts s1 => decide (acts.length = 1) &&
      decide ((curFrame s1).ph.undo.length + (sortUniq (stepRows 0x101 1)).length ≤ 256)) = true) ∧
    stepMismatch mode1 (stepsOf BArr.fresh) = none ∧ stepMismatch mode1 (stepsOf { BArr.fresh with b0 := { Bank.fresh with unmatch := [0] } }) = some (0, 0) := by decide +kernel
/-- A step that adds to sums still to be written back, one in a row with an error; and a BLDP of another port. -/
theorem witness_BeadStep_adds : let b : BStep := { bs1 with ovw := false }
    let s := beadState (.bstep b) BArr.fresh
    let w : BWrite := { n := 0, cells := (upto 64).map fun r => (256 + r, 1, 0) }
    let x : BldpStream := { n := 0, iss := ve (.bstep b), todo := [1], vec := 0, port := 2, swm := false, lfmt := .i8 }
    let t := onCur s fun f => { f with vec := { f.vec with bad := [256] }, bead := { f.bead with bwb := [w], bldp := some x } }
    Ready t .bead (ve (.bstep b)) (.bstep b) ∧ ((curFrame t).bead.bldp.map BldpStream.port = some 2 ∧ 2 ≠ b.a.port) ∧ b.d.idx.toNat % 64 = 1 ∧
    accGoes (popActs t (ve (.bstep b)) b.a.port false (curFrame t).bead.kg) (fun _ s1 => (stepRows b.d.idx.toNat 1).all fun r =>
      (curFrame s1).bead.bwb.any fun w => w.cells.any fun c => decide (c.1 = r) && decide (c.2.1 = 1)) = true := by decide +kernel
theorem witness_BeadStep_write : let b : BWrite := { n := 1, cells := [(3, 0, 7), (3, 63, 8)] }
    (b.cells.map fun c => (c.1, c.2.1)).Nodup ∧ (∀ c ∈ b.cells, c.2.1 < 64) ∧ (curFrame (stateOf frame0)).ph.undo.length + (sortUniq (b.cells.map (·.1))).length ≤ 256 := by decide +kernel
/-- A BSWAP whose last array fills, and one that need not wait; both forms of BFLAG, BMODE and a BGRID. -/
theorem witness_BeadControl : (∀ i ∈ [Instr.bgrid 63 0, .bmodeDigital, .bmodeAnalog, .bswap ⟨0, 0⟩, .bflagStale 3 true, .bflagClip 3 63 false],
      Ready (beadState i BArr.fresh) .bead (ve i) i) ∧
    (let a : BArr := { BArr.fresh with b1 := { Bank.fresh with filling := true } }
     (if a.act then a.b0 else a.b1).filling = true ∧ Ready (beadState (.bswap ⟨0, 0⟩) a) .bead (ve (.bswap ⟨0, 0⟩)) (.bswap ⟨0, 0⟩)) ∧
    tblFrom 0 (curFrame (beadState .bmodeAnalog BArr.fresh)).vec.preds = true ∧ tblFrom 0 (curFrame (beadState .bmodeAnalog BArr.fresh)).bead.arrays = true := by decide +kernel
/-- A BLDP of array 0 alone, its first and last vectors, and the two events after it. -/
theorem witness_BeadReload : let x : BLdp := { r := ⟨0, 0⟩, a := q 1, swm := false, lfmt := .mx4 }
    let s := beadState (.bldp x) BArr.fresh
    let st (n : Nat) : BldpStream := { n := 1, iss := ve (.bldp x), todo := [0], vec := n, port := 1, swm := false, lfmt := .mx4 }
    Ready s .bead (ve (.bldp x)) (.bldp x) ∧ (curFrame s).bead.bldp = none ∧ (∀ b ∈ rangeOf x.r, reloading (curFrame s) b = false) ∧ cntBS (curFrame s) < 255 ∧
    (∀ n ∈ [0, 65], (st n).todo = 0 :: [] ∧ engineRuns (curFrame s) = true ∧ accGoes (popPort s (st n).port false) (fun _ _ => true) = true) ∧
    tblFrom 0 Bank.fresh.w = true ∧ tblFrom 0 Bank.fresh.scales = true ∧
    (let k : Bank := { Bank.fresh with filling := true, got := true }
     k.filling = true ∧ k.got = true ∧ k.summed = false ∧ crldOf (curFrame s) 0 = none ∧ ({ k with summed := true } : Bank).summed = true) := by decide +kernel
theorem witness_BeadReload_calibration : (∀ i ∈ [Instr.bcal ⟨63, 0⟩, .bcalr (v 5) 63 0, .bcalw (v 3) 63 0], Ready (beadState i BArr.fresh) .bead (ve i) i) ∧
    (curFrame (beadState (.bcalr (v 5) 63 0) BArr.fresh)).ph.undo.length < 256 ∧
    (let i : Instr := .bcalw (v 3) 63 0
     accGoes (checkSrcs (beadState i BArr.fresh) (ve i) [(v 3, lanes64)]) (fun _ s1 => accGoes (commitRows (captureFlags s1 1) .bead (ve i) (opdKill (v 3)) []) fun _ _ => true) = true) ∧
    260000000 ≤ 260000000 - (arrOf frame0 63).calTime := by decide +kernel
theorem witness_SupplyStates : tgetD ([(15, 0)] : Tbl (BitVec 2)) 15 2 = 0 ∧ (∀ r, r < 64 → tget frame0.vec.rows (64 * 15 + r) = none) ∧
    (47 < 4 * frame0.sram.split ∧ fbit ({ Sram.fresh with live := 0x800000000000 } : Sram).live 47 = true) ∧
    (Frame.fresh.disp.running = none ∧ Frame.fresh.disp.standby = none) ∧ ({ Disp.fresh with gated := true } : Disp).gated = true := by decide

/-- A copy operation in its slot over `copySets`, not advanced. -/
def cps (i : Instr) : State := copyState i copySets
/-- Its issue is ready, there is room, and the sets it names hold. -/
def copyReady (i : Instr) (ks : List (BitVec 5 × Nat)) (p : State → Bool) : Bool :=
  decide ((curFrame (cps i)).cpe.ops.length < 32) && decide (Ready (cps i) .copy (ve i) i) && !(ve i).adv &&
    accGoes (checkSets (cps i) ks) fun _ s1 => p s1
theorem witness_CopyIssue : let f := cw 1 2 3
    copyReady (.cboxOs f) [(1, 8), (2, 9), (3, 10)] (fun s => accGoes (boxChecks s 1 2 (some (3, true)) needR noExtra) fun _ _ => true) = true ∧
    copyReady (.cboxSo f) [(1, 8), (2, 9), (3, 10)] (fun s => accGoes (boxChecks s 1 2 (some (3, false)) needW noExtra) fun _ _ => true) = true ∧
    copyReady (.caddSo f) [(1, 8), (2, 9), (3, 10)] (fun s => accGoes (boxChecks s 1 2 (some (3, false)) needRW fun ws => notF32 (recFmt ws)) fun _ _ => true) = true ∧
    copyReady (.cfillO { f with sb := 0 }) [(1, 8), (2, 9)] (fun s => accGoes (boxChecks s 1 2 none needW noExtra) fun _ _ => true) = true ∧
    copyReady (.cpref 1 2) [(1, 8), (2, 9)] (fun s => accGoes (boxChecks s 1 2 none needR noExtra) fun _ _ => true) = true ∧
    copyReady (.cdisc { f with sb := 0 }) [(1, 8), (2, 9)] (fun s => accGoes (boxChecks s 1 2 none needW noExtra) fun _ _ => true) = true := by decide +kernel
theorem witness_CopyIssue_other : let f := cw 1 2 4
    copyReady (.cfillS 3 2) [(3, 10), (2, 9)] (fun s => emptyBox (extents (curFrame s) 2) 14) = true ∧
    copyReady (.cboxOo f) [(1, 8), (2, 9), (4, 8)] (fun s => accGoes (twoBoxes s f needW fun p q => decide (recFmt p = recFmt q)) fun _ _ => true) = true ∧
    copyReady (.caddOo f) [(1, 8), (2, 9), (4, 8)] (fun s => accGoes (twoBoxes s f needRW fun p _ => decide (recFmt p = 6)) fun _ _ => true) = true ∧
    copyReady (.cfillS 3 6) [(3, 10), (6, 9)] (fun s => !emptyBox (extents (curFrame s) 6) 14 &&
      match runUnits (curFrame s) 3 4 true (extents (curFrame s) 6) 14 with | .inl _ => true | .inr _ => false) = true ∧
    copyReady (.cctrAdd 5 .rel .pkg 0xFFFF) [(5, 5)] (fun s => accGoes (lookSides s [setHandle (curFrame s) 5]) fun es t =>
      match es with
      | [(e, false)] => (match checkAccess t t.cur e needRW ((upto 8).map (16 + ·)) none false with | (.ok .., _) => true | _ => false)
      | _ => false) = true := by decide +kernel
/-- Sets of kind 8 and 10 with no origin of their own yet, and one of another kind. -/
theorem witness_CopyIssue_advance : let f := curFrame (cps (.cdisc (cw 1 2 0)))
    tget f.cpe.origins 1 = none ∧ setKind f.vec 1 = 8 ∧ setKind f.vec 3 = 10 ∧ (setKind f.vec 2 ≠ 8 ∧ setKind f.vec 2 ≠ 10) ∧
    fld (psetWord f.vec 1 0) 56 4 < (curOrigin f 1).length := by decide +kernel
/-- An operation of each kind held, before and after its reads. -/
def held (i : Instr) : State := nextOf (exec i (cps i))
def readDone (i : Instr) : State := nextOf (exec (.copyOperationComplete 0) (held i))
def homeOk (s : State) (ls : List CLoc) : Bool := ls.all fun l => match l with | .glob a _ => !isRemote a && homesServe s [a] | .sram _ => true
theorem witness_CopyCompletes_reads : ∀ i ∈ [Instr.cboxOo (cw 1 2 4), .cpref 1 2, .caddOo (cw 1 2 4)], let s := held i
    Memory.wf s.mem = true ∧ ∃ o, (curFrame s).cpe.ops[0]? = some o ∧ o.got = false ∧ locsMeet (curFrame s).sram o.src (earlierLocs (curFrame s) 0 o.n) = false ∧
      homeOk s o.src = true ∧ accGoes (sramRead s false (viewLocs false o.src)) (fun _ t => accGoes (sramRead t true (viewLocs true o.src)) fun _ _ => true) = true := by
  intro i h
  simp only [List.mem_cons, List.not_mem_nil, or_false] at h
  rcases h with rfl | rfl | rfl <;> exact ⟨by decide +kernel, _, rfl, by decide +kernel⟩
theorem witness_CopyCompletes_writes : ∀ s ∈ [held (.cfillO { cw 1 2 0 with sb := 0 }), readDone (.cboxOo (cw 1 2 4)), held (.cdisc (cw 1 2 0)), held (.cctrAdd 5 .rlx .pkg 1)],
    ∃ o, (curFrame s).cpe.ops[0]? = some o ∧ o.got = true ∧ o.badv = [] ∧ o.put = [] ∧ homeOk s o.dst = true ∧ o.ord = .rlx ∧
      locsMeet (curFrame s).sram o.dst (earlierLocs (curFrame s) 0 o.n ++ heldAdds (curFrame s) o.n) = false := by
  intro s h
  simp only [List.mem_cons, List.not_mem_nil, or_false] at h
  rcases h with rfl | rfl | rfl | rfl <;> exact ⟨_, rfl, by decide +kernel⟩
def add1 : CAdd := { n := 0, handle := 3, gen := 9, ord := .rlx, scope := .pkg, offs := [4, 8], elems := [(0x8004, 0x3F800000), (0x8008, 0x3F800000)], bad := [] }
theorem witness_CopyCompletes_add : takeFirst relAdd [Released.store store1, .add add1] = some (add1, [.store store1]) ∧
    (∀ o ∈ (curFrame (held (.cdisc (cw 1 2 0)))).cpe.ops, add1.n ≤ o.n) ∧ add1.bad = [] ∧
    (∀ x ∈ add1.elems, ∀ j, j < 4 → isRemote (x.1 + j) = false ∧ homesServe (stateOf frame0) [x.1 + j] = true) ∧
    add1.elems.Pairwise (fun x y => x.1 + 4 ≤ y.1 ∨ y.1 + 4 ≤ x.1) := by decide +kernel
/-- CRLD of one I8 array from object 4, which is 256 elements of 64 rods at stride 0 in the second dimension. -/
def crld1 : CRld := { sa := 7, r := ⟨0, 0⟩, kgm1 := 0, swm := false }
def crldState : State :=
  let s := copyState (.crld crld1) [(56, 0x8000000000000004)]
  s
/-- The record of object 4, and the elements of its first array. -/
def ent4 : RcEnt := record 4 0x10000 0
def units4 : List (List Nat) := crldUnits (List.replicate 14 0) 1 1 0 0 false
theorem units4_mem : ∀ c ∈ units4, ∃ r, r < 256 ∧ c = [r] := by
  intro c h
  simp only [units4, crldUnits, List.mem_flatMap, List.mem_map] at h
  obtain ⟨t, -, n, -, r, hr, rfl⟩ := h
  refine ⟨r, ?_, ?_⟩
  · simpa [upto] using hr
  · simp [crldCoord, lset]
theorem unit4_ok : ∀ r, r < 256 → inShape ent4.words [] 0 [r] = true ∧ elemBytes ent4.words [] [r] = [r] ∧
    r < recExtent ent4.words ∧ winOf crldState 0 ent4.words r = .ok := by decide +kernel
theorem crld_side (us : List (List Nat)) (hm : ∀ c ∈ us, ∃ r, r < 256 ∧ c = [r]) : accGoes (checkSides crldState [{ h := 4, ent := ent4, migr := false, need := needB, cs := us, extra := none }] none) (fun _ s3 =>
    decide (s3.frames = crldState.frames)) = true := by
  have hb : ∀ o ∈ (us.map (elemBytes ent4.words [])).flatten, o < 256 := by
    intro o ho
    simp only [List.mem_flatten, List.mem_map] at ho
    obtain ⟨l, ⟨c, hc, rfl⟩, ho⟩ := ho
    obtain ⟨r, hr, rfl⟩ := hm c hc
    rw [(unit4_ok r hr).2.1] at ho
    simp at ho; omega
  have hs : us.find? (fun c => !inShape ent4.words ent4.ext 0 c) = none := by
    rw [List.find?_eq_none]
    intro c hc
    obtain ⟨r, hr, rfl⟩ := hm c hc
    have h0 : ent4.ext = [] := rfl
    rw [h0]; simpa using (unit4_ok r hr).1
  have hx : ∀ p : Nat → Bool, (∀ r, r < 256 → p r = false) → (us.map (elemBytes ent4.words [])).flatten.find? p = none := by
    intro p hp
    rw [List.find?_eq_none]
    intro o ho; simp [hp o (hb o ho)]
  have hd := hx (fun o => decide (winOf crldState 0 ent4.words o = .denied)) (fun r hr => by simp [(unit4_ok r hr).2.2.2])
  have he := hx (fun o => decide (recExtent ent4.words ≤ o)) (fun r hr => by simpa using (unit4_ok r hr).2.2.1)
  have hw := hx (fun o => decide (winOf crldState 0 ent4.words o = .offline)) (fun r hr => by simp [(unit4_ok r hr).2.2.2])
  have hp : (dieOf crldState (crldState.cur / Config.framesPerDie)).part = 0 := by decide +kernel
  have k1 : permOk ent4.words needB = true := by decide +kernel
  have k2 : recMapped ent4.words = false := by decide +kernel
  have k3 : recState ent4.words = 0 := by decide +kernel
  have hu : rcUpdate crldState crldState.cur ent4 = crldState := rfl
  have hc : checkAccess crldState crldState.cur ent4 needB (us.map (elemBytes ent4.words [])).flatten none false =
      (.ok ((us.map (elemBytes ent4.words [])).flatten.map (devAddr ent4.words)) ent4, crldState) := by
    have hm : ∀ l, mapLines ent4 l = [] := fun l => by simp [mapLines, k2]
    have hg : dropGot crldState crldState.cur [] = crldState := rfl
    simp only [checkAccess, k1, k2, k3, hp, hm, absentTiles, hd, he]
    simp only [hg, hw]
    simpa using hu
  have hss : checkSide crldState { h := 4, ent := ent4, migr := false, need := needB, cs := us, extra := none } =
      (.ok (cutBy ((us.map (elemBytes ent4.words [])).map List.length) (((us.map (elemBytes ent4.words [])).flatten.map (devAddr ent4.words)).zip (us.map (elemBytes ent4.words [])).flatten)), crldState) := by
    have h0 : ent4.ext = [] := rfl
    rw [h0] at hs
    simp only [checkSide, h0, hs, Option.map_none, hc]
  simp only [checkSides, List.foldl_cons, List.foldl_nil, hss, List.nil_append]
  simp [accGoes]
theorem witness_CopyCompletes_crld : let s := crldState
    Ready s .copy (ve (.crld crld1)) (.crld crld1) ∧ (curFrame s).cpe.ops.length < 32 ∧ (ve (.crld crld1)).adv = false ∧
    accGoes (checkSets s [(7, 8)]) (fun _ s1 => decide (s1.frames = s.frames)) = true ∧
    accGoes (lookSides s [4]) (fun es s2 => decide (es = [(ent4, false)]) && decide (s2.frames = s.frames)) = true ∧ beadFmtOf (recFmt ent4.words) = some .i8 ∧
    curOrigin (curFrame s) 7 = List.replicate 14 0 ∧ recRank ent4.words = 1 ∧ fmtMx (recFmt ent4.words) = false ∧
    accGoes (checkSides s [{ h := 4, ent := ent4, migr := false, need := needB, cs := units4, extra := none }] none) (fun _ s3 => decide (s3.frames = s.frames)) = true ∧
    (∀ b ∈ rangeOf crld1.r, reloading (curFrame s) b = false) ∧ cntBS (curFrame s) < 255 :=
  ⟨by decide +kernel, by decide +kernel, by decide +kernel, by decide +kernel, by decide +kernel, by decide +kernel, by decide +kernel,
   by decide +kernel, by decide +kernel, crld_side units4 units4_mem, by decide +kernel, by decide +kernel⟩
/-- Every die of these states is admitted. -/
theorem serve_all (f : Frame) (a : Nat) : homesServe (stateOf f) [a] = true := by
  have h : ∀ d, serves (stateOf f) d = true := by
    intro d
    by_cases hd : 0 = d <;> simp [serves, stateOf, dieOf, tgetD, tget, Die.fresh, hd, State.reset]
  simp [homesServe, h]
theorem witness_CopyCompletes_lastByte : let o : COp := { n := 1, kind := .crld [0] 1 0 (List.replicate 14 0) (record 4 0x10000 0).words [], src := [], dst := [], vals := [], badv := [], got := true, ord := .rlx, scope := .fr, handleA := 4, handleB := 0, genA := 9, genB := 0, issue := issue 0 }
    let f : Frame := { frame0 with cpe := { Cpe.fresh with ops := [o] }, bead := { Bead.fresh with arrays := [(0, { BArr.fresh with b1 := { Bank.fresh with filling := true } })] } }
    (arrOf f 0).b1.filling = true ∧ crldOf f 0 = some (0, o) ∧ 0 ∈ [0].take 2 ∧
    let locs := crldLocs 0 1 (List.replicate 14 0) (record 4 0x10000 0).words [] 0
    (∀ x y, CLoc.glob x y ∈ locs → isRemote x = false ∧ homesServe (stateOf f) [x] = true) ∧ locsMeet f.sram locs (earlierLocs f 0 1) = false := by
  refine ⟨by decide +kernel, by decide +kernel, by decide, ?_, ?_⟩
  · intro x y h
    refine ⟨?_, serve_all _ _⟩
    simp only [crldLocs, List.mem_flatMap, List.mem_map] at h
    obtain ⟨c, hc, z, hz, he⟩ := h
    obtain ⟨r, hr, rfl⟩ := units4_mem c hc
    rw [show elemBytes (record 4 0x10000 0).words [] [r] = [r] from (unit4_ok r hr).2.1] at hz
    have hd : ∀ r, r < 256 → isRemote (devAddr (record 4 0x10000 0).words r) = false := by decide +kernel
    simp only [List.mem_singleton] at hz
    subst hz
    simp only [CLoc.glob.injEq] at he
    rw [← he.1]
    exact hd z hr
  · have h : ∀ l : List CLoc, locsMeet Sram.fresh l [] = false := by intro l; simp [locsMeet]
    exact h _

/-- The bind record of thread 7, at a priority. -/
def bind1 (prio : Nat) : List Word := [mk64 [(62, 2, 1), (59, 3, prio), (55, 4, 12), (0, 32, 7)], 0x3000, 0, 0]
/-- Its control block stands in state `st`; frame 0 of die 0 as given. -/
def bindState (prio st : Nat) (d : Disp) : State :=
  let f : Frame := { Frame.fresh with disp := d }
  { State.reset with frames := [(0, f)], dies := [(0, { Die.fresh with bindRec := bind1 prio, oos := 2 }), (3, { Die.fresh with part := 1 })], mem := putWords 0x3000 [mk64 [(61, 3, st), (0, 32, 7)]] [] }
/-- Thread 7 with priority 0, and with an image. -/
def run7 : BindRec := { thread with tcb := 0x3000 }
/-- The statuses that BIND gives, the last of each range of frames and states among them. -/
theorem witness_SlotTableCommands_bind : Memory.wf (bindState 0 0 .fresh).mem = true ∧
    [bindDecide (bindState 0 0 .fresh) 0 47, bindDecide (bindState 0 0 .fresh) 0 48, bindDecide (bindState 0 0 .fresh) 0 1, bindDecide (bindState 0 0 .fresh) 0 0xC0,
     bindDecide (bindState 0 0 { Disp.fresh with gated := true }) 0 0, bindDecide (bindState 0 3 .fresh) 0 0, bindDecide (bindState 0 1 .fresh) 0 0,
     bindDecide (bindState 0 0 { Disp.fresh with standby := some run7 }) 0 0, bindDecide (bindState 0 5 .fresh) 0 0,
     bindDecide (bindState 1 0 { Disp.fresh with running := some { run7 with prio := 0 } }) 0 0, bindDecide (bindState 1 0 { Disp.fresh with running := some { run7 with prio := 1 } }) 0 0] =
    [0, 2, 3, 2, 4, 5, 11, 1, 6, 8, 0] := by decide +kernel
theorem witness_SlotTableCommands : let s := bindState 0 2 { Disp.fresh with running := some run7 }
    ¬ (fld (48 : Word) 0 6 < 48) ∧ (fld (0 : Word) 0 6 < 48 ∧ (dieOf s 0).st = .admitted ∧ (dieOf s 0).part = (dieOf s 0).part) ∧
    (frameOf s 0).disp.running.isSome = true ∧ (frameOf s 0).disp.standby = none ∧ (frameOf s 1).disp.running = none ∧
    onlyBits (wd (dieOf s 0).bindRec 1) [(8, 40)] = true ∧ dramOf s 0 (bindRecOf (dieOf s 0).bindRec).tcb 256 = true ∧
    onlyBits (0x3001 : Word) [(8, 40)] = false ∧ (gword s 0x3000).extractLsb' 0 32 = (7 : BitVec 32) ∧ fld (gword s 0x3000) 61 3 < 3 ∧
    runsTcb s 0 0x3000 = some 0 ∧ landed (frameOf s 0) = false ∧
    (let t := bindState 0 2 .fresh; runsTcb t 0 0x3000 = none ∧ standsTcb t 0 0x3000 = none ∧ (endThread t 0 0 0x3000 true).isSome = true) ∧
    (let t := bindState 0 4 .fresh; fld (gword t 0x3000) 61 3 = 4 ∧ (gword t 0x3000).extractLsb' 0 32 ≠ (8 : BitVec 32)) := by decide +kernel
/-- A die that is away, an update in progress; a thread that stands by, one whose stop has landed, one whose end is held, and one
whose completion word cannot be reached yet. -/
theorem witness_SlotTableCommands_ends : ({ Die.fresh with st := .offline } : Die).st ≠ .admitted ∧
    (let s := bindState 0 0 .fresh; updateHolds { s with hub := { s.hub with op := some (.update 4) } } = true ∧ updateHolds s = false) ∧
    (let s := bindState 0 1 { Disp.fresh with standby := some run7 }
     runsTcb s 0 0x3000 = none ∧ standsTcb s 0 0x3000 = some 0 ∧ (frameOf s 0).disp.standby = some run7 ∧ endHeld s 0x3000 = false) ∧
    (let s := bindState 0 2 { Disp.fresh with running := some run7, req := some { why := .preempt, landed := true } }
     runsTcb s 0 0x3000 = some 0 ∧ landed (frameOf s 0) = true) ∧
    (let s := bindState 0 0 .fresh
     endHeld { s with dies := [(0, { dieOf s 0 with heldExit := [(0x3000, true, 0)] })] } 0x3000 = true ∧
     let r := (record 6 0x18000 0).words
     let m := putWords 0x3020 [0x600000000000] (putWords 768 (r.set 0 (fput (r.getD 0 0) 62 2 1)) s.mem)
     endThread { s with dies := [(0, { dieOf s 0 with useBase := 1, useLen := 8 })], mem := m } 0 0 0x3000 true = none) := by decide +kernel
def standFrame (image : Bool) : Frame := { Frame.fresh with disp := { Disp.fresh with standby := some { run7 with image := image, area := 0x100000, areaLen := 1 } } }
theorem witness_FreshParameterSets : let s := stateOf (standFrame false)
    (frameOf s 0).disp.running = none ∧ (frameOf s 0).disp.standby.isSome = true ∧ frameHeld s 0 = false := by decide +kernel
theorem witness_ThreadEntry : (∀ i ∈ [true, false], let s := stateOf (standFrame i)
      Memory.wf s.mem = true ∧ (frameOf s 0).disp.running = none ∧ (frameOf s 0).disp.standby.map BindRec.image = some i ∧ frameHeld s 0 = false) ∧
    frameHeld { State.reset with dies := [(0, { Die.fresh with evWait := [{ kind := 1, die := 0, frame := 0, tid := 7, detail := 0 }] })] } 0 = true ∧
    (let f : Frame := { frame0 with disp := { Disp.fresh with running := some run7, fetch := [(63, true), (0, false)] } }
     f.disp.running.isSome = true ∧ (match (fetchBank (stateOf f) (bankKey (63, true)) (bankOf (arrOf f 63) true)).1 with | .done _ => true | _ => false) = true) := by decide +kernel
def stopping (why : StopWhy) (landed : Bool) (len : Nat) : Frame :=
  { frame0 with disp := { Disp.fresh with running := some { run7 with area := 0x100000, areaLen := len }, req := some { why := why, landed := landed } } }
theorem witness_ThreadStop : (let f := stopping .kill false 0; f.bead.bldp = none ∧ atBoundary f = true ∧ f.gen.stall ≠ some .remote) ∧
    (let f := stopping .preempt true 64
     imageReady f = true ∧ serves (stateOf f) (homeOf 0x100000) = true ∧ imageSize (imageSecs (imageFrame f) false) ≤ 4096 * 64 ∧
     4096 * 0 < imageSize (imageSecs (imageFrame f) false)) ∧
    (let f := stopping .kill true 0; f.ph.released = [] ∧ (endThread (stateOf f) 0 0 0x3000 true).isSome = true ∧ Memory.wf (stateOf f).mem = true) := by decide +kernel
/-- The point before the first repetition of a bundle, between two, and not yet reached; a GWAIT, and a request, that it meets; work
that an image and an end wait for. -/
theorem witness_ThreadStop_point : (let f := curFrame (nextOf took)
     f.seq.stage = .issuing ∧ f.seq.cur.map CurBundle.rep = some 0 ∧ atBoundary f = true ∧
     (let g : Frame := { f with seq := { f.seq with sub := 3, cur := f.seq.cur.map fun c => { c with rep := 7 } } }
      g.seq.cur.map CurBundle.rep = some 7 ∧ atBoundary g = true ∧ atBoundary { g with seq := { g.seq with sub := 0, cur := g.seq.cur.map fun c => { c with lvl := 2 } } } = false)) ∧
    (some (Stall.gwait true 5 [] (some 9)) ≠ some .remote ∧ ({ Gen.fresh with stall := some .remote } : Gen).stall = some .remote) ∧
    (let f : Frame := { stopping .preempt true 64 with ph := { Phase.fresh with released := [.store store1] } }
     imageReady f = false ∧ f.ph.released ≠ []) := by decide +kernel
/-- A group that is there, with and without members; an event that waits with the ring full and with room. -/
theorem witness_GroupsAndRing : let s := groupState [] someGroup
    ({ Die.fresh with st := .offline } : Die).st ≠ .admitted ∧ (dieOf s 0).st = .admitted ∧ (dieOf s 0).evWait = [] ∧ Memory.wf s.mem = true ∧
    serves s (0x3FFFFFF000 / 0x1000000000) = true ∧ serves { s with dies := [(3, { Die.fresh with st := .offline })] } (0x3FFFFFF000 / 0x1000000000) = false ∧
    tget s.groups (4096 * 0 + 5) = some someGroup ∧ someGroup.members ≠ 0 ∧ ({ someGroup with members := 0 } : Group).lateM = 0 ∧ tget s.groups 4095 = none ∧
    (let v : Die := { Die.fresh with evWait := [{ kind := 1, die := 0, frame := 0, tid := 7, detail := 0 }], evqBase := mk64 [(48, 16, 4095)] }
     fld v.evqBase 48 16 = (fld v.evqBase 0 12 + 4095) % 4096 ∧ fld (0 : Word) 48 16 ≠ (fld (0 : Word) 0 12 + 4095) % 4096) := by decide +kernel
theorem witness_ManagementRegisters : ((4 : Nat) ≠ 8 ∧ 0x0C % 8 ≠ 0) ∧ (0x3FFFF8 < 0x400000 ∧ 0x3FFFF8 % 8 = 0 ∧ 0x100000 ≤ 0x3FFFF8) ∧
    dieReached State.reset (.host 0) 3 = true ∧ dieReached (bindState 0 0 .fresh) (.svaken 0) 3 = false ∧
    tableFits State.reset 0 0x1000000 (2 ^ 20) = true ∧ tableFits State.reset 0 0xFFFFFFFFF000 1 = false ∧
    ((12 : Word).toNat % 16 ≤ 12 ∧ 12 < (13 : Word).toNat % 16) ∧ (dieOf State.reset 0).lockNew = none ∧
    (∀ k ∈ partFrames State.reset 0, (frameOf State.reset k).disp.running = none ∧ (frameOf State.reset k).disp.standby = none) ∧
    ({ Die.fresh with lockNew := some 12 } : Die).lockNew = some 12 := by decide +kernel
/-- A range of handles, all of them, an empty range and handle 0; BUSY with and without an access in flight. -/
theorem witness_ManagementRegisters_invalidate : let all : Word := mk64 [(63, 1, 1), (40, 1, 1)]
    let one : Word := mk64 [(63, 1, 1), (20, 20, 2), (0, 20, 2)]
    all.getLsbD 63 = true ∧ all.getLsbD 40 = true ∧ (0 < fld one 0 20 ∧ fld one 0 20 ≤ fld one 20 20) ∧ one.getLsbD 40 = false ∧
    fld (mk64 [(63, 1, 1), (20, 20, 2)]) 0 20 = 0 ∧ fld (mk64 [(63, 1, 1), (20, 20, 1)]) 20 20 < fld (mk64 [(63, 1, 1), (0, 20, 2)]) 0 20 ∧
    ({ Die.fresh with rcInval := all } : Die).rcInval.getLsbD 63 = true ∧ Die.fresh.rcInval.getLsbD 63 = false ∧
    (let s := stateOf { frame0 with vec := { Vec.fresh with loads := [load1] } }
     0 ∈ partFrames s 0 ∧ 2 ∈ inFlight (frameOf s 0) ∧ ∀ k ∈ partFrames (stateOf frame0) 0, inFlight (frameOf (stateOf frame0) k) = []) := by decide +kernel
/-- A core stalled on handle 2, whose record the table holds. -/
theorem witness_ManagementRegisters_reread : let s : State := { stateOf { frame0 with rc := [], gen := { Gen.fresh with stall := some (.translation 2) } } with
      mem := putWords 256 (record 2 0x4000 1).words [] }
    (frameOf s 0).gen.stall = some (.translation 2) ∧ 0 ∈ partFrames s 0 ∧ inFlight (frameOf s 0) = [] ∧
    (match rcRead s 0 [] 2 with | .found _ => true | _ => false) = true ∧ ({ Die.fresh with st := .offline } : Die).st ≠ .admitted := by decide +kernel
/-- A layout no ZH4-X has, one with a thread on a moved die, one while the hub is busy, and one that can be made. -/
theorem witness_PartitionChange : layoutOk 1 4 = false ∧ layoutOk 1 3 = true ∧
    (let s : State := { State.reset with frames := [(191, { Frame.fresh with disp := { Disp.fresh with running := some run7 } })] }
     (3 < 4 ∧ (dieOf s 3).st ≠ .absent ∧ partOf 3 3 ≠ (dieOf s 3).part) ∧ (frameOf s (48 * 3 + 47)).disp.running.isSome = true) ∧
    ((some (HubOp.update 4)).isSome = true ∧ ∀ x y, (some (HubOp.update 4)) ≠ some (.part x y)) ∧ State.reset.hub.op = none ∧
    (∀ d, d < 4 → ∀ f, f < 48 → (frameOf State.reset (48 * d + f)).disp.running = none ∧ (frameOf State.reset (48 * d + f)).disp.standby = none) ∧
    (∀ d, d < 4 → (dieOf State.reset d).queues = []) ∧ (∃ d, d < 4 ∧ (dieOf State.reset d).st ≠ .failed ∧ partOf 3 d ≠ (dieOf State.reset d).part) := by
  refine ⟨by decide, by decide, by decide +kernel, ⟨rfl, by simp⟩, rfl, by decide +kernel, by decide +kernel, by decide +kernel⟩
theorem witness_PartitionChange_runs : (some (HubOp.part 3 [1, 2, 3])) = some (HubOp.part 3 [1, 2, 3]) ∧ 3 ∈ [1, 2, 3] ∧ 3 < 4 := by decide
/-- A die that is away, the hub busy, a die at work; and each step of its reset. -/
theorem witness_WarmReset : ({ Die.fresh with st := .offline } : Die).st ≠ .admitted ∧ Die.fresh.st = .admitted ∧ (some (HubOp.update 4)).isSome = true ∧
    (∀ n p, (some (HubOp.update 4)) ≠ some (.reset 3 true n p)) ∧
    dieIdle (stateOf frame0) 0 = false ∧ dieIdle State.reset 3 = true ∧ (List.replicate 64 0).length ≤ 64 ∧ 64 < (List.replicate 65 0).length := by
  refine ⟨by decide, rfl, rfl, by simp, by decide +kernel, by decide +kernel, by decide, by decide⟩
theorem witness_ResetAndUpdate : State.reset.hub.op = none ∧ ({ Hub.fresh with op := some (.update 4), fwWait := [0, 1] } : Hub).op = some (.update 4) ∧
    (∀ n, HubOp.reset 3 true 1 0 ≠ .update n) ∧ curDie State.reset = 0 ∧ (0x800000000000000 : Word).getLsbD 59 = true ∧
    (0 ∈ [0, 1] ∧ ([0, 1].filter fun d => decide (d ≠ 0)) ≠ []) ∧ (0 ∈ [0] ∧ ([0].filter fun d => decide (d ≠ 0)) = []) ∧ 2 ∉ [0, 1] := by
  refine ⟨rfl, rfl, fun n => by simp, rfl, by decide, by decide, by decide, by decide⟩
/-- The last byte of the first die's share and the first of the next one's; a die away; a retired range. -/
theorem witness_HostAndDram : ({ Hub.fresh with linkUp := true } : Hub).linkUp = true ∧ (partDies State.reset 0)[3]? = some 3 ∧ (0xFFFFFFFFF : Nat) < 0x1000000000 ∧
    hdmAddrs State.reset 0 0xFFFFFFFFF 2 = some [0xFFFFFFFFF, 0x1000000000] ∧ homesServe State.reset [0xFFFFFFFFF, 0x1000000000] = true ∧
    (let s : State := { State.reset with dies := [(1, { Die.fresh with st := .offline })] }; homesServe s [0x1000000000] = false) ∧
    (let s : State := { State.reset with dies := [(1, { Die.fresh with retired := [0] })] }; retiredAt s 0x1000000000 = true ∧ retiredAt s 0xFFFFFFFFF = false ∧
      [0xFFFFFFFFF, 0x1000000000].find? (retiredAt s) = some 0x1000000000) ∧ hdmAddr State.reset 0 0xFFFFFFFFF = some 0xFFFFFFFFF ∧
    (∀ p ∈ [(2, 2)], p.1 < 3 ∧ p.2 < 3) ∧
    Hub.fresh.ideNeed = false ∧ ({ Hub.fresh with ideNeed := true } : Hub).ideRx = false ∧ Memory.wf State.reset.mem = true := by decide +kernel
theorem witness_HostAndDram_errors : (let x : HostHeld := { part := 0, off := 0, len := 2, data := none }; x.data = none ∧ ({ x with data := some [0] } : HostHeld).data.isSome = true) ∧
    (dieOf State.reset 3).st ≠ .absent ∧ dramCell (dieOf State.reset 3) 0xFFFFFFFFF = true ∧ ({ Die.fresh with pinWay := true } : Die).pinWay = true ∧
    Die.fresh.pinWay = false ∧ (∀ p ∈ Die.fresh.pinned, p % 131072 ≠ 0) ∧ Die.fresh.retired.length < 64 := by decide +kernel
/-- Port 3 is trained; window 15 grants page 0 for writing and reading. -/
def fabState : State := { State.reset with hub := { Hub.fresh with trained := 8, exports := [(30, 0xE000000000000000), (31, 0)] } }
theorem witness_FabricTraffic : portUp State.reset 3 = false ∧ portUp fabState 3 = true ∧
    (∀ w ∈ [true, false], exported fabState 0 4088 8 w = true ∧ exported fabState 0 4089 8 w = false) ∧
    peerReach fabState 0 ((upto 8).map (4088 + ·)) = true ∧ homesServe fabState ((upto 8).map (4088 + ·)) = true ∧ Memory.wf fabState.mem = true := by decide +kernel
/-- An answer that nothing awaits; the last one of a store, of a copy's writes, and one of two. -/
def flit1 : Flit := { port := 3, tag := 9, part := 0, poison := false, rel := false, addr := 0, len := 0, data := [], amo := .add }
def out1 (work n : Nat) (tag : BitVec 16) : Outstanding :=
  { frame := 0, n := n, work := work, flit := { port := 3, ty := 3, tag := tag, part := 0, rel := false, poison := false, addr := 0, data := [] } }
theorem witness_FabricTraffic_answers : ([] : List Outstanding).find? (fun o => decide (o.flit.tag = flit1.tag)) = none ∧
    (∀ w ∈ [0, 1, 2, 3, 4, 5, 6, 7, 8, 9, 10, 11, 12], [out1 w 1 9].find? (fun o => decide (o.flit.tag = flit1.tag)) = some (out1 w 1 9) ∧
      (([out1 w 1 9].filter fun x => decide (x.flit.tag ≠ 9)).any fun x => decide (x.n = 1)) = false ∧
      (([out1 w 1 9, out1 w 1 10].filter fun x => decide (x.flit.tag ≠ 9)).any fun x => decide (x.frame = 0) && decide (x.work = w) && decide (x.n = 1)) = true) ∧
    (takeFirst relStore [Released.store store1] = some (store1, []) ∧ store1.n = 1) ∧
    (takeFirst relAdd [Released.add { add1 with n := 1 }] = some ({ add1 with n := 1 }, []) ∧ add1.elems.Pairwise (fun x y => x.1 + 4 ≤ y.1 ∨ y.1 + 4 ≤ x.1)) ∧
    (let f := curFrame (readDone (.cboxOo (cw 1 2 4))); (opIndex f 1).map (fun x => x.2.got) = some true) ∧
    10 ≤ (10 : BitVec 4).toNat := by decide +kernel
/-- The operations, the load and the atomic that the last replies end, and those that an error reply ends. -/
theorem witness_FabricTraffic_ends : (let f := curFrame (held (.cboxOo (cw 1 2 4)))
     (opIndex f 1).map (fun x => decide (x.2.kind = .box) && !x.2.got && x.2.src.all (fun l => match l with | .glob .. => true | .sram _ => false) &&
       decide (f.ph.snap.issueNo ≤ x.2.n)) = some true) ∧
    (let o : COp := { n := 1, kind := .crld [0, 1] 1 0 [] [] [], src := [], dst := [], vals := [], badv := [], got := true, ord := .rlx, scope := .fr, handleA := 4, handleB := 0, genA := 9, genB := 0, issue := issue 0 }
     opIndex { frame0 with cpe := { Cpe.fresh with ops := [o] } } 1 = some (0, o)) ∧
    (let x : Far := { das := [0xC00000004014], idx := [0], own := [], ord := .rlx, scope := .pkg, amo := some (.add, .n32, [1]) }
     let l : GLoad := { load1 with far := some x }
     [l].find? (fun l => decide (l.n = 1)) = some l ∧ l.far = some x ∧ x.amo = some (.add, .n32, [1]) ∧ ∀ y ∈ [l], y.n = 1 → y = l) ∧
    (let f : Frame := { frame0 with ph := { Phase.fresh with released := [.store store1, .add add1] } }
     (refusedMem f 0 1 0x4014).isSome = true ∧ (refusedMem f 1 0 0x8004).isSome = true) := by decide +kernel
/-- A load, a store and an atomic of another package's bytes, nothing had of them; and a request that was refused. -/
theorem witness_FabricTraffic_waits : let s := farState (curFrame (regState (at2 4088) 7))
    genGoes (genXlate s (effAddr (gen0 s) 5 0) (loadLen .ld) causeLoadAlign needR) (fun bs das _ => bs.isEmpty && decide (das.length = 8) && !decide (ReadsHad s das .fr)) = true ∧
    genGoes (genXlate s (effAddr (gen0 s) 5 0) (storeLen .sd) causeStoreAlign needW) (fun bs das _ => bs.isEmpty && decide (das.length = 8) && !decide (WritesHad s das)) = true ∧
    genGoes (genXlate s (rx (gen0 s) 5) 8 causeStoreAlign needRW) (fun bs das _ => bs.isEmpty && decide (das.length = 8) && !decide (WritesHad s das)) = true ∧
    (remNow (curFrame s)).err = none ∧
    (let f : Frame := { curFrame s with rem := some { pc := (gen0 s).pc, ret := (gen0 s).instret, got := [], err := some .permission } }
     (remNow f).err = some .permission ∧ (genGoes (genXlate (farState f) (effAddr (gen0 s) 5 0) (loadLen .ld) causeLoadAlign needR) fun _ das _ =>
       !decide (ReadsHad (farState f) das .fr)) = true) := by decide +kernel
theorem witness_Attestation : (5 ≤ SpdmState.established.rank ∧ SpdmState.keyExchanged.rank < 5 ∧ SpdmState.none.rank < 1 ∧ SpdmState.negotiated.rank = 3) ∧
    SpdmState.keyExchanged ≠ .established ∧ (1 < 2 ∧ 2 ≤ (2 : Nat)) := by decide
theorem witness_OperandCells : (63 : Nat) < 64 ∧ (⟨false, 2, 1023⟩ : Opd).dir = 2 ∧ (⟨false, 1, 64⟩ : Opd).dir = 1 := by decide
/-! ### Witnesses: further clauses -/

/-- A halfword that is illegal: by what the C extension reserves. -/
def cBad (h : BitVec 16) : Bool := decide (fld h 0 2 ≠ 3) && decide (decodeBytes (natBytes h.toNat 2) = (.illegalInstruction (h.zeroExtend 32), 2))
theorem witness_GeneratorEncodeDecode_words : CustomWord 0x0010500B ∧ CustomWord 0x0000730B ∧ CustomWord 0x5292862B ∧
    CustomWord 0x0080655B ∧ CustomWord 0x0200307B ∧ ¬ CustomWord 0x0200100B ∧ ¬ CustomWord 0x0090655B ∧ ¬ CustomWord 0x0000755B ∧ ¬ CustomWord 0x0000407B := by
  refine ⟨?_, ?_, ?_, ?_, ?_, ?_, ?_, ?_, ?_⟩ <;> simp [CustomWord, fld]
theorem witness_GeneratorEncodeDecode_fences : fld (0x8FF0908F#32) 0 2 = 3 ∧ decodeBytes (natBytes 0x8FF0908F 4) = (.fenceI, 4) := by decide +kernel
theorem witness_GeneratorEncodeDecode_halves : [0, 0x2000, 0x8000, 0xA000, 0x2001, 0x6001, 0x9C41, 0x2002, 0x4002, 0x8002].map cBad =
    List.replicate 10 true ∧ cBad 0x4505 = false ∧ cBad 0x6105 = false ∧ cBad 0x9C01 = false := by decide +kernel
/-- Words of each slot that decode, and words that differ from them in one field and do not. -/
theorem witness_SlotEncodeDecode_words : SlotWord .bead 0x017C100000000000 ∧ ¬ SlotWord .bead 0x017C100000000001 ∧
    SlotWord .control 0x010400C600000000 ∧ ¬ SlotWord .control 0x0500000000000001 ∧ ¬ SlotWord .copy 0x0800000000000000 ∧
    SlotWord .copy 0x0102219000000000 ∧ ¬ SlotWord .vector 1 ∧ SlotWord .vector 0x01001000C0880050 ∧ ¬ SlotWord .vector 0x01001000C0880250 := by
  refine ⟨?_, ?_, ?_, ?_, ?_, ?_, ?_, ?_, ?_⟩ <;> simp [SlotWord, BeadWord, VectorWord, CopyWord, ControlWord, fld, Machine.Zero, fbit, SrcAt, DstAt, dirAt]
/-- FENCE: R alone, W before W, W before R, TSO, and sets with neither. -/
theorem witness_FenceEffect_kinds : fenceKind 0 2 3 = some .acq ∧ fenceKind 0 1 1 = some .rel ∧ fenceKind 0 1 2 = some .sc ∧
    fenceKind 8 3 3 = some .ar ∧ fenceKind 8 3 1 = some .rel ∧ fenceKind 0 0xC 3 = none ∧ fenceKind 8 0xF 0xC = none := by decide

/-- Handle 6 has an extension record at `a`: in another package whose ports are trained, or on a die under warm reset. -/
def extState (a : Word) : State :=
  let w := (record 6 0x18000 0).words
  { tableState 0 with
    mem := putWords 768 ((w.set 0 (fput (w.getD 0 0) 30 4 7)).set 4 a) [], dies := [(0, { Die.fresh with useBase := 1, useLen := 8 }), (1, { Die.fresh with st := .offline })]
    hub := { Hub.fresh with trained := 8, peers := [(0, 0x8000000000000000), (1, 8)] } }
/-- Every selector of GSELF, its words sound and not. -/
theorem witness_IdentityAndRecords_far : (lookOf (extState 0xC00000004000) 6, lookOf (extState 0x1000004000) 6) = (6, 5) ∧ homeOf (curTcb (tableState 0)) ≠ 4 ∧
    (∀ i ∈ [0, 2, 3, 4], ∀ j, j < 8 → (curTcb (tableState 0) + 8 * i + j) / 32 ∉ (tableState 0).poison) ∧
    (let s := { tableState 0 with poison := [0x3000 / 32] }; ∀ i ∈ [0, 2, 3], (curTcb s + 8 * i + 0) / 32 ∈ s.poison) := by decide +kernel
/-- A frame that waits for room in the event ring. -/
def ringHeld (f : Frame) : Frame := { f with disp := { f.disp with evHeld := 1 } }
theorem witness_EmitQueue_held : let f := ringHeld { queued 511 [] with gen := { Gen.fresh with stall := some (.emit 1 image05) } }
    f.gen.stall = some (.emit 1 image05) ∧ f.seq.queue.length < 512 ∧ f.disp.evHeld ≠ 0 := by decide +kernel
/-- A GWAIT waiting while the ring is full; its MEM entry reads bytes of another package. -/
theorem witness_GroupWaits_held : let f := ringHeld { frame0 with gen := { Gen.fresh with stall := some (.gwait true 5 (blockW 0) none) } }
    f.gen.stall = some (.gwait true 5 (blockW 0) none) ∧ f.disp.evHeld ≠ 0 ∧
    stops (farState frame0) ([0x010C800000000000, at2 0, 0, 0] ++ List.replicate 12 0) (fun f => decide (f.gen.stall = some .remote)) = true := by decide +kernel

/-- A record whose completion word lies in another package: before it is asked for, refused, and with the answer. -/
def farLaunch (rem : Option Remote) : State :=
  let s := launchState [] none
  { s with frames := [(0, { curFrame s with rc := [{ recordX with handle := 3 }, farRec], rem := rem })], hub := { s.hub with trained := 8, peers := [(0, 0x8000000000000000), (1, 8)] } }
def farW : List Word := [5, BitVec.ofNat 64 (3 * 2 ^ 44), BitVec.ofNat 64 (3 * 2 ^ 44), 0, at2 8, 0, 0, 0]
def doneXl : HeldXl := { addr := at2 8, len := 8, code := false, das := (upto 8).map (0xC00000004008 + ·), gen := 9, die := 0 }
def farGoes (s : State) (p : State → Bool) : Bool :=
  match farDone s 0 0 farW with | some (ds, x) => decide (ds.length = 8) && decide (¬ Near ds) && p x | none => false
theorem witness_LaunchAndExit_far :
    farGoes (farLaunch none) (fun x => decide ((remNow (curFrame x)).err = none) && decide ((remNow (curFrame x)).got = [])) = true ∧
    farGoes (farLaunch (some { pc := 0, ret := 0, got := [], err := some .permission })) (fun x => decide ((remNow (curFrame x)).err = some .permission)) = true ∧
    (let f := curFrame (farLaunch (some { pc := 0, ret := 0, got := doneXl.das, err := none, held := [doneXl], launch := farW }))
     (remNow f).launch ≠ [] ∧ heldXl f (wd (remNow f).launch 4) 8 false = some doneXl ∧ doneXl.das.length = 8 ∧ ¬ Near doneXl.das ∧
     (remNow f).err = none ∧ ∀ b ∈ doneXl.das, b ∈ (remNow f).got) ∧
    (remNow (curFrame (farLaunch (some { pc := 0, ret := 0, got := [], err := some .homeOffline, held := [doneXl], launch := farW })))).err = some .homeOffline ∧
    launchesOut (farLaunch none) = [] := by decide +kernel
/-- Additions at DONE awaited: a launch of the aperture's slot 1, and the end of the thread; their answers. -/
def doneOf (n : Nat) : Outstanding := { frame := 0, n := n, work := 10, flit := { port := 3, ty := 5, tag := 7, part := 0, rel := true, poison := false, addr := 0xC00000004008, data := [] } }
theorem witness_LaunchAndExit_answers : let s (n : Nat) : State := { farLaunch none with edge := { Edge.fresh with flitsWait := [doneOf n] } }
    doneOut (s 3) 3 = true ∧ doneOut (s 1) 3 = false ∧ doneOut (s (2 * 0x3000)) (2 * 0x3000) = true ∧
    (farDone (launchState [] none) 0 0 (launchW 2)).isNone = true ∧ (farDone (farLaunch none) 0 0 farW).isSome = true ∧
    tget ([(3, 0), (5, 4)] : Tbl Nat) 3 = some 0 ∧ tget ([(3, 0), (5, 4)] : Tbl Nat) 5 = some 4 ∧ tget ([(3, 0)] : Tbl Nat) 1 = none := by decide +kernel
/-- The record at DONE has its extension in another package, and has not come. -/
theorem witness_LaunchAndExit_asks : let s := exiting 6 true
    decOf { s with mem := putWords 0x3020 [BitVec.ofNat 64 (6 * 2 ^ 44)] (extState 0xC00000004000).mem, hub := (extState 0xC00000004000).hub } = 4 := by decide +kernel

/-- Words no slot admits, a slot left out, six active loops, and a body one bundle too long for the one around it. -/
theorem witness_BundleIssue_bad : Zero (0xA00F000000000000#64) 0 45 ∧ ¬ Zero (0xFFFFFFFFFFFFFFFF#64) 0 45 ∧
    (∀ sl ∈ [SlotName.bead, .vector, .copy, .control], ¬ SlotWord sl 1) ∧ (∀ sl : SlotName, SlotWord sl 0) ∧
    ({ hdr := 0, bead := some 1, vec := none, copy := none, ctl := none } : Bundle).word .bead = some 1 ∧
    (let q : Seq := { Seq.fresh with loops := List.replicate 6 { iter := 0, cnt := 1, len := 9, start := 0 } }
     fld (0x010400C600000000#64) 56 8 = 1 ∧ ¬ q.loops.length < 6) ∧
    (let q (n : Nat) : Seq := { Seq.fresh with cursor := 1, loops := [{ iter := 0, cnt := 1, len := n, start := 0 }] }
     (q 4).loops.length < 6 ∧ (q 4).cursor + 1 + (fld (0x010400C600000000#64) 49 7 + 1) ≤ 0 + 4 + 1 ∧
     ¬ (q 3).cursor + 1 + (fld (0x010400C600000000#64) 49 7 + 1) ≤ 0 + 3 + 1) := by
  refine ⟨by decide, by decide, ?_, ?_, rfl, by decide, by decide⟩
  · simp [SlotWord, BeadWord, VectorWord, CopyWord, ControlWord, fld]
  · simp [SlotWord]
/-- A commit whose first part is already released goes on although a fault stopped the sequencer; an issue that waits for a record
of another package. -/
theorem witness_SequencerEvents_more : let f : Frame := { queued 2 [] with seq := { (queued 2 []).seq with stage := .commit, taken := 1 } }
    (let g : Frame := ringHeld { f with ph := { f.ph with released := List.replicate 255 (.store store1), stores := [store1], snap := { f.ph.snap with issueNo := f.seq.issueNo } } }
     seqRuns g = false ∧ g.ph.snap.issueNo = g.seq.issueNo ∧ g.ph.stores ≠ [] ∧ commitReady g = true) ∧
    (slotQ (heldFrame (.record 6 0 [0x180000080])).seq .vector).hold = some (.record 6 0 [0x180000080]) ∧
    headOf (heldFrame (.record 6 0 [0x180000080])) .vector = some (issue 0x1A00002002001800) := by decide +kernel
/-- A vector load that has not ended, an operation that writes frame SRAM. -/
theorem witness_ControlWords_waits : (let f : Frame := { ctlFrame 0 with seq := { (ctlFrame 0).seq with qv := { q := [issue 1], hold := none } } }
      f.seq.cur = some (cur1 0) ∧ controlDue f = true ∧ queuesEmpty f = false) ∧ cntLD (ctlFrame 0) ≤ (0 : BitVec 8).toNat ∧ (255 : BitVec 8) = 255 := by decide +kernel
/-- Writes of the open phase out, and those of a committed one; an event holds the frame; the generator waits on a peer. -/
def flying (work n : Nat) : Outstanding := { frame := 0, n := n, work := work, flit := { port := 3, ty := 3, tag := 7, part := 0, rel := false, poison := false, addr := 0xC00000004000, data := [1] } }
theorem witness_RollbackAndDelivery_holds : let s (l : List Outstanding) : State := { stateOf (faulted .residency) with edge := { Edge.fresh with flitsWait := l } }
    writesOut (s [flying 3 1]) = true ∧ writesOut (s [flying 8 1]) = true ∧ writesOut (s []) = false ∧ writesOut (s [flying 0 1]) = false ∧
    (faulted .residency).disp.evHeld = 0 ∧ (ringHeld frame0).disp.evHeld ≠ 0 ∧ remBusy frame0 = false ∧
    (∃ x ∈ ([{ f := { p := 2, s := 4 }, lim := 0 }] : List StreamFence), x.lim ≤ (faulted .outOfShape).ph.snap.issueNo) := by
  refine ⟨by decide +kernel, by decide +kernel, by decide +kernel, by decide +kernel, by decide +kernel, by decide +kernel, by decide +kernel, ⟨_, List.mem_singleton.mpr rfl, by decide⟩⟩

/-- Inexact and exact seeds, one of a value next to 1, a subnormal one, one that overflows, at F32 and at BF16. -/
def decodes (f : FFmt) (b m : Nat) (e : Int) : Bool := decide (b < 2 * f.sign) && decide (fdec f b = .fin false m e) && decide (m ≠ 0)
def inBinade (m : Nat) (e q : Int) (k : Nat) : Bool := decide (¬ Below 1 0 m (e + k * q)) && decide (Below 1 0 m (e + k * q + k))
theorem witness_LaneOperations_seeds :
    (decodes fmtF32 0x40400000 12582912 (-22) = true ∧ inBinade 12582912 (-22) (-2) 1 = true ∧ inBinade 12582912 (-22) (-1) 2 = true) ∧
    (decodes fmtF32 0x40000000 8388608 (-22) = true ∧ inBinade 8388608 (-22) (-1) 1 = true) ∧
    (decodes fmtF32 0x3F800001 8388609 (-23) = true ∧ inBinade 8388609 (-23) (-1) 1 = true) ∧
    (decodes fmtF32 0x7F7FFFFF 16777215 104 = true ∧ inBinade 16777215 104 (-128) 1 = true ∧ inBinade 16777215 104 (-64) 2 = true) ∧
    (decodes fmtF32 1 1 (-149) = true ∧ inBinade 1 (-149) 149 1 = true ∧ inBinade 1 (-149) 74 2 = true) ∧
    (decodes fmtBF16 0x4040 192 (-6) = true ∧ inBinade 192 (-6) (-2) 1 = true) ∧
    (decodes fmtBF16 1 1 (-133) = true ∧ inBinade 1 (-133) 133 1 = true) := by decide

/-- Port 1 streams 16 bytes a position into frame SRAM from 0x300 on, or past the image of the scratchpad; `n` rows are logged. -/
def portFrame (a0 : Nat) (n : Nat) : Frame := { frame0 with
  vec := { Vec.fresh with psets := [(8, BitVec.ofNat 64 (0x2000000000000000 + a0)), (9, 16), (12, 16)] },
  ph := { Phase.fresh with undo := (upto n).map fun r => (100 + r, none) } }
def portRun (f : Frame) : List Nat ⊕ Int := spadList f false ((upto 16).map fun (i : Nat) => (fld (psetWord f.vec 1 0) 0 22 : Int) + (i : Int))
theorem witness_RowDelivery_ports : let f := portFrame 0x300 0
    (setKind f.vec (q 1).port = 2 ∧ setValid f.vec (q 1).port = true ∧ fld (psetWord f.vec 1 4) 0 9 = 16 ∧ Memory.wf f.sram.cells = true ∧
      listed (portRun f) (fun as => decide (as = (upto 16).map (0x300 + ·))) = true) ∧
    (match portRun (portFrame 0x3FFFF0 0) with | .inr x => decide (x = 0x3FFFF0) | .inl _ => false) = true ∧
    setValid frame0.vec (q 1).port = false ∧ (let g : Vec := { Vec.fresh with psets := [(8, 0x4000000000000200)] }; setValid g 1 = true ∧ setKind g 1 ≠ 2 ∧ setKind g 1 ≠ 3) ∧
    (let logs (n r : Nat) := (sortUniq [r]).filter fun r => decide (r ∉ (portFrame 0 n).ph.undo.map Prod.fst)
     256 < (portFrame 0 256).ph.undo.length + (logs 256 1).length ∧ (portFrame 0 256).ph.undo.length + (logs 256 100).length ≤ 256 ∧
     (portFrame 0 255).ph.undo.length + (logs 255 1).length ≤ 256) := by decide +kernel
/-- −2.5 to an integer, by each mode; 300, past the range of S8; 3, exactly. -/
theorem witness_ReduceAndConvert_values : fdec fmtF32 0xC0200000 = .fin true 0xA00000 (-22) ∧ fdec fmtF32 0x43960000 = .fin false 0x960000 (-15) ∧
    fdec fmtF32 0x40400000 = .fin false 0xC00000 (-22) ∧ fdec fmtF16 0x7E00 = .nan ∧ fdec fmtF16 0xFC00 = .inf true ∧
    RoundsTo .rne true 0xA00000 (-22) (-2) ∧ RoundsTo .rtz true 0xA00000 (-22) (-2) ∧ RoundsTo .rup true 0xA00000 (-22) (-2) ∧
    RoundsTo .rdn true 0xA00000 (-22) (-3) ∧ RoundsTo .rne false 0x960000 (-15) 300 ∧ RoundsTo .rne false 0xC00000 (-22) 3 ∧
    Alike 3 0 0xC00000 (-22) ∧ max (-128) (min 127 (300 : Int)) ≠ 300 := by
  refine ⟨by decide, by decide, by decide, by decide, by decide, ⟨2, ?_⟩, ⟨2, ?_⟩, ⟨2, ?_⟩, ⟨2, ?_⟩, ⟨300, ?_⟩, ⟨3, ?_⟩, by decide, by decide⟩ <;> decide
/-- The elements of the blocks: the most negative one, under scales 0xFF, 0xFE and 0xFD; lists with a NaN, of zeros, and of 2.5
and −1 and a subnormal, whose scales are those of 2^1 and 2^−127. -/
theorem witness_ReduceAndConvert_blocks : ([(ElemType.mx8, 8), (.mx6, 6), (.mx4, 4)] : List (ElemType × Nat)).map (fun x => (BitVec.ofNat x.2 (2 ^ (x.2 - 1))).toInt) = [-128, -32, -8] ∧
    (∃ x ∈ [FVal.nan, .fin false 0 0], x = .nan) ∧ (∀ x ∈ [FVal.fin true 0 (-149)], ∀ n m e, x = .fin n m e → m = 0) ∧
    (Below 0xA00000 (-22) 1 (1 + 1) ∧ Below 0x800000 (-23) 1 (1 + 1) ∧ ¬ Below 0xA00000 (-22) 1 1) ∧
    (Below 1 (-149) 1 (-149 + 1) ∧ ¬ Below 1 (-149) 1 (-149) ∧ max (-149) (-127 : Int) = -127) ∧
    (List.replicate 64 (-32 : Int)).length = 64 := by
  refine ⟨by decide, ⟨.nan, by simp, rfl⟩, by simp, by decide, by decide, by decide⟩
/-- An earlier BSWAP in the bead slot holds no VFLAGS; an earlier BCAL holds one of staleness flags, not one of clip flags. -/
theorem witness_ReduceAndConvert_flags : let b (w : Word) : SlotIssue := { issue w with n := 0 }
    (∀ x ∈ [b 0x0400000000000000], flagWork 2 x.w = false ∧ flagWork 3 x.w = false) ∧ flagWork 2 0x0520700000000000 = true ∧
      flagWork 3 0x0520700000000000 = false := by decide +kernel

/-- A full undo log that holds the rows of a step, of a write-back and of a BCALR already; the rows that an adding step reads. -/
theorem witness_BeadStep_logged : let s := beadState (.bstep bs1) BArr.fresh
    let full (r0 : Nat) : Frame := { curFrame s with ph := { Phase.fresh with undo := (upto 256).map fun r => (r0 + r, none) } }
    ((full 256).ph.undo.length + ((sortUniq (stepRows 0x101 1)).filter fun r => decide (r ∉ (full 256).ph.undo.map Prod.fst)).length ≤ 256) ∧
    ¬ ((full 0).ph.undo.length + ((sortUniq (stepRows 0x101 1)).filter fun r => decide (r ∉ (full 0).ph.undo.map Prod.fst)).length ≤ 256) ∧
    ((full 0).ph.undo.length + ((sortUniq [3]).filter fun r => decide (r ∉ (full 0).ph.undo.map Prod.fst)).length ≤ 256) ∧
    (¬ (full 0).ph.undo.length < 256 ∧ (v 5).idx.toNat ∈ (full 0).ph.undo.map Prod.fst) ∧ 256 ∈ stepRows 0x101 1 := by decide +kernel
/-- An operation of n whose bytes lie on die 1, which another partition has taken; writes behind a withheld add-reduce: a release, one of
its bytes, one elsewhere, and a counter. -/
def farOp (kind : CKind) (ord : Ordering4) (got : Bool) (a : Nat) : COp := { n := 1, kind := kind, src := [.glob a 0], dst := [.glob a 0], vals := [1], badv := [], got := got, ord := ord, scope := .pkg, handleA := 2, handleB := 0, genA := 9, genB := 0, issue := issue 0 }
def addState (o : COp) : State := stateOf { frame0 with cpe := { Cpe.fresh with ops := [o] }, ph := { Phase.fresh with adds := [add1] } }
theorem witness_CopyCompletes_lost : let o := farOp .box .rlx false 0x1000000000
    let s : State := { stateOf { frame0 with cpe := { Cpe.fresh with ops := [o] } } with dies := [(1, { Die.fresh with part := 1 })] }
    Memory.wf s.mem = true ∧ (curFrame s).cpe.ops[0]? = some o ∧ o.got = false ∧ opInBS o = false ∧ reaches s 0x1000000000 = false ∧
    locsMeet (curFrame s).sram o.src (earlierLocs (curFrame s) 0 o.n) = false ∧ reaches s 0x4000 = true := by decide +kernel
theorem witness_CopyCompletes_behind :
    ((∀ a i, CKind.fill ≠ .ctr a i) ∧ (∃ c ∈ [add1], c.n < 1) ∧ landed (curFrame (addState (farOp .fill .rlx true 0x8004))) = false ∧
      locsMeet Sram.fresh [.glob 0x8004 0] (heldAdds (curFrame (addState (farOp .fill .rlx true 0x8004))) 1) = true ∧
      locsMeet Sram.fresh [.glob 0x8010 0] (heldAdds (curFrame (addState (farOp .fill .rlx true 0x8010))) 1) = false) ∧
    addsBefore (curFrame (addState (farOp .fill .rel true 0x8010))) 0 = [] ∧ (farOp .fill .rel true 0x8010).ord = .rel := by
  refine ⟨⟨fun a i => by simp, ⟨add1, by simp, by decide⟩, by decide +kernel, by decide +kernel, by decide +kernel⟩, by decide +kernel, rfl⟩
/-- A control block with an uncorrectable word; one in the partition and one past it; an end that must wait. -/
theorem witness_SlotTableCommands_reach : let s := bindState 0 0 .fresh
    tcbBad s 0x3000 0 = false ∧ tcbBad { s with poison := [0x3000 / 32] } 0x3000 0 = true ∧
    (inPartition s 0 0x3000 = true ∧ inPartition s 0 (0x3000 + 255) = true) ∧ inPartition s 0 (0x3000000000 + 0x3000) = false ∧
    tcbAway { s with dies := [(0, { dieOf s 0 with st := .offline })] } 0x3000 = true := by decide +kernel
/-- An image whose area stands, one whose die has left the partition, and one with a first word that is uncorrectable. -/
theorem witness_ThreadEntry_image : let b : BindRec := { run7 with image := true, area := 0x100000, areaLen := 1 }
    let s := stateOf (standFrame true)
    imageStands s 0 b = true ∧ imageStands { s with dies := [(0, { Die.fresh with part := 1 })] } 0 b = false ∧
    imageStands { s with poison := [0x100000 / 32], mem := putWords 0x100008 [4096] [] } 0 b = false ∧ (frameOf s 0).disp.evHeld = 0 := by decide +kernel
/-- A cancelled write of another package's bytes; an event that holds the frame. -/
theorem witness_ThreadStop_waits : let s (l : List Outstanding) : State := { stateOf (stopping .kill true 0) with edge := { Edge.fresh with parked := l } }
    let out (work : Nat) : Outstanding := { frame := 0, n := 9, work := work, flit := { port := 3, ty := 3, tag := 7, part := 0, rel := false, poison := false, addr := 0, data := [] } }
    cancelledOut (s [out 3]) = true ∧ cancelledOut (s [out 8]) = true ∧ cancelledOut (s [out 0]) = false ∧ (stopping .kill false 0).disp.evHeld = 0 ∧
    remBusy (stopping .kill false 0) = false ∧ remBusy { stopping .kill false 0 with gen := { Gen.fresh with stall := some .remote } } = true := by decide +kernel
/-- A line of a covered record, and of a bank fetched through a covered handle, awaited; none; a fetch through another handle. -/
theorem witness_ManagementRegisters_out : let one : Word := mk64 [(63, 1, 1), (20, 20, 2), (0, 20, 2)]
    let bank : Bank := { Bank.fresh with src := .object 2 9 [] }
    let f : Frame := { frame0 with bead := { Bead.fresh with arrays := [(63, { BArr.fresh with b1 := bank })] }, disp := { frame0.disp with fetch := [(63, true)] } }
    let s (l : List Outstanding) : State := { stateOf f with edge := { Edge.fresh with flitsWait := l } }
    let out (work n : Nat) : Outstanding := { frame := 0, n := n, work := work, handle := n, flit := { port := 3, ty := 1, tag := 7, part := 0, rel := false, poison := false, addr := 0, data := [] } }
    fetchesOut (s [out 11 2]) 0 one = true ∧ fetchesOut (s [out 12 127]) 0 one = true ∧ fetchesOut (s []) 0 one = false ∧ fetchesOut (s [out 11 3]) 0 one = false ∧
    (∀ p ∈ f.disp.fetch, bankHandle (bankOf (arrOf f p.1) p.2) = 2) ∧ invalCovers one 2 = true ∧ invalCovers one 3 = false ∧
    (tgetD (s []).hub.apert (apertKey 0 3 8) 0).getLsbD 63 = false ∧ (heldFrame (.migrating 2)).seq.qv.hold.bind Hold.record? = some 2 := by decide +kernel

/-- A slot that holds no image; and one with a Svaken image of no bytes, SVN 1 and any VERSION, whose signature bytes are `sg`: it
counts as signed when they verify under the release key, which Config leaves open. -/
def flashHdr : Mem :=
  let hdr : List Byte := leOf 0x4E57564F 4 ++ [1, 0, 2, 0] ++ leOf 0 8 ++ leOf 1 4 ++ [0, 0, 0xFF, 0xFF] ++ (shake256 []).flatMap wordBytes
  (upto hdr.length).zip hdr
def flashOf (sg : Nat → Byte) : Mem := flashHdr ++ (upto 114).map fun i => (88 + i, sg i)
theorem tget_append (l r : Mem) (a : Nat) (h : (tget l a).isSome = true) : tget (l ++ r) a = tget l a := by
  induction l with
  | nil => simp [tget] at h
  | cons e l ih =>
    obtain ⟨k, x⟩ := e
    simp only [List.cons_append, tget] at h ⊢
    split <;> simp_all
theorem flash_read (sg : Nat → Byte) (a n : Nat) (h : a + n ≤ 88) : memRead (flashOf sg) a n = memRead flashHdr a n := by
  have all : ∀ a, a < 88 → (tget flashHdr a).isSome = true := by decide +kernel
  induction n generalizing a with
  | zero => rfl
  | succ n ih => simp [memRead, memGet, tgetD, flashOf, tget_append _ _ a (all a (by omega)), ← ih (a + 1) (by omega)]
theorem witness_ResetAndUpdate_unsigned : verdict State.reset = .badSignature ∧ State.reset.hub.op = none ∧ VerifyResult.good ≠ verdict State.reset ∧
    imageSigned State.reset State.reset.hub.hubNext 1 = false := by decide +kernel
theorem witness_ResetAndUpdate_signed (s : State) (sg : Nat → Byte) (r : recordNames s = true)
    (h : edVerify Config.releaseKey (memRead (flashOf sg) 0 88) (memRead (flashOf sg) 88 114) = true) : imageSigned s (flashOf sg) 2 = true := by
  have k : leNat (memRead flashHdr 0 4) = 0x4E57564F ∧ leNat (memRead flashHdr 4 2) = 1 ∧ leNat (memRead flashHdr 6 2) = 2 ∧
      leNat (memRead flashHdr 8 8) = 0 ∧ (shake256 []).flatMap wordBytes = memRead flashHdr 24 64 := by decide +kernel
  have e : imageBody (flashOf sg) = [] := by rw [imageBody, flash_read sg 8 8 (by omega), k.2.2.2.1]; rfl
  simp only [imageSigned, ovwenSigned, e, r, Bool.and_true]
  simp only [drop_memRead, take_memRead]
  rw [flash_read sg 0 88 (by omega)] at h
  simp [h, flash_read, k.1, k.2.1, k.2.2.1, k.2.2.2.1, k.2.2.2.2]
/-- A die whose requests on the fabric are others than those for records and banks, when its reset starts; a frame in a cool-down. -/
theorem witness_WarmReset_flits : (∀ o ∈ [out1 0 1 9, out1 10 1 10], o.work < 11) ∧ ¬ (∀ o ∈ [out1 11 1 9], o.work < 11) ∧ dieIdle State.reset 3 = true := by decide +kernel
theorem witness_SupplyStates_cool : ({ Clocks.fresh with cool := some 9 } : Clocks).cool.isSome = true ∧ ({ Disp.fresh with gated := true } : Disp).gated = true := by decide
/-- An integer and an FP32 atomic of a peer; a completion word's, a record's and a code line's answer; a request that has a trained port
now and one that has not; the failed replays that the limit lets pass, and the next. -/
theorem witness_FabricTraffic_more : (flit1.fp = false ∧ { flit1 with fp := true, data := [0, 0, 0, 0] }.data.length = 4 ∧ { flit1 with fp := true }.amo = .add) ∧
    (∀ w ∈ [9, 10, 11, 12], ([out1 w 1 9].find? (fun o => decide (o.flit.tag = flit1.tag))).map Outstanding.work = some w) ∧
    ((out1 10 1 9).flit.data.length = 8 → False) ∧ ({ out1 10 1 9 with flit := { (out1 10 1 9).flit with data := wordBytes 1 } }).flit.data.length = 8 ∧
    (let o : Outstanding := { out1 0 1 9 with entry := 0 }
     let s : State := farState frame0
     (o.portNow s).isSome = true ∧ o.portNow State.reset = none ∧ o.portNow { s with hub := { s.hub with trained := 0 } } = none) ∧
    (tgetD ([(3, 16)] : Tbl Nat) 3 0 < 17 ∧ 17 ≤ tgetD ([(3, 17)] : Tbl Nat) 3 0) ∧ (5 ∈ ({ frame0 with codeHad := [5] } : Frame).codeHad ∧ 5 ∉ frame0.codeHad) := by decide +kernel
/-- The bytes of a load of another package that an error names, its second, and the atomic of a refused lane; a translation held. -/
theorem witness_FabricTraffic_refused : (let x : Far := { das := [0xC00000004014, 0xC00000004018], offs := [20, 24], idx := [0, 4], own := [], ord := .rlx, scope := .pkg, amo := none }
      x.das[1]? = some 0xC00000004018 ∧ (0xC00000004018 ≤ 0xC00000004018 ∧ 0xC00000004018 < 0xC00000004018 + 4) ∧
      ∀ j b, j < 1 → x.das[j]? = some b → b < 0xC00000004018 ∨ 0xC00000004018 + 4 ≤ b) ∧
    (let f : Frame := { frame0 with rem := some { pc := frame0.gen.pc, ret := frame0.gen.instret, got := [], err := none, held := [doneXl] } }
     (at2 8).toNat % 8 = 0 ∧ heldXl (curFrame (stateOf f)) (at2 8) 8 false = some doneXl) := by
  refine ⟨⟨rfl, by decide, ?_⟩, by decide +kernel⟩
  intro j b hj h
  have : j = 0 := by omega
  subst this; simp at h; omega

/-- An SC whose write another package has been asked for, and has made; one of whose line no reservation is left. -/
theorem witness_StoreEffect_asked : let s := farState { (curFrame (regState (at2 8) 7)) with
      rem := some { pc := (gen0 (regState (at2 8) 7)).pc, ret := (gen0 (regState (at2 8) 7)).instret, got := doneXl.das, err := none, held := [doneXl] } }
    heldXl (curFrame s) (rx (gen0 s) 5) 8 false = some doneXl ∧ WritesHad s doneXl.das ∧ (gen0 s).resv = none ∧
    genGoes (genXlate s (rx (gen0 s) 5) 8 causeStoreAlign needW) (fun bs das _ => bs.isEmpty && decide (das = doneXl.das)) = true := by decide +kernel

/-! ### Witnesses: clauses of the last review -/

/-- Halfwords of the C extension and what they stand for: C.LI, C.ADDI16SP, C.SUB, C.J, C.SWSP. -/
theorem witness_GeneratorEncodeDecode_compressed : ∀ h ∈ [0x4505, 0x6105, 0x8C09, 0xA001, 0xC006],
    fld (BitVec.ofNat 16 h) 0 2 ≠ 3 ∧ decodeBytes (natBytes h 2) = (compressed (BitVec.ofNat 16 h), 2) := by decide +kernel
/-- The code at handle 6 has its record's extension in another package; that of handle 5 before it is near. -/
def askState (pc : Nat) (im : Mem) : State :=
  let e := { recordX with handle := 5, words := ((recordX.words.set 0 (fput (recordX.words.getD 0 0) 28 2 2)).set 1 0x800000000000).set 14 0x100000000000 }
  before { onCur (extState 0xC00000004000) (fun f => { f with rc := [e], gen := { f.gen with pc := BitVec.ofNat 64 pc, imem := im } }) with turns := [.gen 0] }
theorem witness_StepRunsDecoded_ask : let s := askState
    let asks (s : State) (a : Word) : Bool := match fetchHalf s a with | (.inr .ask, _) => true | _ => false
    let t := s 0x5FFFFFFFFFFE [(0x8FFFFFFFFFFE, 3)]
    (genRuns (curFrame (s 0x600000000000 [])) = true ∧ asks (s 0x600000000000 []) (curFrame (s 0x600000000000 [])).gen.pc = true) ∧
    genRuns (curFrame t) = true ∧ fetched t (curFrame t).gen.pc = true ∧ fetchedShort t (curFrame t).gen.pc = false ∧
    asks (fetchHalf t (curFrame t).gen.pc).2 ((curFrame t).gen.pc + 2) = true := by decide +kernel
/-- A store that accesses of both paths may precede, before a GFENCE.X from G to V and C. -/
theorem witness_FenceEffect_late : let f : Frame := { frame0 with late := [{ addr := 5, old := 1, v := .behind, c := .behind }] }
    fenceVoid 1 0xA = false ∧ (0xA : BitVec 4) &&& 0xE ≠ 0 ∧ fbit (1 : BitVec 4) 0 = true ∧ fbit (0xA : BitVec 4) 1 = true ∧ fbit (0xA : BitVec 4) 3 = true ∧
    ((7 : BitVec 32) - f.gen.emitSer).toNat < 2 ^ 31 ∧ (∀ c ∈ [true, false], (lateAt f c 7 5).length = 1) ∧
    (lateAt f false 7 5).all (fun x => decide (x.v = .behind)) = true ∧ (lateAt f true 7 5).all (fun x => decide (x.c = .behind)) = true := by decide +kernel
/-- A load and an atomic of another package's bytes, with their replies: what came is kept with the instruction. -/
theorem witness_LoadEffect_had : let s := farState { (curFrame (regState (at2 8) 7)) with
      rem := some { pc := 0, ret := 0, got := doneXl.das ++ [0xC00000004000], err := none, held := [doneXl], had := { bytes := [(0xC00000004008, 9)] } } }
    genGoes (genXlate s (rx (gen0 s) 5) 8 causeLoadAlign needR) (fun bs das _ => bs.isEmpty && decide (das = doneXl.das) &&
      decide (ReadsHad s das .sys) && !loadBad (heardRead s das .sys) (curFrame s).sram das .sys && decide (memSeen (heardRead s das .sys) 0xC00000004008 = 9)) = true ∧
    genGoes (genXlate s (rx (gen0 s) 5) 8 causeStoreAlign needRW) (fun bs das _ => bs.isEmpty && decide (das.length = 8) &&
      !poisoned (heardWrite s das) das && decide (WritesHad s das)) = true := by decide +kernel
/-- A sprint at its limit, before it, and a frame that asked for a divisor below 5 and above it. -/
theorem witness_SprintLife_limits : let c : Clocks := { Clocks.fresh with grant := some 9 }
    c.grant = some 9 ∧ (9 : Nat) ≤ ({ State.reset with time := 9 } : State).time ∧ State.reset.time < 9 ∧ c.cool ≠ some 0 ∧
    Clocks.fresh.exec.toNat < 5 ∧ ¬ (6 : BitVec 6).toNat < 5 := by decide +kernel
/-- The edges of what a block may hold: kinds 4 and 5, a limit of 512 and 513, comparison 5 and 6, ordering 1 and 2, words beside a QUEUE entry. -/
theorem witness_GroupWaits_blocks : [blockW 0x0400000000000000, blockW 0x0300000000000200, 0x0158800000000000 :: List.replicate 15 7, 0x0151800000000000 :: List.replicate 15 0].map blockBad =
      [false, false, true, false] ∧
    [blockW 0, blockW 0x0500000000000000, blockW 0x0300000000000201, blockW 0x0162000000000000, blockW 0x0152000000000000, blockW 0x0200000000001000,
     [0x0300000000000000, 1] ++ List.replicate 14 0].map blockBad = List.replicate 7 true ∧
    usedMask (blockW 0x0400000000000000 |>.set 12 0x0300000000000000) = 9 := by decide +kernel
/-- A block whose entry waits for a record: the evaluation is made again; one that awaits another package; one whose load faults. -/
theorem witness_GroupWaits_again : let m (h : Nat) : List Word := [0x010C800000000000, BitVec.ofNat 64 (h * 2 ^ 44), 0, 0] ++ List.replicate 12 0
    stops (tableState 0) (m 6) (fun f => decide (f.gen.stall = some (.translation 6))) = true ∧
    stops (farState frame0) (m 2) (fun f => decide (f.gen.stall ≠ some (.translation 2)) && remWaits f) = true ∧
    stops (tableState 0) (m 0) (fun f => decide (f.gen.stall = none) && !remWaits f) = true ∧
    (match condEval (tableState 0) (m 6) 0 with | .stop _ => true | .val .. => false) = true := by decide +kernel
/-- Records that fail a check of their form, one for a die of another partition; and each way a byte of one is tried: a handle that is
none, a home that has failed and one that is away, a record that migrates, one in another package, and one that translates. -/
theorem witness_LaunchAndExit_checks : let s := launchState [] none
    (launchIs s ((launchW 2).set 5 1) = 2 ∧ launchIs s ((launchW 2).set 1 (at2 1)) = 2 ∧ launchIs s ((launchW 2).set 2 (at2 4)) = 2 ∧
      launchIs { s with dies := s.dies ++ [(1, { Die.fresh with part := 1 })] } ((launchW 2).set 0 0x45) = 2) ∧
    (let one (s : State) (h : Nat) : Nat := match (tryAll 0 needR [BitVec.ofNat 64 (h * 2 ^ 44)] s).1 with | .pass l => l.length | .notNow => 2 | .fail => 3 | .stall _ => 4
     let e (st : DieState) : State := { s with
       frames := [(0, { curFrame s with rc := [{ record 3 0x1000004000 1 with words := (record 3 0x1000004000 1).words.set 0 (fput ((record 3 0x1000004000 1).words.getD 0 0) 26 2 1) }] })],
       dies := [(0, { Die.fresh with useBase := 1, useLen := 8 }), (1, { Die.fresh with st := st })] }
     (one s 0, one (e .failed) 3, one (e .offline) 3, one s 6, one (extState 0xC00000004000) 6, one s 2) = (3, 3, 2, 4, 4, 1)) := by decide +kernel
/-- A GLAUNCH whose lines have been asked for; a GEXIT with work that a peer refused waiting, and one with none. -/
theorem witness_LaunchAndExit_due : let s := exiting 2 true
    linesAsked { s with edge := { Edge.fresh with flitsWait := [out1 11 2 9] } } 0 = true ∧ linesAsked s 0 = false ∧
    (let f := curFrame s; f.seq.stage = .boundary ∧ countersZero f = true ∧ f.ph.faults = []) ∧
    ({ Phase.fresh with faults := [faultAt .permission] } : Phase).faults ≠ [] := by decide +kernel
/-- A commit that fits and one that does not, of a phase that closes; with a refusal, an event holding the frame and not; with an array that
swaps. -/
theorem witness_SequencerEvents_closing : let f : Frame := { queued 2 [] with seq := { (queued 2 []).seq with stage := .commit, taken := 1 } }
    let g (n : Nat) : Frame := { f with ph := { Phase.fresh with released := List.replicate n (.store store1), stores := [store1], closing := true, faults := [{ faultAt .permission with final := true }] } }
    seqRuns (g 254) = false ∧ commitReady (g 254) = true ∧ farOut (g 254) = false ∧ (g 254).ph.released.length + (g 254).ph.stores.length + (g 254).ph.adds.length ≤ 255 ∧
    ¬ (g 255).ph.released.length + (g 255).ph.stores.length + (g 255).ph.adds.length ≤ 255 ∧
    (ringHeld (g 254)).disp.evHeld ≠ 0 ∧ (g 254).disp.evHeld = 0 ∧ (earliest (g 254).ph.faults).map L2Fault.final = some true := by decide +kernel
/-- Arrays at a rollback: an exposed bank the phase wrote, from ZERO and from an object; one it named and has not filled; one not exposed;
one that fills through a fault of no replay; and a CHECKSUM. -/
theorem witness_RollbackAndDelivery_banks : let wrote : Bank := { Bank.fresh with touched := true }
    let a : BArr := { BArr.fresh with b0 := wrote, b1 := { Bank.fresh with filling := true } }
    let p (c : L2Class) (src : BankSrc) : Phase := { (faulted c).ph with snap := { (faulted c).ph.snap with srcs := [(0, (src, .zero))], actives := 0 } }
    let f (c : L2Class) (src : BankSrc) : Frame := { faulted c with bead := { Bead.fresh with arrays := [(0, a)] }, ph := p c src }
    (∀ c ∈ [L2Class.checksum, .outOfShape], ∀ src ∈ [BankSrc.zero, .object 2 9 []],
      earliest (f c src).ph.faults = some (faultAt c) ∧ rollbackReady (f c src) = true ∧ weightLost (f c src) = false ∧ landed (f c src) = false ∧
      tblFrom 0 (f c src).bead.arrays = true ∧ tblFrom 0 (f c src).vec.rows = true ∧ ((f c src).ph.undo.map Prod.fst).Nodup ∧
      fbit (f c src).ph.snap.actives 0 = false) ∧
    L2Class.checksum.recoverable = true ∧ ({ a with swapped := true }).swapped = true ∧ (a.b1.touched = false ∧ a.b1.filling = true ∧ a.b1.got = false) := by decide +kernel
/-- A log that the issues up to this one overfill, and one that a later issue overfills: the later one takes the fault. -/
theorem witness_RowDelivery_overflow : let e := issue 0
    let me := issueFault e 1 .undoOverflow
    let late : L2Fault := { faultAt .undoOverflow with n := e.n + 1, slot := 0 }
    let f (l : List (L2Fault × Nat)) : Phase := { Phase.fresh with undo := (upto 256).map fun r => (100 + r, none), logs := l }
    let sum (l : List (L2Fault × Nat)) : Nat := (l.map Prod.snd).sum
    (∀ l ∈ [[(late, 6)], []], sum (f l).logs ≤ (f l).undo.length ∧ (f l).logs.Pairwise (fun x y => faultBefore x.1 y.1 = true)) ∧
    (let after := (f [(late, 6)]).logs.filter fun y => faultBefore me y.1
     after = [(late, 6)] ∧ (f []).undo.length + 1 - sum after ≤ 256 ∧ 256 < (f []).undo.length + 1) ∧
    256 < (f []).undo.length + 1 - sum ((f []).logs.filter fun y => faultBefore me y.1) := by decide +kernel
/-- A load of a byte that it may find as it was before a store of the generator; a store and an atomic of another package's bytes, in turn with
another access of their line and not. -/
theorem witness_GlobalAccess_late : (let f : Frame := { frame0 with late := [{ addr := 0x4010, old := 1, v := .behind, c := .behind }] }
      (lateAt f false 7 0x4010).length = 1 ∧ Memory.wf (stateOf f).mem = true ∧ ([0x4010, 0x4011, 0x4012, 0x4013] : List Nat).Nodup ∧ ([0x4010, 0x4011, 0x4012, 0x4013] : List Nat).length = 4) ∧
    (let v : VStore := { store1 with da := 0xC00000004014 }
     let f : Frame := { frame0 with ph := { Phase.fresh with released := [.store v] } }
     let s (l : List Outstanding) : State := { farState f with edge := { Edge.fresh with flitsWait := l } }
     takeFirst relStore f.ph.released = some (v, []) ∧ homesServe (s []) ((storeBytes v).map Prod.fst) = true ∧ (∃ b ∈ storeBytes v, isRemote b.1 = true) ∧
     farBusy (s []) ((storeBytes v).map Prod.fst) = false ∧ farBusy (s [{ flying 0 1 with flit := { (flying 0 1).flit with addr := 0x4000 } }]) ((storeBytes v).map Prod.fst) = true ∧
     farPending { f with vec := { f.vec with loads := [awaited 0 0xC00000004010] } } 1 = true) := by decide +kernel
theorem witness_GlobalAccess_lanes : Memory.wf Sram.fresh.cells = true ∧ ([0x210, 0x211, 0x212, 0x213] : List Nat).length = 4 ∧
    tget ([(33, 0)] : Tbl (BitVec 128)) ((0x210 : Nat) / 16) = some 0 ∧ tget ([] : Tbl (BitVec 128)) ((0x210 : Nat) / 16) = none ∧
    ElemType.f32 ∈ [ElemType.n32, .s32, .f32] := by decide
/-- The bound that a step is sound for: a destination of 1.0, an exact segment and one within 2^0 of its sum, at exponents -10 and -149. -/
theorem witness_BeadStep_bound : let xs : List (List (SegIn × Int)) := [[({ seg := { S := 3, err := .digital }, e := some (-10) }, 3), ({ seg := { S := 3, err := .bound 0 }, e := some (-149) }, 4)]]
    (0x3F800000 : Nat) < 2 ^ 32 ∧ fdec fmtF32 0x3F800000 = .fin false 8388608 (-23) ∧ fdec fmtF32 0 = .fin false 0 (-149) ∧ (-149 : Int) ≤ -149 ∧
    (∀ a ∈ xs, ∀ x ∈ a, ∀ e ∈ x.1.e.toList, (-149 : Int) ≤ e) ∧
    (∀ a ∈ xs, ∀ x ∈ a, (match x.1.seg.err with | .digital => decide (x.2 = x.1.seg.S) | .bound k => decide ((x.1.seg.S - x.2).natAbs ≤ 2 ^ k) | .clipped => false) = true) ∧
    ((1 : Int) * ((8388608 * 2 ^ (-23 - (-149) : Int).toNat : Nat) : Int) - 2 ^ 149).natAbs = 0 := by decide +kernel
/-- Writes for one cell twice, the last of which stands; and a step whose first array passes and whose second fails. -/
theorem witness_BeadStep_overlap : let b : BWrite := { n := 1, cells := [(3, 0, 7), (3, 0, 8)] }
    (∀ c ∈ b.cells, c.2.1 < 64) ∧ ((b.cells.filter fun c => decide (c.1 = 3 ∧ c.2.1 = 0)).getLast?).map (·.2.2) = some 8 ∧
    (let x := stepsOf BArr.fresh
     let y := stepsOf { BArr.fresh with b0 := { Bank.fresh with unmatch := [3] } }
     stepMismatch mode1 (x ++ y) = some (0, 3)) := by decide +kernel
/-- A read of bytes whose earlier write awaits the commit; one that may find a byte as it was before a store of the generator; a write behind
such a write, a release behind it, and a counter. -/
theorem witness_CopyCompletes_view : let w : COp := { farOp .fill .rlx true 0x8004 with n := 1, src := [] }
    let r : COp := { farOp .box .rlx false 0x8004 with n := 2, dst := [.glob 0x4100 0] }
    let f : Frame := { frame0 with cpe := { Cpe.fresh with ops := [w, r] }, ph := { Phase.fresh with adds := [add1] }, late := [{ addr := 0x8004, old := 1, v := .caught, c := .behind }] }
    awaitOps f = [w] ∧ f.cpe.ops[1]? = some r ∧ r.got = false ∧ r.had = {} ∧ locsMeet f.sram r.src (earlierWrites f 1 r.n) = false ∧
    homeOk (stateOf f) r.src = true ∧ heldWrites f r.n = ([(0x8004, 1)], []) ∧ (lateAt f true r.issue.tag.ser 0x8004).length = 1 ∧
    behindOp f w { r with got := true, dst := [.glob 0x8004 0] } = true ∧ behindOp f w { r with ord := .rel } = true ∧ behindOp f w r = false := by decide +kernel
/-- A sum of two elements apart, neither of which a store of the generator may still follow; and one that it may. -/
theorem witness_CopyCompletes_late : add1.elems.Pairwise (fun x y => x.1 + 4 ≤ y.1 ∨ y.1 + 4 ≤ x.1) ∧ (∀ x ∈ add1.elems, ∀ j, j < 4 → lateAt frame0 true add1.ser (x.1 + j) = []) ∧
    (let f : Frame := { frame0 with late := [{ addr := 0x8005, old := 1, v := .caught, c := .behind }] }
     ∃ a ∈ (upto 4).map (0x8004 + ·), lateAt f true add1.ser a ≠ []) := by
  refine ⟨by decide, by decide +kernel, ⟨0x8005, by decide, by decide +kernel⟩⟩
/-- A frame with a loop, an entry, a row and a withheld write; its image's bytes stand at the area of the thread, with and without what the
model keeps beside an image. -/
def imaged : Frame := { queued 1 [] with vec := { Vec.fresh with rows := [(3, 1)] }, ph := { Phase.fresh with stores := [store1] } }
def imagedRec : BindRec := { run7 with image := true, area := 0x100000, areaLen := 64 }
def imagedBytes : List Byte := imageBytes imaged 7 (imageSecs imaged false)
def imagedBase : State := { stateOf (standFrame true) with mem := memWrite [] imagedRec.area imagedBytes }
def imagedKept : Carried := { part := 0, tid := 7, key := keyAt imagedBase imagedRec.area, frame := imaged }
def imagedState (keep : Bool) : State := { imagedBase with carried := if keep then [imagedKept] else [] }
/-- Bytes written in a run are the bytes read. -/
theorem run_stands (s : State) (a : Nat) (bs : List Byte) (m : s.mem = memWrite [] a bs) (d : s.discarded = []) (i : Nat) (h : i < bs.length) :
    memSeen s (a + i) = bs.getD i 0 := by
  simp [memSeen, lineZero, d, m, memGet_memWrite bs (m := []) a rfl h, tgetD]
theorem keyAt_carried (s : State) (l : List Carried) (a : Nat) : keyAt { s with carried := l } a = keyAt s a := rfl
theorem witness_ThreadEntry_roundTrip :
    imagedBytes = imageBytes imaged imagedRec.tid (imageSecs imaged false) ∧
    (∀ keep i, i < imagedBytes.length → memSeen (imagedState keep) (imagedRec.area + i) = imagedBytes.getD i 0) ∧
    carriedOf (imagedState false) imagedRec = none ∧ carriedOf (imagedState true) imagedRec = some imaged ∧
    imageSize (imageSecs imaged false) < 2 ^ 32 ∧ imaged.ph.faults = [] ∧ imaged.disp.fault = none ∧
    (imaged.seq.queue.length ≤ 512 ∧ imaged.seq.kept ≤ imaged.seq.queue.length ∧
      ∀ e ∈ imaged.seq.queue, ∀ sl : SlotName, (e.bun.word sl).isSome = hdrHas e.bun.hdr sl) ∧
    (tblFrom 0 imaged.vec.rows = true ∧ (∀ r ∈ imaged.vec.rows, r.1 < 1024) ∧ imaged.sram.split < 16) ∧
    (tblFrom 0 imaged.bead.arrays = true ∧ 1 ≤ imaged.bead.kg ∧ imaged.bead.ng ≤ 64) ∧
    (∀ v ∈ imaged.ph.stores, v.handle < 2 ^ 20 ∧ v.gen < 2 ^ 16 ∧ v.off < 2 ^ 64 ∧ v.da < 2 ^ 64 ∧ v.da2 < 2 ^ 64) := by
  refine ⟨rfl, fun keep => run_stands (imagedState keep) imagedRec.area imagedBytes (by simp only [imagedState, imagedBase]) (by simp only [imagedState, imagedBase, stateOf, State.reset]), by simp [carriedOf, imagedState], ?_, by decide +kernel, rfl, rfl, ?_, by decide +kernel, by decide +kernel, by decide⟩
  · have c : (imagedState true).carried = [imagedKept] := by simp [imagedState]
    rw [carriedOf, c, List.find?_cons_of_pos]
    · simp [imagedKept]
    · simp only [Bool.and_eq_true, decide_eq_true_eq]
      exact ⟨⟨rfl, rfl⟩, by simp only [imagedKept, imagedState, keyAt_carried]⟩
  · refine ⟨by decide, by decide, ?_⟩
    intro e h sl
    simp only [imaged, queued, List.replicate, List.append_nil, List.mem_singleton] at h
    subst h
    cases sl <;> decide
/-- A pre-emption that its area cannot hold, past which the thread goes on; and a kill whose end waits: the control block's home away. -/
theorem witness_ThreadStop_ends : (let f := stopping .preempt true 0
     imageReady f = true ∧ cancelledOut (stateOf f) = false ∧ 4096 * 0 < imageSize (imageSecs (imageFrame f) false)) ∧
    (let s : State := { stateOf (stopping .kill true 0) with dies := [(0, { Die.fresh with st := .offline })] }
     let x := onCur s freeFrame
     tcbAway x (reachTcb x 0 0x3000) = true ∧ (endThread x 0 0 (reachTcb x 0 0x3000) true).isNone = true) := by decide +kernel
/-- A ring on a die of another partition, one on a die that is away; and one with room for the first of two events. -/
theorem witness_GroupsAndRing_served : let ev : Event := { kind := 1, die := 0, frame := 0, tid := 7, detail := 0 }
    let s (st : DieState) (p : Nat) : State := { State.reset with dies := [(0, { Die.fresh with evWait := [ev, ev] }), (3, { Die.fresh with st := st, part := p })] }
    3 ∉ partDies (s .admitted 1) 0 ∧ serves (s .offline 0) 3 = false ∧ 3 ∈ partDies (s .offline 0) 0 ∧ (dieOf (s .admitted 1) 0).evWait = ev :: [ev] := by decide +kernel
/-- A write that an unbound thread withholds, and the same thread bound; what each kind of translation stalls on. -/
theorem witness_ManagementRegisters_unbound : let c (tid : BitVec 32) : Carried := { part := 0, tid := tid, key := [], frame := { frame0 with ph := { Phase.fresh with stores := [store1] } } }
    let s (l : List Carried) : State := { stateOf frame0 with carried := l }
    heldUnbound (s [c 8]) 0 = [2] ∧ heldUnbound (s [c 7]) 0 = [] ∧ invalCovers (mk64 [(63, 1, 1), (20, 20, 2), (0, 20, 2)]) 2 = true ∧
    exitReady (curFrame (exiting 6 true)) = true ∧ stalledOn (exiting 6 true) 0 = [6] ∧
    (let f : Frame := { frame0 with gen := { Gen.fresh with stall := some (.gwait true 5 (blockW 0) none) }, rem := some { pc := frame0.gen.pc, ret := frame0.gen.instret, got := [], err := none, migr := some 6 } }
     stalledOn (stateOf { f with disp := { f.disp with running := none } }) 0 = [6]) := by decide +kernel
/-- Three corrected errors of a sector within the 24 hours before a fourth, and two; one that is 24 hours old. -/
theorem witness_HostAndDram_pins : let near (s : State) (v : Die) := (v.ceHist.filter fun h => decide (h.1 = 5) && decide (s.time < h.2 + 449280000000000)).length
    let s : State := { State.reset with time := 449280000000000 }
    let v (l : List Nat) : Die := { Die.fresh with ceHist := l.map fun t => (5, t), pinWay := true }
    3 ≤ near s (v [1, 2, 3]) ∧ near s (v [0, 2, 3]) < 3 ∧ (v []).pinned = [] ∧ (v []).pinWay = true := by decide +kernel
/-- A committed write that a peer refuses; a port with a sibling of the same entry, and one with none; an answer in the replay buffer. -/
theorem witness_FabricTraffic_moves : (let o : COp := { farOp .box .rlx true 0x4014 with n := 1 }
     let f : Frame := { frame0 with cpe := { Cpe.fresh with ops := [o] }, ph := { Phase.fresh with snap := { Snap.fresh with issueNo := 2 } } }
     opIndex f 1 = some (0, o) ∧ o.n < f.ph.snap.issueNo) ∧
    (let s (n : Nat) : State := { State.reset with hub := { Hub.fresh with trained := 0x18, peers := [(0, 0x8000000000000000), (1, BitVec.ofNat 64 n)] } }
     siblings (s 0x18) 3 = [4] ∧ siblings (s 0x8) 3 = []) ∧
    (let a : FlitOut := { port := 3, ty := 2, tag := 7, part := 0, rel := false, poison := false, addr := 0, data := [] }
     a ∈ tgetD ([(3, [a])] : Tbl (List FlitOut)) 3 [] ∧ a.ty.toNat ∈ [2, 4, 6, 8]) := by decide +kernel
/-- A load of another package's bytes that is out already; one that another access of their line holds back; and one whose die's ports are down. -/
theorem witness_FabricTraffic_asked : let s := farState (curFrame (regState (at2 8) 7))
    let t (w : Nat) : State := { s with edge := { Edge.fresh with flitsWait := [{ flying w 0 with flit := { (flying w 0).flit with addr := 0x4000 } }] } }
    let line : List (Nat × Byte) := (upto 128).map fun i => (0xC00000004000 + i, 0)
    awaits (t 4) 0 4 0 = true ∧ awaits s 0 4 0 = false ∧ farBusy (t 7) (line.map Prod.fst) false = true ∧ farBusy s (line.map Prod.fst) false = false ∧
    noPort { s with hub := { s.hub with trained := 0 } } 0 0 line = true ∧ noPort s 0 0 line = false := by decide +kernel
/-- The session that a FINISH ends or opens; whether its MAC is right, Config leaves open. -/
theorem witness_Attestation_finish : ({ Hub.fresh with spdm := .keyExchanged, spdmKeys := [1] } : Hub).spdm = .keyExchanged ∧ Hub.fresh.spdm ≠ .keyExchanged := by decide
/-- A handover structure of no body, as it stands at its place in die 0's DRAM; every image of no SVN bounds accepts it, where the place is
within that DRAM, which the manual leaves open. Where nothing stands, none does. -/
def noBody : Handover := { magic := 0x4856, version := 1, length := 0, digest := (shake256 []).flatMap wordBytes, body := [] }
def handedState : State := { State.reset with mem := memWrite [] (dramBase 0 + Config.handoverAt 0) (handoverBytes noBody) }
theorem handed_read (i n : Nat) (h : i + n ≤ 64) : grun handedState (dramBase 0 + Config.handoverAt 0 + i) n = ((handoverBytes noBody).drop i).take n := by
  have l : (handoverBytes noBody).length = 64 := by decide +kernel
  apply List.ext_getElem
  · simp [grun, gread, upto, l]; omega
  · intro k hk _
    have hk' : k < n := by simpa [grun, gread, upto] using hk
    have := run_stands handedState (dramBase 0 + Config.handoverAt 0) (handoverBytes noBody)
      (by simp only [handedState]) (by simp only [handedState, State.reset]) (i + k) (by omega)
    simp only [grun, gread, upto, List.map_map, List.getElem_map, List.getElem_range, Function.comp, List.getElem_take, List.getElem_drop]
    rw [show dramBase 0 + Config.handoverAt 0 + i + k = dramBase 0 + Config.handoverAt 0 + (i + k) by omega, this]
    simp [List.getD, l, show i + k < 64 by omega]
theorem witness_ResetAndUpdate_fits (h : ∀ i, i < 64 → inDram handedState 0 (dramBase 0 + Config.handoverAt 0 + i) = true) :
    handoverFits handedState flashHdr 0 = true := by
  have p : ∀ l, poisoned handedState l = false := fun l => by simp [poisoned, handedState, State.reset]
  have a : leNat (((handoverBytes noBody).drop 4).take 4) = 0 ∧ leNat (((handoverBytes noBody).drop 0).take 2) = 0x4856 ∧
      leNat (((handoverBytes noBody).drop 2).take 2) = 1 ∧ leNat (memRead flashHdr 20 2) ≤ 1 ∧ 1 ≤ leNat (memRead flashHdr 22 2) ∧
      ((handoverBytes noBody).drop 8).take 56 = ((shake256 []).flatMap wordBytes).take 56 := by decide +kernel
  simp only [handoverFits, handed_read, p, a, show (4 : Nat) + 4 ≤ 64 by omega, show (0 : Nat) + 2 ≤ 64 by omega, show (2 : Nat) + 2 ≤ 64 by omega,
    show (8 : Nat) + 56 ≤ 64 by omega]
  simpa [upto, gread] using h
theorem witness_ResetAndUpdate_unfit (d : Nat) : handoverFits State.reset flashHdr d = false := by
  have z : ∀ a, grun State.reset a 2 = [0, 0] := fun a => by simp [grun, gread, upto, memSeen, lineZero, State.reset, memGet, tgetD, tget, List.range, List.range.loop]
  simp [handoverFits, z, show leNat [0#8, 0#8] = 0 from rfl]

end Sys2Proof.Tests
end

section
/-! PROOFS. The cells that column and diagonal operands name (R122). -/

namespace Sys2Proof.Machine

/-- The low six bits of a number are its remainder by the side of a slate. -/
theorem land_63_eq_mod (n : Nat) : Nat.land n 63 = n % 64 :=
  Nat.and_two_pow_sub_one_eq_mod n 6

/-- A column operand (R122, R257): its column is the same in every lane. -/
theorem opdCell_column {o : Opd} (h : o.dir = 1) (L : Nat) :
    opdCell o L = (64 * (o.idx.toNat / 64) + L, o.idx.toNat % 64) := by
  simp [opdCell, h, Nat.mul_comm]

/-- A diagonal operand (R122, R257): its column moves with the lane and wraps around the slate. -/
theorem opdCell_diagonal {o : Opd} (h : o.dir = 2) (L : Nat) :
    opdCell o L = (64 * (o.idx.toNat / 64) + L, (L + o.idx.toNat % 64) % 64) := by
  simp [opdCell, h, Nat.mul_comm]

/-- Settles O60: a diagonal's mask by 63 is the wrap-around of `opdCell_diagonal`; a column is `opdCell_column`. -/
theorem operandCells : Obligations.OperandCells := by
  intro o L _
  refine ⟨fun hdiag => ?_, fun hcol => opdCell_column hcol L⟩
  rw [opdCell_diagonal hdiag, land_63_eq_mod]

end Sys2Proof.Machine
end

section
/-! PROOFS. Bit fields: what a word made of fields, of bits or of disjunctions holds in each. -/

namespace Sys2Proof.Machine

/-! ### Fields of a word -/

/-- The bits of a field. -/
theorem testBit_fld {n : Nat} (w : BitVec n) (lo len j : Nat) :
    (fld w lo len).testBit j = (decide (j < len) && fbit w (lo + j)) := by
  rw [fld, Nat.testBit_mod_two_pow, Nat.testBit_div_two_pow, fbit_eq, Nat.add_comm]

/-- Two adjacent fields read as one. -/
theorem fld_add {n : Nat} (w : BitVec n) (lo a b : Nat) :
    fld w lo (a + b) = fld w lo a + 2 ^ a * fld w (lo + a) b := by
  simp only [fld, Nat.pow_add, Nat.mod_mul, Nat.div_div_eq_div_mul]

/-- The bits of a word whose field is replaced. -/
theorem fbit_fput (w : Word) {lo len : Nat} (v i : Nat) (h : lo + len ≤ 64) :
    fbit (fput w lo len v) i = if lo ≤ i ∧ i < lo + len then v.testBit (i - lo) else fbit w i := by
  have hsum : w.toNat % 2 ^ lo + v % 2 ^ len * 2 ^ lo + w.toNat / 2 ^ (lo + len) * 2 ^ (lo + len) =
      2 ^ lo * (2 ^ len * (w.toNat / 2 ^ (lo + len)) + v % 2 ^ len) + w.toNat % 2 ^ lo := by
    rw [Nat.pow_add]; ring
  have hlow : w.toNat % 2 ^ lo < 2 ^ lo := Nat.mod_lt _ (Nat.two_pow_pos lo)
  have hmid : v % 2 ^ len < 2 ^ len := Nat.mod_lt _ (Nat.two_pow_pos len)
  rw [fput, hsum, fbit, BitVec.getLsbD_ofNat, Nat.testBit_two_pow_mul_add _ hlow, Nat.testBit_two_pow_mul_add _ hmid,
    Nat.testBit_mod_two_pow, Nat.testBit_mod_two_pow, Nat.testBit_div_two_pow, fbit_eq]
  have hhigh : 64 ≤ i → w.toNat.testBit i = false := fun hi => BitVec.getLsbD_of_ge w i hi
  by_cases hi : i < 64
  · by_cases hlo : i < lo
    · simp [hi, hlo, Nat.not_le.mpr hlo]
    · by_cases hmid : i < lo + len
      · simp [hi, hlo, hmid, show i - lo < len by omega, Nat.not_lt.mp hlo]
      · simp [hi, hlo, hmid, show ¬ i - lo < len by omega, show i - lo - len + (lo + len) = i by omega]
  · have hout : ¬ (lo ≤ i ∧ i < lo + len) := by omega
    rw [hhigh (Nat.not_lt.mp hi), if_neg hout]
    simp [hi]

/-- The field that is replaced holds the new value. -/
@[simp] theorem fld_fput_self (w : Word) {lo len : Nat} (v : Nat) (h : lo + len ≤ 64) :
    fld (fput w lo len v) lo len = v % 2 ^ len := by
  apply Nat.eq_of_testBit_eq
  intro j
  rw [testBit_fld, Nat.testBit_mod_two_pow, fbit_fput w v _ h]
  by_cases hj : j < len <;> simp [hj]

/-- Every field apart from the one that is replaced stays. -/
theorem fld_fput_apart (w : Word) {lo len lo' len' : Nat} (v : Nat) (h : lo + len ≤ 64)
    (hapart : lo' + len' ≤ lo ∨ lo + len ≤ lo') : fld (fput w lo len v) lo' len' = fld w lo' len' := by
  apply Nat.eq_of_testBit_eq
  intro j
  rw [testBit_fld, testBit_fld, fbit_fput w v _ h]
  by_cases hj : j < len'
  · rw [if_neg (by omega)]
  · simp [hj]

/-- A flag that is replaced reads as its new value. -/
@[simp] theorem fbit_fput_toNat (w : Word) {i : Nat} (b : Bool) (h : i + 1 ≤ 64) : fbit (fput w i 1 b.toNat) i = b := by
  rw [fbit_fput w _ _ h, if_pos (by omega), Nat.testBit_bool_toNat]
  simp

/-- Every bit outside the field that is replaced stays. -/
theorem fbit_fput_apart (w : Word) {lo len i : Nat} (v : Nat) (h : lo + len ≤ 64) (hapart : i < lo ∨ lo + len ≤ i) :
    fbit (fput w lo len v) i = fbit w i := by
  rw [fbit_fput w v i h, if_neg (by omega)]

@[simp] theorem fld_zero {n : Nat} (lo len : Nat) : fld (0#n) lo len = 0 := by simp [fld]

/-- Fields of a list, each inside the word and all apart from one another. -/
def FieldsApart (l : List (Nat × Nat × Nat)) : Prop :=
  (∀ e ∈ l, e.1 + e.2.1 ≤ 64) ∧ l.Pairwise fun a b => a.1 + a.2.1 ≤ b.1 ∨ b.1 + b.2.1 ≤ a.1

/-- A field that no entry meets reads 0. -/
theorem fld_mk64_of_apart {l : List (Nat × Nat × Nat)} {lo len : Nat} (h : ∀ e ∈ l, e.1 + e.2.1 ≤ 64)
    (hapart : ∀ e ∈ l, lo + len ≤ e.1 ∨ e.1 + e.2.1 ≤ lo) : fld (mk64 l) lo len = 0 := by
  induction l with
  | nil => exact fld_zero lo len
  | cons e r ih =>
    rw [List.forall_mem_cons] at h hapart
    rw [mk64, fld_fput_apart _ _ h.1 hapart.1, ih h.2 hapart.2]

/-- An entry's field holds its value. -/
theorem fld_mk64_of_mem {l : List (Nat × Nat × Nat)} (h : FieldsApart l) {lo len v : Nat} (hmem : (lo, len, v) ∈ l) :
    fld (mk64 l) lo len = v % 2 ^ len := by
  induction l with
  | nil => simp at hmem
  | cons e r ih =>
    obtain ⟨hin, hpair⟩ := h
    rw [List.forall_mem_cons] at hin
    rw [List.pairwise_cons] at hpair
    rcases List.mem_cons.mp hmem with rfl | hmem
    · exact fld_fput_self _ v hin.1
    · rw [mk64, fld_fput_apart _ _ hin.1 (hpair.1 _ hmem).symm, ih ⟨hin.2, hpair.2⟩ hmem]

/-! ### Equal fields side by side -/

/-- Fields of one width at even distances. -/
def laneFields (n step len : Nat) (g : Nat → Nat) : List (Nat × Nat × Nat) := (upto n).map fun k => (step * k, len, g k)

theorem mem_laneFields {n step len : Nat} {g : Nat → Nat} {e : Nat × Nat × Nat} :
    e ∈ laneFields n step len g ↔ ∃ k, k < n ∧ (step * k, len, g k) = e := by
  simp [laneFields, upto]

theorem lane_le {step i j : Nat} (h : i < j) : step * i + step ≤ step * j := by
  rw [← Nat.mul_succ]
  exact Nat.mul_le_mul_left step h

theorem laneFields_apart {n step len : Nat} (g : Nat → Nat) (hlen : len ≤ step) (hn : step * n ≤ 64) :
    FieldsApart (laneFields n step len g) := by
  constructor
  · intro e he
    obtain ⟨k, hk, rfl⟩ := mem_laneFields.mp he
    have := lane_le (step := step) hk
    simp only
    omega
  · rw [laneFields, List.pairwise_map]
    refine List.pairwise_lt_range.imp fun {i j} hij => .inl ?_
    have := lane_le (step := step) hij
    simp only
    omega

/-- Lane k holds the k-th value. -/
theorem fld_laneFields {n step len k : Nat} (g : Nat → Nat) (hlen : len ≤ step) (hn : step * n ≤ 64) (hk : k < n) :
    fld (mk64 (laneFields n step len g)) (step * k) len = g k % 2 ^ len :=
  fld_mk64_of_mem (laneFields_apart g hlen hn) (mem_laneFields.mpr ⟨k, hk, rfl⟩)

/-- Between the field of lane k and the next lane the word reads 0. -/
theorem fld_laneFields_gap {n step len k : Nat} (g : Nat → Nat) (hlen : len ≤ step) (hn : step * n ≤ 64) :
    fld (mk64 (laneFields n step len g)) (step * k + len) (step - len) = 0 := by
  refine fld_mk64_of_apart (laneFields_apart g hlen hn).1 fun e he => ?_
  obtain ⟨i, -, rfl⟩ := mem_laneFields.mp he
  simp only
  rcases Nat.lt_trichotomy i k with hik | rfl | hki
  · have := lane_le (step := step) hik
    omega
  · omega
  · have := lane_le (step := step) hki
    omega

/-- A lane that starts past the last one reads 0. -/
theorem fld_laneFields_above {n step len lo w : Nat} (g : Nat → Nat) (hlen : len ≤ step) (hn : step * n ≤ 64)
    (hlo : step * n ≤ lo) : fld (mk64 (laneFields n step len g)) lo w = 0 := by
  refine fld_mk64_of_apart (laneFields_apart g hlen hn).1 fun e he => ?_
  obtain ⟨i, hi, rfl⟩ := mem_laneFields.mp he
  have := lane_le (step := step) hi
  simp only
  omega

/-! ### Words summed or joined bit by bit -/

/-- The sum of 2^i over the listed i that `p` accepts. -/
def bitSum (l : List Nat) (p : Nat → Bool) : Nat := l.foldl (fun w i => w + if p i then 2 ^ i else 0) 0

theorem bitSum_append_singleton (l : List Nat) (a : Nat) (p : Nat → Bool) :
    bitSum (l ++ [a]) p = bitSum l p + if p a then 2 ^ a else 0 := by
  simp [bitSum]

/-- A sum over rising numbers below n is below 2^n. -/
theorem bitSum_lt {l : List Nat} (p : Nat → Bool) (hl : l.Pairwise (· < ·)) {n : Nat} (hn : ∀ i ∈ l, i < n) :
    bitSum l p < 2 ^ n := by
  induction l using List.reverseRecOn generalizing n with
  | nil => exact Nat.two_pow_pos n
  | append_singleton l a ih =>
    rw [List.pairwise_append] at hl
    have hlow : bitSum l p < 2 ^ a := ih hl.1 fun i hi => hl.2.2 i hi a (by simp)
    have hpow : 2 ^ (a + 1) ≤ 2 ^ n := Nat.pow_le_pow_right (by omega) (hn a (by simp))
    rw [bitSum_append_singleton]
    split <;> omega

/-- Its bits are the listed numbers that `p` accepts. -/
theorem testBit_bitSum {l : List Nat} (p : Nat → Bool) (hl : l.Pairwise (· < ·)) (j : Nat) :
    (bitSum l p).testBit j = (p j && decide (j ∈ l)) := by
  induction l using List.reverseRecOn with
  | nil => simp [bitSum]
  | append_singleton l a ih =>
    rw [List.pairwise_append] at hl
    have hbelow : ∀ i ∈ l, i < a := fun i hi => hl.2.2 i hi a (by simp)
    have hsum : bitSum (l ++ [a]) p = 2 ^ a * (p a).toNat + bitSum l p := by
      rw [bitSum_append_singleton]
      cases p a <;> simp [Nat.add_comm]
    rw [hsum, Nat.testBit_two_pow_mul_add _ (bitSum_lt p hl.1 hbelow), Nat.testBit_bool_toNat, ih hl.1]
    rcases Nat.lt_trichotomy j a with hj | rfl | hj
    · simp [hj, Nat.ne_of_lt hj]
    · simp
    · have hout : j ∉ l := fun hmem => Nat.lt_asymm hj (hbelow j hmem)
      simp [hout, show ¬ j < a by omega, show j - a ≠ 0 by omega, show j ≠ a by omega]

/-- The bits of a word made bit by bit. -/
theorem fbit_bitsWord {n i : Nat} (p : Nat → Bool) (hi : i < n) (hn : n ≤ 64) : fbit (bitsWord n p) i = p i := by
  have hbit : (bitSum (upto n) p).testBit i = p i := by
    rw [testBit_bitSum p (l := upto n) List.pairwise_lt_range]
    simp [upto, hi]
  have h64 : i < 64 := by omega
  rw [fbit, bitsWord, BitVec.getLsbD_ofNat, ← bitSum, hbit]
  simp [h64]

/-- The word whose only bit is bit a. -/
theorem fbit_two_pow {n i : Nat} (a : Nat) (hi : i < n) : fbit (BitVec.ofNat n (2 ^ a)) i = decide (a = i) := by
  rw [fbit, BitVec.getLsbD_ofNat, Nat.testBit_two_pow]
  simp [hi]

/-- Joining into a word, entry by entry, what sets bit i where `q` holds. -/
theorem fbit_foldl_or {α : Type} {n i : Nat} {f : BitVec n → α → BitVec n} {q : α → Bool}
    (hf : ∀ w a, fbit (f w a) i = (fbit w i || q a)) (l : List α) (w : BitVec n) :
    fbit (l.foldl f w) i = (fbit w i || l.any q) := by
  induction l generalizing w with
  | nil => simp
  | cons a r ih => rw [List.foldl_cons, ih, hf, List.any_cons, Bool.or_assoc]

/-! ### What a table in canonical form lists -/

theorem tget_eq_some_iff {β : Type} {t : Tbl β} {lo k : Nat} {v : β} (h : tblFrom lo t = true) :
    tget t k = some v ↔ (k, v) ∈ t := by
  induction t generalizing lo with
  | nil => simp
  | cons e r ih =>
    obtain ⟨i, w⟩ := e
    simp only [tblFrom, Bool.and_eq_true] at h
    rw [tget, List.mem_cons, Prod.mk.injEq, ← ih h.2]
    by_cases hik : i = k
    · subst hik
      simp [tget_below r h.2 (Nat.lt_succ_self i), eq_comm]
    · simp [hik, Ne.symm hik]

end Sys2Proof.Machine
end

section
/-! PROOFS. The status registers of a frame: what their maps say, and where they are read (O20). -/

namespace Sys2Proof.Machine

/-! ### The registers' fields -/

/-- SEQ_POS (R145). -/
theorem seqPos_fields (f : Frame) : fld (seqPos f) 0 48 = f.seq.pos % 2 ^ 48 ∧ fld (seqPos f) 48 16 = 0 := by
  simp [seqPos, mk64, fld_fput_apart]

/-- PWR_STAT (R173). -/
theorem pwrStat_fields (f : Frame) : fld (pwrStat f) 62 2 = f.clk.level % 4 ∧ fld (pwrStat f) 60 2 = 0 ∧
    fld (pwrStat f) 30 30 = f.clk.l1cnt.toNat ∧ fld (pwrStat f) 0 30 = f.clk.l2cnt.toNat := by
  simpa [pwrStat, mk64, fld_fput_apart] using ⟨f.clk.l1cnt.isLt, f.clk.l2cnt.isLt⟩

/-- SLATE_STAT (R263). -/
theorem slateStat_fields (f : Frame) : fld (slateStat f) 32 32 = 0 ∧
    ∀ k, k < 16 → fld (slateStat f) (2 * k) 2 = (tgetD f.vec.slates k 2).toNat := by
  have hw : slateStat f = mk64 (laneFields 16 2 2 fun k => (tgetD f.vec.slates k 2).toNat) := rfl
  rw [hw]
  refine ⟨fld_laneFields_above _ (by omega) (by omega) (by omega), fun k hk => ?_⟩
  rw [fld_laneFields _ (by omega) (by omega) hk, BitVec.toNat_mod_cancel]

/-- LIVE0 to LIVE15 (R263). -/
theorem liveStat_bits (f : Frame) (k : Nat) {r : Nat} (hr : r < 64) :
    fbit (liveStat f k) r = (tget f.vec.rows (64 * k + r)).isSome := fbit_bitsWord _ hr (by omega)

/-- PORT_STAT (R273). -/
theorem portStat_fields (f : Frame) (k : Nat) (hk : k < 8) : fld (portStat f) (8 * k + 4) 4 = 0 ∧
    fld (portStat f) (8 * k) 4 = (if setKind f.vec k = 3 then (tgetD f.vec.fifos k []).length else 0) % 16 := by
  have hw : portStat f = mk64 (laneFields 8 8 4 fun k => if setKind f.vec k = 3 then (tgetD f.vec.fifos k []).length else 0) := rfl
  rw [hw]
  exact ⟨fld_laneFields_gap _ (by omega) (by omega), fld_laneFields _ (by omega) (by omega) hk⟩

/-- CLK_STAT (R18): divisors, and zeros between them. -/
theorem clkStat_fields (f : Frame) : fld (clkStat f) 0 8 = 0 ∧ fld (clkStat f) 8 6 = f.clk.copy.toNat ∧ fld (clkStat f) 14 2 = 0 ∧
    fld (clkStat f) 16 6 = f.clk.exec.toNat ∧ fld (clkStat f) 22 2 = 0 ∧ fld (clkStat f) 24 6 = f.clk.gen.toNat ∧
    fld (clkStat f) 30 8 = 0 ∧ fld (clkStat f) 40 8 = 0 := by
  simpa [clkStat, mk64, fld_fput_apart] using ⟨f.clk.copy.isLt, f.clk.exec.isLt, f.clk.gen.isLt⟩

/-- CLK_STAT (R18): a sprint's cool-down, in units of 65536 ticks. -/
theorem clkStat_cool (f : Frame) {n : Nat} (h : f.clk.cool = some n) :
    fld (clkStat f) 38 2 = 2 ∧ fld (clkStat f) 48 16 = (n + 65535) / 65536 % 65536 := by
  simp [clkStat, mk64, fld_fput_apart, h, ceilDiv]

/-- CLK_STAT (R18): a sprint grant. -/
theorem clkStat_not_cool (f : Frame) (h : f.clk.cool = none) :
    fld (clkStat f) 38 2 = (if f.clk.grant.isSome then 1 else 0) ∧ fld (clkStat f) 48 16 = 0 := by
  cases hg : f.clk.grant <;> simp [clkStat, mk64, fld_fput_apart, h, hg]

theorem beadCode_eq_fmtCode (b : BeadFmt) : beadCode b = fmtCode b := by cases b <;> rfl

@[simp] theorem fmtCode_mod (b : BeadFmt) : fmtCode b % 16 = fmtCode b := by cases b <;> rfl

/-- FMT (R159): the formats in force. -/
theorem fmtStat_current (f : Frame) : fld (fmtStat f) 0 4 = fmtCode f.seq.fmt.wfmt ∧ fld (fmtStat f) 4 4 = fmtCode f.seq.fmt.afmt ∧
    fld (fmtStat f) 19 45 = 0 := by
  simp [fmtStat, mk64, fld_fput_apart, beadCode_eq_fmtCode]

/-- FMT (R159): no change is pending. -/
theorem fmtStat_none (f : Frame) (h : (f.seq.fmt.pend.filter fun p => decide (p.left ≠ 0)) = []) : fld (fmtStat f) 8 11 = 0 := by
  have hfind : (f.seq.fmt.pend.find? fun p => decide (p.left ≠ 0)) = none := by rw [← List.head?_filter, h]; rfl
  rw [show 11 = 4 + (4 + 3) from rfl, fld_add, fld_add]
  rw [fmtStat, hfind]
  simp [mk64, fld_fput_apart]

/-- FMT (R159): the oldest pending change. -/
theorem fmtStat_pending (f : Frame) {p : FmtPend} {r : List FmtPend}
    (h : (f.seq.fmt.pend.filter fun p => decide (p.left ≠ 0)) = p :: r) :
    fld (fmtStat f) 8 4 = fmtCode p.wfmt ∧ fld (fmtStat f) 12 4 = fmtCode p.afmt ∧ fld (fmtStat f) 16 3 = p.left % 8 := by
  have hfind : (f.seq.fmt.pend.find? fun p => decide (p.left ≠ 0)) = some p := by rw [← List.head?_filter, h]; rfl
  rw [fmtStat, hfind]
  simp [mk64, fld_fput_apart, beadCode_eq_fmtCode]

/-- CNT_STAT (R156). -/
theorem cntStat_fields (f : Frame) : fld (cntStat f) 0 8 = cntBS f % 256 ∧ fld (cntStat f) 8 8 = cntCP f % 256 ∧
    fld (cntStat f) 16 8 = min 255 f.ph.released.length ∧ fld (cntStat f) 24 8 = f.vec.loads.length % 256 ∧ fld (cntStat f) 32 32 = 0 := by
  have hst : min 255 f.ph.released.length % 256 = min 255 f.ph.released.length := by omega
  simp [cntStat, mk64, fld_fput_apart, cntST, cntLD, hst]

/-- PHASE_STAT (R168). -/
theorem phaseStat_fields (f : Frame) : fld (phaseStat f) 0 8 = f.ph.replays % 256 ∧ fld (phaseStat f) 8 8 = 0 ∧
    fld (phaseStat f) 16 10 = f.seq.kept % 1024 ∧ fld (phaseStat f) 26 6 = 0 ∧ fld (phaseStat f) 32 9 = min 256 f.ph.undo.length ∧
    fld (phaseStat f) 41 23 = 0 := by
  have hundo : min 256 f.ph.undo.length % 512 = min 256 f.ph.undo.length := by omega
  simp [phaseStat, mk64, fld_fput_apart, hundo]

/-- BEAD_STAT (R234). -/
theorem beadStat_fields (f : Frame) : fld (beadStat f) 0 16 = 0 ∧ fld (beadStat f) 16 16 = f.bead.chkCnt % 65536 ∧ fld (beadStat f) 32 21 = 0 ∧
    fbit (beadStat f) 53 = f.bead.digital ∧ fbit (beadStat f) 54 = f.ph.forced ∧ fbit (beadStat f) 55 = f.bead.chkValid ∧
    fld (beadStat f) 56 2 = f.bead.chkSeg % 4 ∧ fld (beadStat f) 58 6 = f.bead.chkArray % 64 := by
  simp [beadStat, mk64, fld_fput_apart, fbit_fput_apart]

/-- CAL_STALE (R226). -/
theorem calStaleWord_bits (s : State) (f : Frame) {b : Nat} (hb : b < 64) :
    fbit (calStaleWord s f) b = staleNow s (arrOf f b) := by
  have hstep : ∀ (w : Word) (a : Nat), fbit (if staleNow s (arrOf f a) then w ||| BitVec.ofNat 64 (2 ^ a) else w) b =
      (fbit w b || (staleNow s (arrOf f a) && decide (a = b))) := by
    intro w a
    split
    · next hstale => rw [hstale, Bool.true_and, ← fbit_two_pow a hb, fbit, BitVec.getLsbD_or]; rfl
    · next hfresh => simp [hfresh]
  have hzero : fbit (0 : Word) b = false := BitVec.getLsbD_zero
  rw [calStaleWord, fbit_foldl_or hstep, hzero, Bool.false_or, Bool.eq_iff_iff, List.any_eq_true]
  constructor
  · rintro ⟨a, -, ha⟩
    obtain ⟨hstale, rfl⟩ : staleNow s (arrOf f a) = true ∧ a = b := by simpa using ha
    exact hstale
  · intro hstale
    exact ⟨b, List.mem_range.mpr hb, by simp [hstale]⟩

/-- The code of a bank in BANK_STAT (R276): 0 FULL or an L1 bank, 1 RETAIN, 2 OFF and dead. -/
def bankCode (m : Sram) (b : Nat) : Nat :=
  if 4 * m.split ≤ b then 0 else if fbit m.live b = false then 2 else if fbit m.retain b = true then 1 else 0

theorem bankCode_mod (m : Sram) (b : Nat) : bankCode m b % 2 ^ 2 = bankCode m b := by
  unfold bankCode
  split_ifs <;> rfl

/-- BANK_STAT_LO and BANK_STAT_HI (R276). -/
theorem bankStat_fields (f : Frame) (hi : Bool) {i : Nat} (h : i < 32) :
    fld (bankStat f hi) (2 * i) 2 = bankCode f.sram (if hi then 32 + i else i) := by
  have hw : bankStat f hi = mk64 (laneFields 32 2 2 fun i => bankCode f.sram (if hi then 32 + i else i)) := by
    simp [bankStat, laneFields, bankCode]
  rw [hw, fld_laneFields _ (by omega) (by omega) h, bankCode_mod]

/-- BANK_STAT as the banks are numbered (R276). -/
theorem bankStat_bank (f : Frame) {b : Nat} (hb : b < 64) :
    fld (if b < 32 then bankStat f false else bankStat f true) (2 * (b % 32)) 2 = bankCode f.sram b := by
  by_cases hlow : b < 32
  · rw [if_pos hlow, Nat.mod_eq_of_lt hlow, bankStat_fields f false hlow]
    rfl
  · rw [if_neg hlow, bankStat_fields f true (Nat.mod_lt b (by omega)), if_pos rfl, show 32 + b % 32 = b by omega]

/-- VCOND (R308). -/
theorem vcond_fields (v : Vec) (hcf : tblFrom 0 v.cf = true) : fld (vcond v) 6 58 = 0 ∧
    ∀ c, c < 6 → (fbit (vcond v) c = true ↔ ∃ L, fbit (tgetD v.cf L 0) c = true) := by
  constructor
  · have hlt : (vcond v).toNat < 2 ^ 6 := by
      rw [vcond, BitVec.toNat_setWidth]
      exact Nat.lt_of_le_of_lt (Nat.mod_le _ _) (BitVec.isLt _)
    rw [fld, Nat.div_eq_of_lt hlt, Nat.zero_mod]
  intro c hc
  have hjoin : fbit (vcond v) c = v.cf.any fun e => fbit e.2 c := by
    have hstep : ∀ (w : Cond) (e : Nat × Cond), fbit (w ||| e.2) c = (fbit w c || fbit e.2 c) := fun w e => BitVec.getLsbD_or
    have hfold := fbit_foldl_or hstep v.cf 0
    rw [vcond, fbit, BitVec.getLsbD_setWidth, ← fbit, hfold]
    simp [fbit, show c < 64 by omega]
  rw [hjoin, List.any_eq_true]
  constructor
  · rintro ⟨⟨L, x⟩, hmem, hbit⟩
    exact ⟨L, by rwa [tgetD, (tget_eq_some_iff hcf).mpr hmem]⟩
  · rintro ⟨L, hbit⟩
    cases hx : tget v.cf L with
    | none => simp [tgetD, hx, fbit] at hbit
    | some x => exact ⟨(L, x), (tget_eq_some_iff hcf).mp hx, by simpa [tgetD, hx] using hbit⟩

/-! ### The double-buffered regions -/

/-- A walk over 0, 1, …, n - 1 that at each number appends one entry under it, or none, lists rising numbers below n. -/
theorem keys_foldl_upto {β : Type} {step : List (Nat × β) → Nat → List (Nat × β)}
    (hstep : ∀ acc k, step acc k = acc ∨ ∃ x, step acc k = acc ++ [(k, x)]) (n : Nat) :
    (((upto n).foldl step []).map (·.1)).Pairwise (· < ·) ∧ ∀ k ∈ ((upto n).foldl step []).map (·.1), k < n := by
  induction n with
  | zero => simp [upto]
  | succ n ih =>
    obtain ⟨hrise, hlt⟩ := ih
    have hsucc : (upto (n + 1)).foldl step [] = step ((upto n).foldl step []) n := by simp [upto, List.range_succ]
    rw [hsucc]
    rcases hstep ((upto n).foldl step []) n with h | ⟨x, h⟩ <;> rw [h]
    · exact ⟨hrise, fun k hk => Nat.lt_succ_of_lt (hlt k hk)⟩
    · rw [List.map_append, List.pairwise_append]
      refine ⟨⟨hrise, by simp, fun a ha b hb => ?_⟩, fun k hk => ?_⟩
      · obtain rfl : b = n := by simpa using hb
        exact hlt a ha
      · rcases List.mem_append.mp hk with hk | hk
        · exact Nat.lt_succ_of_lt (hlt k hk)
        · obtain rfl : k = n := by simpa using hk
          exact Nat.lt_succ_self k

/-- Regions stand under rising set numbers (R326). -/
theorem regions_sets_rise (v : Vec) (split : Nat) : ((regions v split).map (·.1)).Pairwise (· < ·) := by
  refine (keys_foldl_upto (fun acc k => ?_) 32).1
  split
  · next b z _ =>
    split
    · exact .inl rfl
    · exact .inr ⟨(b, z), rfl⟩
  · exact .inl rfl

/-- COPY_STAT (R328). -/
theorem copyStat_fields (f : Frame) : fld (copyStat f) 0 32 = f.cpe.pend.toNat ∧ ∀ k, k < 32 →
    (fbit (copyStat f) (32 + k) = true ↔ fbit f.cpe.des k = true ∧ k ∈ (regions f.vec f.sram.split).map (·.1)) := by
  have hrise := regions_sets_rise f.vec f.sram.split
  have hdes : (regions f.vec f.sram.split).foldl (fun n r => n + fld f.cpe.des r.1 1 * 2 ^ r.1) 0 =
      bitSum ((regions f.vec f.sram.split).map (·.1)) (fbit f.cpe.des) := by
    rw [bitSum, List.foldl_map]
    congr 1
    funext n r
    have hbit : fld f.cpe.des r.1 1 = (fbit f.cpe.des r.1).toNat := by
      rw [fld, fbit_eq, Nat.toNat_testBit, Nat.pow_one]
    rw [hbit]
    cases fbit f.cpe.des r.1 <;> simp
  rw [copyStat, hdes]
  refine ⟨by simpa [mk64, fld_fput_apart] using f.cpe.pend.isLt, fun k hk => ?_⟩
  have hfield : ∀ v, fbit (mk64 [(32, 32, v), (0, 32, f.cpe.pend.toNat)]) (32 + k) = v.testBit k := by
    intro v
    rw [mk64, fbit_fput _ _ _ (by omega), if_pos (by omega), Nat.add_sub_cancel_left]
  rw [hfield, testBit_bitSum _ hrise]
  simp

end Sys2Proof.Machine
end

section
/-! PROOFS. Where the status registers are read (R8, R178, R208), and O20. -/

namespace Sys2Proof.Machine

/-! ### The frame's management block -/

theorem blockOf_frameOffset {d f off : Nat} (hd : d < 4) (hf : f < 48) (hoff : off < 0x1000) :
    blockOf (frameOffset d f off) = .frame d f off := by
  have hdie : (frameOffset d f off - 0x4000000) / 0x400000 = d := by unfold frameOffset; omega
  have hin : frameOffset d f off % 0x400000 = 0x1000 * f + off + 0x100000 := by unfold frameOffset; omega
  have hslot : (0x1000 * f + off) / 0x1000 = f := by omega
  have hreg : (0x1000 * f + off + 0x100000) % 0x1000 = off := by omega
  have hhub : ¬ frameOffset d f off < 0x4000000 := by unfold frameOffset; omega
  have hend : ¬ 0x5000000 ≤ frameOffset d f off := by unfold frameOffset; omega
  have hframe : 0x100000 ≤ 0x1000 * f + off + 0x100000 := by omega
  simp only [blockOf, if_neg hhub, if_neg hend, hdie, hin, if_pos hframe, Nat.add_sub_cancel, hslot, hreg]
  exact if_pos hf

/-- A frame register reads at its offset what it reads as a CSR (R8). -/
theorem mgmtRead_frame {s : State} {d f off csr : Nat} {v : Word} (p : Nat) (hd : d < 4) (hf : f < 48)
    (hst : (dieOf s d).st = .admitted) (hoff : off < 0x1000) (halign : off % 8 = 0) (hmap : frameCsr off = some csr)
    (hcsr : csrRead { s with cur := 48 * d + f } csr = some v) :
    csrRead { s with cur := 48 * d + f } csr = some v ∧ mgmtRead s (.host p) (frameOffset d f off) 8 = v := by
  have hsize : ¬ (8 ≠ 8 ∨ frameOffset d f off % 8 ≠ 0) := by unfold frameOffset; omega
  have hkey : frameKey d f = 48 * d + f := rfl
  refine ⟨hcsr, ?_⟩
  rw [mgmtRead, if_neg hsize, blockOf_frameOffset hd hf hoff]
  simp [dieReached, hst, hmap, hkey, hcsr]

/-- LIVE0 to LIVE15 in the block (R263). -/
theorem frameCsr_live {k : Nat} (hk : k < 16) : frameCsr (0x100 + 8 * k) = some (0xCE0 + k) := by
  interval_cases k <;> rfl

/-- P0 to P15 in the block (R264). -/
theorem frameCsr_pred {k : Nat} (hk : k < 16) : frameCsr (0x180 + 8 * k) = some (0xCF0 + k) := by
  interval_cases k <;> rfl

/-! ### CSR numbers -/

theorem csrRead_counter (s : State) {n : Nat} (h : 0xC03 ≤ n ∧ n ≤ 0xC1F) : csrRead s n = some 0 := by
  simp [csrRead, h, show n ≠ 0x800 ∧ n ≠ 0x801 ∧ n ≠ 0x802 ∧ n ≠ 0x803 ∧ n ≠ 0x804 ∧ n ≠ 0x805 ∧ n ≠ 0xC00 ∧ n ≠ 0xC01 ∧ n ≠ 0xC02 by omega]

theorem csrRead_live (s : State) {k : Nat} (hk : k < 16) : csrRead s (0xCE0 + k) = some (liveStat (curFrame s) k) := by
  interval_cases k <;> rfl

theorem csrRead_pred (s : State) {k : Nat} (hk : k < 16) : csrRead s (0xCF0 + k) = some (tgetD (curFrame s).vec.preds k 0) := by
  interval_cases k <;> rfl

theorem some_ite_eq_none_iff {α : Type} {c : Prop} [Decidable c] (a : α) (o : Option α) :
    (if c then some a else o) = none ↔ ¬ c ∧ o = none := by
  by_cases hc : c <;> simp [hc]

/-- The numbers that have a CSR (R178, R184). -/
theorem csrRead_eq_none_iff (s : State) (n : Nat) : csrRead s n = none ↔
    ¬ ((0x800 ≤ n ∧ n ≤ 0x805) ∨ (0xC00 ≤ n ∧ n ≤ 0xC1F) ∨ (0xCC0 ≤ n ∧ n ≤ 0xCD7) ∨ (0xCE0 ≤ n ∧ n ≤ 0xCFF)) := by
  simp only [csrRead, some_ite_eq_none_iff, and_true]
  omega

/-- L1STATUS (R208). -/
theorem l1Status_fields (h : Handler) : fbit (l1Status h) 0 = h.inH ∧ fbit (l1Status h) 1 = h.l2pend ∧ fld (l1Status h) 2 62 = 0 := by
  simp [l1Status, mk64, fld_fput_apart, fbit_fput_apart]

/-- FSR_CFG (R74). -/
theorem fsrCfg_eq (n : Nat) : mk64 [(0, 4, n)] = BitVec.ofNat 64 (n % 16) := by
  simp [mk64, fput]

/-- EMIT_STAT (R190). -/
theorem emitStat_fields (f : Frame) : fld (emitStat f) 0 32 = f.gen.emitSer.toNat ∧ fld (emitStat f) 32 32 = f.gen.qfull.toNat := by
  simpa [emitStat, mk64, fld_fput_apart] using ⟨f.gen.emitSer.isLt, f.gen.qfull.isLt⟩

/-! ### Reset values -/

/-- CLK_STAT, SLATE_STAT and BANK_STAT at reset (R15, R74, R263): divisors 3, 4 and 4, all sixteen slates OFF, and the
banks of SPLIT 12 off. -/
theorem csrRead_reset_supply : csrRead State.reset 0xCC0 = some 0x0000000003040400 ∧ csrRead State.reset 0xCD2 = some 0xAAAAAAAA ∧
    csrRead State.reset 0xCD3 = some 0xAAAAAAAAAAAAAAAA ∧ csrRead State.reset 0xCD4 = some 0x00000000AAAAAAAA := by decide +kernel

/-- The registers with every field 0 at reset. -/
theorem csrRead_reset_zero : ∀ n ∈ [0xCC2, 0xCC3, 0xCC4, 0xCC5, 0xCC6, 0xCC7, 0xCD0, 0xCD1, 0xCD5, 0xCD6, 0xCD7],
    csrRead State.reset n = some 0 := by decide +kernel

/-- No row lives at reset (R263). -/
theorem csrRead_reset_live (k : Nat) (hk : k < 16) : csrRead State.reset (0xCE0 + k) = some 0 := by
  rw [csrRead_live _ hk]
  rfl

/-- No predicate holds at reset (R264). -/
theorem csrRead_reset_pred (k : Nat) (hk : k < 16) : csrRead State.reset (0xCF0 + k) = some 0 := by
  rw [csrRead_pred _ hk]
  rfl

/-! ### The statement -/

/-- Settles O20: each register is read at its CSR number by definition, at its offset by `mgmtRead_frame`, and its map is
the lemma about its word. -/
theorem statusRegisters : Obligations.StatusRegisters := by
  unfold Obligations.StatusRegisters
  refine ⟨fun s d f p hd hf hst => ?_, fun s => ?_, csrRead_reset_supply.1, ?_, csrRead_reset_pred,
    csrRead_reset_supply.2.2.1, csrRead_reset_supply.2.2.2, ?_, ?_, csrRead_reset_supply.2.1, csrRead_reset_live, ?_⟩
  · intro k fr reg
    have hreg : ∀ {csr off : Nat} {v : Word}, off < 0x1000 → off % 8 = 0 → frameCsr off = some csr →
        csrRead { s with cur := k } csr = some v → reg csr off v := mgmtRead_frame p hd hf hst
    refine ⟨⟨seqPos fr, hreg (by omega) rfl rfl rfl, seqPos_fields fr⟩,
      ⟨pwrStat fr, hreg (by omega) rfl rfl rfl, pwrStat_fields fr⟩,
      ⟨slateStat fr, hreg (by omega) rfl rfl rfl, slateStat_fields fr⟩,
      fun k hk => ⟨liveStat fr k, hreg (by omega) (by omega) (frameCsr_live hk) (csrRead_live _ hk), fun r hr => by
        rw [liveStat_bits fr k hr]⟩,
      ⟨portStat fr, hreg (by omega) rfl rfl rfl, portStat_fields fr⟩, ?clkStat, ?fmtStat,
      ⟨cntStat fr, hreg (by omega) rfl rfl rfl, cntStat_fields fr⟩,
      ⟨phaseStat fr, hreg (by omega) rfl rfl rfl, phaseStat_fields fr⟩,
      ⟨beadStat fr, hreg (by omega) rfl rfl rfl, beadStat_fields fr⟩,
      ⟨calStaleWord s fr, hreg (by omega) rfl rfl rfl, fun b hb => calStaleWord_bits s fr hb⟩,
      ⟨bankStat fr false, bankStat fr true, hreg (by omega) rfl rfl rfl, hreg (by omega) rfl rfl rfl, fun b hb => bankStat_bank fr hb⟩,
      fun hcf => ⟨vcond fr.vec, hreg (by omega) rfl rfl rfl, vcond_fields fr.vec hcf⟩,
      ⟨copyStat fr, hreg (by omega) rfl rfl rfl, copyStat_fields fr⟩,
      fun k hk => hreg (by omega) (by omega) (frameCsr_pred hk) (csrRead_pred _ hk),
      ?own⟩
    case clkStat =>
      obtain ⟨h0, hcopy, h14, hexec, h22, hgen, h30, h40⟩ := clkStat_fields fr
      exact ⟨clkStat fr, hreg (by omega) rfl rfl rfl, h0, hcopy, h14, hexec, h22, hgen, h30, h40,
        fun n hn => clkStat_cool fr hn, clkStat_not_cool fr⟩
    case fmtStat =>
      obtain ⟨hw, ha, h19⟩ := fmtStat_current fr
      refine ⟨fmtStat fr, hreg (by omega) rfl rfl rfl, hw, ha, h19, ?_⟩
      split
      next hpend => exact fmtStat_none fr hpend
      next hpend => exact fmtStat_pending fr hpend
    case own =>
      exact ⟨congrArg some (fsrCfg_eq _), rfl, rfl, rfl, fun n hlo hhi => csrRead_counter _ ⟨hlo, hhi⟩, rfl,
        emitStat fr, rfl, emitStat_fields fr⟩
  · exact ⟨rfl, rfl, rfl, rfl, rfl, ⟨_, rfl, l1Status_fields _⟩, rfl, rfl, rfl, rfl, rfl, rfl, rfl, csrRead_eq_none_iff s⟩
  · exact fun n hn => csrRead_reset_zero n (List.Sublist.mem hn (by decide))
  · exact csrRead_reset_zero _ (by simp)
  · exact csrRead_reset_zero _ (by simp)
  · exact csrRead_reset_zero _ (by simp)

end Sys2Proof.Machine
end

section
/-! PROOFS. Division and misaligned addresses (R179): a rule for each instruction, and why O12 fails. -/

namespace Sys2Proof.Machine

/-! ### Division (R176, R179) -/

/-- What an operation of two registers leaves: its result in rd, and the next pc. -/
theorem exec_alu (op : AluOp) (rd rs1 rs2 : BitVec 5) (s : State) :
    exec (.integerInstruction (.alu op rd rs1 rs2)) s =
      .next (retireWith s rd (aluOp op (rx (curFrame s).gen rs1) (rx (curFrame s).gen rs2))) := rfl

theorem rvDiv_overflow {a b : Word} (ha : a.toInt = -2 ^ 63) (hb : b.toInt = -1) : rvDiv a b = a ∧ rvRem a b = 0 := by
  obtain rfl : a = BitVec.intMin 64 := BitVec.eq_of_toInt_eq (by rw [ha]; rfl)
  obtain rfl : b = -1 := BitVec.eq_of_toInt_eq (by rw [hb]; rfl)
  decide

/-- Any other quotient and remainder truncate toward zero. -/
theorem toInt_rvDiv {a b : Word} (hb : b ≠ 0) (hover : ¬ (a.toInt = -2 ^ 63 ∧ b.toInt = -1)) :
    (rvDiv a b).toInt = a.toInt.tdiv b.toInt := by
  rw [rvDiv, if_neg hb]
  refine BitVec.toInt_sdiv_of_ne_or_ne a b ?_
  by_contra hboth
  push Not at hboth
  obtain ⟨rfl, rfl⟩ := hboth
  exact hover (by decide)

theorem toInt_rvRem {a b : Word} (hb : b ≠ 0) : (rvRem a b).toInt = a.toInt.tmod b.toInt := by
  rw [rvRem, if_neg hb, BitVec.toInt_srem]

theorem toNat_rvDivu {a b : Word} (hb : b ≠ 0) : (rvDivu a b).toNat = a.toNat / b.toNat := by
  rw [rvDivu, if_neg hb, BitVec.udiv_eq, BitVec.toNat_udiv]

theorem toNat_rvRemu {a b : Word} (hb : b ≠ 0) : (rvRemu a b).toNat = a.toNat % b.toNat := by
  rw [rvRemu, if_neg hb, BitVec.umod_eq, BitVec.toNat_umod]

/-- R179: every division gives what the M extension defines; `exec_alu` retires it. -/
theorem aluOp_division (a b : Word) :
    (b = 0 → aluOp .div a b = -1 ∧ aluOp .divu a b = -1 ∧ aluOp .rem a b = a ∧ aluOp .remu a b = a) ∧
    (a.toInt = -2 ^ 63 → b.toInt = -1 → aluOp .div a b = a ∧ aluOp .rem a b = 0) ∧
    (b ≠ 0 → ¬ (a.toInt = -2 ^ 63 ∧ b.toInt = -1) →
      (aluOp .div a b).toInt = a.toInt.tdiv b.toInt ∧ (aluOp .rem a b).toInt = a.toInt.tmod b.toInt) ∧
    (b ≠ 0 → (aluOp .divu a b).toNat = a.toNat / b.toNat ∧ (aluOp .remu a b).toNat = a.toNat % b.toNat) := by
  refine ⟨fun hb => ⟨if_pos hb, if_pos hb, if_pos hb, if_pos hb⟩, rvDiv_overflow, fun hb hover => ?_, fun hb => ?_⟩
  · exact ⟨toInt_rvDiv hb hover, toInt_rvRem hb⟩
  · exact ⟨toNat_rvDivu hb, toNat_rvRemu hb⟩

/-! ### Misaligned accesses (R179, R204) -/

@[simp] theorem length_leOf (v n : Nat) : (leOf v n).length = n := by
  induction n generalizing v with
  | zero => rfl
  | succ n ih => rw [leOf, List.length_cons, ih]

section
variable {s : State} {a : Word}

theorem genXlate_misaligned {n align : Nat} (need : Need) (h : a.toNat % n ≠ 0) :
    genXlate s a n align need = .stop (takeL1 s align a) := if_pos h

theorem genLoad_misaligned {n : Nat} (ord : Ordering4) (scope : Scope) (h : a.toNat % n ≠ 0) :
    genLoad s a n ord scope = .stop (takeL1 s 4 a) := by
  rw [genLoad, genXlate_misaligned needR h]
  rfl

/-- Of loads in order the first one that is misaligned faults, and no later one is made. -/
theorem genLoads_misaligned (r : List Word) (h : a.toNat % 8 ≠ 0) : genLoads s (a :: r) = .stop (takeL1 s 4 a) := by
  rw [genLoads, genLoad_misaligned .rlx .fr h]

theorem genStore_misaligned {bs : List Byte} (rel : Bool) (h : a.toNat % bs.length ≠ 0) :
    genStore s a bs rel = takeL1 s 6 a := by
  rw [genStore, genXlate_misaligned needW h]
  rfl

theorem exec_standardLoad_misaligned {op : LoadOp} (rd : BitVec 5) {rs1 : BitVec 5} {imm : BitVec 12}
    (h : (effAddr (curFrame s).gen rs1 imm).toNat % loadLen op ≠ 0) :
    exec (.standardLoad op rd rs1 imm) s = .next (takeL1 s 4 (effAddr (curFrame s).gen rs1 imm)) := by
  change execStandardLoad op rd rs1 imm s = _
  rw [execStandardLoad, genLoad_misaligned .rlx .fr h]

theorem exec_standardStore_misaligned {op : StoreOp} (rs2 : BitVec 5) {rs1 : BitVec 5} {imm : BitVec 12}
    (h : (effAddr (curFrame s).gen rs1 imm).toNat % storeLen op ≠ 0) :
    exec (.standardStore op rs2 rs1 imm) s = .next (takeL1 s 6 (effAddr (curFrame s).gen rs1 imm)) :=
  congrArg _ (genStore_misaligned false (by rwa [length_leOf]))

/-! An address that a register holds. -/

variable {rs1 : BitVec 5}

theorem exec_gld_misaligned {z : AccSize} (o : Ordering4) (c : Scope) (rd : BitVec 5)
    (h : (rx (curFrame s).gen rs1).toNat % accLen z ≠ 0) :
    exec (.gld z o c rd rs1) s = .next (takeL1 s 4 (rx (curFrame s).gen rs1)) := by
  change execGld z o c rd rs1 s = _
  rw [execGld, genLoad_misaligned o c h]

theorem exec_gst_misaligned {z : AccSize} (o : Ordering4) (c : Scope) (rs2 : BitVec 5)
    (h : (rx (curFrame s).gen rs1).toNat % accLen z ≠ 0) :
    exec (.gst z o c rs2 rs1) s = .next (takeL1 s 6 (rx (curFrame s).gen rs1)) :=
  congrArg _ (genStore_misaligned _ (by rwa [length_leOf]))

theorem exec_lr_misaligned {dbl : Bool} (aq rl : Bool) (rd : BitVec 5)
    (h : (rx (curFrame s).gen rs1).toNat % (if dbl then 8 else 4) ≠ 0) :
    exec (.lr dbl aq rl rd rs1) s = .next (takeL1 s 4 (rx (curFrame s).gen rs1)) := by
  change execLr dbl aq rl rd rs1 s = _
  simp only [execLr, genLoad_misaligned _ _ h]

theorem exec_sc_misaligned {dbl : Bool} (aq rl : Bool) (rd rs2 : BitVec 5)
    (h : (rx (curFrame s).gen rs1).toNat % (if dbl then 8 else 4) ≠ 0) :
    exec (.sc dbl aq rl rd rs1 rs2) s = .next (takeL1 s 6 (rx (curFrame s).gen rs1)) := by
  change execSc dbl aq rl rd rs1 rs2 s = _
  simp only [execSc, genXlate_misaligned _ h]
  rfl

theorem exec_amo_misaligned (op : AmoOp) {dbl : Bool} (aq rl : Bool) (rd rs2 : BitVec 5)
    (h : (rx (curFrame s).gen rs1).toNat % (if dbl then 8 else 4) ≠ 0) :
    exec (.amo op dbl aq rl rd rs1 rs2) s = .next (takeL1 s 6 (rx (curFrame s).gen rs1)) := by
  change execAmo op dbl aq rl rd rs1 rs2 s = _
  simp only [execAmo, genXlate_misaligned _ h]
  rfl

/-- The first doubleword of a KLOAD stands at its address. -/
theorem exec_kload_misaligned (kd : BitVec 3) (h : (rx (curFrame s).gen rs1).toNat % 8 ≠ 0) :
    exec (.kload kd rs1) s = .next (takeL1 s 4 (rx (curFrame s).gen rs1)) := by
  have hfirst : (rx (curFrame s).gen rs1 + BitVec.ofNat 64 (8 * 0)).toNat % 8 ≠ 0 := by simpa using h
  change execKload kd rs1 s = _
  simp only [execKload, upto, List.range_succ_eq_map, List.map_cons, genLoads_misaligned _ hfirst]
  simp

theorem exec_gwait_misaligned (rd rs2 : BitVec 5) (h : (rx (curFrame s).gen rs1).toNat % 32 ≠ 0) :
    exec (.gwaitAny rd rs1 rs2) s = .next (takeL1 s 4 (rx (curFrame s).gen rs1)) ∧
    exec (.gwaitAll rd rs1 rs2) s = .next (takeL1 s 4 (rx (curFrame s).gen rs1)) :=
  ⟨congrArg _ (if_pos h), congrArg _ (if_pos h)⟩

/-- A GLAUNCH that has not yet read its record looks at the alignment first. -/
theorem exec_glaunch_misaligned (rd : BitVec 5) (hheld : (remNow (curFrame s)).launch = [])
    (h : (rx (curFrame s).gen rs1).toNat % 64 ≠ 0) :
    exec (.glaunch rd rs1) s = .next (takeL1 s 4 (rx (curFrame s).gen rs1)) := by
  change execGlaunch rd rs1 s = _
  simp [execGlaunch, hheld, h, causeLoadAlign]

end

/-! ### A GLAUNCH that has read its record (R195, R349, R350) -/

@[simp] theorem l1Invalidate_gen (s : State) : (curFrame (l1Invalidate s)).gen = (curFrame s).gen := by
  simp [l1Invalidate, seeAll]

@[simp] theorem escalate_instret (s : State) (why : ImgFault) :
    (curFrame (escalate s why)).gen.instret = (curFrame s).gen.instret := by
  simp [escalate]

/-- A level-1 fault retires no instruction (R204). -/
@[simp] theorem takeL1_instret (s : State) (code gen : Nat) (tval : Word) :
    (curFrame (takeL1 s code tval gen)).gen.instret = (curFrame s).gen.instret := by
  cases h : handlerTakes (curFrame s).gen.h code with
  | true => simp [takeL1_handler h]
  | false =>
    have hacq (y : State) : (curFrame (if code = 30 then l1Invalidate y else y)).gen = (curFrame y).gen := by
      split <;> simp
    rw [takeL1_escalates h]
    by_cases hecall : code = causeEcall
    · rw [if_pos hecall]
      simp only [curFrame_onGen, escalate_instret, hacq, curFrame_setCur]
    · rw [if_neg hecall]
      simp only [escalate_instret, hacq, curFrame_setCur]

/-- The address is not looked at again: where another package has refused the addition at DONE, the GLAUNCH retires with a
status, whatever the register now holds. -/
theorem exec_glaunch_refused {s : State} {c : L2Class} (rd rs1 : BitVec 5) (hheld : (remNow (curFrame s)).launch ≠ [])
    (herr : (remNow (curFrame s)).err = some c) :
    exec (.glaunch rd rs1) s =
      .next (retireWith (onCur s fun f => { f with rem := none }) rd (if c = .homeOffline then 1 else 2)) := by
  change execGlaunch rd rs1 s = _
  simp [execGlaunch, hheld, launchFar, herr]

/-- Frame 0 has sent the addition at DONE for the GLAUNCH at its pc, and the package asked has refused it; x5 is odd. -/
def refusedLaunch : State := onCur State.reset fun f => { f with
  gen := { f.gen with x := [(5, 1)] }
  rem := some { pc := f.gen.pc, ret := f.gen.instret, got := [], err := some .permission, launch := List.replicate 8 0 } }

/-- Refutes O12: its last clause asks for cause 4 in every state, yet in `refusedLaunch` GLAUNCH, which has its record already,
retires with status 2. Nothing is claimed of how a thread would come to that state. The clauses on division hold (`aluOp_division`,
`exec_alu`), as do those on the other instructions (the lemmas `exec_…_misaligned`), and the last holds of a GLAUNCH that
has no record yet (`exec_glaunch_misaligned`). -/
theorem not_alignmentAndDivision : ¬ Obligations.AlignmentAndDivision := by
  unfold Obligations.AlignmentAndDivision
  rintro ⟨-, halign⟩
  obtain ⟨-, -, -, -, -, -, hglaunch⟩ := halign refusedLaunch 6 5 0
  have hfault := hglaunch (by decide)
  rw [exec_glaunch_refused (c := .permission) 6 5 (by decide) (by decide)] at hfault
  have hret := congrArg (fun s => (curFrame s).gen.instret) (Host.Outcome.next.inj hfault)
  simp [retireWith] at hret

end Sys2Proof.Machine
end

section
/-! PROOFS. What posting an event leaves of every frame's vector engine, and a fresh entry's vector engine (R312). -/

namespace Sys2Proof.Machine

/-! ### Posting an event (R362) leaves every frame's vector engine -/

/-- A change of a table's entries that keeps their keys is a change of each value. -/
theorem tget_map_of_keepsKey {β : Type} {g : Nat × β → Nat × β} (hkey : ∀ e, (g e).1 = e.1) (t : Tbl β) (k : Nat) :
    tget (t.map g) k = (tget t k).map fun v => (g (k, v)).2 := by
  induction t with
  | nil => rfl
  | cons e r ih =>
    obtain ⟨i, v⟩ := e
    by_cases hi : i = k
    · subst hi
      simp [tget, hkey]
    · simp [tget, hkey, hi, ih]

@[simp] theorem breakResv_key (who : Option Nat) (bytes : List (Nat × Byte)) (e : Nat × Frame) :
    (breakResv who bytes e).1 = e.1 := by
  unfold breakResv
  split
  · rfl
  · split <;> rfl

@[simp] theorem breakResv_vec (who : Option Nat) (bytes : List (Nat × Byte)) (e : Nat × Frame) :
    (breakResv who bytes e).2.vec = e.2.vec := by
  unfold breakResv
  split
  · rfl
  · split <;> rfl

@[simp] theorem noteCode_key (bytes : List (Nat × Byte)) (e : Nat × Frame) : (noteCode bytes e).1 = e.1 := by
  simp only [noteCode]; split <;> rfl

@[simp] theorem noteCode_vec (bytes : List (Nat × Byte)) (e : Nat × Frame) : (noteCode bytes e).2.vec = e.2.vec := by
  simp only [noteCode]; split <;> rfl

@[simp] theorem frameOf_gwrite_vec (s : State) (who : Option Nat) (bytes : List (Nat × Byte)) (k : Nat) :
    (frameOf (gwrite s who bytes) k).vec = (frameOf s k).vec := by
  have hkey (e : Nat × Frame) : (noteCode bytes (breakResv who bytes e)).1 = e.1 := by simp
  simp only [frameOf, tgetD, gwrite, tget_map_of_keepsKey hkey]
  cases tget s.frames k with
  | none => rfl
  | some f => simp

@[simp] theorem frameOf_ringPut_vec (s : State) (d : Nat) (e : Event) (k : Nat) :
    (frameOf (ringPut s d e) k).vec = (frameOf s k).vec := by
  simp [ringPut]

@[simp] theorem frameOf_holdFrame_vec (s : State) (e : Event) (g : Nat → Nat) (k : Nat) :
    (frameOf (holdFrame s e g) k).vec = (frameOf s k).vec := by
  simp only [holdFrame]
  split
  · rfl
  · by_cases hk : k = frameKey e.die e.frame
    · simp [hk]
    · rw [frameOf_setFrame_other _ _ hk]

@[simp] theorem frameOf_postEvent_vec (s : State) (p : Nat) (e : Event) (k : Nat) :
    (frameOf (postEvent s p e) k).vec = (frameOf s k).vec := by
  simp only [postEvent]
  split <;> simp

@[simp] theorem frameOf_postFrameEvent_vec (s : State) (fr kind : Nat) (tid : BitVec 32) (detail : Word) (k : Nat) :
    (frameOf (postFrameEvent s fr kind tid detail) k).vec = (frameOf s k).vec := by
  simp [postFrameEvent]

/-! ### The fresh entry state (R312, R356, R357) -/

/-- A fresh standby thread takes its free frame, its control block leaves its groups, and its start is an event. -/
theorem exec_promote_fresh {s : State} {k : Nat} {b : BindRec} (hrun : (frameOf s k).disp.running = none)
    (hstand : (frameOf s k).disp.standby = some b) (hfresh : b.image = false) (hheld : frameHeld s k = false) :
    exec (.promote k) s =
      let u := noMembers s (reachTcb s (dieOf s (k / Config.framesPerDie)).part b.tcb)
      .next (postFrameEvent (setFrame u k (freshThread { u with cur := k } (frameOf s k) b)) k 7 b.tid 0) := by
  change execPromote k s = _
  simp [execPromote, hrun, hstand, hfresh, hheld]

@[simp] theorem freshThread_vec (s : State) (f : Frame) (b : BindRec) : (freshThread s f b).vec = .fresh := rfl

@[simp] theorem psetWord_fresh (j w : Nat) : psetWord .fresh j w = 0 := rfl

@[simp] theorem setKind_fresh (j : Nat) : setKind .fresh j = 0 := fld_zero 60 4

/-- Settles O49: the vector engine of a fresh entry lists no parameter word, port or FIFO, and the event of its start leaves it
so. -/
theorem freshParameterSets : Obligations.FreshParameterSets := by
  unfold Obligations.FreshParameterSets
  intro s k b hrun hstand hfresh hheld
  refine ⟨_, exec_promote_fresh hrun hstand hfresh hheld, ?_⟩
  simp only [frameOf_postFrameEvent_vec, frameOf_setFrame_self, freshThread_vec]
  exact ⟨fun j w _ _ => psetWord_fresh j w, fun j _ => setKind_fresh j, fun _ _ => ⟨rfl, rfl⟩⟩

end Sys2Proof.Machine
end
